-- ==== Sys2Proof/Word.lean ====
section
/-! DEFINITION. The word types of the Nervex NX-880 (R2, R31): bytes, 32-bit register words, 64-bit values and
16-bit generations, and the plainest arithmetic on them. -/

namespace Sys2Proof

/-- One byte of any memory (R2). -/
abbrev Byte := BitVec 8

/-- One 32-bit register word: a lane of a vector row, a uniform register, an instruction word (R31, R65). -/
abbrev Word := BitVec 32

/-- A 64-bit value: a register pair, a pointer, `cyc` (R31, R36). -/
abbrev DWord := BitVec 64

/-- A generation (R50, R51). -/
abbrev Gen := BitVec 16

end Sys2Proof
end

