-- ==== Sys2Proof/Syntax.lean ====
section
/-! DEFINITION. The syntax: operand names, field codes and the one inductive `Instr`, with one constructor for every
row of spec/opcode_table.json: the 132 instructions of the lane and uniform maps (R84, R85), the word of an unassigned
major (R86), and the device's own steps (95_what_each_step_holds.md), each of which one agent of the device makes. -/

namespace Sys2Proof

/-- A vector register number (R31). -/
abbrev VReg := Fin 128
/-- A uniform register number (R31). -/
abbrev SReg := Fin 256
/-- A lane predicate number; 7 reads as true (R31). -/
abbrev PReg := Fin 8
/-- A uniform predicate number; 7 reads as true (R31). -/
abbrev QReg := Fin 8
/-- A tile name `t0`–`t7` (R31). -/
abbrev TName := Fin 8
/-- An accumulator name `a0`–`a7` (R31). -/
abbrev AName := Fin 8
/-- A mask register `k0`–`k11` (R31, R76). -/
abbrev KReg := Fin 12
/-- A barrier `b0`–`b15` (R88). -/
abbrev BarNum := Fin 16
/-- A handle `h0`–`h63` (R78). -/
abbrev HNum := Fin 64
/-- An attachment entry number (R178). -/
abbrev ENum := Fin 32

/-- The common fields of a lane word: the switch bit S [30] and the guard g [23:21] (R65, R73). -/
structure LaneCtl where
  sw : Bool
  g : Fin 8
  deriving DecidableEq, Repr, Inhabited

/-- The condition codes of `ICMP`, `SCMP`, `WAITU` and `WAITS` (R79). -/
inductive Cond where
  | eq | ne | lt | le | gt | ge | ltu | leu | gtu | geu | bset | bclr | any
  deriving DecidableEq, Repr, Inhabited

/-- The condition codes of `FCMP` (R110). -/
inductive FCond where
  | eq | ne | lt | le | gt | ge | ord | uno | ueq | ult | ule | ugt | uge | lg
  deriving DecidableEq, Repr, Inhabited

/-- Scopes (R80). -/
inductive Scope where
  | wg | core | atoll | dev | pod | sys
  deriving DecidableEq, Repr, Inhabited

/-- Orders (R80). -/
inductive Order where
  | rlx | acq | rel | ar
  deriving DecidableEq, Repr, Inhabited

/-- Rounding modes (R17). -/
inductive Mode where
  | rne | rz | rd | ru | rs
  deriving DecidableEq, Repr, Inhabited

/-- Element formats, one constructor for each of the 32 codes (R9). -/
inductive Fmt where
  | f32 | f16 | bf16 | f64 | e4m3 | e5m2 | e3m2 | e2m3 | e2m1 | e8m2s
  | s8 | u8 | s16 | u16 | s32 | u32
  | pi8 | pi7 | pi6 | pi5 | pi4 | pi3 | pi2 | s64
  | pn8 | pn7 | pn6 | pn5 | pn4 | pn3 | pn2 | u64
  deriving DecidableEq, Repr, Inhabited

/-- Unary integer functions of `IUN` and `SUN`, codes 0x01 to 0x0D (R100, R168). -/
inductive IUn where
  | not | neg | abs | popc | clz | ctz | brev | sext8 | sext16 | zext8 | zext16 | sext64 | zext64
  deriving DecidableEq, Repr, Inhabited

/-- `IMAD` functions (R98). -/
inductive ImadFn where
  | lo | wideS | wideU | hiS | hiU
  deriving DecidableEq, Repr, Inhabited

/-- Position and length of `BFX` and `BFI`: a register or immediates (R101). -/
inductive FieldPos where
  | reg (r : VReg)
  | imm (pos : Fin 32) (len : Fin 33)
  deriving DecidableEq, Repr, Inhabited

/-- `FFMAX` operations (R75). -/
inductive FmaOp where
  | fma | add | sub | mul
  deriving DecidableEq, Repr, Inhabited

/-- `FFMAX` types (R75). -/
inductive FType where
  | f32 | f64 | f16
  deriving DecidableEq, Repr, Inhabited

/-- `FUN` functions (R111). -/
inductive FunFn where
  | abs | neg | rcp | rsq | sqrt | exp2 | log2 | sin | cos | floor | ceil | trunc | rint | fract
  deriving DecidableEq, Repr, Inhabited

/-- `SHFL` modes (R121). -/
inductive ShflMode where
  | idx | up | down | xor
  deriving DecidableEq, Repr, Inhabited

/-- The second operand of `SHFL` (R121). -/
inductive ShflSrc where
  | reg (r : VReg)
  | imm (i : Fin 64)
  deriving DecidableEq, Repr, Inhabited

/-- `VOTE` modes other than ballot (R122). -/
inductive VoteMode where
  | all | any | eq | ballot
  deriving DecidableEq, Repr, Inhabited

/-- `REDUX` operations (R123). -/
inductive ReduxOp where
  | add | min | max | umin | umax | and | or | xor | fadd | fmin | fmax
  deriving DecidableEq, Repr, Inhabited

/-- `REDUX` kinds (R123). -/
inductive ReduxKind where
  | reduce | iscan | xscan
  deriving DecidableEq, Repr, Inhabited

/-- Widths of `LD` and `SLD` other than the plane prefix (R130, R172). -/
inductive LdWidth where
  | u8 | s8 | u16 | s16 | b32 | b64 | b128
  deriving DecidableEq, Repr, Inhabited

/-- The two forms of `LD`: a width (R130) or a plane prefix of k = `drop` planes fewer than 8 (R131). -/
inductive LdForm where
  | plain (w : LdWidth)
  | plane (drop : Fin 7) (unsigned centre : Bool)
  deriving DecidableEq, Repr, Inhabited

/-- Widths of `ST` and `SST` (R132, R172). -/
inductive StWidth where
  | b8 | b16 | b32 | b64 | b128
  deriving DecidableEq, Repr, Inhabited

/-- Atomic operations (R133). -/
inductive AtomOp where
  | add | and | or | xor | min | max | umin | umax | exch | inc | dec | fadd
  deriving DecidableEq, Repr, Inhabited

/-- Prefetch levels (R136). -/
inductive PrefLevel where
  | l2 | l1
  deriving DecidableEq, Repr, Inhabited

/-- `TEX` level modes (R137). -/
inductive TexLod where
  | l0 | lvl | auto
  deriving DecidableEq, Repr, Inhabited

/-- `TIME` selectors (R175). -/
inductive TimeSel where
  | cyc | ns | ptime | both
  deriving DecidableEq, Repr, Inhabited

/-- `GENR` classes (R185). -/
inductive GenClass where
  | vrow | gran | slot | acc
  deriving DecidableEq, Repr, Inhabited

/-- The system registers by name (R36). -/
inductive Csr where
  | cyc | ptime | gen | genlow | ctxid | rpidx | tpc | tcause | tval | mxstat | mxerr | rastthr | oc | srstate
  deriving DecidableEq, Repr, Inhabited

/-- Access widths of `CSRR` and `CSRW` (R78). -/
inductive CsrWidth where
  | w32 | w64 | w128
  deriving DecidableEq, Repr, Inhabited

/-- The two kinds of name `TCLAIM` and `TRELEASE` act on (R190). -/
inductive NameKind where
  | tile (t : TName)
  | acc (a : AName)
  deriving DecidableEq, Repr, Inhabited

/-- A-PHY, DisplayPort and the other agents name ports of the matrix engine (R263). -/
inductive EnginePort where
  | fill | array | drain
  deriving DecidableEq, Repr, Inhabited

/-- The pipes an instance issues to (R228). -/
inductive Pipe where
  | uniform | memory | lane
  deriving DecidableEq, Repr, Inhabited

/-- What a Strait peer asks of this device's memory (R384). -/
inductive RemoteReq where
  | read (len : Nat)
  | write (data : List Byte)
  | atomic (op : AtomOp) (w64 : Bool) (operand : BitVec 64) (seq : Nat)
  | cas (w64 : Bool) (expect new : BitVec 64) (seq : Nat)
  deriving DecidableEq, Repr, Inhabited

/-- The data an I3C read asks for (R406). -/
inductive I3cWhat where
  | temperature | power | counter (cls : Nat) | spare (offset : Nat) | recovery
  deriving DecidableEq, Repr, Inhabited

/-- One constructor for each row of spec/opcode_table.json. A lane word carries its `LaneCtl`, a uniform word its
switch bit `sw`; the operands follow in the order of the assembly syntax. -/
inductive Instr where
  -- lane integer (R96 to R104)
  | iadd (c : LaneCtl) (vd va vb : VReg)
  | isub (c : LaneCtl) (vd va vb : VReg)
  | iaddi (c : LaneCtl) (vd va : VReg) (imm : BitVec 7)
  | iadd64 (c : LaneCtl) (vd va vb : VReg)
  | imul (c : LaneCtl) (vd va vb : VReg)
  | imulh (c : LaneCtl) (vd va vb : VReg)
  | imad (c : LaneCtl) (fn : ImadFn) (vd va vb vc : VReg)
  | lea (c : LaneCtl) (sgn : Bool) (vd va vb : VReg) (sh : Fin 8) (off : BitVec 18)
  | imin (c : LaneCtl) (vd va vb : VReg)
  | imax (c : LaneCtl) (vd va vb : VReg)
  | umin (c : LaneCtl) (vd va vb : VReg)
  | umax (c : LaneCtl) (vd va vb : VReg)
  | and (c : LaneCtl) (vd va vb : VReg)
  | or (c : LaneCtl) (vd va vb : VReg)
  | xor (c : LaneCtl) (vd va vb : VReg)
  | andn (c : LaneCtl) (vd va vb : VReg)
  | shl (c : LaneCtl) (vd va vb : VReg)
  | shr (c : LaneCtl) (vd va vb : VReg)
  | sar (c : LaneCtl) (vd va vb : VReg)
  | mov (c : LaneCtl) (vd va : VReg)
  | iun (c : LaneCtl) (fn : IUn) (vd va : VReg)
  | bfx (c : LaneCtl) (sgn : Bool) (vd va : VReg) (f : FieldPos)
  | bfi (c : LaneCtl) (vd va vb : VReg) (f : FieldPos)
  | icmp (c : LaneCtl) (cond : Cond) (pd : PReg) (va vb : VReg)
  | sel (sw : Bool) (n : PReg) (vd va vb : VReg)
  | movi (c : LaneCtl) (vd : VReg) (imm : BitVec 13)
  | moviImm32 (c : LaneCtl) (vd : VReg) (imm : BitVec 32)
  | movs (c : LaneCtl) (vd : VReg) (sa : SReg)
  -- lane floating point (R105 to R115)
  | fadd (c : LaneCtl) (vd va vb : VReg)
  | fsub (c : LaneCtl) (vd va vb : VReg)
  | fmul (c : LaneCtl) (vd va vb : VReg)
  | ffma (c : LaneCtl) (vd va vb : VReg)
  | ffmax (c : LaneCtl) (op : FmaOp) (ty : FType) (mode : Mode) (ftz : Bool) (vd va vb vc : VReg)
  | fdiv (c : LaneCtl) (f64 : Bool) (mode : Mode) (ftz : Bool) (vd va vb : VReg)
  | fmin (c : LaneCtl) (vd va vb : VReg)
  | fmax (c : LaneCtl) (vd va vb : VReg)
  | fcmp (c : LaneCtl) (cond : FCond) (pd : PReg) (va vb : VReg)
  | funf (c : LaneCtl) (fn : FunFn) (ftz : Bool) (vd va : VReg)
  | hpadd (c : LaneCtl) (vd va vb : VReg)
  | hpmul (c : LaneCtl) (vd va vb : VReg)
  | hpfma (c : LaneCtl) (vd va vb : VReg)
  -- conversion (R116 to R119)
  | cvt (c : LaneCtl) (dst src : Fmt) (mode : Mode) (ftz : Bool) (clamp : Option VReg) (vd : VReg) (di : Fin 16) (va : VReg) (si : Fin 16)
  | dadd (c : LaneCtl) (vd va vb : VReg)
  | dmul (c : LaneCtl) (vd va vb : VReg)
  | dfma (c : LaneCtl) (vd va vb : VReg)
  | fdot8 (c : LaneCtl) (aE5 bE5 : Bool) (mode : Mode) (vd va vb vc : VReg)
  | idot4 (c : LaneCtl) (aSigned bSigned : Bool) (vd va vb vc : VReg)
  -- cross-lane (R120 to R123)
  | shfl (c : LaneCtl) (mode : ShflMode) (vd va : VReg) (b : ShflSrc)
  | vote (c : LaneCtl) (mode : VoteMode) (vd : VReg) (pd : PReg) (neg : Bool) (ps : PReg)
  | redux (c : LaneCtl) (op : ReduxOp) (kind : ReduxKind) (vd va : VReg)
  -- lane memory (R124 to R143)
  | ld (c : LaneCtl) (form : LdForm) (order : Order) (scope : Scope) (vd va : VReg) (off : BitVec 13)
  | pref (c : LaneCtl) (level : PrefLevel) (va : VReg) (off : BitVec 13)
  | st (c : LaneCtl) (w : StWidth) (order : Order) (scope : Scope) (va : VReg) (off : BitVec 13) (vb : VReg)
  | atom (c : LaneCtl) (op : AtomOp) (w64 : Bool) (order : Order) (scope : Scope) (vd va : VReg) (off : BitVec 13) (vb : VReg)
  | red (c : LaneCtl) (op : AtomOp) (w64 : Bool) (order : Order) (scope : Scope) (va : VReg) (off : BitVec 13) (vb : VReg)
  | acas (c : LaneCtl) (w64 : Bool) (order : Order) (scope : Scope) (vd va : VReg) (off : BitVec 13) (vb vc : VReg)
  | visw (c : LaneCtl) (order : Order) (scope : Scope) (va : VReg) (off : BitVec 13) (vb : VReg)
  | tex (c : LaneCtl) (lod : TexLod) (vd va vb vc : VReg)
  | tld (c : LaneCtl) (vd va vb vc : VReg)
  | rayq (c : LaneCtl) (anyHit cull : Bool) (vd va vb : VReg)
  | rayn (c : LaneCtl) (cull : Bool) (vd va vb : VReg)
  -- lane control (R144 to R160)
  | bra (c : LaneCtl) (off : BitVec 21)
  | call (c : LaneCtl) (vd : VReg) (off : BitVec 32)
  | ret (c : LaneCtl) (va : VReg)
  | exit (c : LaneCtl)
  | yield (c : LaneCtl)
  | brx (c : LaneCtl) (va : VReg)
  | fence (c : LaneCtl) (order : Order) (scope : Scope)
  | kset (c : LaneCtl) (k : KReg) (neg : Bool) (pp : PReg)
  | karr (c : LaneCtl) (k : KReg)
  | kwait (c : LaneCtl) (k : KReg)
  | kleave (c : LaneCtl) (k : KReg)
  | waitu (c : LaneCtl) (cond : Cond) (w64 : Bool) (order : Order) (scope : Scope) (pd : PReg) (va vb vc : VReg)
  | bar (c : LaneCtl) (b : BarNum) (remote : Option VReg) (cnt : Fin 17)
  | bara (c : LaneCtl) (b : BarNum) (remote : Option VReg) (cnt : Fin 17)
  | barw (c : LaneCtl) (b : BarNum) (remote : Option VReg) (cnt : Fin 17)
  -- uniform scalar (R166 to R173)
  | sadd (sw : Bool) (sd sa sb : SReg)
  | ssub (sw : Bool) (sd sa sb : SReg)
  | smul (sw : Bool) (sd sa sb : SReg)
  | sand (sw : Bool) (sd sa sb : SReg)
  | sor (sw : Bool) (sd sa sb : SReg)
  | sxor (sw : Bool) (sd sa sb : SReg)
  | sshl (sw : Bool) (sd sa sb : SReg)
  | sshr (sw : Bool) (sd sa sb : SReg)
  | ssar (sw : Bool) (sd sa sb : SReg)
  | smin (sw : Bool) (sd sa sb : SReg)
  | smax (sw : Bool) (sd sa sb : SReg)
  | sumin (sw : Bool) (sd sa sb : SReg)
  | sumax (sw : Bool) (sd sa sb : SReg)
  | smov (sw : Bool) (sd sa : SReg)
  | smovi (sw : Bool) (sd : SReg) (imm : BitVec 16)
  | smovx (sw : Bool) (w64 : Bool) (sd : SReg) (imm : BitVec 32)
  | sadd64 (sw : Bool) (sd sa sb : SReg)
  | scmp (sw : Bool) (cond : Cond) (w64 : Bool) (qd : QReg) (sa sb : SReg)
  | ssel (sw : Bool) (q : QReg) (sd sa sb : SReg)
  | sun (sw : Bool) (fn : IUn) (sd sa : SReg)
  | sbra (sw : Bool) (neg : Bool) (q : QReg) (off : BitVec 20)
  | sld (sw : Bool) (w : LdWidth) (order : Order) (scope : Scope) (sd sa : SReg) (off : BitVec 16)
  | sst (sw : Bool) (w : StWidth) (order : Order) (scope : Scope) (sa : SReg) (off : BitVec 16) (sb : SReg)
  | satom (sw : Bool) (op : AtomOp) (w64 nr : Bool) (order : Order) (scope : Scope) (sd sa : SReg) (off : BitVec 16) (sb : SReg)
  -- system (R174 to R189)
  | csrr (sw : Bool) (r : Csr) (width : CsrWidth) (word : Fin 4) (sd sx : SReg)
  | csrw (sw : Bool) (r : Csr) (width : CsrWidth) (word : Fin 4) (sx sa : SReg)
  | time (sw : Bool) (sel : TimeSel) (sd : SReg)
  | sleep (sw : Bool) (absolute : Bool) (sa : SReg)
  | waits (sw : Bool) (cond : Cond) (w64 : Bool) (order : Order) (scope : Scope) (qd : QReg) (sa sb st : SReg)
  | attach (sw : Bool) (e : ENum) (sa : SReg) (n : Fin 4)
  | detach (sw : Bool) (e : ENum)
  | replay (sw : Bool) (off : Bool)
  | launch (sw : Bool) (qd : QReg) (sa : SReg)
  | launchw (sw : Bool) (sa : SReg)
  | taskq (sw : Bool) (qd : QReg) (sa : SReg)
  | trap (sw : Bool) (imm : BitVec 16)
  | tret (sw : Bool)
  | genr (sw : Bool) (cls : GenClass) (sd sa : SReg)
  | brk (sw : Bool) (imm : BitVec 16)
  -- tiles, copies and handles (R190 to R218)
  | tclaim (sw : Bool) (qd : QReg) (n : NameKind)
  | trelease (sw : Bool) (n : NameKind)
  | tfill (sw : Bool) (fmt : Fmt) (acq : Bool) (t : TName) (sa : SReg)
  | tzero (sw : Bool) (t : TName)
  | mma (sw : Bool) (fa fb : Fmt) (ctra ctrb : Bool) (part : Option (Fin 8)) (a : AName) (ta : TName) (oa : Fin 8) (tb : TName) (ob : Fin 8)
  | aclr (sw : Bool) (a : AName)
  | ascale (sw : Bool) (s32 acq : Bool) (dst src : AName) (sa : SReg)
  | adrain (sw : Bool) (fmt : Fmt) (mode : Mode) (s32 rel : Bool) (clamp : Option SReg) (a : AName) (sa : SReg)
  | aread (sw : Bool) (vd : VReg) (a : AName) (sa : SReg) (log2n : Fin 4)
  | cpy (sw : Bool) (sd sa : SReg)
  | cpyw (sw : Bool) (sd sa : SReg) (h : HNum)
  | hclaim (sw : Bool) (h : HNum) (sa : SReg)
  | hfull (sw : Bool) (scope : Scope) (h : HNum)
  | hdrain (sw : Bool) (h : HNum)
  | hfree (sw : Bool) (h : HNum)
  | hret (sw : Bool) (h : HNum)
  | hrel (sw : Bool) (h : HNum)
  | hwait (sw : Bool) (free : Bool) (sd : SReg) (h : HNum)
  -- steps of the core (R70, R222, R228, R235, R176, R59, R61, R245)
  | variableLatencyCompletion (core op : Nat)
  | workgroupPlacement (launch : Nat)
  | cohortEntryAgeing (core entry : Nat)
  | workgroupRetirement (core wg : Nat)
  | sleepWake (core slot : Nat)
  | scrubberSweep (core : Nat)
  | scratchpadShareWrite (core : Nat) (value : BitVec 32)
  | scratchpadStepMove (core : Nat)
  | storePlacement (core op : Nat)
  -- watches and translation faults (R278 to R284, R380)
  | watchExpiry (watch : Nat)
  | watchOutcomeArrival (msg : Nat)
  | deferredRegistration (watch : Nat)
  | spillWalk (slice : Nat)
  | faultResponse (ctx : Nat)
  -- engines and ferries (R264, R272 to R276, R211)
  | tileChunkCompletion (core : Nat) (port : EnginePort)
  | copyAcceptance (copy : Nat)
  | ferryDestinationDelivery (copy dest : Nat)
  | copyCompletion (copy dest : Nat)
  -- launches, queues and tasks (R183, R313 to R334)
  | launchwEntryTaken (core : Nat)
  | pendingLaunchDispatch (core : Nat)
  | queueReady (q : Nat)
  | queueSlotBind (slot : Nat)
  | slotTimeSliceExpiry (slot : Nat)
  | queueDispatch (slot : Nat)
  | launchEnd (launch : Nat)
  | taskStart (atoll : Nat)
  | successorDecrement (n : Nat)
  -- contexts (R363 to R378)
  | preemption (launch : Nat)
  | workgroupSave (core wg : Nat)
  | workgroupRestore (ctx entry : Nat)
  | swapOut (ctx : Nat)
  | swapOutComplete (ctx : Nat)
  | contextRestore (ctx : Nat)
  | contextRestoreComplete (ctx : Nat)
  | contextDestroy (ctx : Nat)
  | endLaunches (ctx : Nat)
  | invalidate (ctx : Nat)
  | invalidateComplete
  -- strips (R285 to R302, R335 to R362, R365)
  | meshSlotBinning (chain : Nat)
  | binsClose (chain : Nat)
  | binWorkgroupPlacement (chain : Nat)
  | upscaleJobPlacement (chain : Nat)
  | consumerStripStart (chain : Nat)
  | consumerLineSend (chain : Nat)
  | encoderTileGroup (chain : Nat)
  | narrowsZeroing (unit : Nat)
  | chainStart (chain : Nat)
  | chainStop (chain : Nat)
  | chainRelease (chain : Nat)
  -- time (R336, R337)
  | ptpSync (domain source seq : Nat) (twoStep : Bool)
  | ptpFollowUp (domain source seq t1 : Nat)
  | ptpDelayResp (domain source seq t4 : Nat)
  | ptpAnnounce (domain source : Nat)
  | ptpIgnoredMessage
  -- Causeway and Strait (R381 to R385, R395)
  | hostWrite (addr : Nat) (data : List Byte)
  | hostRead (addr len : Nat)
  | remoteAccess (source port pod va : Nat) (req : RemoteReq)
  | remoteAccessTimeout (core op : Nat)
  | straitLinkTraining (port : Nat) (duplicate : Bool)
  | laneRetrain (port lane : Nat)
  | laneRetirement (port lane : Nat)
  -- errors, power and observation (R392 to R399)
  | errorRetry (cls unit addr : Nat) (retryOk : Bool)
  | clockStep (power temp : Int)
  | thermalStop (temp : Int)
  | thermalResume (temp : Int)
  | periodicSample (power temp : Int)
  -- configuration space writes (R4, R262, R358, R361, R383, R397, R402 to R404, R407)
  | observationControlWrite (unit : Nat) (value : BitVec 32)
  | l2QuotaWrite (cls : Nat) (value : BitVec 32)
  | peerNumberWrite (value : BitVec 32)
  | portConfigWrite (port : Nat) (value : BitVec 32)
  | displayportConfigWrite (out word : Nat) (value : BitVec 32)
  | injectionEntryWrite (entry : Nat) (value : BitVec 64)
  | attestationRequest
  | attestationReport
  | debugClaim (claim : BitVec 32) (tag : BitVec 64)
  | debugResume (core slot : Nat)
  | debugRead
  | debugWrite
  | configWrite (offset size : Nat) (value : BitVec 64)
  -- bring-up and the service ports (R401, R405, R406)
  | powerOn (image : List Byte)
  | i3cRead (what : I3cWhat)
  | jtagBypass
  | jtagIdcode
  | jtagSamplePreload
  | jtagExtest
  -- further steps of the core (R213, R86, R259)
  | cpywPromiseReached (core slot : Nat)
  | illegalInstructionWord (w : BitVec 32)
  | remoteWriteAcknowledged (core op : Nat)
  deriving DecidableEq, Repr, Inhabited

end Sys2Proof
end

