-- ==== Sys2Proof/WellFormed.lean ====
section
/-! DEFINITION. Which terms of `Instr` stand for an instruction the hardware accepts: the operand alignment of R81 and
the value checks of each entry (R68 steps 3 and 4). Device steps carry no encoding and are always well formed. -/

namespace Sys2Proof

/-- An even register number: a 64-bit operand (R81). -/
def even2 (n : Nat) : Bool := n % 2 == 0

/-- A multiple of 4: a 128-bit operand (R81). -/
def quad4 (n : Nat) : Bool := n % 4 == 0

/-- Plane-integer formats (R9, R15). -/
def Fmt.isPlane : Fmt → Bool
  | .pi8 | .pi7 | .pi6 | .pi5 | .pi4 | .pi3 | .pi2 => true
  | .pn8 | .pn7 | .pn6 | .pn5 | .pn4 | .pn3 | .pn2 => true
  | _ => false

/-- Floating-point formats and the block scale (R10, R13). -/
def Fmt.isFloat : Fmt → Bool
  | .f32 | .f16 | .bf16 | .f64 | .e4m3 | .e5m2 | .e3m2 | .e2m3 | .e2m1 | .e8m2s => true
  | _ => false

/-- Number of planes a plane code reads (R9, R16); 0 for other codes. -/
def Fmt.planes : Fmt → Nat
  | .pi8 | .pn8 => 8 | .pi7 | .pn7 => 7 | .pi6 | .pn6 => 6 | .pi5 | .pn5 => 5
  | .pi4 | .pn4 => 4 | .pi3 | .pn3 => 3 | .pi2 | .pn2 => 2
  | _ => 0

/-- Signed plane codes (R15). -/
def Fmt.planeSigned : Fmt → Bool
  | .pi8 | .pi7 | .pi6 | .pi5 | .pi4 | .pi3 | .pi2 => true
  | _ => false

/-- Width in bits of the slot that a format takes in a register (R117) or a tensor (R9, R13). -/
def Fmt.width : Fmt → Nat
  | .f64 | .s64 | .u64 => 64
  | .f32 | .s32 | .u32 => 32
  | .f16 | .bf16 | .s16 | .u16 | .e8m2s => 16
  | .e4m3 | .e5m2 | .s8 | .u8 => 8
  | .e3m2 | .e2m3 => 6
  | .e2m1 => 4
  | _ => 8

/-- Elements of a format in one register operand (R117). -/
def Fmt.regElems : Fmt → Nat
  | .f64 | .s64 | .u64 | .f32 | .s32 | .u32 => 1
  | .f16 | .bf16 | .s16 | .u16 | .e8m2s => 2
  | .e4m3 | .e5m2 | .s8 | .u8 => 4
  | .e3m2 | .e2m3 => 5
  | .e2m1 => 8
  | _ => 0

/-- Targets that accept stochastic rounding (R17). -/
def Fmt.takesRs : Fmt → Bool
  | .e4m3 | .e5m2 | .e3m2 | .e2m3 | .e2m1 => true
  | _ => false

/-- The value checks of `CVT` (R119). -/
def cvtOk (dst src : Fmt) (mode : Mode) (ftz : Bool) (di si : Nat) : Bool :=
  !dst.isPlane && !src.isPlane && decide (di < dst.regElems) && decide (si < src.regElems) &&
    (!ftz || dst == .f32 || src == .f32) && (mode != .rs || dst.takesRs)

/-- Alignment of the operands of `CVT` (R81, R119). -/
def cvtAligned (dst src : Fmt) (vd va : Nat) : Bool :=
  (dst.width != 64 || even2 vd) && (src.width != 64 || even2 va)

/-- The formats of `MMA` and `TFILL` (R199, R196). -/
def Fmt.isMatrix : Fmt → Bool
  | .e4m3 | .e5m2 | .e3m2 | .e2m3 | .e2m1 | .bf16 => true
  | f => f.isPlane

/-- K-blocks per slot row (R14, R199). -/
def Fmt.rowBlocks : Fmt → Nat
  | .e4m3 | .e5m2 => 4
  | .e3m2 | .e2m3 => 5
  | .e2m1 => 8
  | .bf16 => 2
  | _ => 4

/-- K-blocks a multiply covers: `nk` of R199. -/
def mmaBlocks (fa fb : Fmt) (oa ob : Nat) : Nat := min (fa.rowBlocks - oa) (fb.rowBlocks - ob)

/-- The value checks of `MMA` (R199). -/
def mmaOk (fa fb : Fmt) (ctra ctrb : Bool) (part : Option (Fin 8)) (oa ob : Nat) : Bool :=
  fa.isMatrix && fb.isMatrix && (fa.isPlane == fb.isPlane) && ((fa == .bf16) == (fb == .bf16)) &&
    (!ctra || (fa.isPlane && fa.planes != 8)) && (!ctrb || (fb.isPlane && fb.planes != 8)) &&
    decide (oa < fa.rowBlocks) && decide (ob < fb.rowBlocks) &&
    (match part with
     | none => true
     | some kb => decide (kb.val < mmaBlocks fa fb oa ob))

/-- The target formats of `ADRAIN` (R203). -/
def Fmt.isDrain : Fmt → Bool
  | .f32 | .f16 | .bf16 | .e4m3 | .e5m2 | .e3m2 | .e2m3 | .e2m1 | .s8 | .u8 | .s16 | .u16 | .s32 | .pi8 | .pn8 => true
  | _ => false

/-- Orders accepted by loads (R126). -/
def Order.forLoad : Order → Bool
  | .rlx | .acq => true
  | _ => false

/-- Orders accepted by stores, `RED` and `VISW` (R126). -/
def Order.forStore : Order → Bool
  | .rlx | .rel => true
  | _ => false

/-- Alignment that a load width asks of its destination (R130). -/
def LdWidth.aligned : LdWidth → Nat → Bool
  | .b64, n => even2 n
  | .b128, n => quad4 n
  | _, _ => true

/-- Alignment that a store width asks of its data (R132). -/
def StWidth.aligned : StWidth → Nat → Bool
  | .b64, n => even2 n
  | .b128, n => quad4 n
  | _, _ => true

/-- Width in 32-bit words and scope of each system register (R36). -/
def Csr.words : Csr → Nat
  | .cyc | .tpc | .tval => 2
  | .ptime => 4
  | _ => 1

/-- Registers that no `CSRW` may name (R36 to R42). -/
def Csr.readOnly : Csr → Bool
  | .cyc | .ptime | .gen | .genlow | .ctxid | .rpidx => true
  | _ => false

/-- The width and word checks of R78. -/
def csrOk (r : Csr) (w : CsrWidth) (word : Nat) : Bool :=
  match w with
  | .w32 => decide (word < r.words)
  | .w64 => even2 word && decide (word + 2 ≤ r.words)
  | .w128 => (word == 0) && (r.words == 4)

/-- Alignment of the data operand of a system register access (R81). -/
def CsrWidth.aligned : CsrWidth → Nat → Bool
  | .w32, _ => true
  | .w64, n => even2 n
  | .w128, n => quad4 n

/-- Alignment of the destination of `TIME` (R175). -/
def TimeSel.aligned : TimeSel → Nat → Bool
  | .cyc, n | .ns, n => even2 n
  | .ptime, n | .both, n => quad4 n

/-- `IUN` functions that write a pair (R100). -/
def IUn.isPair : IUn → Bool
  | .sext64 | .zext64 => true
  | _ => false

/-- A major that the lane or uniform map leaves unassigned (R86), by the word. -/
def unassignedMajor (w : Nat) : Bool :=
  let m := w / 2 ^ 24 % 64
  if w / 2 ^ 31 % 2 = 0 then m == 0x37 || m == 0x3E || m == 0x3F else m == 0x27 || decide (0x3A ≤ m)

/-- Instructions and the unassigned word are fetched as words; every other constructor is a step of the device. -/
def Instr.isDeviceStep : Instr → Bool
  | .variableLatencyCompletion .. | .workgroupPlacement .. | .cohortEntryAgeing .. | .workgroupRetirement ..
  | .sleepWake .. | .scrubberSweep .. | .scratchpadShareWrite .. | .scratchpadStepMove .. | .storePlacement ..
  | .watchExpiry .. | .watchOutcomeArrival .. | .deferredRegistration .. | .spillWalk .. | .faultResponse ..
  | .tileChunkCompletion .. | .copyAcceptance .. | .ferryDestinationDelivery .. | .copyCompletion ..
  | .launchwEntryTaken .. | .pendingLaunchDispatch .. | .queueReady .. | .queueSlotBind .. | .slotTimeSliceExpiry ..
  | .queueDispatch .. | .launchEnd .. | .taskStart .. | .successorDecrement .. | .preemption .. | .workgroupSave ..
  | .workgroupRestore .. | .swapOut .. | .swapOutComplete .. | .contextRestore .. | .contextRestoreComplete ..
  | .contextDestroy .. | .endLaunches .. | .invalidate .. | .invalidateComplete | .meshSlotBinning .. | .binsClose ..
  | .binWorkgroupPlacement .. | .upscaleJobPlacement .. | .consumerStripStart .. | .consumerLineSend ..
  | .encoderTileGroup .. | .narrowsZeroing .. | .chainStart .. | .chainStop .. | .chainRelease .. | .ptpSync ..
  | .ptpFollowUp .. | .ptpDelayResp .. | .ptpAnnounce .. | .ptpIgnoredMessage | .hostWrite .. | .hostRead ..
  | .remoteAccess .. | .remoteAccessTimeout .. | .straitLinkTraining .. | .laneRetrain .. | .laneRetirement ..
  | .errorRetry .. | .clockStep .. | .thermalStop .. | .thermalResume .. | .periodicSample ..
  | .observationControlWrite .. | .l2QuotaWrite .. | .peerNumberWrite .. | .portConfigWrite ..
  | .displayportConfigWrite .. | .injectionEntryWrite .. | .attestationRequest | .attestationReport | .debugClaim ..
  | .debugResume .. | .debugRead | .debugWrite | .configWrite .. | .powerOn .. | .i3cRead .. | .jtagBypass
  | .jtagIdcode | .jtagSamplePreload | .jtagExtest | .cpywPromiseReached .. | .remoteWriteAcknowledged .. => true
  | _ => false

/-- The well-formedness of an instruction term (R68 steps 3 and 4, R81 and the entries). -/
def Instr.wf : Instr → Bool
  | .iadd64 _ vd va vb | .dadd _ vd va vb | .dmul _ vd va vb | .dfma _ vd va vb => even2 vd && even2 va && even2 vb
  | .imad _ fn vd _ _ vc =>
    match fn with
    | .wideS | .wideU => even2 vd && even2 vc
    | _ => true
  | .lea _ _ vd va _ _ _ => even2 vd && even2 va
  | .iun _ fn vd _ => !fn.isPair || even2 vd
  | .icmp _ cond _ _ _ => cond != .any
  | .ffmax _ op ty mode ftz vd va vb vc =>
    (mode != .rs) && (!ftz || ty == .f32) && (op == .fma || vc.val == 0) &&
      (ty != .f64 || (even2 vd && even2 va && even2 vb && even2 vc))
  | .fdiv _ f64 mode ftz vd va vb => (mode != .rs) && (!f64 || (!ftz && even2 vd && even2 va && even2 vb))
  | .cvt _ dst src mode ftz _ vd di va si => cvtOk dst src mode ftz di si && cvtAligned dst src vd va
  | .fdot8 _ _ _ mode _ _ _ _ => mode != .rs
  | .vote _ mode vd pd _ _ => mode != .ballot || (even2 vd && pd.val == 7)
  | .ld _ form order _ vd va _ =>
    order.forLoad && even2 va &&
      (match form with
       | .plain w => w.aligned vd
       | .plane drop _ centre => !(centre && drop.val == 0))
  | .pref _ _ va _ => even2 va
  | .st _ w order _ va _ vb => order.forStore && even2 va && w.aligned vb
  | .atom _ _ w64 _ _ vd va _ vb => even2 va && (!w64 || (even2 vd && even2 vb))
  | .red _ _ w64 order _ va _ vb => order.forStore && even2 va && (!w64 || even2 vb)
  | .acas _ w64 _ _ vd va _ vb vc => even2 va && (!w64 || (even2 vd && even2 vb && even2 vc))
  | .visw _ order _ va _ vb => order.forStore && even2 va && even2 vb
  | .tex _ lod vd va vb vc => quad4 vd && even2 va && even2 vb && (lod == .lvl || vc.val == 0)
  | .tld _ vd va vb _ => quad4 vd && even2 va && even2 vb
  | .rayq _ _ _ vd va vb => quad4 vd && even2 va && quad4 vb
  | .rayn _ _ vd va vb => quad4 vd && even2 va && quad4 vb
  | .call _ vd _ => even2 vd
  | .ret _ va | .brx _ va => even2 va
  | .fence _ order _ => order != .rlx
  | .waitu _ cond w64 _ _ _ va vb _ => even2 va && (cond != .any || vb.val == 0) && (!w64 || even2 vb)
  | .smovx _ w64 sd _ => !w64 || even2 sd
  | .sadd64 _ sd sa sb => even2 sd && even2 sa && even2 sb
  | .scmp _ cond w64 _ sa sb => cond != .any && (!w64 || (even2 sa && even2 sb))
  | .sun _ fn sd _ => !fn.isPair || even2 sd
  | .sld _ w order _ sd sa _ => order.forLoad && even2 sa && w.aligned sd
  | .sst _ w order _ sa _ sb => order.forStore && even2 sa && w.aligned sb
  | .satom _ _ w64 nr _ _ sd sa _ sb => even2 sa && (!nr || sd.val == 0) && (!w64 || (even2 sd && even2 sb))
  | .csrr _ r w word sd sx => csrOk r w word && w.aligned sd && (r == .srstate || sx.val == 0)
  | .csrw _ r w word sx sa => !r.readOnly && csrOk r w word && w.aligned sa && (r == .srstate || sx.val == 0)
  | .time _ which sd => which.aligned sd
  | .sleep _ absolute sa => !absolute || even2 sa
  | .waits _ cond w64 _ _ _ sa sb _ => even2 sa && (cond != .any || sb.val == 0) && (!w64 || even2 sb)
  | .attach _ _ sa _ => even2 sa
  | .launch _ _ sa | .launchw _ sa | .taskq _ _ sa => even2 sa
  | .tfill _ fmt _ _ sa => fmt.isMatrix && even2 sa
  | .mma _ fa fb ctra ctrb part _ _ oa _ ob => mmaOk fa fb ctra ctrb part oa ob
  | .adrain _ fmt mode _ _ _ _ sa => fmt.isDrain && (mode != .rs || fmt.takesRs) && even2 sa
  | .aread _ vd _ _ _ => even2 vd
  | .cpy _ sd sa => even2 sd && quad4 sa
  | .cpyw _ _ sa _ => even2 sa
  | .illegalInstructionWord w => unassignedMajor w.toNat
  | _ => true

end Sys2Proof
end

