-- ==== Sys2Proof/Config.lean ====
section
/-! DEFINITION. What the manual fixes for the NX-880 as shipped (R1) and the FREE VALUES: constants without a body, for
everything the manual leaves open. Nothing in Lean can evaluate a free value, so a theorem about the model holds for
every value of it (notes/assumptions/13.md lists them). -/

namespace Sys2Proof

/-- What one turn of the machine does: a pipe of a core issues the oldest eligible instance (R228), a group in handler
mode issues its next handler word (R186), or an agent of the device makes one of its steps. -/
inductive Act where
  | issue (core : Nat) (pipe : Pipe)
  | handler (core slot : Nat)
  | event (i : Instr)
  deriving DecidableEq, Repr, Inhabited

/-- One turn: the `cyc` ticks that pass before it, the outcome of every choice the manual leaves to the hardware within
it (bit by bit, `Ops.choose`), and the act (notes/assumptions/1.md). -/
structure Turn where
  dt : Nat := 0
  choice : Nat := 0
  act : Act
  deriving DecidableEq, Repr, Inhabited

namespace Config

/-- Enabled cores, logical rows and columns, atolls (R1, R224). -/
def cores : Nat := 192
/-- Groups resident on a core (R1). -/
def groupSlots : Nat := 256
/-- Workgroup slots of a core (R222). -/
def wgSlots : Nat := 64
/-- Vector rows of a core (R32). -/
def vectorRows : Nat := 8192
/-- Uniform words of a core (R32). -/
def uniformWords : Nat := 65536
/-- Bytes of one step of the SRAM array (R61). -/
def sramStep : Nat := 131072
/-- Steps of the SRAM array (R61). -/
def sramSteps : Nat := 12
/-- Bytes of device memory (R376, R400). -/
def deviceBytes : Nat := 0x18000000000
/-- Units of the Narrows (R341). -/
def narrowsUnits : Nat := 1536
/-- Bytes of one Narrows unit (R341). -/
def unitBytes : Nat := 32768
/-- Watch entries of a slice (R278). -/
def watchEntries : Nat := 256
/-- L2 slices enabled (R1). -/
def slices : Nat := 96
/-- Ferries (R271). -/
def ferries : Nat := 32
/-- Commands a ferry's queue holds (R271). -/
def ferryQueue : Nat := 16
/-- Entries of the sequencer's queue (R263). -/
def seqEntries : Nat := 32
/-- Entries of an atoll's task queue (R184). -/
def taskEntries : Nat := 256
/-- Atolls: the fourth part of the cores (R224). -/
def atolls : Nat := 48
/-- Peers of the pod (R243). -/
def peers : Nat := 288

/-- FREE: the turn the device takes when no turn is listed: any agent, any choice, any time. -/
opaque freeTurn : Nat → Turn
/-- FREE: the home slice of a physical line (R244: the hash is not architectural). -/
opaque homeSlice : Nat → Nat
/-- Records that the device's own spill area holds for a slice (R284, notes/assumptions/61.md). -/
opaque ownSpill : Nat → Nat
/-- FREE: the filter bit of a line (R281: the hash is not architectural). -/
opaque filterHash : Nat → Nat
/-- FREE: `tcause.rec` of the causes for which no rule gives it (R43). -/
opaque causeRec : Nat → Bool
/-- FREE: SHA-256 of a byte string (R401, R402: the standard is named, not given). -/
opaque sha256 : List Byte → List Byte
/-- FREE: whether an RSASSA-PSS signature verifies under a key over a digest (R401: the standard is named, not given). -/
opaque pssVerify : List Byte → List Byte → List Byte → Bool
/-- FREE: key, signature and version of a firmware image (R401 does not lay the image out). -/
opaque imageKey : List Byte → List Byte
opaque imageSignature : List Byte → List Byte
opaque imageVersion : List Byte → Nat
/-- FREE: the four fused key slots, which are revoked, and the rollback fuse (R401). -/
opaque fuseKey : Nat → List Byte
opaque fuseRevoked : Nat → Bool
opaque rollbackFuse : Nat
/-- The boot ROM accepts an image (R401): its signature verifies over its digest, its key's digest stands in a slot that is not
revoked, and its version is not below the rollback fuse. -/
def firmwareOk (image : List Byte) : Bool :=
  pssVerify (imageKey image) (sha256 image) (imageSignature image) &&
    (List.range 4).any (fun n => !fuseRevoked n && fuseKey n == sha256 (imageKey image)) && decide (rollbackFuse ≤ imageVersion image)
/-- FREE: the attestation signature over 128 bytes (R402). -/
opaque attestSignature : List Byte → List Byte
/-- FREE: the certificate of the identity key (R402), by offset from 0xE100. -/
opaque certificate : Nat → Byte
/-- FREE: the device serial (R402). -/
opaque serial : List Byte
/-- FREE: the units that AV1 puts before a frame's first tile group, of a chain record (R359: the standard is named, not given):
the temporal delimiter, the sequence header, and the frame header of a frame and turn. -/
opaque temporalDelimiter : List Byte
opaque sequenceHeader : List Byte → List Byte
opaque frameHeader : List Byte → Nat → Nat → List Byte
/-- FREE: the tile group that an encoder makes of a strip's pixels (R359), by rate control, base q index, target and maximum rate, and
turn. -/
opaque tileGroup : Nat × Nat × Nat × Nat → List Byte → Nat → List Byte
/-- FREE: error correction of a CSI-2 packet header and checksum of a payload (R357: the standard is named, not given). -/
opaque headerEcc : Nat → Nat → Nat
opaque payloadChecksum : List Byte → Nat
/-- FREE: the 16-bit field of a CSI-2 short packet other than the frame start (R357), by packet, frame and line. -/
opaque packetField : Nat → Nat → Nat → Nat
/-- FREE: a fill colour as the four bytes of two YUV pixels (R354 states it in RGB only). -/
opaque fillYuv : Nat → List Byte
/-- FREE: the change of rate that the servo makes at a measurement, before its limits, in units of 10^-9 (R337). -/
opaque slew : Nat → Int
/-- FREE: the `ptime` that passes between a Follow_Up and the Delay_Req that the device then sends (R336). -/
opaque delayReqLag : Nat → Nat
/-- FREE: the lowest core clock, in MHz (R399). -/
opaque lowestClock : Nat
/-- FREE: the SRAM step that holds a line of the L1 (R61). -/
opaque l1Step : Nat → Nat
/-- FREE: the way of an L2 slice that a failing line stands in (R395). -/
opaque failWay : Nat → Nat
/-- FREE: what the self-test of a power-on finds: class, unit and address of each failure (R405). -/
opaque selfTest : Nat → List (Nat × Nat × Nat)
/-- FREE: whether a fuse leaves the test port open (R406). -/
opaque jtagOpen : Bool
/-- FREE: the Strait port of a peer and line (R382). -/
opaque straitPort : Nat → Nat → Nat
/-- FREE: a 32-bit value that the manual leaves open, by the turn and the place it is used in. -/
opaque openWord : Nat → Word
/-- What the binner writes into a chain's spill area for an entry, by step and word: its layout is not architectural (R294,
notes/assumptions/43.md). -/
opaque spillWord : Nat → Nat → Word
/-- FREE: whether the determinant of R141 is d · (e1 × e2) or its negative: the manual does not name the system's order. -/
opaque detFlip : Bool
/-- FREE: what the test port samples at the pins (R406: the standard is named, not given). -/
opaque pinState : Nat → Nat

end Config

end Sys2Proof
end

