-- ==== Sys2Proof/Machine/Tbl.lean ====
section
/-! DEFINITION. Sparse tables: the one container of this model. A table lists, with strictly rising keys, exactly the
entries that differ from the default, so that equal tables are equal data; memory is the table of bytes whose default
is zero (notes/assumptions/2.md). -/

namespace Sys2Proof.Machine

/-- A sparse table: rising keys, no entry equal to the default. -/
abbrev Tbl (α : Type) := List (Nat × α)

/-- The entry of a key, the default where none is listed. -/
def Tbl.get {α : Type} [Inhabited α] : Tbl α → Nat → α
  | [], _ => default
  | (k, v) :: t, n => if k = n then v else Tbl.get t n

/-- The table without a key. -/
def Tbl.erase {α : Type} : Tbl α → Nat → Tbl α
  | [], _ => []
  | (k, v) :: t, n => if k = n then Tbl.erase t n else (k, v) :: Tbl.erase t n

/-- The table with an entry put before the first larger key. -/
def Tbl.insert {α : Type} : Tbl α → Nat → α → Tbl α
  | [], n, x => [(n, x)]
  | (k, v) :: t, n, x => if n < k then (n, x) :: (k, v) :: t else (k, v) :: Tbl.insert t n x

/-- The table with an entry replaced; an entry equal to the default is not listed. -/
def Tbl.set {α : Type} [Inhabited α] [DecidableEq α] (t : Tbl α) (n : Nat) (x : α) : Tbl α :=
  if x = default then Tbl.erase t n else Tbl.insert (Tbl.erase t n) n x

/-- The table with one entry changed by a function. -/
def Tbl.mod {α : Type} [Inhabited α] [DecidableEq α] (t : Tbl α) (n : Nat) (f : α → α) : Tbl α :=
  Tbl.set t n (f (Tbl.get t n))

/-- The table of a list of entries from key 0. -/
def Tbl.ofWords {α : Type} [Inhabited α] [DecidableEq α] (l : List α) : Tbl α :=
  (l.zipIdx.filter fun e => decide (e.1 ≠ default)).map fun e => (e.2, e.1)

/-- The keys listed. -/
def Tbl.keys {α : Type} (t : Tbl α) : List Nat := t.map (·.1)

/-- The canonical form: every key below all later ones, no entry equal to the default. -/
def Tbl.wf {α : Type} [Inhabited α] [DecidableEq α] : Tbl α → Bool
  | [] => true
  | (k, v) :: t => decide (v ≠ default) && t.all (fun e => decide (k < e.1)) && Tbl.wf t

/-- A memory: bytes by address, a byte not listed reads zero (notes/assumptions/2.md). -/
abbrev Memory := List Host.Cell

/-- Canonical form of a memory. -/
def Memory.wf (m : Memory) : Bool := Tbl.wf m

/-- One byte. -/
def Memory.byte (m : Memory) (a : Nat) : Byte := Tbl.get m a

/-- One byte stored. -/
def Memory.put (m : Memory) (a : Nat) (b : Byte) : Memory := Tbl.set m a b

/-- `n` bytes from an address, lowest first. -/
def Memory.read (m : Memory) (a : Nat) : Nat → List Byte
  | 0 => []
  | n + 1 => Memory.byte m a :: Memory.read m (a + 1) n

/-- Bytes stored from an address up. -/
def Memory.write (m : Memory) (a : Nat) : List Byte → Memory
  | [] => m
  | b :: bs => Memory.write (Memory.put m a b) (a + 1) bs

/-- The number a little-endian byte string stands for (R2). -/
def leNat : List Byte → Nat
  | [] => 0
  | b :: bs => b.toNat + 256 * leNat bs

/-- `n` little-endian bytes of a number (R2). -/
def leBytes (x : Nat) : Nat → List Byte
  | 0 => []
  | n + 1 => BitVec.ofNat 8 x :: leBytes (x / 256) n

/-- A little-endian number of `n` bytes in memory (R2). -/
def Memory.nat (m : Memory) (a n : Nat) : Nat := leNat (Memory.read m a n)

/-- A little-endian number of `n` bytes stored (R2). -/
def Memory.putNat (m : Memory) (a n x : Nat) : Memory := Memory.write m a (leBytes x n)

/-- A little-endian field of a record. -/
def fieldAt (bs : List Byte) (off n : Nat) : Nat := leNat ((bs.drop off).take n)

/-- Bits [hi:lo] of a number. -/
def bitsOf (x hi lo : Nat) : Nat := x / 2 ^ lo % 2 ^ (hi + 1 - lo)

/-- The two's-complement value of the low `w` bits of a number. -/
def sextNat (x w : Nat) : Int :=
  let y := x % 2 ^ w
  if y < 2 ^ (w - 1) then (y : Int) else (y : Int) - (2 ^ w : Nat)

/-- The `n` numbers from `a` up. -/
def upFrom (a : Nat) : Nat → List Nat
  | 0 => []
  | n + 1 => a :: upFrom (a + 1) n

/-- The set bits of a mask below `n`, ascending. -/
def maskList (m n : Nat) : List Nat := (List.range n).filter (fun i => m.testBit i)

/-- The mask of a list of bits. -/
def listMask (l : List Nat) : Nat := l.foldl (fun m i => m ||| 2 ^ i) 0

end Sys2Proof.Machine
end

