-- ==== Sys2Proof/Machine/Num.lean ====
section
/-! DEFINITION. Number formats, rounding, conversion and exact sums (01_numbers.md, R9 to R30). A value is a NaN, an
infinity or a sign with an exact rational magnitude, so every rounding is from the exact value. -/

namespace Sys2Proof.Machine

/-- A value of R10: not a number, an infinity, or a sign and an exact magnitude (which keeps the two zeros apart). -/
inductive FVal where
  | nan
  | inf (neg : Bool)
  | fin (neg : Bool) (mag : Rat)
  deriving DecidableEq, Repr, Inhabited

/-- The floating-point shape of a format (R10). -/
structure FloatFmt where
  /-- exponent bits -/
  ebits : Nat
  /-- bias -/
  bias : Nat
  /-- mantissa bits -/
  mbits : Nat
  hasInf : Bool
  hasNan : Bool
  /-- canonical NaN, 0 where there is none -/
  canon : Nat
  /-- the magnitude code of the largest finite value -/
  maxCode : Nat
  deriving DecidableEq, Repr

/-- The table of R10. -/
def floatFmt : Fmt → Option FloatFmt
  | .f64 => some ⟨11, 1023, 52, true, true, 0x7FF8000000000000, 0x7FEFFFFFFFFFFFFF⟩
  | .f32 => some ⟨8, 127, 23, true, true, 0x7FC00000, 0x7F7FFFFF⟩
  | .f16 => some ⟨5, 15, 10, true, true, 0x7E00, 0x7BFF⟩
  | .bf16 => some ⟨8, 127, 7, true, true, 0x7FC0, 0x7F7F⟩
  | .e4m3 => some ⟨4, 7, 3, false, true, 0x7F, 0x7E⟩
  | .e5m2 => some ⟨5, 15, 2, true, true, 0x7E, 0x7B⟩
  | .e3m2 => some ⟨3, 3, 2, false, false, 0, 0x1F⟩
  | .e2m3 => some ⟨2, 1, 3, false, false, 0, 0x1F⟩
  | .e2m1 => some ⟨2, 1, 1, false, false, 0, 0x7⟩
  | _ => none

/-- Two to an integer power, exactly. -/
def pow2 : Int → Rat
  | .ofNat n => ((2 ^ n : Nat) : Rat)
  | .negSucc n => mkRat 1 (2 ^ (n + 1))

/-- The floor of the binary logarithm of a positive rational (R18). -/
def floorLog2 (m : Rat) : Int :=
  let d : Int := (Nat.log2 m.num.natAbs : Int) - (Nat.log2 m.den : Int)
  if pow2 d ≤ m then d else d - 1

/-- The floor of a non-negative rational. -/
def ratFloor (m : Rat) : Nat := m.num.natAbs / m.den

/-- The value of a sign and an exact number. -/
def FVal.ofRat (neg : Bool) (m : Rat) : FVal := .fin neg m

/-- The value of an integer; zero is positive. -/
def FVal.ofInt (i : Int) : FVal := .fin (decide (i < 0)) (i.natAbs : Rat)

/-- The signed rational of a finite value, 0 of the others. -/
def FVal.toRat : FVal → Rat
  | .fin s m => if s then -m else m
  | _ => 0

/-- The sign bit; a NaN counts as positive. -/
def FVal.sign : FVal → Bool
  | .nan => false
  | .inf s => s
  | .fin s _ => s

/-- Not a number. -/
def FVal.isNan : FVal → Bool
  | .nan => true
  | _ => false

/-- A zero of either sign. -/
def FVal.isZero : FVal → Bool
  | .fin _ m => m == 0
  | _ => false

/-- The value with its sign cleared. -/
def FVal.abs : FVal → FVal
  | .nan => .nan
  | .inf _ => .inf false
  | .fin _ m => .fin false m

/-- The value with its sign flipped. -/
def FVal.neg : FVal → FVal
  | .nan => .nan
  | .inf s => .inf (!s)
  | .fin s m => .fin (!s) m

/-- The value of a code in a floating-point format (R10). -/
def FloatFmt.decode (f : FloatFmt) (c : Nat) : FVal :=
  let s := c.testBit (f.ebits + f.mbits)
  let e := c / 2 ^ f.mbits % 2 ^ f.ebits
  let m := c % 2 ^ f.mbits
  let top := 2 ^ f.ebits - 1
  if f.hasInf && e == top then (if m = 0 then .inf s else .nan)
  else if f.hasNan && !f.hasInf && e == top && m == 2 ^ f.mbits - 1 then .nan
  else if e = 0 then .fin s (pow2 (1 - (f.bias : Int) - f.mbits) * (m : Rat))
  else .fin s (pow2 ((e : Int) - f.bias - f.mbits) * ((2 ^ f.mbits + m : Nat) : Rat))

/-- The exponent of the quantum at a magnitude: max(⌊log2 m⌋, emin) (R18). -/
def FloatFmt.quantExp (f : FloatFmt) (m : Rat) : Int := max (floorLog2 m) (1 - (f.bias : Int))

/-- The code of a magnitude that the format holds. -/
def FloatFmt.magCode (f : FloatFmt) (m : Rat) : Nat :=
  if m = 0 then 0 else
  let e := f.quantExp m
  ((e - (1 - (f.bias : Int))).toNat) * 2 ^ f.mbits + ratFloor (m / pow2 (e - f.mbits))

/-- The code of a value that the format holds; a NaN is the canonical one (R11). -/
def FloatFmt.encode (f : FloatFmt) : FVal → Nat
  | .nan => f.canon
  | .inf s => (2 ^ f.ebits - 1) * 2 ^ f.mbits + (if s then 2 ^ (f.ebits + f.mbits) else 0)
  | .fin s m => f.magCode m + (if s then 2 ^ (f.ebits + f.mbits) else 0)

/-- The largest finite magnitude. -/
def FloatFmt.maxFinite (f : FloatFmt) : Rat :=
  match f.decode f.maxCode with
  | .fin _ m => m
  | _ => 0

/-- The value of an `e8m2s` code (R13); bits [15:10] are ignored. -/
def scaleDecode (c : Nat) : FVal :=
  let c := c % 1024
  if c = 0 then .fin false 0 else if c = 0x3FF then .nan
  else .fin false (pow2 ((c / 4 : Nat) - 129 : Int) * ((4 + c % 4 : Nat) : Rat))

/-- The code of a magnitude that `e8m2s` holds. -/
def scaleCode : FVal → Nat
  | .nan => 0x3FF
  | .inf _ => 0x3FE
  | .fin _ m => if m = 0 then 0 else
    let e := floorLog2 m
    (e + 127).toNat * 4 + (ratFloor (m / pow2 (e - 2)) - 4)

/-- The value of the low `Fmt.width` bits of a code (R9 to R13); integers are exact. -/
def fmtValue (f : Fmt) (c : Nat) : FVal :=
  match floatFmt f with
  | some g => g.decode c
  | none => match f with
    | .e8m2s => scaleDecode c
    | .s8 => .ofInt (sextNat c 8) | .s16 => .ofInt (sextNat c 16) | .s32 => .ofInt (sextNat c 32)
    | .s64 => .ofInt (sextNat c 64)
    | .u8 => .ofInt (c % 2 ^ 8 : Nat) | .u16 => .ofInt (c % 2 ^ 16 : Nat)
    | .u32 => .ofInt (c % 2 ^ 32 : Nat) | .u64 => .ofInt (c % 2 ^ 64 : Nat)
    | g => if g.planeSigned then .ofInt (sextNat c 8) else .ofInt (c % 2 ^ 8 : Nat)

/-- Whether a rounding takes the larger candidate: `odd` says that the lower one's code is odd, `low` that the value is
below the middle, `tie` that it is the middle (R18). -/
def roundsUp (mode : Mode) (neg odd low tie rsUp : Bool) : Bool :=
  match mode with
  | .rz => false
  | .rd => neg
  | .ru => !neg
  | .rne => if tie then odd else !low
  | .rs => rsUp

/-- The state of a lane after one step of the generator (R20). -/
def xorshift (x : Word) : Word :=
  let x := x ^^^ (x <<< 13)
  let x := x ^^^ (x >>> 17)
  x ^^^ (x <<< 5)

/-- `round()` over two candidates `lo` ≤ m < `hi` with the parity of the code of `lo` (R18, R20). -/
def roundBetween (mode : Mode) (neg odd : Bool) (m lo hi : Rat) (rs : Word) : Rat :=
  if m = lo then lo else
  let f := ratFloor ((m - lo) / (hi - lo) * ((2 ^ 32 : Nat) : Rat))
  if roundsUp mode neg odd (decide (m - lo < hi - m)) (decide (m - lo = hi - m)) (decide (rs.toNat < f)) then hi else lo

/-- `round()` of R18 on a magnitude, with no upper exponent bound; `rs` is the lane's state after its step (R20). -/
def FloatFmt.roundMag (f : FloatFmt) (mode : Mode) (neg : Bool) (m : Rat) (rs : Word) : Rat :=
  if m = 0 then 0 else
  let q := pow2 (f.quantExp m - f.mbits)
  let k := ratFloor (m / q)
  roundBetween mode neg (k % 2 == 1) m ((k : Rat) * q) (((k + 1 : Nat) : Rat) * q) rs

/-- `round()` on a magnitude into `e8m2s`: below the smallest nonzero scale the candidates are 0x000 and 0x001 (R21). -/
def scaleRoundMag (mode : Mode) (m : Rat) (rs : Word) : Rat :=
  if m = 0 then 0 else
  let least := pow2 (-129) * 5
  if m < least then roundBetween mode false false m 0 least rs else
  let q := pow2 (floorLog2 m - 2)
  let k := ratFloor (m / q)
  roundBetween mode false (k % 2 == 1) m ((k : Rat) * q) (((k + 1 : Nat) : Rat) * q) rs

/-- Rounding to an integer under a mode; ties of `rne` go to the even one (R23). -/
def roundInt (mode : Mode) (neg : Bool) (m : Rat) : Nat :=
  let k := ratFloor m
  ratFloor (roundBetween mode neg (k % 2 == 1) m (k : Rat) ((k + 1 : Nat) : Rat) 0)

/-- What a conversion gives: the value, the sticky flags it sets and the lane's stochastic state (R20, R21, R25). -/
structure Conv where
  val : FVal
  nv : Bool := false
  of : Bool := false
  rs : Word
  deriving DecidableEq, Repr, Inhabited

/-- `ieee_overflow` of R21; for the formats without an infinity the signed maximum. -/
def ieeeOverflow (maxf : Rat) (neg : Bool) : Mode → FVal
  | .rne | .rs => .inf neg
  | .rz => .fin neg maxf
  | .rd => if neg then .inf true else .fin false maxf
  | .ru => if neg then .fin true maxf else .inf false

/-- The state a finite value is rounded with: stepped once under `rs` (R20). -/
def rsStep (mode : Mode) (rs : Word) : Word := if mode = .rs then xorshift rs else rs

/-- `convert()` of R21 into a format of R10. `bound` is the clamp bound where the instruction or record has one. -/
def FloatFmt.convert (f : FloatFmt) (x : FVal) (mode : Mode) (bound : Option FVal) (rs : Word) : Conv :=
  let maxf := f.maxFinite
  let bb : Option Rat := match bound with
    | some (.inf _) => some maxf
    | some (.fin _ b) => some (min (f.roundMag .rz false b 0) maxf)
    | _ => none
  match x with
  | .nan => if f.hasNan then { val := .nan, rs := rs } else { val := .fin false 0, nv := true, rs := rs }
  | .inf s =>
    match bb with
    | some b => { val := .fin s b, of := true, rs := rs }
    | none => if f.hasInf then { val := .inf s, rs := rs } else { val := .fin s maxf, of := true, rs := rs }
  | .fin s m =>
    let rs' := rsStep mode rs
    let y := f.roundMag mode s m rs'
    match bb with
    | some b => if y > b then { val := .fin s b, of := true, rs := rs' } else { val := .fin s y, rs := rs' }
    | none =>
      if y > maxf then
        { val := if f.hasInf then ieeeOverflow maxf s mode else .fin s maxf, of := true, rs := rs' }
      else { val := .fin s y, rs := rs' }

/-- `convert()` into `e8m2s`, which has no sign and no infinity (R13, R21). -/
def scaleConvert (x : FVal) (mode : Mode) (bound : Option FVal) (rs : Word) : Conv :=
  let maxf : Rat := pow2 126 * 6
  let bb : Option Rat := match bound with
    | some (.inf _) => some maxf
    | some (.fin _ b) => some (min (scaleRoundMag .rz b 0) maxf)
    | _ => none
  match x with
  | .nan => { val := .nan, rs := rs }
  | .inf true => { val := .fin false 0, of := true, rs := rs }
  | .inf false => { val := .fin false (bb.getD maxf), of := true, rs := rs }
  | .fin s m =>
    let rs' := rsStep mode rs
    if s && m != 0 then { val := .fin false 0, of := true, rs := rs' } else
    let y := scaleRoundMag mode m rs'
    if y > bb.getD maxf then { val := .fin false (bb.getD maxf), of := true, rs := rs' }
    else { val := .fin false y, rs := rs' }

/-- The least and the largest value of an integer format. -/
def intRange : Fmt → Int × Int
  | .s8 => (-2 ^ 7, 2 ^ 7 - 1) | .s16 => (-2 ^ 15, 2 ^ 15 - 1) | .s32 => (-2 ^ 31, 2 ^ 31 - 1)
  | .s64 => (-2 ^ 63, 2 ^ 63 - 1)
  | .u8 => (0, 2 ^ 8 - 1) | .u16 => (0, 2 ^ 16 - 1) | .u32 => (0, 2 ^ 32 - 1) | .u64 => (0, 2 ^ 64 - 1)
  | f => if f.planeSigned then (-2 ^ 7, 2 ^ 7 - 1) else (0, 2 ^ 8 - 1)

/-- The range that a clamp bound leaves of an integer format (R23); a NaN or infinite bound narrows nothing. -/
def clampRange (f : Fmt) (bound : Option FVal) : Int × Int :=
  let r := intRange f
  match bound with
  | some (.fin _ b) => (max r.1 (-(ratFloor b : Int)), min r.2 (ratFloor b : Int))
  | _ => r

/-- Conversion to an integer format (R23). -/
def intConvert (x : FVal) (f : Fmt) (mode : Mode) (bound : Option FVal) (rs : Word) : Conv :=
  let r := clampRange f bound
  match x with
  | .nan => { val := .fin false 0, nv := true, rs := rs }
  | .inf s => { val := .ofInt (if s then r.1 else r.2), of := true, rs := rs }
  | .fin s m =>
    let n : Int := roundInt mode s m
    let i := if s then -n else n
    let y := max r.1 (min r.2 i)
    { val := .ofInt y, of := y != i, rs := rs }

/-- The code of a value in a format, in the low `Fmt.width` bits (an `e8m2s` in the low ten). -/
def fmtCode (f : Fmt) (v : FVal) : Nat :=
  match floatFmt f with
  | some g => g.encode v
  | none => match f with
    | .e8m2s => scaleCode v
    | _ => ((v.toRat.num % (2 ^ f.width : Nat)).toNat)

/-- Any conversion of a value to a format (R21, R23). -/
def fmtConvert (f : Fmt) (x : FVal) (mode : Mode) (bound : Option FVal) (rs : Word) : Conv :=
  match floatFmt f with
  | some g => g.convert x mode bound rs
  | none => if f = .e8m2s then scaleConvert x mode bound rs else intConvert x f mode bound rs

/-- The shape of `f32`, `f64` and `f16` results. -/
def fmt32 : FloatFmt := ⟨8, 127, 23, true, true, 0x7FC00000, 0x7F7FFFFF⟩
/-- binary64 -/
def fmt64 : FloatFmt := ⟨11, 1023, 52, true, true, 0x7FF8000000000000, 0x7FEFFFFFFFFFFFFF⟩
/-- binary16 -/
def fmt16 : FloatFmt := ⟨5, 15, 10, true, true, 0x7E00, 0x7BFF⟩

/-- Rounding of an exact result to a format with infinities: R105, no flag kept. -/
def FloatFmt.narrow (f : FloatFmt) (mode : Mode) (x : FVal) : FVal := (f.convert x mode none 0).val

/-- `.ftz`: a magnitude below 2^-126 becomes the zero of its sign (R24). -/
def flush (on : Bool) (x : FVal) : FVal :=
  match x with
  | .fin s m => if on && decide (m < pow2 (-126)) then .fin s 0 else x
  | y => y

/-- The exact product, with 0 × inf a NaN (R11). -/
def FVal.mul : FVal → FVal → FVal
  | .nan, _ => .nan
  | _, .nan => .nan
  | .inf a, .inf b => .inf (a != b)
  | .inf a, .fin b m => if m = 0 then .nan else .inf (a != b)
  | .fin a m, .inf b => if m = 0 then .nan else .inf (a != b)
  | .fin a m, .fin b n => .fin (a != b) (m * n)

/-- The sum of a list of signed rationals. -/
def ratSum (l : List FVal) : Rat := l.foldl (fun acc v => acc + v.toRat) 0

/-- The special value of a sum, where a term is not finite (R27, R105, R114). -/
def specialSum (l : List FVal) : Option FVal :=
  if l.any FVal.isNan then some .nan
  else
    let p := l.contains (.inf false)
    let n := l.contains (.inf true)
    if p && n then some .nan else if p then some (.inf false) else if n then some (.inf true) else none

/-- The exact sum of terms, with the sign of a zero result as R105 gives it: the common sign where every term is a zero
of that sign, else −0 under `rd` and +0 otherwise. -/
def exactSum (mode : Mode) (l : List FVal) : FVal :=
  match specialSum l with
  | some v => v
  | none =>
    let r := ratSum l
    if r ≠ 0 then .fin (decide (r < 0)) (if r < 0 then -r else r)
    else if l.all (fun v => v.isZero && v.sign) && !l.isEmpty then .fin true 0
    else if l.all (fun v => v.isZero && !v.sign) then .fin false 0
    else .fin (mode == .rd) 0

/-- The sum of the matrix path: every zero result is +0 (R27). -/
def matrixSum (l : List FVal) : FVal :=
  match specialSum l with
  | some v => v
  | none => let r := ratSum l; .fin (decide (r < 0)) (if r < 0 then -r else r)

/-- Rounding of the matrix path: once, `rne`, to `f32`, a zero being +0 (R26, R27). -/
def matrixRound (x : FVal) : FVal :=
  match fmt32.narrow .rne x with
  | .fin s m => if m = 0 then .fin false 0 else .fin s m
  | v => v

/-- The exact quotient with the special cases of R109; a zero quotient has the sign of the operands together (DESIGN
CHOICE, notes/assumptions/59.md). -/
def FVal.div : FVal → FVal → FVal
  | .nan, _ => .nan
  | _, .nan => .nan
  | .inf _, .inf _ => .nan
  | .inf a, .fin b _ => .inf (a != b)
  | .fin a _, .inf b => .fin (a != b) 0
  | .fin a m, .fin b n =>
    if n = 0 then (if m = 0 then .nan else .inf (a != b)) else .fin (a != b) (m / n)

/-- The order of two values that are not NaN: −1, 0 or 1; `zeros` puts −0 below +0 (R108, R110). -/
def FVal.cmp (zeros : Bool) (a b : FVal) : Int :=
  let key : FVal → Int := fun v => match v with | .inf true => -1 | .inf false => 1 | _ => 0
  if key a ≠ key b then (if key a < key b then -1 else 1)
  else if key a ≠ 0 then 0
  else if a.toRat < b.toRat then -1 else if b.toRat < a.toRat then 1
  else if zeros && a.sign && !b.sign then -1 else if zeros && !a.sign && b.sign then 1 else 0

/-- The value read from the low bits of a plane-integer element under a prefix of k planes (R16). -/
def planePrefix (signed : Bool) (k : Nat) (centre : Bool) (x : Nat) : Int :=
  let v : Int := if signed then sextNat x 8 else ((x % 256 : Nat) : Int)
  let step : Int := (2 ^ (8 - k) : Nat)
  let t := v / step * step
  if centre then t + (2 ^ (7 - k) : Nat) else t

end Sys2Proof.Machine
end

