-- ==== Sys2Proof/Machine/Fn.lean ====
section
/-! DEFINITION. The functions of `FUN` (R111). Every result is the exact mathematical value rounded once: square roots
exactly, with a sticky half unit; exp2, log2, sin and cos from an approximation whose error is below 2^-480 of a unit,
far finer than the distance of any `f32` argument's result from a rounding boundary (notes/assumptions/12.md). -/

namespace Sys2Proof.Machine

/-- Fractional bits of the working fixed point. -/
def fracBits : Nat := 512

/-- ⌊π · 2^640⌋. -/
def piBits : Nat := 0x3243f6a8885a308d313198a2e03707344a4093822299f31d0082efa98ec4e6c89452821e638d01377be5466cf34e90c6cc0ac29b7c97c50dd3f84d5b5b54709179216d5d98979fb1bd1310ba698dfb5ac

/-- ⌊ln 2 · 2^640⌋. -/
def ln2Bits : Nat := 0xb17217f7d1cf79abc9e3b39803f2f6af40f343267298b62d8a0d175b8baafa2be7b876206debac98559552fb4afa1b10ed2eae35c138214427573b291169b8253e96ca16224ae8c51acbda11317c387e

/-- The integer square root, from the top bit down: `bit` halves until it is gone. -/
def isqrtFrom (n : Nat) : Nat → Nat → Nat
  | 0, r => r
  | k + 1, r => isqrtFrom n k (if (r + 2 ^ k) * (r + 2 ^ k) ≤ n then r + 2 ^ k else r)

/-- ⌊√n⌋. -/
def isqrt (n : Nat) : Nat := isqrtFrom n (Nat.log2 n / 2 + 1) 0

/-- A value that rounds as the square root of a positive rational: the root at 2^-256, plus half a unit where it is not
exact, so that no rounding boundary lies between the two. -/
def sqrtRat (m : Rat) : Rat :=
  let sc := m * ((2 ^ 512 : Nat) : Rat)
  let n := ratFloor sc
  let r := isqrt n
  let exact := decide (((n : Nat) : Rat) = sc) && r * r == n
  mkRat (2 * r + (if exact then 0 else 1) : Nat) (2 ^ 257)

/-- Σ t·x^k/k! from term `t` on, in fixed point. -/
def expSeries (x : Nat) : Nat → Nat → Nat → Nat
  | 0, _, _ => 0
  | fuel + 1, k, t => t + expSeries x fuel (k + 1) (t * x / 2 ^ fracBits / (k + 1))

/-- A value that rounds as 2^(neg ? −m : m). -/
def exp2Rat (neg : Bool) (m : Rat) : Rat :=
  let x : Rat := if neg then -m else m
  let n := x.floor
  let f := x - n
  if f = 0 then pow2 n else
  let y := ratFloor (f * ((ln2Bits : Nat) : Rat) / ((2 ^ (640 - fracBits) : Nat) : Rat))
  pow2 n * mkRat (2 * expSeries y 128 0 (2 ^ fracBits) + 1 : Nat) (2 ^ (fracBits + 1))

/-- Σ z^(2k+1)/(2k+1) from the power `t` on, in fixed point, with z² = `zz`. -/
def atanhSeries (zz : Nat) : Nat → Nat → Nat → Nat
  | 0, _, _ => 0
  | fuel + 1, k, t => t / k + atanhSeries zz fuel (k + 2) (t * zz / 2 ^ fracBits)

/-- A signed value that rounds as log2 m, m positive. -/
def log2Rat (m : Rat) : Rat :=
  let e := floorLog2 m
  let y := m / pow2 e
  if y = 1 then (e : Rat) else
  let z := ratFloor ((y - 1) / (y + 1) * ((2 ^ fracBits : Nat) : Rat))
  let ln := 2 * atanhSeries (z * z / 2 ^ fracBits) 170 1 z
  (e : Rat) + mkRat (2 * (ln * 2 ^ 640 / ln2Bits) + 1 : Nat) (2 ^ (fracBits + 1))

/-- Alternating Σ ± t·x²ᵏ/…: the positive and negative terms of sine (k = 1, t = x) or cosine (k = 0, t = 1). -/
def trigSeries (xx : Nat) : Nat → Nat → Int → Int
  | 0, _, _ => 0
  | fuel + 1, k, t => t + trigSeries xx fuel (k + 2) (-(t * xx / (2 ^ fracBits : Nat) / ((k + 1) * (k + 2) : Nat)))

/-- A signed value that rounds as sin m (or cos m), m a magnitude: the argument reduced by quarter turns. -/
def trigRat (cosine : Bool) (m : Rat) : Rat :=
  let quarter := piBits / 2
  let x := ratFloor (m * ((2 ^ 640 : Nat) : Rat))
  let k := x / quarter + (if cosine then 1 else 0)
  let r := (x % quarter) / 2 ^ (640 - fracBits)
  let rr := r * r / 2 ^ fracBits
  let v : Int := if k % 2 = 0 then trigSeries rr 64 1 r else trigSeries rr 64 0 (2 ^ fracBits : Nat)
  let v := if k / 2 % 2 = 0 then v else -v
  mkRat v (2 ^ fracBits)

/-- The value of a signed rational. -/
def FVal.ofSigned (r : Rat) : FVal := .fin (decide (r < 0)) (if r < 0 then -r else r)

/-- The integer below a signed value, keeping the sign of a zero (R111). -/
def floorVal (neg : Bool) (m : Rat) : FVal := .fin neg (roundInt .rd neg m : Nat)

/-- A magnitude with its sign rounded to an integer; a nonzero operand gives +0 where the integer is 0 (R105, R111: no entry fixes
that sign). -/
def intVal (md : Mode) (s : Bool) (m : Rat) : FVal :=
  let k := roundInt md s m
  .fin (s && (m == 0 || k != 0)) (k : Nat)

/-- `FUN` on the exact value, before its rounding (R111). -/
def funExact (fn : FunFn) (x : FVal) : FVal :=
  match fn, x with
  | _, .nan => .nan
  | .abs, v => v.abs
  | .neg, v => v.neg
  | .rcp, v => FVal.div (.fin false 1) v
  | .rsq, .inf false => .fin false 0
  | .rsq, .inf true => .nan
  | .rsq, .fin s m => if m = 0 then .inf s else if s then .nan else .fin false (sqrtRat (1 / m))
  | .sqrt, .inf false => .inf false
  | .sqrt, .inf true => .nan
  | .sqrt, .fin s m => if m = 0 then .fin s 0 else if s then .nan else .fin false (sqrtRat m)
  | .exp2, .inf s => if s then .fin false 0 else .inf false
  | .exp2, .fin s m =>
    if m > 200 then (if s then .fin false (pow2 (-200)) else .fin false (pow2 200)) else .fin false (exp2Rat s m)
  | .log2, .inf false => .inf false
  | .log2, .inf true => .nan
  | .log2, .fin s m => if m = 0 then .inf true else if s then .nan else .ofSigned (log2Rat m)
  | .sin, .inf _ => .nan
  | .sin, .fin s m => if m = 0 then .fin s 0 else .ofSigned (if s then -trigRat false m else trigRat false m)
  | .cos, .inf _ => .nan
  | .cos, .fin _ m => .ofSigned (trigRat true m)
  | .floor, .fin s m => floorVal s m
  | .floor, v => v
  | .ceil, .fin s m => .fin s (roundInt .ru s m : Nat)
  | .ceil, v => v
  | .trunc, .fin s m => intVal .rz s m
  | .trunc, v => v
  | .rint, .fin s m => intVal .rne s m
  | .rint, v => v
  | .fract, .inf _ => .nan
  | .fract, .fin s m => .ofSigned (FVal.toRat (.fin s m) - (FVal.toRat (.fin s m)).floor)

/-- `FUN`: the code of the result of a code (R111), `fract` by `rd` and the others by `rne`. -/
def funApply (fn : FunFn) (ftz : Bool) (c : Nat) : Nat :=
  fmt32.encode (flush ftz (fmt32.narrow (if fn = .fract then .rd else .rne) (funExact fn (flush ftz (fmt32.decode c)))))

end Sys2Proof.Machine
end

