-- ==== Sys2Proof/Decode.lean ====
section
/-! DEFINITION. Words and bytes to instructions and back: the field codes of the manual's tables, the decoder of the
lane and uniform maps (R65, R66, R68, R73 to R86), total on any bytes, and the encoder of the same tables. A word is
read as a natural number below 2^32, bit 0 least significant (R2). -/

namespace Sys2Proof

/-- The code of a `Cond` value: R79. -/
def Cond.code : Cond → Nat
  | .eq => 0
  | .ne => 1
  | .lt => 2
  | .le => 3
  | .gt => 4
  | .ge => 5
  | .ltu => 6
  | .leu => 7
  | .gtu => 8
  | .geu => 9
  | .bset => 10
  | .bclr => 11
  | .any => 12

/-- The `Cond` value of a code, if the code is assigned: R79. -/
def Cond.ofCode : Nat → Option Cond
  | 0 => some .eq
  | 1 => some .ne
  | 2 => some .lt
  | 3 => some .le
  | 4 => some .gt
  | 5 => some .ge
  | 6 => some .ltu
  | 7 => some .leu
  | 8 => some .gtu
  | 9 => some .geu
  | 10 => some .bset
  | 11 => some .bclr
  | 12 => some .any
  | _ => none

/-- The code of a `FCond` value: R110. -/
def FCond.code : FCond → Nat
  | .eq => 0
  | .ne => 1
  | .lt => 2
  | .le => 3
  | .gt => 4
  | .ge => 5
  | .ord => 6
  | .uno => 7
  | .ueq => 8
  | .ult => 9
  | .ule => 10
  | .ugt => 11
  | .uge => 12
  | .lg => 13

/-- The `FCond` value of a code, if the code is assigned: R110. -/
def FCond.ofCode : Nat → Option FCond
  | 0 => some .eq
  | 1 => some .ne
  | 2 => some .lt
  | 3 => some .le
  | 4 => some .gt
  | 5 => some .ge
  | 6 => some .ord
  | 7 => some .uno
  | 8 => some .ueq
  | 9 => some .ult
  | 10 => some .ule
  | 11 => some .ugt
  | 12 => some .uge
  | 13 => some .lg
  | _ => none

/-- The code of a `Scope` value: R80. -/
def Scope.code : Scope → Nat
  | .wg => 0
  | .core => 1
  | .atoll => 2
  | .dev => 3
  | .pod => 4
  | .sys => 5

/-- The `Scope` value of a code, if the code is assigned: R80. -/
def Scope.ofCode : Nat → Option Scope
  | 0 => some .wg
  | 1 => some .core
  | 2 => some .atoll
  | 3 => some .dev
  | 4 => some .pod
  | 5 => some .sys
  | _ => none

/-- The code of a `Order` value: R80. -/
def Order.code : Order → Nat
  | .rlx => 0
  | .acq => 1
  | .rel => 2
  | .ar => 3

/-- The `Order` value of a code, if the code is assigned: R80. -/
def Order.ofCode : Nat → Option Order
  | 0 => some .rlx
  | 1 => some .acq
  | 2 => some .rel
  | 3 => some .ar
  | _ => none

/-- The code of a `Mode` value: R17. -/
def Mode.code : Mode → Nat
  | .rne => 0
  | .rz => 1
  | .rd => 2
  | .ru => 3
  | .rs => 4

/-- The `Mode` value of a code, if the code is assigned: R17. -/
def Mode.ofCode : Nat → Option Mode
  | 0 => some .rne
  | 1 => some .rz
  | 2 => some .rd
  | 3 => some .ru
  | 4 => some .rs
  | _ => none

/-- The code of a `Fmt` value: R9. -/
def Fmt.code : Fmt → Nat
  | .f32 => 0
  | .f16 => 1
  | .bf16 => 2
  | .f64 => 3
  | .e4m3 => 4
  | .e5m2 => 5
  | .e3m2 => 6
  | .e2m3 => 7
  | .e2m1 => 8
  | .e8m2s => 9
  | .s8 => 10
  | .u8 => 11
  | .s16 => 12
  | .u16 => 13
  | .s32 => 14
  | .u32 => 15
  | .pi8 => 16
  | .pi7 => 17
  | .pi6 => 18
  | .pi5 => 19
  | .pi4 => 20
  | .pi3 => 21
  | .pi2 => 22
  | .s64 => 23
  | .pn8 => 24
  | .pn7 => 25
  | .pn6 => 26
  | .pn5 => 27
  | .pn4 => 28
  | .pn3 => 29
  | .pn2 => 30
  | .u64 => 31

/-- The `Fmt` value of a code, if the code is assigned: R9. -/
def Fmt.ofCode : Nat → Option Fmt
  | 0 => some .f32
  | 1 => some .f16
  | 2 => some .bf16
  | 3 => some .f64
  | 4 => some .e4m3
  | 5 => some .e5m2
  | 6 => some .e3m2
  | 7 => some .e2m3
  | 8 => some .e2m1
  | 9 => some .e8m2s
  | 10 => some .s8
  | 11 => some .u8
  | 12 => some .s16
  | 13 => some .u16
  | 14 => some .s32
  | 15 => some .u32
  | 16 => some .pi8
  | 17 => some .pi7
  | 18 => some .pi6
  | 19 => some .pi5
  | 20 => some .pi4
  | 21 => some .pi3
  | 22 => some .pi2
  | 23 => some .s64
  | 24 => some .pn8
  | 25 => some .pn7
  | 26 => some .pn6
  | 27 => some .pn5
  | 28 => some .pn4
  | 29 => some .pn3
  | 30 => some .pn2
  | 31 => some .u64
  | _ => none

/-- The code of a `IUn` value: R100. -/
def IUn.code : IUn → Nat
  | .not => 1
  | .neg => 2
  | .abs => 3
  | .popc => 4
  | .clz => 5
  | .ctz => 6
  | .brev => 7
  | .sext8 => 8
  | .sext16 => 9
  | .zext8 => 10
  | .zext16 => 11
  | .sext64 => 12
  | .zext64 => 13

/-- The `IUn` value of a code, if the code is assigned: R100. -/
def IUn.ofCode : Nat → Option IUn
  | 1 => some .not
  | 2 => some .neg
  | 3 => some .abs
  | 4 => some .popc
  | 5 => some .clz
  | 6 => some .ctz
  | 7 => some .brev
  | 8 => some .sext8
  | 9 => some .sext16
  | 10 => some .zext8
  | 11 => some .zext16
  | 12 => some .sext64
  | 13 => some .zext64
  | _ => none

/-- The code of a `ImadFn` value: R98. -/
def ImadFn.code : ImadFn → Nat
  | .lo => 0
  | .wideS => 1
  | .wideU => 2
  | .hiS => 3
  | .hiU => 4

/-- The `ImadFn` value of a code, if the code is assigned: R98. -/
def ImadFn.ofCode : Nat → Option ImadFn
  | 0 => some .lo
  | 1 => some .wideS
  | 2 => some .wideU
  | 3 => some .hiS
  | 4 => some .hiU
  | _ => none

/-- The code of a `FmaOp` value: R75. -/
def FmaOp.code : FmaOp → Nat
  | .fma => 0
  | .add => 1
  | .sub => 2
  | .mul => 3

/-- The `FmaOp` value of a code, if the code is assigned: R75. -/
def FmaOp.ofCode : Nat → Option FmaOp
  | 0 => some .fma
  | 1 => some .add
  | 2 => some .sub
  | 3 => some .mul
  | _ => none

/-- The code of a `FType` value: R75. -/
def FType.code : FType → Nat
  | .f32 => 0
  | .f64 => 1
  | .f16 => 2

/-- The `FType` value of a code, if the code is assigned: R75. -/
def FType.ofCode : Nat → Option FType
  | 0 => some .f32
  | 1 => some .f64
  | 2 => some .f16
  | _ => none

/-- The code of a `FunFn` value: R111. -/
def FunFn.code : FunFn → Nat
  | .abs => 0
  | .neg => 1
  | .rcp => 2
  | .rsq => 3
  | .sqrt => 4
  | .exp2 => 5
  | .log2 => 6
  | .sin => 7
  | .cos => 8
  | .floor => 9
  | .ceil => 10
  | .trunc => 11
  | .rint => 12
  | .fract => 13

/-- The `FunFn` value of a code, if the code is assigned: R111. -/
def FunFn.ofCode : Nat → Option FunFn
  | 0 => some .abs
  | 1 => some .neg
  | 2 => some .rcp
  | 3 => some .rsq
  | 4 => some .sqrt
  | 5 => some .exp2
  | 6 => some .log2
  | 7 => some .sin
  | 8 => some .cos
  | 9 => some .floor
  | 10 => some .ceil
  | 11 => some .trunc
  | 12 => some .rint
  | 13 => some .fract
  | _ => none

/-- The code of a `ShflMode` value: R121. -/
def ShflMode.code : ShflMode → Nat
  | .idx => 0
  | .up => 1
  | .down => 2
  | .xor => 3

/-- The `ShflMode` value of a code, if the code is assigned: R121. -/
def ShflMode.ofCode : Nat → Option ShflMode
  | 0 => some .idx
  | 1 => some .up
  | 2 => some .down
  | 3 => some .xor
  | _ => none

/-- The code of a `VoteMode` value: R122. -/
def VoteMode.code : VoteMode → Nat
  | .all => 0
  | .any => 1
  | .eq => 2
  | .ballot => 3

/-- The `VoteMode` value of a code, if the code is assigned: R122. -/
def VoteMode.ofCode : Nat → Option VoteMode
  | 0 => some .all
  | 1 => some .any
  | 2 => some .eq
  | 3 => some .ballot
  | _ => none

/-- The code of a `ReduxOp` value: R123. -/
def ReduxOp.code : ReduxOp → Nat
  | .add => 0
  | .min => 1
  | .max => 2
  | .umin => 3
  | .umax => 4
  | .and => 5
  | .or => 6
  | .xor => 7
  | .fadd => 8
  | .fmin => 9
  | .fmax => 10

/-- The `ReduxOp` value of a code, if the code is assigned: R123. -/
def ReduxOp.ofCode : Nat → Option ReduxOp
  | 0 => some .add
  | 1 => some .min
  | 2 => some .max
  | 3 => some .umin
  | 4 => some .umax
  | 5 => some .and
  | 6 => some .or
  | 7 => some .xor
  | 8 => some .fadd
  | 9 => some .fmin
  | 10 => some .fmax
  | _ => none

/-- The code of a `ReduxKind` value: R123. -/
def ReduxKind.code : ReduxKind → Nat
  | .reduce => 0
  | .iscan => 1
  | .xscan => 2

/-- The `ReduxKind` value of a code, if the code is assigned: R123. -/
def ReduxKind.ofCode : Nat → Option ReduxKind
  | 0 => some .reduce
  | 1 => some .iscan
  | 2 => some .xscan
  | _ => none

/-- The code of a `LdWidth` value: R130. -/
def LdWidth.code : LdWidth → Nat
  | .u8 => 0
  | .s8 => 1
  | .u16 => 2
  | .s16 => 3
  | .b32 => 4
  | .b64 => 5
  | .b128 => 6

/-- The `LdWidth` value of a code, if the code is assigned: R130. -/
def LdWidth.ofCode : Nat → Option LdWidth
  | 0 => some .u8
  | 1 => some .s8
  | 2 => some .u16
  | 3 => some .s16
  | 4 => some .b32
  | 5 => some .b64
  | 6 => some .b128
  | _ => none

/-- The code of a `StWidth` value: R132. -/
def StWidth.code : StWidth → Nat
  | .b8 => 0
  | .b16 => 2
  | .b32 => 4
  | .b64 => 5
  | .b128 => 6

/-- The `StWidth` value of a code, if the code is assigned: R132. -/
def StWidth.ofCode : Nat → Option StWidth
  | 0 => some .b8
  | 2 => some .b16
  | 4 => some .b32
  | 5 => some .b64
  | 6 => some .b128
  | _ => none

/-- The code of a `AtomOp` value: R133. -/
def AtomOp.code : AtomOp → Nat
  | .add => 0
  | .and => 1
  | .or => 2
  | .xor => 3
  | .min => 4
  | .max => 5
  | .umin => 6
  | .umax => 7
  | .exch => 8
  | .inc => 9
  | .dec => 10
  | .fadd => 11

/-- The `AtomOp` value of a code, if the code is assigned: R133. -/
def AtomOp.ofCode : Nat → Option AtomOp
  | 0 => some .add
  | 1 => some .and
  | 2 => some .or
  | 3 => some .xor
  | 4 => some .min
  | 5 => some .max
  | 6 => some .umin
  | 7 => some .umax
  | 8 => some .exch
  | 9 => some .inc
  | 10 => some .dec
  | 11 => some .fadd
  | _ => none

/-- The code of a `PrefLevel` value: R136. -/
def PrefLevel.code : PrefLevel → Nat
  | .l2 => 0
  | .l1 => 1

/-- The `PrefLevel` value of a code, if the code is assigned: R136. -/
def PrefLevel.ofCode : Nat → Option PrefLevel
  | 0 => some .l2
  | 1 => some .l1
  | _ => none

/-- The code of a `TexLod` value: R137. -/
def TexLod.code : TexLod → Nat
  | .l0 => 0
  | .lvl => 1
  | .auto => 2

/-- The `TexLod` value of a code, if the code is assigned: R137. -/
def TexLod.ofCode : Nat → Option TexLod
  | 0 => some .l0
  | 1 => some .lvl
  | 2 => some .auto
  | _ => none

/-- The code of a `TimeSel` value: R175. -/
def TimeSel.code : TimeSel → Nat
  | .cyc => 0
  | .ns => 1
  | .ptime => 2
  | .both => 3

/-- The `TimeSel` value of a code, if the code is assigned: R175. -/
def TimeSel.ofCode : Nat → Option TimeSel
  | 0 => some .cyc
  | 1 => some .ns
  | 2 => some .ptime
  | 3 => some .both
  | _ => none

/-- The code of a `GenClass` value: R185. -/
def GenClass.code : GenClass → Nat
  | .vrow => 0
  | .gran => 1
  | .slot => 2
  | .acc => 3

/-- The `GenClass` value of a code, if the code is assigned: R185. -/
def GenClass.ofCode : Nat → Option GenClass
  | 0 => some .vrow
  | 1 => some .gran
  | 2 => some .slot
  | 3 => some .acc
  | _ => none

/-- The code of a `Csr` value: R36. -/
def Csr.code : Csr → Nat
  | .cyc => 0
  | .ptime => 4
  | .gen => 8
  | .genlow => 9
  | .ctxid => 10
  | .rpidx => 11
  | .tpc => 12
  | .tcause => 14
  | .tval => 16
  | .mxstat => 18
  | .mxerr => 19
  | .rastthr => 20
  | .oc => 21
  | .srstate => 22

/-- The `Csr` value of a code, if the code is assigned: R36. -/
def Csr.ofCode : Nat → Option Csr
  | 0 => some .cyc
  | 4 => some .ptime
  | 8 => some .gen
  | 9 => some .genlow
  | 10 => some .ctxid
  | 11 => some .rpidx
  | 12 => some .tpc
  | 14 => some .tcause
  | 16 => some .tval
  | 18 => some .mxstat
  | 19 => some .mxerr
  | 20 => some .rastthr
  | 21 => some .oc
  | 22 => some .srstate
  | _ => none

/-- The code of a `CsrWidth` value: R78. -/
def CsrWidth.code : CsrWidth → Nat
  | .w32 => 0
  | .w64 => 1
  | .w128 => 2

/-- The `CsrWidth` value of a code, if the code is assigned: R78. -/
def CsrWidth.ofCode : Nat → Option CsrWidth
  | 0 => some .w32
  | 1 => some .w64
  | 2 => some .w128
  | _ => none

/-- Why a word or its trailer does not decode (R68 steps 2 to 4), or why there are not enough bytes. The unassigned
majors of R68 step 1 decode to `Instr.illegalInstructionWord`. -/
inductive DecodeError where
  | truncated
  | illegalInstruction
  | illegalOperand
  deriving DecidableEq, Repr, Inhabited

/-- What decoding answers. -/
abbrev Decoded := Except DecodeError Instr

/-- Field [lo + n − 1 : lo] of a word (R2). -/
def fld (w lo n : Nat) : Nat := w / 2 ^ lo % 2 ^ n

/-- One bit of a word. -/
def flag (w lo : Nat) : Bool := w / 2 ^ lo % 2 == 1

/-- A 7-bit register field (R74). -/
def vfld (w lo : Nat) : VReg := Fin.ofNat 128 (w / 2 ^ lo)

/-- An 8-bit register field (R77). -/
def sfld (w lo : Nat) : SReg := Fin.ofNat 256 (w / 2 ^ lo)

/-- A 3-bit name or predicate field. -/
def f8 (w lo : Nat) : Fin 8 := Fin.ofNat 8 (w / 2 ^ lo)

/-- The common fields of a lane word (R65, R73). -/
def lctl (w : Nat) : LaneCtl := ⟨flag w 30, f8 w 21⟩

/-- Step 2 of R68: a field that must be zero is nonzero. -/
def zf (z : Bool) (k : Decoded) : Decoded := if z then k else .error .illegalInstruction

/-- Steps 3 and 4 of R68: a value or an alignment that the entry does not accept. -/
def op (ok : Bool) (k : Decoded) : Decoded := if ok then k else .error .illegalOperand

/-- Step 3 of R68 for a coded field. -/
def pick {α : Type} (o : Option α) (k : α → Decoded) : Decoded :=
  match o with
  | some a => k a
  | none => .error .illegalOperand

/-- Whether a trailer follows the word (R66): decided by the major alone, and by bit 13 for `MOVI`. -/
def hasTrailer (w : Nat) : Bool :=
  let m := fld w 24 6
  if flag w 31 then
    [0x0F, 0x12, 0x15, 0x16, 0x17, 0x18, 0x19, 0x1C, 0x2C, 0x2F, 0x30].contains m
  else
    (m == 0x18 && flag w 13) ||
      [0x06, 0x07, 0x14, 0x15, 0x1E, 0x1F, 0x27, 0x2B, 0x2C, 0x2D, 0x2E, 0x2F, 0x30, 0x31, 0x32, 0x33, 0x34, 0x35,
        0x36, 0x39, 0x3C].contains m

/-- Format L3 (R74). -/
def decL3 (w : Nat) (i : LaneCtl → VReg → VReg → VReg → Instr) : Decoded :=
  .ok (i (lctl w) (vfld w 14) (vfld w 7) (vfld w 0))

/-- Format L3 with every operand an even pair (R81). -/
def decL3Pair (w : Nat) (i : LaneCtl → VReg → VReg → VReg → Instr) : Decoded :=
  op (even2 (vfld w 14) && even2 (vfld w 7) && even2 (vfld w 0)) <| decL3 w i

/-- Format U3 (R77). -/
def decU3 (w : Nat) (i : Bool → SReg → SReg → SReg → Instr) : Decoded :=
  .ok (i (flag w 30) (sfld w 16) (sfld w 8) (sfld w 0))

/-- `BFX` and `BFI` position and length (R101): the register form with its register at `r`, or the immediates of `m`. -/
def decFieldPos (t : Nat) (r : VReg) (k : FieldPos → Decoded) : Decoded :=
  if flag t 23 then
    zf (fld t 11 7 == 0) <|
      if h : fld t 5 6 < 33 then k (.imm (Fin.ofNat 32 t) ⟨fld t 5 6, h⟩) else .error .illegalOperand
  else zf (fld t 0 18 == 0) <| k (.reg r)

/-- The lane memory majors 0x30 to 0x34 (R130 to R136): word `w`, trailer `t`. -/
def decLaneMem (w t : Nat) : Nat → Decoded
  | 0x30 =>
    if flag t 24 then
      zf (fld w 14 7 == 0 && fld w 0 7 == 0 && fld t 25 7 == 0) <|
      pick (PrefLevel.ofCode (fld t 18 6)) fun l =>
      op (fld t 13 5 == 0) <| op (even2 (vfld w 7)) <|
      .ok (.pref (lctl w) l (vfld w 7) (BitVec.ofNat 13 t))
    else
      zf (fld t 25 7 == 0) <|
      if fld t 21 3 = 7 then
        zf (fld w 2 5 == 0) <|
        if h : fld t 18 3 < 7 then
          pick (Order.ofCode (fld t 13 2)) fun o => pick (Scope.ofCode (fld t 15 3)) fun sc =>
          op (o.forLoad && !(flag w 1 && fld t 18 3 == 0)) <| op (even2 (vfld w 7)) <|
          .ok (.ld (lctl w) (.plane ⟨fld t 18 3, h⟩ (flag w 0) (flag w 1)) o sc (vfld w 14) (vfld w 7) (BitVec.ofNat 13 t))
        else .error .illegalOperand
      else
        zf (fld w 0 7 == 0 && fld t 18 3 == 0) <|
        pick (LdWidth.ofCode (fld t 21 3)) fun wd =>
        pick (Order.ofCode (fld t 13 2)) fun o => pick (Scope.ofCode (fld t 15 3)) fun sc =>
        op o.forLoad <| op (even2 (vfld w 7) && wd.aligned (vfld w 14)) <|
        .ok (.ld (lctl w) (.plain wd) o sc (vfld w 14) (vfld w 7) (BitVec.ofNat 13 t))
  | 0x31 =>
    zf (fld w 14 7 == 0 && fld t 24 8 == 0 && fld t 18 3 == 0) <|
    pick (StWidth.ofCode (fld t 21 3)) fun wd =>
    pick (Order.ofCode (fld t 13 2)) fun o => pick (Scope.ofCode (fld t 15 3)) fun sc =>
    op o.forStore <| op (even2 (vfld w 7) && wd.aligned (vfld w 0)) <|
    .ok (.st (lctl w) wd o sc (vfld w 7) (BitVec.ofNat 13 t) (vfld w 0))
  | 0x32 =>
    zf (fld t 25 7 == 0 && (!flag t 24 || fld w 14 7 == 0)) <|
    pick (AtomOp.ofCode (fld t 18 5)) fun a =>
    pick (Order.ofCode (fld t 13 2)) fun o => pick (Scope.ofCode (fld t 15 3)) fun sc =>
    if flag t 24 then
      op o.forStore <| op (even2 (vfld w 7) && (!flag t 23 || even2 (vfld w 0))) <|
      .ok (.red (lctl w) a (flag t 23) o sc (vfld w 7) (BitVec.ofNat 13 t) (vfld w 0))
    else
      op (even2 (vfld w 7) && (!flag t 23 || (even2 (vfld w 14) && even2 (vfld w 0)))) <|
      .ok (.atom (lctl w) a (flag t 23) o sc (vfld w 14) (vfld w 7) (BitVec.ofNat 13 t) (vfld w 0))
  | 0x33 =>
    zf (!flag t 24 && fld t 18 5 == 0) <|
    pick (Order.ofCode (fld t 13 2)) fun o => pick (Scope.ofCode (fld t 15 3)) fun sc =>
    op (even2 (vfld w 7) && (!flag t 23 || (even2 (vfld w 14) && even2 (vfld w 0) && even2 (vfld t 25)))) <|
    .ok (.acas (lctl w) (flag t 23) o sc (vfld w 14) (vfld w 7) (BitVec.ofNat 13 t) (vfld w 0) (vfld t 25))
  | _ =>
    zf (fld w 14 7 == 0 && fld t 18 14 == 0) <|
    pick (Order.ofCode (fld t 13 2)) fun o => pick (Scope.ofCode (fld t 15 3)) fun sc =>
    op o.forStore <| op (even2 (vfld w 7) && even2 (vfld w 0)) <|
    .ok (.visw (lctl w) o sc (vfld w 7) (BitVec.ofNat 13 t) (vfld w 0))

/-- Texture and ray majors 0x35 and 0x36 (R137, R140). -/
def decTexRay (w t : Nat) : Nat → Decoded
  | 0x35 =>
    if flag t 24 then
      zf (fld t 0 24 == 0) <| op (quad4 (vfld w 14) && even2 (vfld w 7) && even2 (vfld w 0)) <|
      .ok (.tld (lctl w) (vfld w 14) (vfld w 7) (vfld w 0) (vfld t 25))
    else
      zf (fld t 0 22 == 0 && (fld t 22 2 == 1 || fld t 25 7 == 0)) <|
      pick (TexLod.ofCode (fld t 22 2)) fun l =>
      op (quad4 (vfld w 14) && even2 (vfld w 7) && even2 (vfld w 0)) <|
      .ok (.tex (lctl w) l (vfld w 14) (vfld w 7) (vfld w 0) (vfld t 25))
  | _ =>
    zf (fld t 0 22 == 0 && fld t 25 7 == 0) <|
    if flag t 24 then
      op (!flag t 23) <| op (quad4 (vfld w 14) && even2 (vfld w 7) && quad4 (vfld w 0)) <|
      .ok (.rayn (lctl w) (flag t 22) (vfld w 14) (vfld w 7) (vfld w 0))
    else
      op (quad4 (vfld w 14) && even2 (vfld w 7) && quad4 (vfld w 0)) <|
      .ok (.rayq (lctl w) (flag t 23) (flag t 22) (vfld w 14) (vfld w 7) (vfld w 0))

/-- The control majors 0x38 to 0x3D (R144 to R160). -/
def decLaneControl (w t : Nat) : Nat → Decoded
  | 0x38 => .ok (.bra (lctl w) (BitVec.ofNat 21 w))
  | 0x39 => zf (fld w 0 14 == 0) <| op (even2 (vfld w 14)) <| .ok (.call (lctl w) (vfld w 14) (BitVec.ofNat 32 t))
  | 0x3A =>
    match fld w 0 7 with
    | 0 => zf (fld w 14 7 == 0) <| op (even2 (vfld w 7)) <| .ok (.ret (lctl w) (vfld w 7))
    | 1 => zf (fld w 7 14 == 0) <| .ok (.exit (lctl w))
    | 2 => zf (fld w 7 14 == 0) <| .ok (.yield (lctl w))
    | 3 => zf (fld w 14 7 == 0) <| op (even2 (vfld w 7)) <| .ok (.brx (lctl w) (vfld w 7))
    | 4 =>
      zf (fld w 7 9 == 0) <| pick (Scope.ofCode (fld w 18 3)) fun sc => pick (Order.ofCode (fld w 16 2)) fun o =>
      op (o != .rlx) <| .ok (.fence (lctl w) o sc)
    | _ => .error .illegalOperand
  | 0x3B =>
    zf (fld w 9 4 == 0 && fld w 0 7 == 0 && (fld w 7 2 == 0 || (fld w 14 3 == 0 && !flag w 13))) <|
    if h : fld w 17 4 < 12 then
      let k : KReg := ⟨fld w 17 4, h⟩
      match fld w 7 2 with
      | 0 => .ok (.kset (lctl w) k (flag w 13) (f8 w 14))
      | 1 => .ok (.karr (lctl w) k)
      | 2 => .ok (.kwait (lctl w) k)
      | _ => .ok (.kleave (lctl w) k)
    else .error .illegalOperand
  | 0x3C =>
    zf (fld t 0 13 == 0 && fld t 18 6 == 0 && (fld w 17 4 != 12 || fld w 0 7 == 0)) <|
    pick (Cond.ofCode (fld w 17 4)) fun c =>
    pick (Order.ofCode (fld t 13 2)) fun o => pick (Scope.ofCode (fld t 15 3)) fun sc =>
    op (even2 (vfld w 7) && (!flag t 24 || even2 (vfld w 0))) <|
    .ok (.waitu (lctl w) c (flag t 24) o sc (f8 w 14) (vfld w 7) (vfld w 0) (vfld t 25))
  | _ =>
    zf (fld w 5 2 == 0 && (flag w 14 || fld w 7 7 == 0)) <|
    if h : fld w 0 5 < 17 then
      let b : BarNum := Fin.ofNat 16 (w / 2 ^ 17)
      let x : Option VReg := if flag w 14 then some (vfld w 7) else none
      match fld w 15 2 with
      | 0 => .ok (.bar (lctl w) b x ⟨fld w 0 5, h⟩)
      | 1 => .ok (.bara (lctl w) b x ⟨fld w 0 5, h⟩)
      | 2 => .ok (.barw (lctl w) b x ⟨fld w 0 5, h⟩)
      | _ => .error .illegalOperand
    else .error .illegalOperand

/-- The floating-point, conversion and cross-lane majors in format LX: 0x1E, 0x1F, 0x27 and 0x2B to 0x2F. -/
def decLaneLX (w t : Nat) : Nat → Decoded
  | 0x1E =>
    zf (fld t 0 16 == 0 && (!(decide (1 ≤ fld t 22 3) && decide (fld t 22 3 ≤ 3)) || fld t 25 7 == 0)) <|
    pick (FmaOp.ofCode (fld t 22 3)) fun o => pick (Mode.ofCode (fld t 18 3)) fun m =>
    pick (FType.ofCode (fld t 16 2)) fun ty =>
    op (m != .rs && (!flag t 21 || ty == .f32)) <|
    op (ty != .f64 || (even2 (vfld w 14) && even2 (vfld w 7) && even2 (vfld w 0) && even2 (vfld t 25))) <|
    .ok (.ffmax (lctl w) o ty m (flag t 21) (vfld w 14) (vfld w 7) (vfld w 0) (vfld t 25))
  | 0x1F =>
    zf (fld t 22 10 == 0 && fld t 0 16 == 0) <|
    pick (Mode.ofCode (fld t 18 3)) fun m =>
    op (m != .rs && decide (fld t 16 2 < 2) && !(flag t 16 && flag t 21)) <|
    op (!flag t 16 || (even2 (vfld w 14) && even2 (vfld w 7) && even2 (vfld w 0))) <|
    .ok (.fdiv (lctl w) (flag t 16) m (flag t 21) (vfld w 14) (vfld w 7) (vfld w 0))
  | 0x27 =>
    zf (fld t 25 7 == 0 && fld t 21 2 == 0 && (flag t 24 || fld w 0 7 == 0)) <|
    pick (Mode.ofCode (fld t 18 3)) fun m =>
    pick (Fmt.ofCode (fld t 13 5)) fun d => pick (Fmt.ofCode (fld t 8 5)) fun s =>
    op (cvtOk d s m (flag t 23) (fld t 4 4) (fld t 0 4)) <| op (cvtAligned d s (vfld w 14) (vfld w 7)) <|
    .ok (.cvt (lctl w) d s m (flag t 23) (if flag t 24 then some (vfld w 0) else none)
      (vfld w 14) (Fin.ofNat 16 (t / 2 ^ 4)) (vfld w 7) (Fin.ofNat 16 t))
  | 0x2B =>
    zf (fld t 21 2 == 0 && fld t 0 18 == 0) <|
    pick (Mode.ofCode (fld t 18 3)) fun m => op (m != .rs) <|
    .ok (.fdot8 (lctl w) (flag t 24) (flag t 23) m (vfld w 14) (vfld w 7) (vfld w 0) (vfld t 25))
  | 0x2C =>
    zf (fld t 0 23 == 0) <|
    .ok (.idot4 (lctl w) (flag t 24) (flag t 23) (vfld w 14) (vfld w 7) (vfld w 0) (vfld t 25))
  | 0x2D =>
    zf (fld t 25 7 == 0 && fld t 6 11 == 0 && (if flag t 17 then fld w 0 7 == 0 else fld t 0 6 == 0)) <|
    pick (ShflMode.ofCode (fld t 18 7)) fun m =>
    .ok (.shfl (lctl w) m (vfld w 14) (vfld w 7) (if flag t 17 then .imm (Fin.ofNat 64 t) else .reg (vfld w 0)))
  | 0x2E =>
    zf (fld w 0 14 == 0 && fld t 25 7 == 0 && fld t 7 11 == 0) <|
    pick (VoteMode.ofCode (fld t 18 7)) fun m =>
    op (m != .ballot || fld t 4 3 == 7) <| op (m != .ballot || even2 (vfld w 14)) <|
    .ok (.vote (lctl w) m (vfld w 14) (f8 t 4) (flag t 3) (f8 t 0))
  | _ =>
    zf (fld w 0 7 == 0 && fld t 25 7 == 0 && fld t 0 16 == 0) <|
    pick (ReduxOp.ofCode (fld t 18 7)) fun o => pick (ReduxKind.ofCode (fld t 16 2)) fun k =>
    .ok (.redux (lctl w) o k (vfld w 14) (vfld w 7))

/-- The lane-set opcode map (R84). -/
def decLane (w t : Nat) : Nat → Decoded
  | 0x00 => decL3 w .iadd
  | 0x01 => decL3 w .isub
  | 0x02 => .ok (.iaddi (lctl w) (vfld w 14) (vfld w 7) (BitVec.ofNat 7 w))
  | 0x03 => decL3Pair w .iadd64
  | 0x04 => decL3 w .imul
  | 0x05 => decL3 w .imulh
  | 0x06 =>
    zf (fld t 0 18 == 0) <| pick (ImadFn.ofCode (fld t 18 7)) fun f =>
    op ((f != .wideS && f != .wideU) || (even2 (vfld w 14) && even2 (vfld t 25))) <|
    .ok (.imad (lctl w) f (vfld w 14) (vfld w 7) (vfld w 0) (vfld t 25))
  | 0x07 =>
    zf (fld t 25 7 == 0 && fld t 21 3 == 0) <| op (even2 (vfld w 14) && even2 (vfld w 7)) <|
    .ok (.lea (lctl w) (flag t 24) (vfld w 14) (vfld w 7) (vfld w 0) (f8 t 18) (BitVec.ofNat 18 t))
  | 0x08 => decL3 w .imin
  | 0x09 => decL3 w .imax
  | 0x0A => decL3 w .umin
  | 0x0B => decL3 w .umax
  | 0x0C => decL3 w .and
  | 0x0D => decL3 w .or
  | 0x0E => decL3 w .xor
  | 0x0F => decL3 w .andn
  | 0x10 => decL3 w .shl
  | 0x11 => decL3 w .shr
  | 0x12 => decL3 w .sar
  | 0x13 =>
    if fld w 0 7 = 0 then .ok (.mov (lctl w) (vfld w 14) (vfld w 7))
    else
      pick (IUn.ofCode (fld w 0 7)) fun f => op (!f.isPair || even2 (vfld w 14)) <|
      .ok (.iun (lctl w) f (vfld w 14) (vfld w 7))
  | 0x14 =>
    zf (fld t 25 7 == 0 && fld t 18 5 == 0 && (!flag t 23 || fld w 0 7 == 0)) <|
    decFieldPos t (vfld w 0) fun f => .ok (.bfx (lctl w) (flag t 24) (vfld w 14) (vfld w 7) f)
  | 0x15 =>
    zf (!flag t 24 && fld t 18 5 == 0 && (!flag t 23 || fld t 25 7 == 0)) <|
    decFieldPos t (vfld t 25) fun f => .ok (.bfi (lctl w) (vfld w 14) (vfld w 7) (vfld w 0) f)
  | 0x16 =>
    pick (Cond.ofCode (fld w 17 4)) fun c => op (c != .any) <|
    .ok (.icmp (lctl w) c (f8 w 14) (vfld w 7) (vfld w 0))
  | 0x17 => .ok (.sel (flag w 30) (f8 w 21) (vfld w 14) (vfld w 7) (vfld w 0))
  | 0x18 =>
    if flag w 13 then zf (fld w 0 13 == 0) <| .ok (.moviImm32 (lctl w) (vfld w 14) (BitVec.ofNat 32 t))
    else .ok (.movi (lctl w) (vfld w 14) (BitVec.ofNat 13 w))
  | 0x19 => zf (fld w 8 6 == 0) <| .ok (.movs (lctl w) (vfld w 14) (sfld w 0))
  | 0x1A => decL3 w .fadd
  | 0x1B => decL3 w .fsub
  | 0x1C => decL3 w .fmul
  | 0x1D => decL3 w .ffma
  | 0x20 => decL3 w .fmin
  | 0x21 => decL3 w .fmax
  | 0x22 => pick (FCond.ofCode (fld w 17 4)) fun c => .ok (.fcmp (lctl w) c (f8 w 14) (vfld w 7) (vfld w 0))
  | 0x23 =>
    zf (fld w 4 2 == 0) <| pick (FunFn.ofCode (fld w 0 4)) fun f =>
    .ok (.funf (lctl w) f (flag w 6) (vfld w 14) (vfld w 7))
  | 0x24 => decL3 w .hpadd
  | 0x25 => decL3 w .hpmul
  | 0x26 => decL3 w .hpfma
  | 0x28 => decL3Pair w .dadd
  | 0x29 => decL3Pair w .dmul
  | 0x2A => decL3Pair w .dfma
  | m =>
    if m = 0x1E ∨ m = 0x1F ∨ m = 0x27 ∨ (0x2B ≤ m ∧ m ≤ 0x2F) then decLaneLX w t m
    else if m ≤ 0x34 then decLaneMem w t m
    else if m ≤ 0x36 then decTexRay w t m
    else decLaneControl w t m

/-- The handle majors with no operand but the handle (R215). -/
def decHandle (w : Nat) (i : Bool → HNum → Instr) : Decoded :=
  zf (fld w 8 16 == 0) <|
  if h : fld w 0 8 < 64 then .ok (i (flag w 30) ⟨fld w 0 8, h⟩) else .error .illegalOperand

/-- The name field of `TCLAIM` and `TRELEASE` (R190). -/
def decName (w : Nat) (k : NameKind → Decoded) : Decoded :=
  if flag w 8 then zf (fld w 18 3 == 0) <| k (.acc (f8 w 21)) else zf (fld w 21 3 == 0) <| k (.tile (f8 w 18))

/-- The uniform majors 0x28 to 0x39 (R190 to R216). -/
def decTile (w t : Nat) : Nat → Decoded
  | 0x28 =>
    zf (fld w 15 3 == 0 && fld w 12 3 == 0 && fld w 0 8 == 0) <|
    decName w fun n => .ok (.tclaim (flag w 30) (f8 w 9) n)
  | 0x29 => zf (fld w 9 9 == 0 && fld w 0 8 == 0) <| decName w fun n => .ok (.trelease (flag w 30) n)
  | 0x2A =>
    zf (fld w 21 3 == 0 && fld w 14 4 == 0) <| pick (Fmt.ofCode (fld w 8 5)) fun f =>
    op f.isMatrix <| op (even2 (sfld w 0)) <| .ok (.tfill (flag w 30) f (flag w 13) (f8 w 18) (sfld w 0))
  | 0x2B => zf (fld w 21 3 == 0 && fld w 0 18 == 0) <| .ok (.tzero (flag w 30) (f8 w 18))
  | 0x2C =>
    zf (fld w 0 8 == 0 && !flag w 14 && fld t 0 16 == 0) <|
    pick (Fmt.ofCode (fld t 27 5)) fun fa => pick (Fmt.ofCode (fld t 22 5)) fun fb =>
    let part : Option (Fin 8) := if flag t 19 then some (f8 t 16) else none
    op ((flag t 19 || fld t 16 3 == 0) && mmaOk fa fb (flag t 21) (flag t 20) part (f8 w 8) (f8 w 11)) <|
    .ok (.mma (flag w 30) fa fb (flag t 21) (flag t 20) part (f8 w 21) (f8 w 18) (f8 w 8) (f8 w 15) (f8 w 11))
  | 0x2D => zf (fld w 0 21 == 0) <| .ok (.aclr (flag w 30) (f8 w 21))
  | 0x2E =>
    zf (fld w 10 8 == 0) <| .ok (.ascale (flag w 30) (flag w 8) (flag w 9) (f8 w 21) (f8 w 18) (sfld w 0))
  | 0x2F =>
    zf (fld w 10 11 == 0 && fld t 0 15 == 0 && (flag t 23 || fld t 15 8 == 0)) <|
    pick (Fmt.ofCode (fld t 27 5)) fun f => pick (Mode.ofCode (fld t 24 3)) fun m =>
    op (f.isDrain && (m != .rs || f.takesRs)) <| op (even2 (sfld w 0)) <|
    .ok (.adrain (flag w 30) f m (flag w 8) (flag w 9) (if flag t 23 then some (sfld t 15) else none) (f8 w 21) (sfld w 0))
  | 0x30 =>
    zf (fld w 10 11 == 0 && fld t 7 25 == 0) <| op (even2 (vfld t 0)) <|
    .ok (.aread (flag w 30) (vfld t 0) (f8 w 21) (sfld w 0) (Fin.ofNat 4 (w / 2 ^ 8)))
  | 0x31 =>
    zf (fld w 0 8 == 0) <| op (even2 (sfld w 16) && quad4 (sfld w 8)) <| .ok (.cpy (flag w 30) (sfld w 16) (sfld w 8))
  | 0x32 =>
    if h : fld w 0 8 < 64 then
      op (even2 (sfld w 8)) <| .ok (.cpyw (flag w 30) (sfld w 16) (sfld w 8) ⟨fld w 0 8, h⟩)
    else .error .illegalOperand
  | 0x33 =>
    zf (fld w 16 8 == 0) <|
    if h : fld w 0 8 < 64 then .ok (.hclaim (flag w 30) ⟨fld w 0 8, h⟩ (sfld w 8)) else .error .illegalOperand
  | 0x34 =>
    zf (fld w 11 13 == 0) <| pick (Scope.ofCode (fld w 8 3)) fun sc =>
    if h : fld w 0 8 < 64 then .ok (.hfull (flag w 30) sc ⟨fld w 0 8, h⟩) else .error .illegalOperand
  | 0x35 => decHandle w .hdrain
  | 0x36 => decHandle w .hfree
  | 0x37 => decHandle w .hret
  | 0x38 => decHandle w .hrel
  | _ =>
    zf (fld w 9 7 == 0) <|
    if h : fld w 0 8 < 64 then .ok (.hwait (flag w 30) (flag w 8) (sfld w 16) ⟨fld w 0 8, h⟩)
    else .error .illegalOperand

/-- The system majors 0x18 to 0x26 of the uniform set (R174 to R188). -/
def decSystem (w t : Nat) : Nat → Decoded
  | 0x18 =>
    zf (fld t 4 28 == 0 && (fld w 0 8 == 0x16 || fld w 8 8 == 0)) <| pick (Csr.ofCode (fld w 0 8)) fun r =>
    pick (CsrWidth.ofCode (fld t 0 2)) fun wd => op (csrOk r wd (fld t 2 2)) <| op (wd.aligned (sfld w 16)) <|
    .ok (.csrr (flag w 30) r wd (Fin.ofNat 4 (t / 2 ^ 2)) (sfld w 16) (sfld w 8))
  | 0x19 =>
    zf (fld t 4 28 == 0 && (fld w 0 8 == 0x16 || fld w 16 8 == 0)) <| pick (Csr.ofCode (fld w 0 8)) fun r =>
    pick (CsrWidth.ofCode (fld t 0 2)) fun wd => op (!r.readOnly && csrOk r wd (fld t 2 2)) <|
    op (wd.aligned (sfld w 8)) <|
    .ok (.csrw (flag w 30) r wd (Fin.ofNat 4 (t / 2 ^ 2)) (sfld w 16) (sfld w 8))
  | 0x1A =>
    zf (fld w 8 8 == 0) <| pick (TimeSel.ofCode (fld w 0 8)) fun x => op (x.aligned (sfld w 16)) <|
    .ok (.time (flag w 30) x (sfld w 16))
  | 0x1B =>
    zf (fld w 16 8 == 0) <| op (decide (fld w 0 8 < 2)) <| op (!flag w 0 || even2 (sfld w 8)) <|
    .ok (.sleep (flag w 30) (flag w 0) (sfld w 8))
  | 0x1C =>
    zf (fld t 0 19 == 0 && (fld w 20 4 != 12 || fld w 0 8 == 0)) <| pick (Cond.ofCode (fld w 20 4)) fun c =>
    pick (Order.ofCode (fld t 19 2)) fun o => pick (Scope.ofCode (fld t 21 3)) fun sc =>
    op (even2 (sfld w 8) && (!flag w 16 || even2 (sfld w 0))) <|
    .ok (.waits (flag w 30) c (flag w 16) o sc (f8 w 17) (sfld w 8) (sfld w 0) (sfld t 24))
  | 0x1D =>
    zf (fld w 16 8 == 0 && !flag w 7) <| op (even2 (sfld w 8)) <|
    .ok (.attach (flag w 30) (Fin.ofNat 32 w) (sfld w 8) (Fin.ofNat 4 (w / 2 ^ 5)))
  | 0x1E => zf (fld w 5 19 == 0) <| .ok (.detach (flag w 30) (Fin.ofNat 32 w))
  | 0x1F => zf (fld w 1 23 == 0) <| .ok (.replay (flag w 30) (flag w 0))
  | 0x20 =>
    zf (fld w 20 4 == 0 && !flag w 16 && fld w 0 8 == 0) <| op (even2 (sfld w 8)) <|
    .ok (.launch (flag w 30) (f8 w 17) (sfld w 8))
  | 0x21 => zf (fld w 16 8 == 0 && fld w 0 8 == 0) <| op (even2 (sfld w 8)) <| .ok (.launchw (flag w 30) (sfld w 8))
  | 0x22 =>
    zf (fld w 20 4 == 0 && !flag w 16 && fld w 0 8 == 0) <| op (even2 (sfld w 8)) <|
    .ok (.taskq (flag w 30) (f8 w 17) (sfld w 8))
  | 0x23 => zf (fld w 16 8 == 0) <| .ok (.trap (flag w 30) (BitVec.ofNat 16 w))
  | 0x24 => zf (fld w 0 24 == 0) <| .ok (.tret (flag w 30))
  | 0x25 =>
    pick (GenClass.ofCode (fld w 0 8)) fun g => .ok (.genr (flag w 30) g (sfld w 16) (sfld w 8))
  | _ => zf (fld w 16 8 == 0) <| .ok (.brk (flag w 30) (BitVec.ofNat 16 w))

/-- The uniform-set opcode map (R85). -/
def decUniform (w t : Nat) : Nat → Decoded
  | 0x00 => decU3 w .sadd
  | 0x01 => decU3 w .ssub
  | 0x02 => decU3 w .smul
  | 0x03 => decU3 w .sand
  | 0x04 => decU3 w .sor
  | 0x05 => decU3 w .sxor
  | 0x06 => decU3 w .sshl
  | 0x07 => decU3 w .sshr
  | 0x08 => decU3 w .ssar
  | 0x09 => decU3 w .smin
  | 0x0A => decU3 w .smax
  | 0x0B => decU3 w .sumin
  | 0x0C => decU3 w .sumax
  | 0x0D => zf (fld w 0 8 == 0) <| .ok (.smov (flag w 30) (sfld w 16) (sfld w 8))
  | 0x0E => .ok (.smovi (flag w 30) (sfld w 16) (BitVec.ofNat 16 w))
  | 0x0F =>
    zf (fld w 1 15 == 0) <| op (!flag w 0 || even2 (sfld w 16)) <|
    .ok (.smovx (flag w 30) (flag w 0) (sfld w 16) (BitVec.ofNat 32 t))
  | 0x10 => op (even2 (sfld w 16) && even2 (sfld w 8) && even2 (sfld w 0)) <| decU3 w .sadd64
  | 0x11 =>
    pick (Cond.ofCode (fld w 20 4)) fun c => op (c != .any) <|
    op (!flag w 16 || (even2 (sfld w 8) && even2 (sfld w 0))) <|
    .ok (.scmp (flag w 30) c (flag w 16) (f8 w 17) (sfld w 8) (sfld w 0))
  | 0x12 => zf (fld t 3 29 == 0) <| .ok (.ssel (flag w 30) (f8 t 0) (sfld w 16) (sfld w 8) (sfld w 0))
  | 0x13 =>
    pick (IUn.ofCode (fld w 0 8)) fun f => op (!f.isPair || even2 (sfld w 16)) <|
    .ok (.sun (flag w 30) f (sfld w 16) (sfld w 8))
  | 0x14 => .ok (.sbra (flag w 30) (flag w 23) (f8 w 20) (BitVec.ofNat 20 w))
  | 0x15 =>
    zf (fld w 0 8 == 0 && fld t 24 3 == 0 && fld t 16 2 == 0) <| pick (LdWidth.ofCode (fld t 18 6)) fun wd =>
    pick (Order.ofCode (fld t 27 2)) fun o => pick (Scope.ofCode (fld t 29 3)) fun sc => op o.forLoad <|
    op (even2 (sfld w 8) && wd.aligned (sfld w 16)) <|
    .ok (.sld (flag w 30) wd o sc (sfld w 16) (sfld w 8) (BitVec.ofNat 16 t))
  | 0x16 =>
    zf (fld w 16 8 == 0 && fld t 24 3 == 0 && fld t 16 2 == 0) <| pick (StWidth.ofCode (fld t 18 6)) fun wd =>
    pick (Order.ofCode (fld t 27 2)) fun o => pick (Scope.ofCode (fld t 29 3)) fun sc => op o.forStore <|
    op (even2 (sfld w 8) && wd.aligned (sfld w 0)) <|
    .ok (.sst (flag w 30) wd o sc (sfld w 8) (BitVec.ofNat 16 t) (sfld w 0))
  | 0x17 =>
    zf ((!flag t 22 || fld w 16 8 == 0) && fld t 24 3 == 0 && fld t 16 2 == 0) <|
    pick (AtomOp.ofCode (fld t 18 4)) fun a =>
    pick (Order.ofCode (fld t 27 2)) fun o => pick (Scope.ofCode (fld t 29 3)) fun sc =>
    op (even2 (sfld w 8) && (!flag t 23 || (even2 (sfld w 16) && even2 (sfld w 0)))) <|
    .ok (.satom (flag w 30) a (flag t 23) (flag t 22) o sc (sfld w 16) (sfld w 8) (BitVec.ofNat 16 t) (sfld w 0))
  | m => if m ≤ 0x26 then decSystem w t m else decTile w t m

/-- A word and its trailer to an instruction (R65, R68). The trailer is not looked at where none follows. -/
def decodeWords (w t : Nat) : Decoded :=
  if unassignedMajor w then .ok (.illegalInstructionWord (BitVec.ofNat 32 w))
  else if flag w 31 then decUniform w t (fld w 24 6) else decLane w t (fld w 24 6)

/-- The little-endian word at the head of a byte list (R2). -/
def takeWord : List Byte → Option (Nat × List Byte)
  | a :: b :: c :: d :: rest => some (a.toNat + b.toNat * 2 ^ 8 + c.toNat * 2 ^ 16 + d.toNat * 2 ^ 24, rest)
  | _ => none

/-- Bytes to an instruction and the bytes after it. -/
def decode (bs : List Byte) : Except DecodeError (Instr × List Byte) :=
  match takeWord bs with
  | none => .error .truncated
  | some (w, rest) =>
    if hasTrailer w && !unassignedMajor w then
      match takeWord rest with
      | none => .error .truncated
      | some (t, rest') => (decodeWords w t).map fun i => (i, rest')
    else (decodeWords w 0).map fun i => (i, rest)

/-- The four bytes of a word, the lowest address first (R2). -/
def wordBytes (w : Nat) : List Byte :=
  [BitVec.ofNat 8 w, BitVec.ofNat 8 (w / 2 ^ 8), BitVec.ofNat 8 (w / 2 ^ 16), BitVec.ofNat 8 (w / 2 ^ 24)]

/-- The decoder's reading of an instruction numbered as the opcode table numbers it: bits 31 to 0 are the word and bits
63 to 32 the trailer; bits above `nbits` are zero. -/
def decodeTableWord (nbits w : Nat) : Option Instr :=
  let v := w % 2 ^ nbits
  match decode (wordBytes (v % 2 ^ 32) ++ wordBytes (v / 2 ^ 32 % 2 ^ 32)) with
  | .ok (i, _) => some i
  | .error _ => none

/-! ### The encoder -/

/-- 2^k where a bit is set. -/
def bit (b : Bool) (k : Nat) : Nat := if b then 2 ^ k else 0

/-- The common part of a lane word (R65, R92). -/
def lw (c : LaneCtl) (major : Nat) : Nat := bit c.sw 30 + major * 2 ^ 24 + c.g.val * 2 ^ 21

/-- A lane word with three register fields (R74). -/
def lw3 (c : LaneCtl) (major : Nat) (d a b : Nat) : Nat := lw c major + d * 2 ^ 14 + a * 2 ^ 7 + b

/-- The common part of a uniform word (R163). -/
def uw (sw : Bool) (major : Nat) : Nat := 2 ^ 31 + bit sw 30 + major * 2 ^ 24

/-- A uniform word with three register fields (R77). -/
def uw3 (sw : Bool) (major : Nat) (d a b : Nat) : Nat := uw sw major + d * 2 ^ 16 + a * 2 ^ 8 + b

/-- The scope, order and offset part of an LM trailer (R75). -/
def lmTail (sc : Scope) (o : Order) (off : BitVec 13) : Nat := sc.code * 2 ^ 15 + o.code * 2 ^ 13 + off.toNat

/-- The scope, order and offset part of a uniform memory trailer (R78). -/
def umTail (sc : Scope) (o : Order) (off : BitVec 16) : Nat := sc.code * 2 ^ 29 + o.code * 2 ^ 27 + off.toNat

/-- The trailer part of a bit-field position (R101). -/
def posTail : FieldPos → Nat
  | .reg _ => 0
  | .imm p l => 2 ^ 23 + l.val * 2 ^ 5 + p.val

/-- The register number of a bit-field position, zero for the immediate form (R101). -/
def posReg : FieldPos → Nat
  | .reg r => r.val
  | .imm _ _ => 0

/-- The register number of an optional operand, zero if absent. -/
def optV : Option VReg → Nat
  | some r => r.val
  | none => 0

/-- The kind and name fields of `TCLAIM` and `TRELEASE` (R190). -/
def nameBits : NameKind → Nat
  | .tile t => t.val * 2 ^ 18
  | .acc a => a.val * 2 ^ 21 + 2 ^ 8

/-- A barrier word (R74, R76). -/
def barWord (c : LaneCtl) (op : Nat) (b : BarNum) (x : Option VReg) (cnt : Fin 17) : Nat :=
  lw c 0x3D + b.val * 2 ^ 17 + op * 2 ^ 15 + bit x.isSome 14 + optV x * 2 ^ 7 + cnt.val

/-- The words of an instruction (R65, R73 to R85, R92, R163, R190); device steps have none. -/
def encode : Instr → List Nat
  | .iadd c d a b => [lw3 c 0x00 d a b]
  | .isub c d a b => [lw3 c 0x01 d a b]
  | .iaddi c d a imm => [lw3 c 0x02 d a imm.toNat]
  | .iadd64 c d a b => [lw3 c 0x03 d a b]
  | .imul c d a b => [lw3 c 0x04 d a b]
  | .imulh c d a b => [lw3 c 0x05 d a b]
  | .imad c f d a b vc => [lw3 c 0x06 d a b, vc.val * 2 ^ 25 + f.code * 2 ^ 18]
  | .lea c s d a b sh o => [lw3 c 0x07 d a b, bit s 24 + sh.val * 2 ^ 18 + o.toNat]
  | .imin c d a b => [lw3 c 0x08 d a b]
  | .imax c d a b => [lw3 c 0x09 d a b]
  | .umin c d a b => [lw3 c 0x0A d a b]
  | .umax c d a b => [lw3 c 0x0B d a b]
  | .and c d a b => [lw3 c 0x0C d a b]
  | .or c d a b => [lw3 c 0x0D d a b]
  | .xor c d a b => [lw3 c 0x0E d a b]
  | .andn c d a b => [lw3 c 0x0F d a b]
  | .shl c d a b => [lw3 c 0x10 d a b]
  | .shr c d a b => [lw3 c 0x11 d a b]
  | .sar c d a b => [lw3 c 0x12 d a b]
  | .mov c d a => [lw3 c 0x13 d a 0]
  | .iun c f d a => [lw3 c 0x13 d a f.code]
  | .bfx c s d a f => [lw3 c 0x14 d a (posReg f), bit s 24 + posTail f]
  | .bfi c d a b f => [lw3 c 0x15 d a b, posReg f * 2 ^ 25 + posTail f]
  | .icmp c k p a b => [lw c 0x16 + k.code * 2 ^ 17 + p.val * 2 ^ 14 + a.val * 2 ^ 7 + b.val]
  | .sel s n d a b => [lw3 ⟨s, n⟩ 0x17 d a b]
  | .movi c d imm => [lw c 0x18 + d.val * 2 ^ 14 + imm.toNat]
  | .moviImm32 c d imm => [lw c 0x18 + d.val * 2 ^ 14 + 2 ^ 13, imm.toNat]
  | .movs c d a => [lw c 0x19 + d.val * 2 ^ 14 + a.val]
  | .fadd c d a b => [lw3 c 0x1A d a b]
  | .fsub c d a b => [lw3 c 0x1B d a b]
  | .fmul c d a b => [lw3 c 0x1C d a b]
  | .ffma c d a b => [lw3 c 0x1D d a b]
  | .ffmax c o ty m z d a b vc =>
    [lw3 c 0x1E d a b, vc.val * 2 ^ 25 + o.code * 2 ^ 22 + bit z 21 + m.code * 2 ^ 18 + ty.code * 2 ^ 16]
  | .fdiv c ty m z d a b => [lw3 c 0x1F d a b, bit z 21 + m.code * 2 ^ 18 + bit ty 16]
  | .fmin c d a b => [lw3 c 0x20 d a b]
  | .fmax c d a b => [lw3 c 0x21 d a b]
  | .fcmp c k p a b => [lw c 0x22 + k.code * 2 ^ 17 + p.val * 2 ^ 14 + a.val * 2 ^ 7 + b.val]
  | .funf c f z d a => [lw3 c 0x23 d a (bit z 6 + f.code)]
  | .hpadd c d a b => [lw3 c 0x24 d a b]
  | .hpmul c d a b => [lw3 c 0x25 d a b]
  | .hpfma c d a b => [lw3 c 0x26 d a b]
  | .cvt c df sf m z cl d di a si =>
    [lw3 c 0x27 d a (optV cl),
      bit cl.isSome 24 + bit z 23 + m.code * 2 ^ 18 + df.code * 2 ^ 13 + sf.code * 2 ^ 8 + di.val * 2 ^ 4 + si.val]
  | .dadd c d a b => [lw3 c 0x28 d a b]
  | .dmul c d a b => [lw3 c 0x29 d a b]
  | .dfma c d a b => [lw3 c 0x2A d a b]
  | .fdot8 c x y m d a b vc => [lw3 c 0x2B d a b, vc.val * 2 ^ 25 + bit x 24 + bit y 23 + m.code * 2 ^ 18]
  | .idot4 c x y d a b vc => [lw3 c 0x2C d a b, vc.val * 2 ^ 25 + bit x 24 + bit y 23]
  | .shfl c m d a (.reg r) => [lw3 c 0x2D d a r, m.code * 2 ^ 18]
  | .shfl c m d a (.imm i) => [lw3 c 0x2D d a 0, m.code * 2 ^ 18 + 2 ^ 17 + i.val]
  | .vote c m d p n q => [lw3 c 0x2E d 0 0, m.code * 2 ^ 18 + p.val * 2 ^ 4 + bit n 3 + q.val]
  | .redux c o k d a => [lw3 c 0x2F d a 0, o.code * 2 ^ 18 + k.code * 2 ^ 16]
  | .ld c (.plain w) o sc d a off => [lw3 c 0x30 d a 0, w.code * 2 ^ 21 + lmTail sc o off]
  | .ld c (.plane k u ctr) o sc d a off =>
    [lw3 c 0x30 d a (bit ctr 1 + bit u 0), 7 * 2 ^ 21 + k.val * 2 ^ 18 + lmTail sc o off]
  | .pref c l a off => [lw3 c 0x30 0 a 0, 2 ^ 24 + l.code * 2 ^ 18 + off.toNat]
  | .st c w o sc a off b => [lw3 c 0x31 0 a b, w.code * 2 ^ 21 + lmTail sc o off]
  | .atom c x w o sc d a off b => [lw3 c 0x32 d a b, bit w 23 + x.code * 2 ^ 18 + lmTail sc o off]
  | .red c x w o sc a off b => [lw3 c 0x32 0 a b, 2 ^ 24 + bit w 23 + x.code * 2 ^ 18 + lmTail sc o off]
  | .acas c w o sc d a off b vc => [lw3 c 0x33 d a b, vc.val * 2 ^ 25 + bit w 23 + lmTail sc o off]
  | .visw c o sc a off b => [lw3 c 0x34 0 a b, lmTail sc o off]
  | .tex c l d a b vc => [lw3 c 0x35 d a b, vc.val * 2 ^ 25 + l.code * 2 ^ 22]
  | .tld c d a b vc => [lw3 c 0x35 d a b, vc.val * 2 ^ 25 + 2 ^ 24]
  | .rayq c y u d a b => [lw3 c 0x36 d a b, bit y 23 + bit u 22]
  | .rayn c u d a b => [lw3 c 0x36 d a b, 2 ^ 24 + bit u 22]
  | .bra c off => [lw c 0x38 + off.toNat]
  | .call c d off => [lw c 0x39 + d.val * 2 ^ 14, off.toNat]
  | .ret c a => [lw3 c 0x3A 0 a 0]
  | .exit c => [lw c 0x3A + 1]
  | .yield c => [lw c 0x3A + 2]
  | .brx c a => [lw3 c 0x3A 0 a 3]
  | .fence c o sc => [lw c 0x3A + sc.code * 2 ^ 18 + o.code * 2 ^ 16 + 4]
  | .kset c k n p => [lw c 0x3B + k.val * 2 ^ 17 + p.val * 2 ^ 14 + bit n 13]
  | .karr c k => [lw c 0x3B + k.val * 2 ^ 17 + 1 * 2 ^ 7]
  | .kwait c k => [lw c 0x3B + k.val * 2 ^ 17 + 2 * 2 ^ 7]
  | .kleave c k => [lw c 0x3B + k.val * 2 ^ 17 + 3 * 2 ^ 7]
  | .waitu c k w o sc p a b vc =>
    [lw c 0x3C + k.code * 2 ^ 17 + p.val * 2 ^ 14 + a.val * 2 ^ 7 + b.val,
      vc.val * 2 ^ 25 + bit w 24 + sc.code * 2 ^ 15 + o.code * 2 ^ 13]
  | .bar c b x n => [barWord c 0 b x n]
  | .bara c b x n => [barWord c 1 b x n]
  | .barw c b x n => [barWord c 2 b x n]
  | .sadd s d a b => [uw3 s 0x00 d a b]
  | .ssub s d a b => [uw3 s 0x01 d a b]
  | .smul s d a b => [uw3 s 0x02 d a b]
  | .sand s d a b => [uw3 s 0x03 d a b]
  | .sor s d a b => [uw3 s 0x04 d a b]
  | .sxor s d a b => [uw3 s 0x05 d a b]
  | .sshl s d a b => [uw3 s 0x06 d a b]
  | .sshr s d a b => [uw3 s 0x07 d a b]
  | .ssar s d a b => [uw3 s 0x08 d a b]
  | .smin s d a b => [uw3 s 0x09 d a b]
  | .smax s d a b => [uw3 s 0x0A d a b]
  | .sumin s d a b => [uw3 s 0x0B d a b]
  | .sumax s d a b => [uw3 s 0x0C d a b]
  | .smov s d a => [uw3 s 0x0D d a 0]
  | .smovi s d imm => [uw s 0x0E + d.val * 2 ^ 16 + imm.toNat]
  | .smovx s w d imm => [uw s 0x0F + d.val * 2 ^ 16 + bit w 0, imm.toNat]
  | .sadd64 s d a b => [uw3 s 0x10 d a b]
  | .scmp s k w q a b => [uw s 0x11 + k.code * 2 ^ 20 + q.val * 2 ^ 17 + bit w 16 + a.val * 2 ^ 8 + b.val]
  | .ssel s q d a b => [uw3 s 0x12 d a b, q.val]
  | .sun s f d a => [uw3 s 0x13 d a f.code]
  | .sbra s n q off => [uw s 0x14 + bit n 23 + q.val * 2 ^ 20 + off.toNat]
  | .sld s w o sc d a off => [uw3 s 0x15 d a 0, w.code * 2 ^ 18 + umTail sc o off]
  | .sst s w o sc a off b => [uw3 s 0x16 0 a b, w.code * 2 ^ 18 + umTail sc o off]
  | .satom s x w n o sc d a off b => [uw3 s 0x17 d a b, bit w 23 + bit n 22 + x.code * 2 ^ 18 + umTail sc o off]
  | .csrr s r w k d x => [uw3 s 0x18 d x r.code, k.val * 2 ^ 2 + w.code]
  | .csrw s r w k x a => [uw3 s 0x19 x a r.code, k.val * 2 ^ 2 + w.code]
  | .time s x d => [uw3 s 0x1A d 0 x.code]
  | .sleep s ab a => [uw3 s 0x1B 0 a (bit ab 0)]
  | .waits s k w o sc q a b st =>
    [uw s 0x1C + k.code * 2 ^ 20 + q.val * 2 ^ 17 + bit w 16 + a.val * 2 ^ 8 + b.val,
      st.val * 2 ^ 24 + sc.code * 2 ^ 21 + o.code * 2 ^ 19]
  | .attach s e a n => [uw3 s 0x1D 0 a (n.val * 2 ^ 5 + e.val)]
  | .detach s e => [uw3 s 0x1E 0 0 e.val]
  | .replay s off => [uw s 0x1F + bit off 0]
  | .launch s q a => [uw s 0x20 + q.val * 2 ^ 17 + a.val * 2 ^ 8]
  | .launchw s a => [uw s 0x21 + a.val * 2 ^ 8]
  | .taskq s q a => [uw s 0x22 + q.val * 2 ^ 17 + a.val * 2 ^ 8]
  | .trap s imm => [uw s 0x23 + imm.toNat]
  | .tret s => [uw s 0x24]
  | .genr s g d a => [uw3 s 0x25 d a g.code]
  | .brk s imm => [uw s 0x26 + imm.toNat]
  | .tclaim s q n => [uw s 0x28 + nameBits n + q.val * 2 ^ 9]
  | .trelease s n => [uw s 0x29 + nameBits n]
  | .tfill s f q t a => [uw s 0x2A + t.val * 2 ^ 18 + bit q 13 + f.code * 2 ^ 8 + a.val]
  | .tzero s t => [uw s 0x2B + t.val * 2 ^ 18]
  | .mma s fa fb ca cb p a ta oa tb ob =>
    [uw s 0x2C + a.val * 2 ^ 21 + ta.val * 2 ^ 18 + tb.val * 2 ^ 15 + ob.val * 2 ^ 11 + oa.val * 2 ^ 8,
      fa.code * 2 ^ 27 + fb.code * 2 ^ 22 + bit ca 21 + bit cb 20 + bit p.isSome 19 + (p.getD 0).val * 2 ^ 16]
  | .aclr s a => [uw s 0x2D + a.val * 2 ^ 21]
  | .ascale s w q d t a => [uw s 0x2E + d.val * 2 ^ 21 + t.val * 2 ^ 18 + bit q 9 + bit w 8 + a.val]
  | .adrain s f m w r cl a x =>
    [uw s 0x2F + a.val * 2 ^ 21 + bit r 9 + bit w 8 + x.val,
      f.code * 2 ^ 27 + m.code * 2 ^ 24 + bit cl.isSome 23 + (cl.getD 0).val * 2 ^ 15]
  | .aread s d a x n => [uw s 0x30 + a.val * 2 ^ 21 + n.val * 2 ^ 8 + x.val, d.val]
  | .cpy s d a => [uw3 s 0x31 d a 0]
  | .cpyw s d a h => [uw3 s 0x32 d a h.val]
  | .hclaim s h a => [uw3 s 0x33 0 a h.val]
  | .hfull s sc h => [uw3 s 0x34 0 sc.code h.val]
  | .hdrain s h => [uw3 s 0x35 0 0 h.val]
  | .hfree s h => [uw3 s 0x36 0 0 h.val]
  | .hret s h => [uw3 s 0x37 0 0 h.val]
  | .hrel s h => [uw3 s 0x38 0 0 h.val]
  | .hwait s f d h => [uw3 s 0x39 d (bit f 0) h.val]
  | .illegalInstructionWord w => [w.toNat]
  | _ => []

/-- The bytes of an instruction as the hardware stores them (R2). -/
def encodeBytes (i : Instr) : List Byte := (encode i).flatMap wordBytes

/-- The number of words of an instruction: two where a trailer follows (R66). -/
def Instr.words (i : Instr) : Nat := (encode i).length

end Sys2Proof
end

