-- ==== Sys2Proof/Machine/State.lean ====
section
/-! DEFINITION. The state of the device as plain data: threads, groups and workgroups; the storage of each core and its
generation tags; the accesses, tile operations and copies in flight; watches, launches, queues, tasks and contexts; the
strips, outputs, clocks and monitors of the device; and the memories. -/

namespace Sys2Proof.Machine

/-- Why the machine stops with a fault. Safe: the model stops where the manual's own addresses end. -/
inductive Fault where
  /-- Raised by `Dev` reads and writes of the control node's own tables beyond the end of device memory (R376): the
  manual says no such byte exists. Safe. -/
  | noSuchMemory (addr : Nat)
  deriving DecidableEq, Repr

/-- Why the model gives no meaning. -/
inductive Refusal where
  /-- Raised by an arm of `exec` that has no meaning yet. Safe. -/
  | notModelled (mnemonic : String)
  deriving DecidableEq, Repr

/-! ### Threads and groups -/

/-- Why a thread is parked on its own account (R231); the switch bit is `Thread.sw`. -/
inductive Wait where
  | none
  /-- parked by `KWAIT` on a mask (R149) -/
  | mask (k : Nat)
  /-- parked by `BAR` or `BARW` on a barrier of a workgroup, for the phase it saw (R159); `own` for `BAR` -/
  | bar (core wg b phase : Nat) (own remote : Bool)
  /-- parked by `WAITU` on a watch (R152) -/
  | watch (w : Nat)
  /-- arrived at `REPLAY`, with its `.off` and the word after it (R181) -/
  | replay (off : Bool) (next : Nat)
  /-- parked by a translation fault, its access to be replayed (R129) -/
  | fault
  /-- present at a traversal that its issue instance, of that number, has not finished (R140, notes/assumptions/65.md) -/
  | unit (inst : Nat)
  deriving DecidableEq, Repr, Inhabited

/-- A thread (R31, R34). -/
structure Thread where
  /-- not ended (R234) -/
  live : Bool := false
  /-- its own program counter (R144) -/
  pc : Nat := 0
  /-- outstanding count, at most 63 (R34, R35) -/
  count : Nat := 0
  /-- parked until the count is zero (R35, R71) -/
  sw : Bool := false
  wait : Wait := .none
  /-- `p0` to `p6` (R31) -/
  preds : BitVec 7 := 0
  /-- `srstate` (R49) -/
  seed : Word := 0
  deriving DecidableEq, Repr, Inhabited

/-- A mask register: members and arrived lanes (R31, R149). -/
structure Mask where
  m : DWord := 0
  a : DWord := 0
  deriving DecidableEq, Repr, Inhabited

/-- Why a uniform word parks its group (R164). -/
inductive Park where
  | none
  | sleep (deadline : Nat)
  | watch (w : Nat)
  /-- `LAUNCHW` without a free entry (R183): the `cyc` since when it waits, and its record -/
  | launchw (since ptr : Nat)
  /-- a handle word or `CPY` before its handle allows it (R216) -/
  | handle (h : Nat)
  /-- `CPY` before its ferry accepts it (R271) -/
  | copy (id : Nat)
  /-- `CPYW` before its promised time (R213): the `cyc` of its issue, destination and handle -/
  | promise (deadline issued sd h : Nat)
  /-- a tile word that met a full sequencer queue (R263) -/
  | sequencer
  /-- `ADRAIN` or `AREAD` in redundant mode until the sequencer reaches it (R204) -/
  | check (op : Nat)
  /-- a translation fault of a uniform access or of a handler's fetch, and whether the word is a handler's (R129, R189) -/
  | fault (handler : Bool)
  /-- `REPLAY` in a handler until the point is passed (R181) -/
  | replay
  /-- stopped for the debugger by `BRK`, with its entry in the stop table plus one, 0 while the table is full (R403) -/
  | dbg (entry : Nat)
  deriving DecidableEq, Repr, Inhabited

/-- Handler mode: the trapping set and the handler's program counter (R186). -/
structure Handler where
  set : Nat := 0
  pc : Nat := 0
  /-- where a save puts the trapping set back: the trapping instruction (R186) -/
  back : Nat := 0
  /-- a uniform word that had parked the group before the trap, its address and its lanes: they wait on (R188, R231) -/
  held : Park := .none
  hpc : Nat := 0
  hset : Nat := 0
  deriving DecidableEq, Repr, Inhabited

/-- A group of 64 threads (R31). -/
structure Group where
  used : Bool := false
  /-- workgroup slot on the core -/
  wg : Nat := 0
  /-- index in its workgroup (R33) -/
  index : Nat := 0
  /-- vector registers per thread and uniform registers, rounded (R31) -/
  vregs : Nat := 0
  sregs : Nat := 0
  s : Tbl Word := []
  /-- `q0` to `q6` -/
  q : BitVec 7 := 0
  k : Tbl Mask := []
  /-- slot bound to each `t` name, plus one; 0 unbound (R31) -/
  tn : Tbl Nat := []
  /-- tile bound to each `a` name, plus one; 0 unbound (R31) -/
  an : Tbl Nat := []
  thr : Tbl Thread := []
  /-- uniform outstanding count (R34) -/
  ucount : Nat := 0
  /-- parked until the uniform count is zero (R35, R71) -/
  usw : Bool := false
  park : Park := .none
  /-- the word that parked the group, and the lanes present in it -/
  ppc : Nat := 0
  pset : Nat := 0
  handler : Option Handler := none
  /-- stopped at an instruction boundary for a save (R368) -/
  halted : Bool := false
  tpc : DWord := 0
  tcause : Word := 0
  tval : DWord := 0
  /-- `mxstat` [3:0] (R45) -/
  mxstat : BitVec 4 := 0
  /-- the `cyc` in which flags of it were last set, and which: a clear in the same cycle leaves them (R25) -/
  setAt : Nat := 0
  setNow : BitVec 4 := 0
  mxerr : Word := 0
  /-- `oc.isw` (R48) -/
  isw : Nat := 0
  deriving DecidableEq, Repr, Inhabited

/-- What a running task carries to its retirement (R326, R329). -/
structure TaskInfo where
  /-- successor counter address, 0 for none -/
  succ : Nat := 0
  rel : Bool := false
  scope : Nat := 0
  /-- private base of the task (R241) -/
  privbase : Nat := 0
  atoll : Nat := 0
  /-- the record's bytes, for a restore (R372) -/
  bytes : List Byte := []
  deriving DecidableEq, Repr, Inhabited

/-- The part that a workgroup plays in a strip chain (R286, R287, R344, R345, R346). -/
structure StageInfo where
  chain : Nat := 0
  /-- 0 mesh, 1 shade, 2 upscale, 3 compute consumer -/
  role : Nat := 0
  frame : Nat := 0
  /-- strip k in its frame; the slot's strip g for a consumer -/
  strip : Nat := 0
  /-- bin (shade), workgroup index (mesh) or output slot (consumer) -/
  bin : Nat := 0
  /-- the part of its output slot is finished (R344) -/
  finished : Bool := false
  /-- a copy into its output slot is in flight (R344) -/
  copying : Bool := false
  deriving DecidableEq, Repr, Inhabited

/-- How far the save of a workgroup has come (R368). -/
inductive SavePhase where
  | no | halting
  deriving DecidableEq, Repr, Inhabited

/-- A workgroup slot of a core (R222). -/
structure Wg where
  used : Bool := false
  launch : Nat := 0
  /-- workgroup index in the launch (R221) -/
  index : Nat := 0
  /-- work identifier of lane 0 of group 0, or a task's tile coordinate (R221, R328) -/
  base : Nat := 0
  /-- group slots in ascending group index -/
  slots : List Nat := []
  gen : Gen := 0
  /-- scratchpad range in the array (R222) -/
  scrOff : Nat := 0
  scrLen : Nat := 0
  /-- `b0` to `b15` in the form of R156 -/
  bars : Tbl Nat := []
  /-- `rpidx` (R42) -/
  point : Nat := 0
  count : Nat := 0
  rst : Bool := false
  /-- restart address (R181) -/
  restart : Nat := 0
  /-- the `cyc`, plus one, at which a save of it found no room (R372) -/
  refused : Nat := 0
  /-- restartable as it stands (R181) -/
  restartable : Bool := false
  /-- the four partners' cores, workgroup slots and generations, where co-resident (R225) -/
  partners : List (Nat × Nat × Gen) := []
  task : Option TaskInfo := none
  stage : Option StageInfo := none
  save : SavePhase := .no
  /-- order of placement on the device (R350, R369) -/
  placed : Nat := 0
  deriving DecidableEq, Repr, Inhabited

/-! ### Storage of a core -/

/-- A vector row of one group: its tag and its lanes (R50). -/
structure Row where
  tag : Gen := 0
  lanes : Tbl Word := []
  deriving DecidableEq, Repr, Inhabited

/-- An operand-memory slot (R50): 128 rows of 1,024 bits. -/
structure Slot where
  tag : Gen := 0
  rows : Tbl (BitVec 1024) := []
  /-- the group slot that has it bound or is still to free it, plus one (R194, R195) -/
  owner : Nat := 0
  retired : Bool := false
  /-- uncorrectable 64-bit words: 16·row + word (R270) -/
  bad : List Nat := []
  deriving DecidableEq, Repr, Inhabited

/-- An accumulator tile (R50, R201): words at 128·i + j. -/
structure Tile where
  tag : Gen := 0
  acc : Tbl Word := []
  owner : Nat := 0
  retired : Bool := false
  /-- block counter (R201) -/
  blocks : Nat := 0
  /-- check record (R201) -/
  check : Option Nat := none
  bad : List Nat := []
  deriving DecidableEq, Repr, Inhabited

/-- Handle states (R214). -/
inductive HState where
  | free | filling | full | draining
  deriving DecidableEq, Repr, Inhabited

/-- A buffer handle (R214, R277). -/
structure Handle where
  state : HState := .free
  cons : Nat := 0
  retain : Nat := 0
  scope : Nat := 0
  /-- Narrows slot or scratchpad range (R215) -/
  narrows : Bool := false
  off : Nat := 0
  len : Nat := 0
  /-- the workgroup slot that claimed it, plus one, and its generation (R215) -/
  owner : Nat := 0
  gen : Gen := 0
  /-- status [6:0] (R214) -/
  status : BitVec 7 := 0
  /-- filled by a ferry without rel: what it orders is the ferry's bytes alone (R252) -/
  bare : Bool := false
  /-- an accepted copy into it or out of it is in flight -/
  copies : Nat := 0
  /-- bound by the device: 1 as a chain's mirror (R345), 2 for a compute consumer (R346) -/
  fixed : Nat := 0
  deriving DecidableEq, Repr, Inhabited

/-- One entry of the issue-group table (R226). -/
structure Entry where
  set : Nat
  way : Nat
  /-- launch number -/
  num : Nat
  pc : Nat
  /-- group slots ascending, each with the mask of its lanes -/
  parts : List (Nat × Nat)
  /-- the core cycle of its creation and the order of creation within it (R228, R399) -/
  age : Nat
  order : Nat
  aged : Bool := false
  deriving DecidableEq, Repr, Inhabited

/-- A cohort waiting for a way of its set (R227). -/
structure Cohort where
  num : Nat
  pc : Nat
  parts : List (Nat × Nat)
  deriving DecidableEq, Repr, Inhabited

/-- Where a byte lies (R239, R240). -/
inductive Place where
  | device | host
  | peer (n : Nat)
  /-- the scratchpad array of a core -/
  | sram (core : Nat)
  | narrows
  deriving DecidableEq, Repr, Inhabited

/-- Where an address leads before translation (R125, R240). -/
structure Reach where
  place : Place
  /-- bytes by 48-bit virtual address or by place -/
  vas : List (Nat × Nat)
  /-- through the context's page tables -/
  paged : Bool := false
  l1 : Bool := false
  /-- generation of the scratchpad reached -/
  ogen : Gen := 0
  /-- where the workgroup's scratchpad begins in the array -/
  off : Nat := 0
  ea : Nat
  deriving DecidableEq, Repr, Inhabited

/-- A ray (R140). -/
structure Ray where
  o : List FVal
  d : List FVal
  tmin : FVal
  tmax : FVal
  deriving DecidableEq, Repr, Inhabited

/-- A hit on a triangle: exact t, u and v, triangle index, user word and node (R141, R142). -/
structure Hit where
  t : Rat
  u : Rat
  v : Rat
  tri : Nat
  user : Nat
  leaf : Nat
  deriving DecidableEq, Repr, Inhabited

/-- The next read of a node fetch (R305): the counter, the node, the rest of a leaf's triangles, the counter again. -/
inductive NodeRead where
  | first
  | body (s1 : Nat)
  | tris (s1 : Nat) (node got : List Byte)
  | last (s1 : Nat) (node tris : List Byte)
  deriving DecidableEq, Repr, Inhabited

/-- The traversal of one thread (R140 to R143, R305). -/
structure Trav where
  ray : Ray
  /-- `RAYN`: one node -/
  one : Bool
  anyHit : Bool
  cull : Bool
  /-- nodes to visit, the next first -/
  pending : List Nat
  read : NodeRead := .first
  /-- fetches of this node that were not settled -/
  tries : Nat := 0
  best : Option Hit := none
  unstable : Bool := false
  visited : Nat := 0
  /-- number of the next value that the rules leave open (notes/assumptions/13.md) -/
  key : Nat
  /-- the record, once the traversal is over -/
  record : Option (List Word) := none
  deriving DecidableEq, Repr, Inhabited

/-- What an access in flight does when it is performed (R130 to R143, R172, R173). -/
inductive MemAct where
  | load (form : LdForm) (dst : Nat)
  | atom (op : AtomOp) (w64 : Bool) (operand : Nat) (dst : Nat) (returns : Bool)
  | cas (w64 : Bool) (expect new : Nat) (dst : Nat)
  | store (data : List Byte)
  | visw (operand : Nat)
  | fence
  /-- a sampled or traced result still to be returned: register and word (R137, R140) -/
  | result (vals : List (Nat × Word))
  /-- a traversal and the first register of its record (R140) -/
  | ray (t : Trav) (dst : Nat)
  deriving DecidableEq, Repr, Inhabited

/-- One thread's (or one uniform word's) access that has issued and is not yet performed. -/
structure MemOp where
  id : Nat
  /-- issue instance (R128) -/
  inst : Nat
  slot : Nat
  /-- the thread, or the present threads of a uniform word (R165) -/
  lanes : Nat
  uni : Bool
  gen : Gen
  ctx : Nat
  place : Place
  /-- physical bytes: address and length -/
  pieces : List (Nat × Nat)
  /-- the same bytes by 48-bit virtual address, for device bytes (R252) -/
  vas : List (Nat × Nat)
  /-- the effective address (R124) -/
  ea : Nat
  /-- generation under which scratchpad bytes are reached (R127) -/
  ogen : Gen
  /-- may use the core's L1 (R240, R242) -/
  l1 : Bool
  act : MemAct
  order : Order
  scope : Scope
  /-- the regions of its cover, none for all memory (R252) -/
  cover : Option (List (Nat × Nat))
  /-- place in the coalescing queue once it has entered it (R245) -/
  ent : Option Nat := none
  /-- reads of it from the queue: group slot, lanes and the read's number (R254) -/
  readers : List (Nat × Nat × Nat) := []
  /-- one of the four separate accesses of a 128-bit word (R130) -/
  wide : Bool := false
  /-- `cyc` of issue (R385), the word and the launch -/
  since : Nat := 0
  pc : Nat := 0
  launch : Nat := 0
  /-- a remote access that no context of the peer accepts: it can only fail (R385) -/
  dead : Bool := false
  /-- an access to the device's own peer number that waits for the answer to its translation fault (R384) -/
  stuck : Bool := false
  /-- an access to the device's own peer number whose pieces are bytes of device memory, reached by the Strait path (R243) -/
  own : Bool := false
  deriving DecidableEq, Repr, Inhabited

/-- A remote or host write placed but not yet acknowledged (R259, R385). -/
structure Unacked where
  id : Nat
  slot : Nat
  lanes : Nat
  gen : Gen
  host : Bool
  readers : List (Nat × Nat × Nat)
  /-- the bytes written -/
  place : Place := .host
  pieces : List (Nat × Nat) := []
  own : Bool := false
  ea : Nat := 0
  since : Nat := 0
  launch : Nat := 0
  /-- where another core's write that a thread of this core has read stands: that core and the write's number there (R255) -/
  origin : Option (Nat × Nat) := none
  deriving DecidableEq, Repr, Inhabited

/-- A line of an L1 (R245): its bytes, with the virtual line and context it was filled for. -/
structure L1Line where
  bytes : List Byte := []
  va : Nat := 0
  ctx : Nat := 0
  deriving DecidableEq, Repr, Inhabited

/-- A cached leaf translation (R377). -/
structure TlbEntry where
  ctx : Nat
  va : Nat
  size : Nat
  pa : Nat
  w : Bool
  x : Bool
  deriving DecidableEq, Repr, Inhabited

/-- What a tile operation does (R196 to R205); scratchpad offsets are those of the core's array. -/
inductive TileAct where
  | fill (slot : Nat) (fmt : Fmt) (off stride : Nat)
  | zero (slot : Nat)
  | mma (acc ta tb : Nat) (fa fb : Fmt) (ctra ctrb : Bool) (part : Option Nat) (oa ob : Nat)
  | clear (acc : Nat)
  | scale (dst src off : Nat) (s32 : Bool)
  | drain (acc : Nat) (fmt : Fmt) (mode : Mode) (bound : Option Word) (s32 rel : Bool) (off stride : Nat)
  | read (acc row n vd : Nat)
  /-- the freeing step of `TRELEASE` (R195) -/
  | free (acc : Bool) (n : Nat)
  deriving DecidableEq, Repr, Inhabited

/-- A tile operation in the sequencer's queue (R263). -/
structure TileOp where
  id : Nat
  slot : Nat
  gen : Gen
  wg : Nat
  /-- present lanes of the issuing word, for the release of `.rel` -/
  lanes : Nat
  /-- class of its context (R265) -/
  cls : Nat
  act : TileAct
  redundant : Bool
  staleTrap : Bool
  /-- chunks completed, and whether one is running -/
  done : Nat := 0
  running : Bool := false
  /-- `Power.ticks` when it entered the queue (R265) -/
  since : Nat := 0
  /-- the injection entries as they stood when the running chunk began, and the turn in which it did (R408) -/
  armed : Tbl (BitVec 64) := []
  begun : Nat := 0
  /-- the issuing word, for the trap of R204 -/
  pc : Nat := 0
  deriving DecidableEq, Repr, Inhabited

/-- A record in a core's pending-launch queue (R183, R325). -/
structure Pending where
  addr : Nat
  bytes : List Byte
  ctx : Nat
  /-- the launch made of it, once dispatched, plus one -/
  launch : Nat := 0
  deriving DecidableEq, Repr, Inhabited

/-- Bytes of one side of a copy: the place they are named in and, where an access reaches them through a page table, the place and
the bytes that it leads to (R207, R243, R257). -/
structure FerrySpan where
  place : Place := .device
  vas : List (Nat × Nat) := []
  home : Place := .device
  bytes : List (Nat × Nat) := []
  deriving DecidableEq, Repr, Inhabited

/-- What a copy in flight is still to write and to read for its issuing threads: their later accesses to the first, and their later
writes to the second, come after it (R254, R257). -/
structure FerryHold where
  copy : Nat
  /-- the number that the core's next access had at the issue of the command -/
  id : Nat := 0
  slot : Nat
  gen : Gen
  lanes : Nat
  writes : FerrySpan := {}
  reads : FerrySpan := {}
  /-- the command's rel flag: later releases of the threads come after the copy -/
  rel : Bool := false
  deriving DecidableEq, Repr, Inhabited

/-- The level of a texture sample, with the differences that `.auto` takes (R139). -/
inductive TexLevel where
  | l0
  | lvl (w : Word)
  | auto (d : List (FVal × FVal))
  deriving DecidableEq, Repr, Inhabited

/-- What a thread asks of the texture unit, read from its registers at issue (R72, R137). -/
inductive TexReq where
  | sample (ptr : Nat) (u v : Word) (level : TexLevel) (key : Nat)
  | texel (ptr : Nat) (x y n : Word)
  deriving DecidableEq, Repr, Inhabited

/-- The words that read a record (R183, R184). -/
inductive RecordWord where
  | launch (qd : Nat) | launchw | taskq (qd : Nat)
  deriving DecidableEq, Repr, Inhabited

/-- The access that a translation fault has stopped, as the word issued it (R129). -/
inductive StallAct where
  | access (r : Reach) (act : MemAct) (order : Order) (scope : Scope)
  | watch (r : Reach) (cond : Cond) (w64 : Bool) (operand timeout pd : Nat) (order : Order) (scope : Scope)
  | texture (req : TexReq) (vd : Nat)
  /-- the access in flight that holds the traversal -/
  | ray (op : Nat)
  | record (w : RecordWord) (ptr : Nat)
  deriving DecidableEq, Repr, Inhabited

/-- A thread, or a uniform word of a group, that waits for the answer to a translation fault (R129). -/
structure Stall where
  slot : Nat
  /-- the thread, or the present threads of the uniform word -/
  lanes : Nat
  uni : Bool
  handler : Bool := false
  gen : Gen
  /-- the word, its length in words and its switch bit -/
  pc : Nat
  words : Nat
  sw : Bool
  act : StallAct
  deriving DecidableEq, Repr, Inhabited

/-- A core (R1, R50, R226, R263). -/
structure Core where
  wgs : Tbl Wg := []
  grps : Tbl Group := []
  /-- vector rows: 128·group slot + register -/
  rows : Tbl Row := []
  sram : Memory := []
  /-- granule tags by granule of the array (R50) -/
  gtag : Tbl Gen := []
  slots : Tbl Slot := []
  tiles : Tbl Tile := []
  handles : Tbl Handle := []
  /-- launch numbers: launch plus one, 0 free (R222) -/
  nums : Tbl Nat := []
  /-- `gen.next`, `genlow` (R39, R40) -/
  nextGen : Gen := 1
  low : Gen := 1
  drops : Nat := 0
  /-- scratchpad share (R61) -/
  req : Nat := 8
  cur : Nat := 8
  table : List Entry := []
  queue : List Cohort := []
  order : Nat := 0
  flight : List MemOp := []
  unacked : List Unacked := []
  stalls : List Stall := []
  /-- next identity of an access or tile operation, next place in the coalescing queue -/
  nextOp : Nat := 0
  nextEnt : Nat := 0
  l1 : Tbl L1Line := []
  tlb : List TlbEntry := []
  pend : List Pending := []
  /-- the launch that the pending-launch queue dispatched last, plus one (R325) -/
  lastLaunch : Nat := 0
  seq : List TileOp := []
  ferried : List FerryHold := []
  /-- mismatch log (R269) -/
  mismatch : Tbl (BitVec 64) := []
  /-- logical array row to physical row, where not the same, plus one; spare rows used (R268, R395) -/
  rowMap : Tbl Nat := []
  rowSpares : Nat := 0
  rowsRetired : List Nat := []
  /-- fenced from new placement (R395), and the number of the turn that fenced it -/
  fenced : Bool := false
  fencedAt : Nat := 0
  deriving DecidableEq, Repr, Inhabited

/-! ### Launches -/

/-- The fields of a launch record (R319). -/
structure LaunchRec where
  code : Nat := 0
  args : Nat := 0
  comp : Nat := 0
  sig : Nat := 0
  sigval : Nat := 0
  handler : Nat := 0
  attach : Nat := 0
  privbase : Nat := 0
  psize : Nat := 0
  rsseed : Nat := 0
  widths : List Nat := []
  ext : Nat := 0
  scratch : Nat := 0
  vregs : Nat := 0
  sregs : Nat := 0
  groups : Nat := 0
  producer : Option Nat := none
  flags : Nat := 0
  atolls : Nat := 0
  tag : Nat := 0
  deriving DecidableEq, Repr, Inhabited

/-- An attachment entry (R178): object pointer and regions as base and bytes. -/
structure Attachment where
  obj : Nat
  regions : List (Nat × Nat)
  deriving DecidableEq, Repr, Inhabited

/-- A workgroup to be placed again: flushed and restartable (R182). -/
structure Restart where
  index : Nat
  point : Nat
  count : Nat
  pc : Nat
  restartable : Bool
  stage : Option StageInfo := none
  /-- the core plus one of a co-resident workgroup, whose quad keeps its atoll (R225) -/
  core : Nat := 0
  /-- flushed by pre-emption: placed again only where no higher class waits (R369) -/
  yields : Bool := false
  deriving DecidableEq, Repr, Inhabited

/-- A launch, from its dispatch to its end (R317, R333). -/
structure Launch where
  /-- dispatched and not yet ended -/
  used : Bool := false
  lr : LaunchRec := {}
  /-- the record's bytes and address (R62) -/
  bytes : List Byte := []
  addr : Nat := 0
  ctx : Nat := 0
  cls : Nat := 0
  /-- queue plus one, 0 for none; its priority and the `cyc` since when it was ready (R316) -/
  queue : Nat := 0
  priority : Nat := 0
  ready : Nat := 0
  /-- the serial predecessor plus one, 0 for none (R317, R325) -/
  prev : Nat := 0
  /-- the record has been checked (R322) -/
  checked : Bool := false
  /-- core plus one whose pending-launch queue it came from (R325) -/
  core : Nat := 0
  attached : Tbl (Option Attachment) := []
  /-- next workgroup index to place (R223), and the core that took the last one, plus one (R323) -/
  next : Nat := 0
  lastCore : Nat := 0
  restarts : List Restart := []
  /-- `cyc` and `ptime.ns` at the first placement, or at the check of a refused record (R334) -/
  placed : Bool := false
  firstCyc : Nat := 0
  firstNs : Nat := 0
  /-- since when it waits for cores (R369) -/
  since : Nat := 0
  retired : Nat := 0
  faults : Nat := 0
  restartCount : Nat := 0
  /-- first fault: cause, core, group index, `tval` (R334) -/
  first : Option (Nat × Nat × Nat × Nat) := none
  /-- 0 running; else the status it ends with (R334) -/
  status : Nat := 0
  reason : Nat := 0
  /-- 0, or one more than the chain whose work it is; role and frame as in `StageInfo` -/
  chain : Nat := 0
  role : Nat := 0
  frame : Nat := 0
  /-- a consumer's output slot and strip g (R346) -/
  outSlot : Nat := 0
  strip : Nat := 0
  /-- the length of `State.past` at the first placement: a fetch may still see any word written over since (R69) -/
  textAt : Nat := 0
  deriving DecidableEq, Repr, Inhabited

/-! ### Watches -/

/-- Who waits on a watch (R278). -/
inductive Waiter where
  | thread (core slot lane : Nat)
  | group (core slot : Nat)
  /-- a position in a context's save area: directory entry, group, lane (64 the group) (R283) -/
  | saved (ctx entry group lane : Nat)
  /-- the queue scheduler's watch on a write index (R315) -/
  | queue (q : Nat)
  /-- the device's watch on an encoder's read index (R387) -/
  | ring (chain : Nat)
  deriving DecidableEq, Repr, Inhabited

/-- Where a registered watch is held (R279, R281). -/
inductive Held where
  | table
  /-- in a spill record at an index of its segment -/
  | spilled (record : Nat)
  | deferred
  deriving DecidableEq, Repr, Inhabited

/-- A watch (R278). -/
structure Watch where
  used : Bool := false
  slice : Nat := 0
  /-- physical address of the word -/
  addr : Nat := 0
  w64 : Bool := false
  cond : Cond := .eq
  operand : Nat := 0
  /-- timeout in `cyc`, none for never; and the deadline once placed -/
  timeout : Option Nat := none
  deadline : Option Nat := none
  ctx : Nat := 0
  waiter : Waiter := .thread 0 0 0
  gen : Gen := 0
  /-- predicate that receives the outcome, 7 for none -/
  pd : Nat := 7
  order : Order := .rlx
  scope : Scope := .wg
  cover : Option (List (Nat × Nat)) := none
  held : Held := .table
  /-- the number that the slice's next walk had at its registration (R282) -/
  from_ : Nat := 0
  /-- the present lanes of a saved group that waits (R374) -/
  lanes : Nat := 0
  deriving DecidableEq, Repr, Inhabited

/-- Outcomes of a watch (R152, R284). -/
inductive WatchEnd where
  | satisfied | expired | retranslate
  deriving DecidableEq, Repr, Inhabited

/-- An outcome on its way to the waiter (R280). -/
structure WatchMsg where
  used : Bool := false
  watch : Nat := 0
  data : Watch := {}
  out : WatchEnd := .satisfied
  deriving DecidableEq, Repr, Inhabited

/-- A write waiting for a slice's spill walker (R282). -/
structure Walk where
  addr : Nat
  /-- its place in the slice's order (R282) -/
  num : Nat := 0
  /-- the bytes of the 64-byte line after the write -/
  line : List Byte
  /-- bytes written within the line -/
  from_ : Nat
  len : Nat
  cyc : Nat
  deriving DecidableEq, Repr, Inhabited

/-- An L2 slice: filter, spilled-context list and walker queue (R281, R282). -/
structure Slice where
  filter : List Nat := []
  ctxs : List Nat := []
  walks : List Walk := []
  /-- walks queued so far -/
  count : Nat := 0
  /-- ways that failed (R395) -/
  badWays : List Nat := []
  deriving DecidableEq, Repr, Inhabited

/-! ### Copies and ferries -/

/-- The stages of a copy (R206 to R212, R276). -/
inductive CopyPhase where
  | offered | moving | parked
  deriving DecidableEq, Repr, Inhabited

/-- A copy command from its issue to its completion (R206, R208). -/
structure Copy where
  used : Bool := false
  /-- the 64 bytes of the command, and of the tensor parameter record once read -/
  cmd : List Byte := []
  tensor : List Byte := []
  core : Nat := 0
  slot : Nat := 0
  wg : Nat := 0
  gen : Gen := 0
  launch : Nat := 0
  ctx : Nat := 0
  lanes : Nat := 0
  /-- destination register of the promise, and the word's address for a save -/
  sd : Nat := 0
  phase : CopyPhase := .offered
  ferry : Nat := 0
  promise : Nat := 0
  /-- destinations: core and stage (0 to deliver, 1 delivered, 2 complete, 3 skipped) -/
  dests : List (Nat × Nat) := []
  status : BitVec 7 := 0
  /-- the generation under which each destination writes -/
  gens : List (Nat × Gen) := []
  /-- the `cyc` of acceptance -/
  accepted : Nat := 0
  /-- the ferry has begun: element codes in ascending box order, those outside the tensor as none (R210) -/
  taken : Bool := false
  data : List (Option Nat) := []
  /-- the next access number of the issuing core at the issue: earlier accesses come before the copy (R257) -/
  mark : Nat := 0
  /-- the strip slot whose part this copy finishes for a workgroup that has retired (R344) -/
  part : Option Nat := none
  /-- the number, plus one, under which its writes to a peer wait for their acknowledgement (R259) -/
  ack : Nat := 0
  /-- the pointer, through the device's own peer number, whose translation it waits for (R243, R384) -/
  stuck : Option Nat := none
  deriving DecidableEq, Repr, Inhabited

/-- A ferry: its queue in acceptance order and the promise of the command accepted last (R271, R272). -/
structure Ferry where
  queue : List Nat := []
  prev : Nat := 0
  deriving DecidableEq, Repr, Inhabited

/-- A task record in a ready queue (R327); `late` for a successor that met a reserved atoll (R349). -/
structure ReadyTask where
  bytes : List Byte
  launch : Nat
  late : Bool := false
  deriving DecidableEq, Repr, Inhabited

/-- A retired task's decrement on its way to the counter (R329). -/
structure Decrement where
  addr : Nat
  launch : Nat
  atoll : Nat
  core : Nat
  gen : Gen
  /-- scope of its release, none without rel -/
  rel : Option Scope
  /-- its entry of the ready queue is still reserved (R331) -/
  reserved : Bool := true
  deriving DecidableEq, Repr, Inhabited

/-- An atoll: its task scheduler and second-level TLB (R184, R327, R377). -/
structure Atoll where
  ready : List ReadyTask := []
  reserved : Nat := 0
  tlb : List TlbEntry := []
  deriving DecidableEq, Repr, Inhabited

/-- The issue instance in execution: set by `step` from the entry it takes (R228). -/
structure Inst where
  core : Nat
  pc : Nat
  num : Nat
  parts : List (Nat × Nat)
  handler : Bool := false
  /-- the first word, the trailer (0 for none) and the number of words (R66) -/
  word : Nat := 0
  trailer : Nat := 0
  words : Nat := 1
  /-- lanes that events of its groups have woken so far, event by event: group slots and lanes (R227) -/
  woken : List (List (Nat × Nat)) := []
  deriving DecidableEq, Repr, Inhabited

/-- The time servo (R335 to R337): the latest sample pair with `ptime` in units of 2^-32 ns, and rho = num/den. -/
structure Servo where
  c0 : Nat := 0
  p0 : Nat := 0
  num : Nat := 19
  den : Nat := 10
  state : Nat := 0
  domain : Nat := 0
  offset : Int := 0
  /-- the source followed (R336) -/
  source : Option Nat := none
  /-- the Sync that waits for its Follow_Up: sequence and `ptime` of its receipt -/
  sync : Option (Nat × Nat) := none
  /-- the Delay_Req that waits for its response: sequence and `ptime` of its sending -/
  delayReq : Option (Nat × Nat) := none
  /-- last receipt less sending time of a Sync, and the path delay, in ns, once it has been measured of the source followed -/
  t21 : Int := 0
  delay : Int := 0
  measured : Bool := false
  /-- successive Syncs with an offset below 100 ns -/
  calm : Nat := 0
  /-- adjustment of the rate, in units of 10^-9 -/
  adj : Int := 0
  deriving DecidableEq, Repr, Inhabited

/-- An agent that waits for the answer to a translation fault (R379). -/
inductive FaultAgent where
  | thread (core slot lane : Nat)
  | group (core slot lanes : Nat) (handler : Bool)
  | ferry (copy : Nat)
  | traversal (core slot lane : Nat)
  | fetch (core slot lanes : Nat) (handler : Bool)
  | spill (slice : Nat)
  | strait (source : Nat)
  deriving DecidableEq, Repr, Inhabited

/-- A translation fault not yet answered: its place in the context's fault queue once it has one (R379). -/
structure FaultRec where
  ctx : Nat
  index : Option Nat := none
  ptr : Nat
  kind : Nat
  agent : FaultAgent
  cyc : Nat
  /-- the generation of the waiting thread or group -/
  gen : Gen := 0
  deriving DecidableEq, Repr, Inhabited


/-- What a workgroup or task needs of a core (R222). -/
structure Needs where
  groups : Nat := 0
  vregs : Nat := 0
  sregs : Nat := 0
  scratch : Nat := 0
  deriving DecidableEq, Repr, Inhabited

/-- A workgroup whose restore waits for a core or for units (R63). -/
structure RestoreWait where
  ctx : Nat
  /-- directory entry -/
  entry : Nat
  /-- the core where it waits, with the resources of R222 reserved for it once `reserved` -/
  core : Option Nat := none
  reserved : Bool := false
  needs : Needs := {}
  slots : Nat := 0
  tiles : Nat := 0
  deriving DecidableEq, Repr, Inhabited

/-- What the device holds of a saved workgroup beside its save area and directory entry (R371, R372). -/
structure Saved where
  used : Bool := false
  launch : Nat := 0
  /-- the area's address and its pages in the pool -/
  area : Nat := 0
  pages : Nat := 0
  /-- work identifier of its first lane -/
  base : Nat := 0
  /-- the core that holds its handles, 0xFF for none (R371, R372), and the generation under which it was saved -/
  core : Nat := 0
  gen : Gen := 0
  task : Option TaskInfo := none
  stage : Option StageInfo := none
  restart : Nat := 0
  restartable : Bool := false
  count : Nat := 0
  rst : Bool := false
  index : Nat := 0
  /-- offsets of its group blocks in the area (R62), and of the scratchpad image -/
  blocks : List Nat := []
  image : Nat := 0
  /-- where its scratchpad began in the array -/
  scrOff : Nat := 0
  /-- block counter and check record of its tiles: group, name, counter, record (R201) -/
  tiles : List (Nat × Nat × Nat × Option Nat) := []
  /-- a watch of it has been decided since (R283, R318) -/
  decided : Bool := false
  deriving DecidableEq, Repr, Inhabited

/-- The device's registers of a context: `rastthr` (R47), its saved workgroups by directory entry, and whether the
broken layout of its descriptor has been posted (R364). -/
structure CtxRegs where
  rastthr : BitVec 24 := 0x000800
  saved : Tbl Saved := []
  posted : Bool := false
  deriving DecidableEq, Repr, Inhabited

/-! ### Queues -/

/-- What the queue scheduler holds of a user queue (R315, R316). -/
structure QueueRegs where
  /-- since when it is ready, plus one; 0 not ready -/
  ready : Nat := 0
  /-- the launch that it dispatched last, plus one (R317) -/
  last : Nat := 0
  deriving DecidableEq, Repr, Inhabited

/-- A hardware slot (R316): its queue plus one, since when it holds it, and whether its slice has passed. -/
structure HwSlot where
  queue : Nat := 0
  since : Nat := 0
  expired : Bool := false
  deriving DecidableEq, Repr, Inhabited

/-! ### Strips -/

/-- A device-level slot entry (R342); `mesh` names the frame and workgroup index that hold a mesh slot (R287, R289). -/
structure SlotEntry where
  units : Nat := 0
  parts : Nat := 0
  state : HState := .free
  retain : Nat := 0
  cons : Nat := 0
  fault : Bool := false
  /-- every part so far was finished by a copy without rel (R252) -/
  bare : Bool := false
  scope : Nat := 0
  granted : Bool := false
  chain : Nat := 0
  strip : Nat := 0
  mesh : Option (Nat × Nat) := none
  deriving DecidableEq, Repr, Inhabited

/-- One entry of a bin (R293): converted vertices x, y and key, id, area, path, and whether it lies in the spill area. -/
structure BinEntry where
  v : List (Int × Int × Nat)
  id : Nat
  area : Nat
  soft : Bool
  spilled : Bool
  /-- its place in the spill area (R294) -/
  place : Nat := 0
  deriving DecidableEq, Repr, Inhabited

/-- A bin: its entries in order and the entries dropped (R293, R294). -/
structure Bin where
  entries : List BinEntry := []
  drops : Nat := 0
  /-- the shading rate it was first placed with, plus one (R352) -/
  rate : Nat := 0
  deriving DecidableEq, Repr, Inhabited

/-- A strip of a frame from its opening (R347, R351, R352). -/
structure Strip where
  /-- its deadline D, once opened, and the `cyc` of its first bin placement -/
  deadline : Option Int := none
  first : Nat := 0
  /-- the rate has stepped during the strip -/
  stepped : Bool := false
  /-- its output slot has become full (R347), and its source slot (R345) -/
  full : Bool := false
  source : Bool := false
  deriving DecidableEq, Repr, Inhabited

/-- A frame of a chain (R294, R348). -/
structure Frame where
  num : Nat := 0
  /-- workgroups of the mesh launch, those the binner has passed, and whether the launch has completed -/
  total : Nat := 0
  taken : Nat := 0
  meshDone : Bool := false
  /-- mesh workgroups that retired without a full slot (R289) -/
  empty : List Nat := []
  closed : Bool := false
  /-- bins by k·B + b -/
  bins : Tbl Bin := []
  strips : Tbl Strip := []
  /-- shading and upscale launches, plus one -/
  shade : Nat := 0
  upscale : Nat := 0
  /-- bin workgroups retired -/
  retired : Nat := 0
  deriving DecidableEq, Repr, Inhabited

/-- What a CSI-2 packet is (R357). -/
inductive PacketKind where
  | frameStart | frameEnd | lineStart | lineEnd | rgb888 | yuv422
  deriving DecidableEq, Repr, Inhabited

/-- A CSI-2 packet of an A-PHY port (R357): virtual channel 0; the 16-bit field of a short packet or the byte count of a long one, the
header's error correction, and a long packet's payload and checksum. -/
structure Packet where
  kind : PacketKind
  channel : Nat := 0
  value : Nat
  ecc : Nat
  payload : List Byte := []
  checksum : Option Nat := none
  deriving DecidableEq, Repr, Inhabited

/-- A line sent to a port or output (R357, R360): frame, strip, line, and its bytes, or the fill colour; and the packets that an A-PHY
port sends for it. -/
structure SentLine where
  frame : Nat
  strip : Nat
  line : Nat
  fill : Option Nat := none
  bytes : List Byte := []
  packets : List Packet := []
  deriving DecidableEq, Repr, Inhabited

/-- A chain control block and the chain it runs (R338, R339). -/
structure Chain where
  record : Nat := 0
  reason : Nat := 0
  /-- 0 idle, 1 running, 2 refused, 3 stopping -/
  state : Nat := 0
  strips : Nat := 0
  misses : Nat := 0
  /-- a start command that waits for zeroed units (R365) -/
  pending : Bool := false
  /-- the record's 256 bytes as read at the start, the context, and the shading and upscale stages' launch records as read
  then (R340) -/
  bytes : List Byte := []
  ctx : Nat := 0
  shadeRec : List Byte := []
  upRec : List Byte := []
  /-- the mesh slot that the binner has begun and waits with: frame, workgroup index, and `rastthr` as read (R292) -/
  begun : Option (Nat × Nat × Nat) := none
  /-- current rate and calm strips (R351) -/
  rate : Nat := 0
  calm : Nat := 0
  /-- mesh launches dispatched, and frames dispatched to shading -/
  launched : Nat := 0
  dispatched : Nat := 0
  frames : List Frame := []
  /-- records in the miss ring (R355) -/
  posted : Nat := 0
  /-- next strip g whose instant has not been met; strips the consumer has finished -/
  next : Nat := 0
  done : Nat := 0
  /-- the strip g that a line consumer sends, whether by fill, and its next line -/
  cur : Option Nat := none
  fill : Bool := false
  line : Nat := 0
  /-- strips g met late, to be freed unread when they become full (R354) -/
  missed : List Nat := []
  /-- the line sent last -/
  sent : Option SentLine := none
  /-- the encoder's write and read index (R387) -/
  write : Nat := 0
  read : Nat := 0
  /-- the frame, plus one, whose headers the encoder has written (R359) -/
  headed : Nat := 0
  /-- the turn in which the encoder took its strip, plus one, 0 for none; it waits on the read index -/
  taken : Nat := 0
  waiting : Bool := false
  deriving DecidableEq, Repr, Inhabited

/-! ### Links, errors, monitors and service -/

/-- A remote access from a peer that waits for its translation fault (R384). -/
structure Remote where
  source : Nat
  port : Nat
  pod : Nat
  va : Nat
  req : RemoteReq
  deriving DecidableEq, Repr, Inhabited

/-- A Strait or Causeway port (R383, R395): link up, held down on a duplicate number, the lane retrained last plus one,
the use of its spare lane, and whether it runs without a lane. -/
structure Port where
  up : Bool := false
  held : Bool := false
  /-- lanes retrained once, and the instants in `cyc` of each lane's last flit retries, the latest first -/
  retrained : List Nat := []
  flits : Tbl (List Nat) := []
  spare : Nat := 0
  deriving DecidableEq, Repr, Inhabited

/-- A camera-emulation port's configuration (R358). -/
structure PortCfg where
  en : Bool := false
  gear : Nat := 5
  deriving DecidableEq, Repr, Inhabited

/-- A DisplayPort output's configuration (R361). -/
structure OutCfg where
  en : Bool := false
  lanes : Nat := 2
  rate : Nat := 7
  flat : Nat := 0
  hb : Nat := 0xA0
  deriving DecidableEq, Repr, Inhabited

/-- A class quota once written (R262): most and least ways. -/
structure Quota where
  written : Bool := false
  most : Nat := 0xC
  least : Nat := 0
  deriving DecidableEq, Repr, Inhabited

/-- A counter block (R393). -/
structure Counters where
  corrected : Nat := 0
  retried : Nat := 0
  lasting : Nat := 0
  deriving DecidableEq, Repr, Inhabited

/-- An observation unit (R397); `recent` holds the last 64 samples, newest first. -/
structure Obs where
  en : Bool := false
  frz : Bool := false
  win : Bool := false
  e : Nat := 0x10
  filter : Nat := 0
  source : Nat := 0
  lo : Int := 0
  hi : Int := 0
  count : Nat := 0
  bins : Tbl Nat := []
  recent : List Int := []
  deriving DecidableEq, Repr, Inhabited

/-- An invalidation in progress (R378): the physical pages affected and the accesses to wait for, by core and number. -/
structure Inval where
  pages : List (Nat × Nat)
  ops : List (Nat × Nat)
  deriving DecidableEq, Repr, Inhabited

/-- The command status of the context registers (R363). -/
structure CtxCmd where
  busy : Bool := false
  op : Nat := 0
  ctx : Nat := 0
  va : Nat := 0
  pages : Nat := 0
  inval : Option Inval := none
  deriving DecidableEq, Repr, Inhabited

/-- The debugger's registers (R403, R404). -/
structure Debug where
  claim : BitVec 32 := 0
  tag : Nat := 0
  /-- stop table: core, group slot and word address, plus a valid bit -/
  stops : Tbl (Nat × Nat × Nat × Bool) := []
  unit : Nat := 0
  offset : Nat := 0
  gen : Nat := 0
  data : Nat := 0
  /-- status word 0xC128 -/
  rtag : Nat := 0
  stale : Bool := false
  refused : Bool := false
  deriving DecidableEq, Repr, Inhabited

/-- The service state: firmware, recovery, attestation and the test port (R401, R402, R405, R406). -/
structure Service where
  firmware : List Byte := []
  recovery : Bool := false
  /-- a refused image that no error log has recorded yet -/
  refusedImage : Bool := false
  nonce : List Byte := []
  busy : Bool := false
  /-- the nonce of the request in progress -/
  asked : List Byte := []
  report : List Byte := []
  /-- instruction of the test port: 0 BYPASS, 1 IDCODE, 2 SAMPLE/PRELOAD, 3 EXTEST; and its data register -/
  jtag : Nat := 1
  dr : Nat := 0x0B8801F3
  deriving DecidableEq, Repr, Inhabited

/-- Power, temperature and clock (R399): MHz, last samples (W, 1/4 °C), the stop, since when the die is below 95 °C plus
one, the `cyc` of the last periodic sample and clock step, and core cycles so far in units of 1/1900 (R265). -/
structure Power where
  clock : Nat := 1900
  watts : Int := 0
  temp : Int := 0
  stopped : Bool := false
  cool : Nat := 0
  sampled : Nat := 0
  stepped : Nat := 0
  ticks : Nat := 0
  deriving DecidableEq, Repr, Inhabited

/-! ### The machine -/

/-- The device. -/
structure State where
  /-- the turns to come and how many have been taken; MODEL'S OWN (notes/assumptions/1.md) -/
  agenda : List Turn := []
  tick : Nat := 0
  /-- the places of the acts that came last in this `cyc`, by the order that they belong to: acts whose order in a cycle a rule gives
  take it (R64, R157, R217, R247, R329, R356); MODEL'S OWN -/
  phase : Tbl Nat := []
  /-- the outcome of the hardware's choices in this turn; MODEL'S OWN -/
  choice : Nat := 0
  /-- `cyc` (R37) -/
  cyc : DWord := 0
  /-- the instance in execution -/
  inst : Option Inst := none
  cores : Tbl Core := []
  atolls : Tbl Atoll := []
  /-- device memory by physical address, the host's, the Narrows and the peers' (R239, R240) -/
  dev : Memory := []
  /-- bytes of device memory under a clean L2 line whose failing word reads as zero, until the line is fetched anew (R392) -/
  lent : List (Nat × Byte) := []
  /-- what writes to device memory have written over, newest first: address and bytes (R69) -/
  past : List (Nat × List Byte) := []
  host : Memory := []
  narrows : Memory := []
  peers : Tbl Memory := []
  launches : Tbl Launch := []
  /-- the number that the next launch takes at the earliest; MODEL'S OWN name of a launch -/
  launchCount : Nat := 0
  watches : Tbl Watch := []
  msgs : Tbl WatchMsg := []
  slices : Tbl Slice := []
  copies : Tbl Copy := []
  ferries : Tbl Ferry := []
  servo : Servo := {}
  faults : List FaultRec := []
  /-- number of placements so far, for "most recently placed" (R350, R369) -/
  placements : Nat := 0
  /-- user queues: table base, count, time slice of each class in µs, 0 for the reset value (R313), registers, hardware slots (R316) -/
  queueBase : Nat := 0
  queueCount : Nat := 0
  timeSlices : Tbl Nat := []
  queues : Tbl QueueRegs := []
  hwSlots : Tbl HwSlot := []
  /-- decrements on their way (R329) -/
  decrements : List Decrement := []
  /-- context table base and count, pre-emption delay in µs, command registers (R363) -/
  ctxBase : Nat := 0
  ctxCount : Nat := 0
  delay : Nat := 0x64
  cmd : CtxCmd := {}
  /-- restores that wait, in the order in which they began to wait (R63) -/
  restores : List RestoreWait := []
  /-- by context number -/
  ctxRegs : Tbl CtxRegs := []
  /-- chain control blocks, slot entries by unit, and released units not yet zeroed with their tenant plus one -/
  chains : Tbl Chain := []
  slotTable : Tbl SlotEntry := []
  dirty : Tbl Nat := []
  /-- port and output configuration, as words (R358, R361): gear and en; rate, lanes, en; flat; hb -/
  ports : Tbl PortCfg := []
  outputs : Tbl OutCfg := []
  /-- own peer number, 0x1FF unassigned (R383) -/
  peerNum : Nat := 0x1FF
  /-- Strait ports 0 to 23 and Causeway as 24 -/
  links : Tbl Port := []
  remotes : List Remote := []
  /-- results of remote atomics by source: sequence number and result, newest first (R384) -/
  windows : Tbl (List (Nat × Nat)) := []
  /-- L2 quota words as max and min, differences from the reset values (R262) -/
  quotas : Tbl Quota := []
  counters : Tbl Counters := []
  /-- error log: base, log2 of its entries less 4, write index (R394) -/
  logBase : Nat := 0
  logSize : Nat := 0
  logIndex : Nat := 0
  /-- spare map: retired physical row of each column plus one; retired physical slices in the order of their retirement (R396) -/
  rowShift : Tbl Nat := []
  retiredSlices : List Nat := []
  /-- rows marked for repair at the next reset: class, unit, address (R392, R395) -/
  repairs : List (Nat × Nat × Nat) := []
  /-- bytes that a lasting error has zeroed: place, first byte, number (R210, R392) -/
  zeroed : List (Place × Nat × Nat) := []
  obs : Tbl Obs := []
  injections : Tbl (BitVec 64) := []
  /-- the turn of the last write of each entry (R408) -/
  injected : Tbl Nat := []
  dbg : Debug := {}
  service : Service := {}
  power : Power := {}
  /-- bytes that the device last returned over Causeway, Strait or I3C -/
  answer : List Byte := []
  deriving DecidableEq, Repr, Inhabited

/-- The machine right after reset (R37 to R49, R405 and the reset columns): every field at its default, which the field
or its type gives; notes/assumptions/3.md lists the values that no rule states. -/
def State.reset : State := {}

end Sys2Proof.Machine
end

