-- ==== Sys2Proof/Machine/Ops.lean ====
section
/-! DEFINITION. The named operations: access to cores, groups and threads; the issue-group table (R226 to R230);
registers with their tags (R52, R54); the end of an allocation; taking a trap and returning from one (R43, R186, R188). -/

namespace Sys2Proof.Machine

/-! ### Access -/

/-- A core of the device. -/
def State.core (s : State) (c : Nat) : Core := Tbl.get s.cores c
/-- A core replaced. -/
def State.setCore (s : State) (c : Nat) (x : Core) : State := { s with cores := Tbl.set s.cores c x }
/-- A core changed. -/
def State.modCore (s : State) (c : Nat) (f : Core → Core) : State := s.setCore c (f (s.core c))
/-- A group by core and group slot. -/
def State.grp (s : State) (c g : Nat) : Group := Tbl.get (s.core c).grps g
/-- A group changed. -/
def State.modGrp (s : State) (c g : Nat) (f : Group → Group) : State :=
  s.modCore c fun x => { x with grps := Tbl.mod x.grps g f }
/-- A thread. -/
def State.thr (s : State) (c g l : Nat) : Thread := Tbl.get (s.grp c g).thr l
/-- A thread changed. -/
def State.modThr (s : State) (c g l : Nat) (f : Thread → Thread) : State :=
  s.modGrp c g fun x => { x with thr := Tbl.mod x.thr l f }
/-- A workgroup by core and workgroup slot. -/
def State.wg (s : State) (c w : Nat) : Wg := Tbl.get (s.core c).wgs w
/-- A workgroup changed. -/
def State.modWg (s : State) (c w : Nat) (f : Wg → Wg) : State :=
  s.modCore c fun x => { x with wgs := Tbl.mod x.wgs w f }
/-- The workgroup of a group. -/
def State.wgOf (s : State) (c g : Nat) : Wg := s.wg c (s.grp c g).wg
/-- A launch. -/
def State.launch (s : State) (l : Nat) : Launch := Tbl.get s.launches l
/-- A launch changed. -/
def State.modLaunch (s : State) (l : Nat) (f : Launch → Launch) : State :=
  { s with launches := Tbl.mod s.launches l f }
/-- The launch of a group. -/
def State.launchOf (s : State) (c g : Nat) : Launch := s.launch (s.wgOf c g).launch
/-- A handle of a core. -/
def State.handle (s : State) (c h : Nat) : Handle := Tbl.get (s.core c).handles h
/-- A handle changed. -/
def State.modHandle (s : State) (c h : Nat) (f : Handle → Handle) : State :=
  s.modCore c fun x => { x with handles := Tbl.mod x.handles h f }
/-- A watch changed. -/
def State.modWatch (s : State) (w : Nat) (f : Watch → Watch) : State := { s with watches := Tbl.mod s.watches w f }
/-- A copy. -/
def State.copy (s : State) (n : Nat) : Copy := Tbl.get s.copies n
/-- A copy changed. -/
def State.modCopy (s : State) (n : Nat) (f : Copy → Copy) : State := { s with copies := Tbl.mod s.copies n f }
/-- One of the choices that the manual leaves to the hardware, in this turn (notes/assumptions/1.md). -/
def State.choose (s : State) (bit : Nat) : Bool := s.choice.testBit bit
/-- Core cycles so far (R228, R399): as many as `cyc` while the core clock has never been lowered. -/
def State.coreCyc (s : State) : Nat := s.power.ticks / 1900
/-- `ptime` in units of 2^-32 ns (R38, R335). -/
def State.ptime (s : State) : Nat :=
  s.servo.p0 + (s.cyc.toNat - s.servo.c0) * 2 ^ 32 * s.servo.den / s.servo.num
/-- `ptime.ns` (R38). -/
def State.ptimeNs (s : State) : Nat := s.ptime / 2 ^ 32 % 2 ^ 64
/-- The first key from `n` up, of `fuel` tried, that a test accepts. -/
def firstFrom (test : Nat → Bool) (n : Nat) : Nat → Option Nat
  | 0 => none
  | fuel + 1 => if test n then some n else firstFrom test (n + 1) fuel
/-- The lowest key of a table that no test marks as used. -/
def freeKey {α : Type} [Inhabited α] (t : Tbl α) (used : α → Bool) : Nat :=
  (firstFrom (fun n => !used (Tbl.get t n)) 0 (t.length + 1)).getD t.length

/-! ### Saved workgroups -/

/-- A saved workgroup by context and directory entry (R372). -/
def State.saved (s : State) (ctx e : Nat) : Saved := Tbl.get (Tbl.get s.ctxRegs ctx).saved e
/-- The device's registers of a context changed. -/
def State.modCtx (s : State) (ctx : Nat) (f : CtxRegs → CtxRegs) : State := { s with ctxRegs := Tbl.mod s.ctxRegs ctx f }
/-- A saved workgroup changed. -/
def State.modSaved (s : State) (ctx e : Nat) (f : Saved → Saved) : State :=
  s.modCtx ctx fun x => { x with saved := Tbl.mod x.saved e f }
/-- The name under which the handles of a saved workgroup are held (R371). -/
def savedOwner (ctx e : Nat) : Nat := (ctx + 1) * 2 ^ 32 + e
/-- The context and directory entry of the saved workgroup that holds a handle, if one does (R371). -/
def Handle.savedAt (h : Handle) : Option (Nat × Nat) :=
  if h.owner < 2 ^ 32 then none else some (h.owner / 2 ^ 32 - 1, h.owner % 2 ^ 32)

/-! ### The flags word of a launch record (R320) -/

/-- Stale reads trap (R52). -/
def LaunchRec.staleTrap (r : LaunchRec) : Bool := r.flags.testBit 0
/-- Redundant execution (R201). -/
def LaunchRec.redundant (r : LaunchRec) : Bool := r.flags.testBit 1
/-- Restartable (R182). -/
def LaunchRec.restartable (r : LaunchRec) : Bool := r.flags.testBit 2
/-- Co-resident (R225). -/
def LaunchRec.coresident (r : LaunchRec) : Bool := r.flags.testBit 3
/-- Acquire before the first placement (R324). -/
def LaunchRec.acq (r : LaunchRec) : Bool := r.flags.testBit 4
/-- Release before the completion record (R333). -/
def LaunchRec.rel (r : LaunchRec) : Bool := r.flags.testBit 5
/-- Scope code of both (R80). -/
def LaunchRec.scope (r : LaunchRec) : Nat := bitsOf r.flags 8 6
/-- Start only after the queue's previous launch has signalled (R317). -/
def LaunchRec.serial (r : LaunchRec) : Bool := r.flags.testBit 9
/-- Attachment entries in the table. -/
def LaunchRec.attachN (r : LaunchRec) : Nat := bitsOf r.flags 21 16

/-! ### The issue-group table -/

/-- The set a word address hashes to (R226). -/
def setOf (pc num : Nat) : Nat := ((pc / 4) ^^^ (pc / 512) ^^^ (num * 2)) % 128

/-- The lanes of a list of parts. -/
def partLanes (p : List (Nat × Nat)) : Nat := p.foldl (fun m x => m ||| x.2) 0

/-- Two lists of parts joined, group slots ascending. -/
def joinParts : List (Nat × Nat) → List (Nat × Nat) → List (Nat × Nat)
  | [], q => q
  | (g, m) :: p, q =>
    let same := q.filter (fun x => x.1 == g)
    let rest := joinParts p (q.filter (fun x => x.1 != g))
    (rest.filter (fun x => x.1 < g)) ++ (g, same.foldl (fun a x => a ||| x.2) m) :: rest.filter (fun x => g < x.1)

/-- Whether an entry can take a whole cohort: same tag, no lane in common, at most four groups (R227). -/
def Entry.takes (e : Entry) (num pc : Nat) (parts : List (Nat × Nat)) : Bool :=
  e.num == num && e.pc == pc && (partLanes e.parts &&& partLanes parts == 0) &&
    decide ((joinParts e.parts parts).length ≤ 4)

/-- Whether one entry is older than another: age, then set, then way (R228). -/
def Entry.older (a b : Entry) : Bool :=
  decide (a.age < b.age) || (a.age == b.age && (decide (a.set < b.set) || (a.set == b.set && decide (a.way < b.way))))

/-- The oldest entry of a list. -/
def oldest : List Entry → Option Entry
  | [] => none
  | e :: t => match oldest t with
    | none => some e
    | some f => if e.older f then some e else some f

/-- The free way of a set, if any. -/
def Core.freeWay (x : Core) (set : Nat) : Option Nat :=
  firstFrom (fun w => !x.table.any (fun e => e.set == set && e.way == w)) 0 4

/-- A cohort takes a free way as a new entry, or waits in its set's queue (R227). -/
def Core.newEntry (x : Core) (cyc num pc : Nat) (parts : List (Nat × Nat)) : Core :=
  match x.freeWay (setOf pc num) with
  | some w => { x with table := { set := setOf pc num, way := w, num := num, pc := pc, parts := parts, age := cyc,
                                  order := x.order } :: x.table, order := x.order + 1 }
  | none => { x with queue := x.queue ++ [{ num := num, pc := pc, parts := parts }] }

/-- A cohort enters the table: the oldest entry that takes it whole, else a new one (R227). -/
def Core.enter (x : Core) (cyc num pc : Nat) (parts : List (Nat × Nat)) : Core :=
  match parts with
  | [] => x
  | _ => match oldest (x.table.filter (fun e => e.takes num pc parts)) with
    | some f =>
      { x with table := x.table.map fun e => if e == f then { e with parts := joinParts e.parts parts } else e }
    | none => x.newEntry cyc num pc parts

/-- Waiting cohorts take the ways that have become free, in the order in which they became ready (R227). -/
def Core.serve (x : Core) (cyc : Nat) : List Cohort → Core
  | [] => x
  | h :: t => match x.freeWay (setOf h.pc h.num) with
    | some _ => Core.serve ((Core.newEntry x cyc h.num h.pc h.parts)) cyc t
    | none => Core.serve { x with queue := x.queue ++ [h] } cyc t

/-- The queue served after a way has become free. -/
def Core.served (x : Core) (cyc : Nat) : Core := Core.serve { x with queue := [] } cyc x.queue

/-- Parts without some lanes of a group. -/
def dropLanes (g m : Nat) (p : List (Nat × Nat)) : List (Nat × Nat) :=
  (p.map (fun x => if x.1 = g then (g, x.2 ^^^ (x.2 &&& m)) else x)).filter (fun x => x.2 != 0)

/-- Lanes of a group leave the table and its queue; an entry without threads frees (R230). -/
def Core.leave (x : Core) (cyc g m : Nat) : Core :=
  Core.served { x with
    table := (x.table.map (fun e => { e with parts := dropLanes g m e.parts })).filter (fun e => !e.parts.isEmpty)
    queue := (x.queue.map (fun h => { h with parts := dropLanes g m h.parts })).filter (fun h => !h.parts.isEmpty) } cyc

/-- All 64 lanes. -/
def allLanes : Nat := 2 ^ 64 - 1

/-- The launch number of a launch on a core (R222). -/
def Core.numOf (x : Core) (launch : Nat) : Nat :=
  (firstFrom (fun n => Tbl.get x.nums n == launch + 1) 0 64).getD 0

/-- Whether a group may issue lane and uniform words at all (R164, R186). -/
def Group.open_ (g : Group) : Bool := g.used && g.park == .none && !g.usw && g.handler.isNone && !g.halted

/-- Whether a thread is ready on its own account (R231). -/
def Thread.ready (t : Thread) : Bool := t.live && !t.sw && t.wait == .none

/-- Lanes sorted by where they stand: for each word, the lanes at it. -/
def byPc (thr : Tbl Thread) : List Nat → List (Nat × Nat) → List (Nat × Nat)
  | [], acc => acc
  | l :: ls, acc =>
    let pc := (Tbl.get thr l).pc
    byPc thr ls (if acc.any (fun x => x.1 == pc) then acc.map (fun x => if x.1 = pc then (pc, x.2 ||| 2 ^ l) else x)
                 else acc ++ [(pc, 2 ^ l)])

/-- The lanes of a mask that are ready in an open group. -/
def Group.readyLanes (g : Group) (m : Nat) : List Nat :=
  if g.open_ then (maskList m 64).filter (fun l => (Tbl.get g.thr l).ready) else []

/-- The lanes of a group that stand in the table or in its queue. -/
def Core.tabled (x : Core) (g : Nat) : Nat :=
  let here (p : List (Nat × Nat)) : Nat := (p.filter (fun e => e.1 == g)).foldl (fun m e => m ||| e.2) 0
  (x.table.foldl (fun m e => m ||| here e.parts) 0) ||| x.queue.foldl (fun m h => m ||| here h.parts) 0

/-- The lanes of a group that are ready and hold no entry, by word. -/
def State.fresh (s : State) (c g m : Nat) : List (Nat × Nat) :=
  let G := s.grp c g
  byPc G.thr ((G.readyLanes m).filter fun l => !((s.core c).tabled g).testBit l) []

/-- Lanes of a group that have become ready enter the table, those at one word as one cohort (R227, R231,
notes/assumptions/14.md). -/
def State.release (s : State) (c g m : Nat) : State :=
  let num := (s.core c).numOf (s.wgOf c g).launch
  let cohorts := s.fresh c g m
  s.modCore c fun x => cohorts.foldl (fun x h => x.enter s.coreCyc num h.1 [(g, h.2)]) x

/-- Parts that stand at one word gathered into one cohort (R227). -/
def gather : List (Nat × List (Nat × Nat)) → List (Nat × List (Nat × Nat))
  | [] => []
  | (pc, p) :: t =>
    let rest := gather t
    match rest.find? (fun e => e.1 == pc) with
    | some e => (pc, joinParts p e.2) :: rest.filter (fun e => e.1 != pc)
    | none => (pc, p) :: rest

/-- The present lanes of a part that are ready and hold no entry, by word. -/
def State.standing (s : State) (c : Nat) (p : Nat × Nat) : List (Nat × List (Nat × Nat)) :=
  (s.fresh c p.1 p.2).map fun e => (e.1, [(p.1, e.2)])

/-- One entry can hold a whole cohort: at most four groups, no lane index twice (R226, R227). -/
def oneEntry : List (Nat × Nat) → Bool
  | p => decide (p.length ≤ 4) && (p.foldl (fun a x => a + (maskList x.2 64).length) 0 == (maskList (partLanes p) 64).length)

/-- Threads of one workgroup that one completion releases enter the table: those at one word as one cohort, across their groups where
one entry can hold it, else group by group (R227, notes/assumptions/14.md). -/
def State.releaseAll (s : State) (c : Nat) (parts : List (Nat × Nat)) : State :=
  match parts with
  | [] => s
  | [(g, m)] => s.release c g m
  | (g, _) :: _ =>
    let num := (s.core c).numOf (s.wgOf c g).launch
    let cohorts := (gather (parts.flatMap (s.standing c))).flatMap fun h => if oneEntry h.2 then [h] else h.2.map fun p => (h.1, [p])
    s.modCore c fun x => cohorts.foldl (fun x h => x.enter s.coreCyc num h.1 h.2) x

/-- Lanes woken together by an instruction or an event: where a group of theirs is in the instance in execution they enter the table at
its end, each event's lanes apart from the others', else now (R227). -/
def State.wakeAll (s : State) (c : Nat) (parts : List (Nat × Nat)) : State :=
  match s.inst with
  | some i => if i.core = c ∧ i.parts.any (fun p => parts.any fun q => q.1 == p.1) ∧ !i.handler then
      { s with inst := some { i with woken := i.woken ++ [parts] } } else s.releaseAll c parts
  | none => s.releaseAll c parts

/-- Lanes of one group woken by an instruction or an event (R227). -/
def State.wake (s : State) (c g m : Nat) : State := s.wakeAll c [(g, m)]

/-- All lanes of a group leave the table (R230). -/
def State.leaveAll (s : State) (c g : Nat) : State := s.modCore c fun x => x.leave s.coreCyc g allLanes

/-- A parked group is released: its ready lanes enter the table (R164, R230). -/
def State.unpark (s : State) (c g : Nat) : State :=
  (s.modGrp c g fun x => { x with park := .none }).release c g allLanes

/-- A uniform word parks its group: every lane leaves the table (R164, R230). -/
def State.parkGrp (s : State) (c g : Nat) (p : Park) (pc lanes : Nat) : State :=
  (s.modGrp c g fun x => { x with park := p, ppc := pc, pset := lanes }).leaveAll c g

/-! ### Registers -/

/-- A lane predicate; `p7` reads as true (R31). -/
def Thread.pred (t : Thread) (p : Nat) : Bool := p == 7 || t.preds.getLsbD p

/-- A lane predicate written; `p7` discards (R31). -/
def Thread.setPred (t : Thread) (p : Nat) (b : Bool) : Thread :=
  if p = 7 then t else { t with preds := if b then t.preds ||| BitVec.twoPow 7 p else t.preds &&& ~~~BitVec.twoPow 7 p }

/-- A uniform predicate; `q7` reads as true (R31). -/
def Group.qpred (g : Group) (q : Nat) : Bool := q == 7 || g.q.getLsbD q

/-- A uniform predicate written; `q7` discards (R31). -/
def Group.setQ (g : Group) (q : Nat) (b : Bool) : Group :=
  if q = 7 then g else { g with q := if b then g.q ||| BitVec.twoPow 7 q else g.q &&& ~~~BitVec.twoPow 7 q }

/-- A uniform register. -/
def Group.sreg (g : Group) (n : Nat) : Word := Tbl.get g.s n

/-- A uniform register pair, the low word in the even register (R31). -/
def Group.spair (g : Group) (n : Nat) : DWord := g.sreg (n + 1) ++ g.sreg n

/-- A uniform register written. -/
def Group.setS (g : Group) (n : Nat) (w : Word) : Group := { g with s := Tbl.set g.s n w }

/-- A uniform pair written. -/
def Group.setSPair (g : Group) (n : Nat) (d : DWord) : Group :=
  (g.setS n (d.setWidth 32)).setS (n + 1) ((d >>> 32).setWidth 32)

/-- The words of a list written to successive uniform registers. -/
def Group.setSList (g : Group) (n : Nat) : List Word → Group
  | [] => g
  | w :: ws => Group.setSList (g.setS n w) (n + 1) ws

/-- The row of a group's vector register. -/
def Core.row (x : Core) (g r : Nat) : Row := Tbl.get x.rows (128 * g + r)

/-- A lane of a vector register under a generation: zero where the row is stale (R52). -/
def Core.lane (x : Core) (gen : Gen) (g r l : Nat) : Word :=
  let row := x.row g r
  if row.tag = gen then Tbl.get row.lanes l else 0

/-- A row written in one lane under a generation: a stale row is zero-filled and tagged (R54). -/
def Row.write (row : Row) (gen : Gen) (l : Nat) (w : Word) : Row :=
  if row.tag = gen then { row with lanes := Tbl.set row.lanes l w } else { tag := gen, lanes := Tbl.set [] l w }

/-- A lane of a vector register written (R54). -/
def Core.setLane (x : Core) (gen : Gen) (g r l : Nat) (w : Word) : Core :=
  { x with rows := Tbl.mod x.rows (128 * g + r) fun row => row.write gen l w }

/-- The generation of a group's allocation (R51). -/
def State.genOf (s : State) (c g : Nat) : Gen := (s.wgOf c g).gen

/-- A lane of a vector register (R52). -/
def State.rdV (s : State) (c g r l : Nat) : Word := (s.core c).lane (s.genOf c g) g r l

/-- A lane of a vector register written (R54). -/
def State.wrV (s : State) (c g r l : Nat) (w : Word) : State :=
  s.modCore c fun x => x.setLane (s.genOf c g) g r l w

/-! ### Traps -/

/-- A precise trap on its way: cause, `tval`, the lowest trapping lane (R43, R44). -/
structure Trap where
  cause : Nat
  tval : Nat
  lane : Nat := 0
  deriving DecidableEq, Repr, Inhabited

/-- A trap taken after the instruction: `TRAP` and `BRK` (R187). -/
def Trap.after (t : Trap) : Bool := t.cause == 0x0B || t.cause == 0x0C

/-- `tcause.rec`: 1 for a missed promise (R213), 0 for `TRAP`, `BRK` (R187) and a redundant mismatch (R204); of the
other causes no rule gives it (notes/assumptions/15.md). -/
def recOf (cause : Nat) : Bool :=
  match cause with
  | 0x08 => true
  | 0x09 | 0x0B | 0x0C => false
  | n => Config.causeRec n

/-- The register number and class that a bound trap names: the first register outside the allocation (R81, R44); 256
does not fit the field and leaves number 0 (DESIGN CHOICE, notes/assumptions/59.md). -/
def boundTrap (cls alloc start n : Nat) : Option Trap :=
  if start + n ≤ alloc then none else some { cause := 0x03, tval := max start alloc ||| cls * 256 }

/-- The bound check of operand registers in operand order: vector (`true`) or uniform, first register and count
(R68 step 5, R81). -/
def Group.bounds (g : Group) : List (Bool × Nat × Nat) → Option Trap
  | [] => none
  | (v, r, n) :: t =>
    match (if v then boundTrap 0 g.vregs r n else boundTrap 1 g.sregs r n) with
    | some x => some x
    | none => Group.bounds g t

/-- The stale-read trap of vector rows: the lowest-numbered stale row (R52), also where an outstanding load
of the thread will write it (DESIGN CHOICE, notes/assumptions/16.md). -/
def State.staleRow (s : State) (c g : Nat) (regs : List Nat) : Option Trap :=
  if !(s.launchOf c g).lr.staleTrap then none else
  let bad := regs.filter (fun r => ((s.core c).row g r).tag != s.genOf c g)
  match bad with
  | [] => none
  | r :: t =>
    let m := t.foldl min r
    some { cause := 0x06, tval := ((s.core c).row g m).tag.toNat * 2 ^ 40 + 128 * (s.grp c g).index + m }

/-! ### Strip chains and their slots -/

/-- A chain control block. -/
def State.chain (s : State) (c : Nat) : Chain := Tbl.get s.chains c
/-- A chain changed. -/
def State.modChain (s : State) (c : Nat) (f : Chain → Chain) : State := { s with chains := Tbl.mod s.chains c f }
/-- A device-level slot entry (R342). -/
def State.slotEntry (s : State) (u : Nat) : SlotEntry := Tbl.get s.slotTable u
/-- A slot entry changed. -/
def State.modSlot (s : State) (u : Nat) (f : SlotEntry → SlotEntry) : State := { s with slotTable := Tbl.mod s.slotTable u f }
/-- A field of the chain record (R338). -/
def Chain.field (x : Chain) (off n : Nat) : Nat := fieldAt x.bytes off n
/-- Lines of a strip, H. -/
def Chain.H (x : Chain) : Nat := 16 * 2 ^ (x.field 0x28 1 % 4)
/-- Samples per pixel (R285). -/
def Chain.samples (x : Chain) : Nat := if (x.field 0x28 1).testBit 2 then 4 else 1
/-- The upscale stage is present. -/
def Chain.up (x : Chain) : Bool := x.field 0x29 1 % 4 == 1
/-- Bins of a strip, B. -/
def Chain.B (x : Chain) : Nat := (x.field 0x24 2 + 63) / 64
/-- Strips of a frame, K. -/
def Chain.K (x : Chain) : Nat := (x.field 0x26 2 + x.H - 1) / x.H
/-- Output height and width, Ho and Wo. -/
def Chain.Ho (x : Chain) : Nat := if x.up then 2 * x.H else x.H
/-- Output width. -/
def Chain.Wo (x : Chain) : Nat := if x.up then 2 * x.field 0x24 2 else x.field 0x24 2
/-- A ring: first unit, slots, units per slot; the source ring, or the one the consumer drains. -/
def Chain.ring (x : Chain) (out : Bool) : Nat × Nat × Nat :=
  if out && x.up then (x.field 0x20 2, x.field 0x22 1, x.field 0x23 1)
  else (x.field 0x1C 2, x.field 0x1E 1, x.field 0x1F 1)
/-- The slot of strip g in a ring (R341). -/
def Chain.slotOf (x : Chain) (out : Bool) (g : Nat) : Nat :=
  let r := x.ring out
  r.1 + g % r.2.1 * r.2.2
/-- A chain that holds its grants: running or stopping (R340, R362). -/
def Chain.active (x : Chain) : Bool := x.state == 1 || x.state == 3

/-- The slot that a stage workgroup fills: its mesh slot, its source slot, its output slot (R287, R344). -/
def State.stageSlot (s : State) (st : StageInfo) : Nat :=
  let x := s.chain st.chain
  let g := st.frame * x.K + st.strip
  match st.role with
  | 0 => x.field 0x14 2 + st.bin % x.field 0x16 2
  | 1 => x.slotOf false g
  | _ => x.slotOf true g

/-- A producer stopped by a fault with its part unfinished sets its slot's fault bit (R362). -/
def State.faultPart (s : State) (st : StageInfo) : State :=
  if st.finished || st.role = 0 || st.role = 3 then s else
  s.modSlot (s.stageSlot st) fun e =>
    if e.state == .filling && e.strip == st.frame * (s.chain st.chain).K + st.strip then { e with fault := true } else e

/-! ### Waking -/

/-- The park of a group for some cause: its present one, or the one behind its handler (R231). -/
def Group.parkedBy (g : Group) (f : Park → Bool) : Bool := f g.park || g.handler.any fun h => f h.held

/-- The word of that park and its lanes. -/
def Group.parkWord (g : Group) (f : Park → Bool) : Nat × Nat :=
  if f g.park then (g.ppc, g.pset) else match g.handler with
    | some h => (h.hpc, h.hset)
    | none => (g.ppc, g.pset)

/-- That park ended. -/
def Group.endPark (g : Group) (f : Park → Bool) : Group :=
  if f g.park then { g with park := .none }
  else { g with handler := g.handler.map fun h => if f h.held then { h with held := .none } else h }

/-- That park replaced by another. -/
def Group.rePark (g : Group) (f : Park → Bool) (q : Park) : Group :=
  if f g.park then { g with park := q }
  else { g with handler := g.handler.map fun h => if f h.held then { h with held := q } else h }

/-- A group parked by a word is ready at that word again (R164). -/
def State.wakeGrp (s : State) (c g : Nat) (f : Park → Bool) : State :=
  (s.modGrp c g fun x => x.endPark f).wake c g allLanes

/-- A park on a handle of some numbers. -/
def Park.onHandle (h : Nat → Bool) : Park → Bool
  | .handle n => h n
  | _ => false

/-- Groups of a core that wait on a handle (R216). -/
def Core.handleWaiters (x : Core) (h : Nat → Bool) : List Nat :=
  (x.grps.filter fun e => e.2.used && !e.2.halted && e.2.parkedBy (Park.onHandle h)).map (·.1)

/-- Groups that wait on a handle become ready together at their words and execute them again (R217, R277). -/
def State.wakeHandles (s : State) (c : Nat) (h : Nat → Bool) : State :=
  ((s.core c).handleWaiters h).foldl (fun s g => s.wakeGrp c g (Park.onHandle h)) s

/-- Groups parked for a place in the sequencer's queue try again (R263). -/
def State.wakeSequencer (s : State) (c : Nat) : State :=
  (s.core c).grps.foldl (fun s e => if e.2.parkedBy (· == .sequencer) then s.wakeGrp c e.1 (· == .sequencer) else s) s

/-! ### The end of an allocation -/

/-- The watch's waiter is this group. -/
def Waiter.isOf (w : Waiter) (c g : Nat) : Bool :=
  match w with
  | .thread c' g' _ => c' == c && g' == g
  | .group c' g' => c' == c && g' == g
  | _ => false

/-- The units a group still holds become free with its allocation, in that cycle; what a chunk that is still running writes to
them is dropped (R56, R195, R266, R267). -/
def Core.freeUnits (x : Core) (g : Nat) : Core :=
  { x with slots := (List.range 32).foldl (fun t n => if (Tbl.get t n).owner = g + 1 then Tbl.mod t n (fun u => { u with owner := 0 }) else t) x.slots
           tiles := (List.range 8).foldl (fun t n => if (Tbl.get t n).owner = g + 1 then Tbl.mod t n (fun u => { u with owner := 0 }) else t) x.tiles }

/-- A handle that becomes free: nobody holds it; its status stays until the next claim (R214). -/
def Handle.freed (h : Handle) : Handle := { h with state := .free, owner := 0, cons := 0, retain := 0, fixed := 0 }

/-- A handle of a workgroup that ends: free at once, except that one with a copy in flight stays filling (R217). -/
def Handle.ended (h : Handle) : Handle :=
  if h.copies = 0 || h.narrows then h.freed else { h with state := .filling, owner := 0 }

/-- The entry of a ready queue, if any, that a stopped task or decrement reserves (R329, R331). -/
def State.unreserve (s : State) (a : Nat) : State :=
  { s with atolls := Tbl.mod s.atolls a fun x => { x with reserved := x.reserved - 1 } }

/-- An allocation ends on a core: nothing is cleared (R57); groups, names, handles and the launch number are released,
queued tile operations are removed and the watches of its threads leave their slices (R235, R266, R280); groups that wait
for one of its handles or for a place in the sequencer's queue look again (R216, R217, R263). -/
def State.endWg (s : State) (c w : Nat) : State :=
  let W := s.wg c w
  let s := W.slots.foldl (fun s g => s.leaveAll c g) s
  let s := { s with watches := s.watches.filter (fun e => !(W.slots.any (fun g => e.2.waiter.isOf c g))) }
  let held := (s.core c).handles
  let s := s.modCore c fun x =>
    let x := { x with
      seq := x.seq.filter (fun o => !(o.wg == w && !o.running))
      stalls := x.stalls.filter fun t => !W.slots.contains t.slot
      flight := x.flight.filter fun o => match o.act with
        | .ray _ _ => !W.slots.contains o.slot
        | _ => true }
    let x := W.slots.foldl (fun x g => Core.freeUnits { x with grps := Tbl.erase x.grps g } g) x
    let x := { x with
      handles := x.handles.foldl (fun t e => if e.2.owner = w + 1 then Tbl.mod t e.1 Handle.ended else t) x.handles
      wgs := Tbl.erase x.wgs w }
    if x.wgs.any (fun e => e.2.launch == W.launch) then x else { x with nums := Tbl.erase x.nums (x.numOf W.launch) }
  (s.wakeHandles c fun h => (Tbl.get held h).owner == w + 1).wakeSequencer c

/-- A placed workgroup stops for good: a task's reservation is discarded, a stage's slot gets its fault bit (R331, R362). -/
def State.stopWg (s : State) (c w : Nat) : State :=
  let W := s.wg c w
  let s := match W.task with
    | some t => if t.succ = 0 then s else s.unreserve t.atoll
    | none => s
  let s := match W.stage with
    | some st => s.faultPart st
    | none => s
  s.endWg c w

/-- A stage launch stopped by a fault: slots that its frame's strips are filling keep parts that nothing will finish, and get their
fault bit (R362). -/
def State.faultStage (s : State) (L : Launch) : State :=
  if L.chain = 0 ∨ (L.role ≠ 1 ∧ L.role ≠ 2) then s else
  let x := s.chain (L.chain - 1)
  let r := x.ring (L.role == 2)
  let lost (e : SlotEntry) : Bool := e.state == .filling && e.strip / x.K == L.frame
  ((List.range r.2.1).map fun i => r.1 + i * r.2.2).foldl (fun s u =>
    s.modSlot u fun e => if lost e then { e with fault := true } else e) s

/-- Every placed workgroup and task of a launch stops, as in a flush without restart, and its queued tasks and
reservations are discarded (R331, R332, R362). -/
def State.stopLaunch (s : State) (l : Nat) : State :=
  let s := s.faultStage (s.launch l)
  let s := s.cores.foldl (fun s e => e.2.wgs.foldl (fun s v => if v.2.launch = l then s.stopWg e.1 v.1 else s) s) s
  let s := s.decrements.foldl (fun s d => if d.launch = l ∧ d.reserved then s.unreserve d.atoll else s) s
  let s := { s with decrements := s.decrements.map fun d => if d.launch = l then { d with reserved := false } else d }
  let keys := Tbl.keys s.atolls
  keys.foldl (fun s a => { s with atolls := Tbl.mod s.atolls a fun x => { x with ready := x.ready.filter fun r => r.launch != l } }) s

/-- A launch ends with fault status: the count rises, the first event gives the first-fault fields; an event after the stop
changes nothing (R332, R334). -/
def State.faultEnd (s : State) (l cause core index tval : Nat) : State :=
  if !(s.launch l).used || (s.launch l).status != 0 then s else
  (s.modLaunch l fun L => { L with
    faults := min (L.faults + 1) (2 ^ 32 - 1)
    first := some (L.first.getD (cause, core, index, tval))
    status := if L.status = 0 then 2 else L.status
    restarts := [] }).stopLaunch l

/-- A word address as `tpc` holds it: bits 47 to 2 (R43). -/
def tpcOf (pc : Nat) : DWord := BitVec.ofNat 64 (pc / 4 % 2 ^ 46 * 4)

/-- Taking a trap, as R186 describes it: without a handler or in handler mode the launch ends with fault status;
otherwise `tpc`, `tcause` and `tval` are written, the group's threads park where they stand and the handler starts. A group
that an earlier uniform word had parked stays parked by it behind the handler (R231). -/
def State.takeTrap (s : State) (c g lanes pc : Nat) (uni : Bool) (t : Trap) : State :=
  let G := s.grp c g
  let L := s.launchOf c g
  if L.lr.handler = 0 || G.handler.isSome then
    s.faultEnd (s.wgOf c g).launch t.cause c G.index t.tval
  else
    let after := t.after
    (s.modGrp c g fun x => { x with
      tpc := tpcOf (if after then pc + 4 else pc)
      tcause := BitVec.ofNat 32 (G.index * 2 ^ 16 + (if recOf t.cause then 2 ^ 15 else 0) +
        (if uni then 2 ^ 14 else t.lane * 2 ^ 8) + t.cause)
      tval := BitVec.ofNat 64 t.tval
      park := .none
      handler := some { set := lanes, pc := L.lr.handler % 2 ^ 48, back := pc, held := G.park, hpc := G.ppc, hset := G.pset }
      }).leaveAll c g

/-- The trap of a uniform word that has parked its group: the park is over, the trapping set is that of the word (R186). -/
def State.trapParked (s : State) (c g : Nat) (f : Park → Bool) (t : Trap) : State :=
  let w := (s.grp c g).parkWord f
  (s.modGrp c g fun x => x.endPark f).takeTrap c g w.2 w.1 true t

/-- The return from a trap: the trapping set moves to `tpc` as it stands and the group leaves handler mode; a park that the
trap found stands again for the other threads of its word (R188, R231). -/
def State.returnTrap (s : State) (c g : Nat) : State :=
  let G := s.grp c g
  let h : Handler := G.handler.getD {}
  let pc := G.tpc.toNat / 4 % 2 ^ 46 * 4
  (s.modGrp c g fun x => { x with
    handler := none
    park := h.held
    ppc := h.hpc
    pset := h.hset ^^^ (h.hset &&& h.set)
    thr := (maskList h.set 64).foldl (fun t l => Tbl.mod t l fun u => { u with pc := pc }) x.thr }).release c g allLanes

end Sys2Proof.Machine
end

