-- ==== Sys2Proof/Machine/Translate.lean ====
section
/-! DEFINITION. Contexts and their page tables (R363, R364, R375 to R379): descriptors, walks, the translation caches
and the posting of translation faults. -/

namespace Sys2Proof.Machine

/-- The address of a context's descriptor (R364). -/
def State.ctxAddr (s : State) (ctx : Nat) : Nat := s.ctxBase + 128 * ctx

/-- A field of a context's descriptor. -/
def State.ctxNat (s : State) (ctx off n : Nat) : Nat := Memory.nat s.dev (s.ctxAddr ctx + off) n

/-- Whether a descriptor keeps the layout of R364. -/
def State.ctxLayout (s : State) (ctx : Nat) : Bool :=
  let d := s.ctxNat ctx
  bitsOf (d 0 8) 11 1 == 0 && bitsOf (d 0 8) 63 48 == 0 &&
    decide (bitsOf (d 8 4) 19 16 ≤ 2) && bitsOf (d 8 4) 31 20 == 0 && bitsOf (d 0x0C 4) 30 16 == 0 &&
    d 0x10 8 / 2 ^ 48 == 0 && d 0x10 8 % 2 ^ 16 == 0 && d 0x18 8 % (96 * 4096) == 0 && d 0x20 8 % 2 ^ 16 == 0 &&
    d 0x28 8 % 2 ^ 16 == 0 && d 0x30 8 % 64 == 0 && decide (d 0x38 4 ≤ 12) && d 0x3C 4 == 0 && d 0x40 8 % 32 == 0 &&
    decide (d 0x48 4 ≤ 12) && d 0x4C 4 == 0 && d 0x54 4 == 0 && d 0x68 8 == 0 && d 0x70 8 == 0 && d 0x78 8 == 0

/-- Whether a context's descriptor keeps its layout and is enabled (R364). -/
def State.ctxEnabled (s : State) (ctx : Nat) : Bool :=
  decide (ctx < s.ctxCount) && s.ctxNat ctx 0 8 % 2 == 1 && s.ctxLayout ctx

/-- The class a context's descriptor gives (R41, R364). -/
def State.ctxClass (s : State) (ctx : Nat) : Nat := s.ctxNat ctx 8 4 / 2 ^ 16 % 16

/-- A context's state: 0 resident, 1 swapping out, 2 swapped, 3 restoring, 4 destroyed (R364). -/
def State.ctxState (s : State) (ctx : Nat) : Nat := s.ctxNat ctx 0x50 4

/-- What an access needs of a page (R376). -/
inductive Need where
  | read | write | fetch
  deriving DecidableEq, Repr, Inhabited

/-- A translation: a physical address or the kind of the fault (R376). -/
inductive Xlat where
  | ok (pa : Nat)
  | fault (kind : Nat)
  deriving DecidableEq, Repr, Inhabited

/-- Bytes that a leaf of each level maps, and where its index starts (R375). -/
def levelShift : Nat → Nat
  | 0 => 16 | 1 => 21 | 2 => 30 | _ => 39

/-- Alignment of the table below each level (R375). -/
def tableAlign (level : Nat) : Nat := if level = 1 then 256 else 4096

/-- A walk from a table down: the leaf with the permissions of every entry on the way, or the fault kind (R376). -/
def walkFrom (m : Memory) (ctx va : Nat) : Nat → Nat → Bool → Bool → Nat ⊕ TlbEntry
  | 0, table, w, x => walkEntry m ctx va 0 table w x
  | n + 1, table, w, x =>
    let e := Memory.nat m (table + va / 2 ^ levelShift (n + 1) % 512 * 8) 8
    if e.testBit 0 && !e.testBit 1 && bitsOf e 7 4 == 0 && e / 2 ^ 52 == 0 && bitsOf e 51 8 * 256 % tableAlign (n + 1) == 0 &&
        decide (bitsOf e 51 8 * 256 < Config.deviceBytes) then
      walkFrom m ctx va n (bitsOf e 51 8 * 256) (w && e.testBit 2) (x && e.testBit 3)
    else walkEntry m ctx va (n + 1) table w x
where
  /-- the entry of one level read as a leaf -/
  walkEntry (m : Memory) (ctx va level table : Nat) (w x : Bool) : Nat ⊕ TlbEntry :=
    let e := Memory.nat m (table + va / 2 ^ levelShift level % (if level = 0 then 32 else 512) * 8) 8
    let size := 2 ^ levelShift level
    let pa := bitsOf e 51 8 * 256
    if !e.testBit 0 then .inl 1
    else if level = 3 || !e.testBit 1 || bitsOf e 7 4 != 0 || e / 2 ^ 52 != 0 || pa % size != 0 ||
        decide (Config.deviceBytes ≤ pa) then .inl 4
    else .inr { ctx := ctx, va := va / size * size, size := size, pa := pa, w := w && e.testBit 2, x := x && e.testBit 3 }

/-- A walk from the context's root (R375). -/
def State.walk (s : State) (ctx va : Nat) : Nat ⊕ TlbEntry :=
  walkFrom s.dev ctx (va % 2 ^ 48) 3 (bitsOf (s.ctxNat ctx 0 8) 47 12 * 4096) true true

/-- A leaf used for an access (R376). -/
def TlbEntry.use (e : TlbEntry) (va : Nat) (need : Need) : Xlat :=
  let pa := e.pa + va % 2 ^ 48 % e.size
  match need with
  | .read => .ok pa
  | .write => if e.w then .ok pa else .fault 2
  | .fetch => if e.x then .ok pa else .fault 3

/-- The cached leaf of an address (R377). -/
def findTlb (l : List TlbEntry) (ctx va : Nat) : Option TlbEntry :=
  l.find? (fun e => e.ctx == ctx && va % 2 ^ 48 / e.size * e.size == e.va)

/-- The logical atoll of a core (R224). -/
def atollOf (c : Nat) : Nat := c / 16 / 2 * 8 + c % 16 / 2

/-- The atoll core number of a core (R224). -/
def atollCore (c : Nat) : Nat := c / 16 % 2 * 2 + c % 16 % 2

/-- The core of an atoll by atoll core number (R224). -/
def coreAt (atoll n : Nat) : Nat := (atoll / 8 * 2 + n / 2) * 16 + atoll % 8 * 2 + n % 2

/-- A leaf kept in a cache of a size; the oldest goes. -/
def keepTlb (l : List TlbEntry) (size : Nat) (e : TlbEntry) : List TlbEntry := (e :: l).take size

/-- A translation by a core: through its own cache or its atoll's, else by a walk that both then keep. The hardware may
walk in any case (choice bit 2): an entry may have left the caches (R377, notes/assumptions/9.md). -/
def State.xlate (s : State) (c ctx va : Nat) (need : Need) : State × Xlat :=
  let hit := match findTlb (s.core c).tlb ctx va with
    | some e => some e
    | none => findTlb (Tbl.get s.atolls (atollOf c)).tlb ctx va
  match (if s.choose 2 then none else hit) with
  | some e => (s, e.use va need)
  | none => match s.walk ctx va with
    | .inl k => (s, .fault k)
    | .inr e =>
      let s := s.modCore c fun x => { x with tlb := keepTlb (x.tlb.filter (fun t => !(t.ctx == ctx && t.va == e.va))) 256 e }
      let s := { s with atolls := Tbl.mod s.atolls (atollOf c) fun a =>
        { a with tlb := keepTlb (a.tlb.filter (fun t => !(t.ctx == ctx && t.va == e.va))) 4096 e } }
      (s, e.use va need)

/-- A translation by an agent of the device other than a core: by a walk (R377). -/
def State.xlateDev (s : State) (ctx va : Nat) (need : Need) : Xlat :=
  match s.walk ctx va with
  | .inl k => .fault k
  | .inr e => e.use va need

/-- Every piece of an access translated; the first fault decides: its kind and the virtual address of its piece. -/
def State.xlateAll (s : State) (c ctx : Nat) (need : Need) : List (Nat × Nat) → State × (Nat × Nat ⊕ List (Nat × Nat))
  | [] => (s, .inr [])
  | (va, n) :: t =>
    match s.xlate c ctx va need with
    | (s, .fault k) => (s, .inl (k, va))
    | (s, .ok pa) => match State.xlateAll s c ctx need t with
      | (s, .inl f) => (s, .inl f)
      | (s, .inr l) => (s, .inr ((pa, n) :: l))

end Sys2Proof.Machine
end

