-- ==== Sys2Proof/Machine/Sample.lean ====
section
/-! DEFINITION. The samples of the observation units (R397, R398). -/

namespace Sys2Proof.Machine

/-- A saturating 32-bit counter raised. -/
def satUp (n : Nat) : Nat := min (n + 1) (2 ^ 32 - 1)

/-- The bin of a sample (R397). -/
def Obs.binOf (o : Obs) (x : Int) : Nat := min (x.toNat / 2 ^ o.e) 31

/-- Bins, minimum and maximum of the last 64 samples (R397, window mode). -/
def Obs.window (o : Obs) : Obs :=
  { o with
    bins := o.recent.foldl (fun t x => Tbl.mod t (o.binOf x) satUp) []
    lo := o.recent.foldl min (o.recent.headD 0)
    hi := o.recent.foldl max (o.recent.headD 0) }

/-- One sample taken (R397). -/
def Obs.take (o : Obs) (x : Int) : Obs :=
  let o1 := { o with
    bins := Tbl.mod o.bins (o.binOf x) satUp
    lo := if o.count = 0 then x else min o.lo x
    hi := if o.count = 0 then x else max o.hi x
    count := min (o.count + 1) (2 ^ 64 - 1)
    recent := (x :: o.recent).take 64 }
  if o.win then o1.window else o1

/-- Whether a unit captures a sample of a source; `id` is the core, slice, port or chain, if the source has one (R397). -/
def Obs.wants (o : Obs) (source : Nat) (id : Option Nat) : Bool :=
  o.en && !o.frz && o.source == source && (o.filter == 0xFF || id.all (fun n => n == o.filter))

/-- A sample offered to every unit (R397, R398). -/
def State.sample (s : State) (source : Nat) (id : Option Nat) (x : Int) : State :=
  { s with obs := (List.range 64).foldl (fun t u => if (Tbl.get t u).wants source id then Tbl.mod t u (·.take x) else t) s.obs }

end Sys2Proof.Machine
end

