-- ==== Sys2Proof/Machine/Watch.lean ====
section
/-! DEFINITION. Writes placed at the home slices and the watches they decide (R247, R278 to R284); conditions (R79);
the posting of translation faults (R379). -/

namespace Sys2Proof.Machine

/-- A comparison of two values of a width under a condition code (R79); `any` is decided by the write itself. -/
def Cond.holds (c : Cond) (w : Nat) (x y : Nat) : Bool :=
  let sx := sextNat x w
  let sy := sextNat y w
  let x := x % 2 ^ w
  let y := y % 2 ^ w
  match c with
  | .eq => x == y | .ne => x != y
  | .lt => decide (sx < sy) | .le => decide (sx ≤ sy) | .gt => decide (sy < sx) | .ge => decide (sy ≤ sx)
  | .ltu => decide (x < y) | .leu => decide (x ≤ y) | .gtu => decide (y < x) | .geu => decide (y ≤ x)
  | .bset => x &&& y != 0 | .bclr => x &&& y == 0 | .any => true

/-- Width in bytes of a watched word. -/
def Watch.bytes (w : Watch) : Nat := if w.w64 then 8 else 4

/-- The bit of a slice's filter that stands for a line (R281). -/
def filterBit (addr : Nat) : Nat := Config.filterHash (addr / 64) % 4096

/-- A decided watch leaves its slice and its outcome sets out for the waiter (R280). -/
def State.decideWatch (s : State) (n : Nat) (out : WatchEnd) : State :=
  let w := Tbl.get s.watches n
  let m := freeKey s.msgs (fun x => x.used)
  { s with watches := Tbl.erase s.watches n, msgs := Tbl.set s.msgs m { used := true, watch := n, data := w, out := out } }

/-- The watches held in a table whose word a write of `len` bytes at `addr` touches, and that it satisfies: the whole
word after the write is tested; a deadline already reached no longer counts (R153, R279). -/
def State.satisfiedBy (s : State) (addr len : Nat) : List Nat :=
  (s.watches.filter fun e =>
    let w := e.2
    w.used && w.held == .table && w.deadline.all (fun d => decide (s.cyc.toNat ≤ d)) && decide (addr < w.addr + w.bytes) && decide (w.addr < addr + len) &&
      Cond.holds w.cond (8 * w.bytes) (Memory.nat s.dev w.addr w.bytes) w.operand).map (·.1)

/-- Bytes that are written no longer come back from under a failing clean line (R392). -/
def keepLent (l : List (Nat × Byte)) (addr len : Nat) : List (Nat × Byte) := l.filter fun e => decide (e.1 < addr) || decide (addr + len ≤ e.1)

/-- Device memory written; what was there stays known, for a fetch that still sees it (R69). -/
def State.writeDev (s : State) (addr : Nat) (data : List Byte) : State :=
  { s with dev := Memory.write s.dev addr data, lent := keepLent s.lent addr data.length
           past := (addr, Memory.read s.dev addr data.length) :: s.past }

/-- The slice of an address. -/
def sliceOf (addr : Nat) : Nat := Config.homeSlice (addr / 64) % Config.slices

/-- Bytes that have been written in one line enter the queue of their slice's walker where the line's filter bit is set
(R282). -/
def State.queueWalk (s : State) (addr len : Nat) : State :=
  if (Tbl.get s.slices (sliceOf addr)).filter.contains (filterBit addr) then
    { s with slices := Tbl.mod s.slices (sliceOf addr) fun x => { x with count := x.count + 1, walks := x.walks ++
      [{ addr := addr / 64 * 64, num := x.count, line := Memory.read s.dev (addr / 64 * 64) 64, from_ := addr % 64, len := len,
         cyc := s.cyc.toNat }] } }
  else s

/-- The lines that a run of bytes touches, each with its first byte and its number of bytes. -/
def lineRuns (addr len : Nat) : List (Nat × Nat) :=
  (upFrom (addr / 64) ((addr + len + 63) / 64 - addr / 64)).map fun l =>
    (max addr (64 * l), min (addr + len) (64 * l + 64) - max addr (64 * l))

/-- Bytes placed at their home slices: device memory changes, table watches are tested, and each line whose filter bit is
set goes to its slice's walker with its new content (R247, R279, R282). -/
def State.placeDev (s : State) (addr : Nat) (data : List Byte) : State :=
  match data with
  | [] => s
  | _ =>
    let s := s.writeDev addr data
    let s := (s.satisfiedBy addr data.length).foldl (fun s n => s.decideWatch n .satisfied) s
    if s.slices.isEmpty then s else (lineRuns addr data.length).foldl (fun s r => s.queueWalk r.1 r.2) s

/-- A slice whose walker's 16 entries are taken places no access to a filtered line (R282). -/
def State.walkFull (s : State) (pieces : List (Nat × Nat)) : Bool :=
  !s.slices.isEmpty && pieces.any fun p => (lineRuns p.1 p.2).any fun r =>
    let sl := Tbl.get s.slices (sliceOf r.1)
    decide (16 ≤ sl.walks.length) && sl.filter.contains (filterBit r.1)

/-- An act of the device that writes at home slices by itself: it waits where it would add to a walker's queue that is not empty and
leave more than 16 writes in it (R282, notes/assumptions/39.md). -/
def State.walkersTake (s t : State) : State :=
  if t.slices.any fun e =>
      let had := (Tbl.get s.slices e.1).walks.length
      let has := (Tbl.get t.slices e.1).walks.length
      decide (16 < has) && had != 0 && decide (had < has) then s
  else t

/-- A little-endian number placed at its home slice. -/
def State.placeNat (s : State) (addr n x : Nat) : State := s.placeDev addr (leBytes x n)

/-- Segment, by slice, of a context's spill area: its virtual address and the records it holds (R281). -/
def State.spillSegment (s : State) (ctx slice : Nat) : Nat × Nat :=
  let bytes := s.ctxNat ctx 0x18 8 / Config.slices
  (s.ctxNat ctx 0x10 8 + slice * bytes, bytes / 32)

/-- Physical address of a spill record. -/
def State.spillAddr (s : State) (ctx slice n : Nat) (need : Need) : Xlat :=
  s.xlateDev ctx ((s.spillSegment ctx slice).1 + 32 * n) need

/-- The waiter token of a record, as a number the device alone reads (R278). -/
def Waiter.token : Waiter → Nat
  | .thread c g l => c + 2 ^ 8 * g + 2 ^ 16 * l
  | .group c g => c + 2 ^ 8 * g + 2 ^ 16 * 64
  | .saved ctx e g l => 2 ^ 63 + ctx + 2 ^ 16 * e + 2 ^ 32 * g + 2 ^ 40 * l
  | .queue q => 2 ^ 62 + q
  | .ring c => 2 ^ 62 + 2 ^ 33 + c

/-- Group waiters (R281 bit 57). -/
def Waiter.isGroup : Waiter → Bool
  | .thread _ _ _ => false
  | .saved _ _ _ l => l == 64
  | _ => true

/-- The 32 bytes of a spill record (R281). -/
def Watch.record (w : Watch) : List Byte :=
  leBytes (w.addr % 2 ^ 52 + 2 ^ 52 * w.cond.code + (if w.w64 then 2 ^ 56 else 0) +
      (if w.waiter.isGroup then 2 ^ 57 else 0) + 2 ^ 58) 8 ++
    leBytes w.operand 8 ++ leBytes (w.deadline.getD (2 ^ 64 - 1)) 8 ++ leBytes w.waiter.token 8

/-- The deadline of a watch placed now (R152, R281). -/
def State.deadlineOf (s : State) (w : Watch) : Option Nat := w.timeout.map (fun t => s.cyc.toNat + t)

/-- A registration deferred: it waits in its slice's queue, and counts in the occupancy source (R281). -/
def State.deferWatch (s : State) (n : Nat) (w : Watch) : State :=
  (s.modWatch n fun _ => { w with used := true, held := .deferred }).sample 0x05 (some w.slice) 257

/-- The context of the device's own watches (R284). Its spill area is the device's own and stands in no memory that a program
reaches, so that its records are held with the watches alone (notes/assumptions/61.md). -/
def deviceCtx : Nat := 65536

/-- Whether a context has a spilled watch in a slice (R281). -/
def State.spillsIn (s : State) (slice ctx : Nat) : Bool :=
  s.watches.any fun e => e.2.slice == slice && e.2.ctx == ctx && match e.2.held with
    | .spilled _ => true
    | _ => false

/-- A registration that has to wait takes a free table entry, else a record of its context's segment, else it is
deferred (R279, R281). DESIGN CHOICE (notes/assumptions/68.md): a record whose page cannot be translated is not written, and the
watch stands as spilled. -/
def State.enterWatch (s : State) (n : Nat) (w : Watch) : State :=
  let here := s.watches.filter (fun e => e.2.held == .table && e.2.slice == w.slice && e.1 != n)
  if s.watches.isEmpty || decide (here.length < Config.watchEntries) then
    s.modWatch n fun _ => { w with used := true, held := .table, deadline := s.deadlineOf w }
  else
    let sl := Tbl.get s.slices w.slice
    let used := s.watches.filterMap (fun e => match e.2.held with
      | .spilled r => if e.2.slice == w.slice && e.2.ctx == w.ctx then some r else none
      | _ => none)
    let seg := s.spillSegment w.ctx w.slice
    let room := if w.ctx < deviceCtx then seg.2 else Config.ownSpill w.slice
    match firstFrom (fun r => !used.contains r) 0 (min room (used.length + 1)) with
    | some r =>
      let ctxs := sl.ctxs.filter (s.spillsIn w.slice)
      if ctxs.contains w.ctx || decide (ctxs.length < 16) then
        let w := { w with used := true, held := .spilled r, deadline := s.deadlineOf w, from_ := sl.count }
        let s := { s with slices := Tbl.set s.slices w.slice { sl with
          filter := if sl.filter.contains (filterBit w.addr) then sl.filter else filterBit w.addr :: sl.filter
          ctxs := if ctxs.contains w.ctx then ctxs else w.ctx :: ctxs } }
        let s := s.modWatch n fun _ => w
        if w.ctx = deviceCtx then s else
        match s.spillAddr w.ctx w.slice r .write with
        | .ok pa => s.placeDev pa w.record
        | .fault _ => s
      else s.deferWatch n w
    | none => s.deferWatch n w

/-- A number of the physical memory at a watched word. -/
def State.watchedNow (s : State) (w : Watch) : Nat := Memory.nat s.dev w.addr w.bytes

/-- A registration placed at its slice (R152): resolved at once with an outcome, or entered under the number `n`. -/
def State.register (s : State) (n : Nat) (w : Watch) : State × Option Bool :=
  if w.cond != .any && Cond.holds w.cond (8 * w.bytes) (s.watchedNow w) w.operand then (s, some true)
  else if w.timeout = some 0 then (s, some false)
  else (s.enterWatch n w, none)

/-- A free number for a watch. -/
def State.freeWatch (s : State) : Nat := freeKey s.watches (fun w => w.used)

/-! ### Translation faults -/

/-- Entries of a context's fault queue (R364). -/
def State.faultSlots (s : State) (ctx : Nat) : Nat := 2 ^ (s.ctxNat ctx 0x48 4 % 16)

/-- The agent code, core and place in the group that a record carries (R379). -/
def State.agentWord (s : State) (a : FaultAgent) : Nat × Nat :=
  let low (m : Nat) : Nat := (maskList m 64).headD 0
  let of (code c g l : Nat) : Nat × Nat :=
    (code * 16 + c * 2 ^ 8 + (s.grp c g).index * 2 ^ 16 + l * 2 ^ 20, (s.core c).numOf (s.wgOf c g).launch)
  match a with
  | .thread c g l => of 0 c g l
  | .group c g _ _ => of 1 c g 0
  | .ferry n => (2 * 16 + (s.copy n).ferry * 2 ^ 8, (s.core (s.copy n).core).numOf (s.copy n).launch)
  | .traversal c g l => of 3 c g l
  | .fetch c g m _ => of 4 c g (low m)
  | .spill _ => (5 * 16, 0)
  | .strait _ => (6 * 16, 0)

/-- The generation under which an agent waits, 0 for an agent of the device. -/
def State.agentGen (s : State) : FaultAgent → Gen
  | .thread c g _ | .group c g _ _ | .traversal c g _ | .fetch c g _ _ => if (s.grp c g).used then s.genOf c g else 0
  | _ => 0

/-- A fault's record written into the ring and the write index advanced (R379). -/
def State.writeFault (s : State) (f : FaultRec) : State :=
  let i := s.ctxNat f.ctx 0x58 8
  let w := s.agentWord f.agent
  let at_ := s.ctxNat f.ctx 0x40 8 + 32 * (i % s.faultSlots f.ctx)
  let s := s.placeDev at_ (leBytes f.ptr 8 ++ leBytes (f.kind + w.1) 4 ++ leBytes w.2 4 ++ leBytes f.cyc 8 ++ leBytes 0 8)
  (s.placeNat (s.ctxAddr f.ctx + 0x58) 8 (i + 1))

/-- Records of a context that hold a place in the ring and are not answered. -/
def State.unanswered (s : State) (ctx : Nat) : Nat := (s.faults.filter (fun f => f.ctx == ctx && f.index.isSome)).length

/-- A fault is posted; with the ring full of unanswered records the agent waits for room (R379). -/
def State.postFault (s : State) (ctx ptr kind : Nat) (a : FaultAgent) : State :=
  let f : FaultRec := { ctx := ctx, ptr := ptr, kind := kind, agent := a, cyc := s.cyc.toNat, gen := s.agentGen a }
  if s.unanswered ctx < s.faultSlots ctx then
    let s' := s.writeFault f
    { s' with faults := s'.faults ++ [{ f with index := some (s.ctxNat ctx 0x58 8) }] }
  else { s with faults := s.faults ++ [f] }

end Sys2Proof.Machine
end

