-- ==== Sys2Proof/Machine/Flight.lean ====
section
/-! DEFINITION. Accesses in flight on a core and the rules that order them (R128, R245 to R259): what an access must wait
for, the coalescing queue, the L1, and the performance of one access at its coherence point. -/

namespace Sys2Proof.Machine

/-- Orders with an acquire part (R251). -/
def orderAcquires : Order → Bool
  | .acq | .ar => true
  | _ => false
/-- Orders with a release part (R251). -/
def orderReleases : Order → Bool
  | .rel | .ar => true
  | _ => false

/-- Two lists of byte ranges share a byte. -/
def rangesMeet (a b : List (Nat × Nat)) : Bool :=
  a.any fun x => b.any fun y => decide (x.1 < y.1 + y.2) && decide (y.1 < x.1 + x.2)

/-- Accesses of one thread, or of a uniform word and a thread that was present at it (R165). -/
def MemOp.sameThread (a b : MemOp) : Bool := a.slot == b.slot && a.gen == b.gen && a.lanes &&& b.lanes != 0

/-- The memory that an access leads to: the device's own for one to its own peer number (R243). -/
def MemOp.home (a : MemOp) : Place := if a.own then .device else a.place

/-- Accesses that share a byte. -/
def MemOp.meets (a b : MemOp) : Bool := a.home == b.home && rangesMeet a.pieces b.pieces

/-- A store that the coalescing queue may hold (R245). -/
def MemOp.queues (a : MemOp) : Bool :=
  a.place == .device && match a.act with
    | .store _ => true
    | _ => false

/-- An access already bound, a fence, or a traversal, whose thread is parked: nothing of it holds others back. -/
def MemOp.bound (a : MemOp) : Bool :=
  match a.act with
  | .result _ | .fence | .ray _ _ => true
  | _ => false

/-- Accesses that return a value. -/
def MemOp.reads (a : MemOp) : Bool :=
  match a.act with
  | .load _ _ | .cas _ _ _ _ => true
  | .atom _ _ _ _ r => r
  | _ => false

/-- Loads and atomics (R154). -/
def MemOp.loadsOrAtomic (a : MemOp) : Bool :=
  match a.act with
  | .load _ _ | .cas _ _ _ _ | .atom _ _ _ _ _ | .visw _ => true
  | _ => false

/-- A pure load. -/
def MemOp.isLoad (a : MemOp) : Bool :=
  match a.act with
  | .load _ _ => true
  | _ => false

/-- Scopes wider than a core (R249). -/
def wideScope : Scope → Bool
  | .wg | .core => false
  | _ => true

/-- An access in flight that is not yet visible at a scope (R249, R255, R259). -/
def MemOp.hidden (y : MemOp) (sc : Scope) : Bool :=
  if y.bound then false else
  if y.isLoad then true else
  match y.place with
  | .device => if y.queues && !wideScope sc then y.ent.isNone else true
  | .peer _ => y.reads || sc == .pod || sc == .sys
  | .host => y.reads || sc == .sys
  | _ => true

/-- The cover of a release or acquire holds bytes of an access (R252). -/
def inCover (cover : Option (List (Nat × Nat))) (y : MemOp) : Bool :=
  match cover with
  | none => true
  | some l => y.place == .device && rangesMeet l y.vas

/-- Some of a write's readers is a thread of `x`, with a read before `x` in its program order (R254, third relation); a read that a
unit makes has the number that the core's next access takes. -/
def readBefore (readers : List (Nat × Nat × Nat)) (x : MemOp) : Bool :=
  readers.any fun r => r.1 == x.slot && r.2.1 &&& x.lanes != 0 && decide (r.2.2 ≤ x.id)

/-- The four accesses of one 128-bit word of a thread (R130). -/
def MemOp.sibling (a b : MemOp) : Bool := a.wide && b.wide && a.inst == b.inst && a.sameThread b

/-- A release still waits for an earlier access of its thread (R255). -/
def MemOp.releaseWaits (x y : MemOp) : Bool :=
  orderReleases x.order && y.sameThread x && !y.sibling x && inCover x.cover y && y.hidden x.scope

/-- A release still waits for a queued write that its thread has read before it, issued earlier or later (R254, R255). -/
def MemOp.readWaits (x y : MemOp) : Bool :=
  orderReleases x.order && readBefore y.readers x && inCover x.cover y && y.hidden x.scope

/-- A write not acknowledged holds back a `.pod` or `.sys` release of its thread that covers all memory: no region names a byte of a
peer or of the host (R249, R252, R385). -/
def Unacked.holds (u : Unacked) (x : MemOp) : Bool :=
  orderReleases x.order && x.cover.isNone && (if u.host then x.scope == .sys else x.scope == .pod || x.scope == .sys) &&
    ((u.slot == x.slot && u.gen == x.gen && u.lanes &&& x.lanes != 0 && decide (u.id < x.id)) || readBefore u.readers x)

/-- A read returns bytes of a write not acknowledged. -/
def Unacked.readBy (u : Unacked) (o : MemOp) : Bool := (if u.own then Place.device else u.place) == o.home && rangesMeet u.pieces o.pieces

/-- A fence not yet complete holds back a later access of its thread: a lane's fence its lane accesses (R154), the one that
a uniform word leaves every access (R193). -/
def MemOp.fenceHolds (y x : MemOp) : Bool :=
  match y.act with
  | .fence => y.sameThread x && (y.uni || !x.uni) && (orderAcquires y.order || !x.isLoad)
  | _ => false

/-- Accesses to one line of a peer keep their order, whichever bytes they touch (R382). -/
def MemOp.sameLine (a b : MemOp) : Bool :=
  match a.place with
  | .peer _ => a.place == b.place && a.vas.any fun p => b.vas.any fun q => p.1 / 64 == q.1 / 64
  | _ => false

/-- `x` may not yet take effect because of the earlier access `y` (R128, R154, R248, R255). `entering` is the entry of a
store into the coalescing queue, after which its own place among stores is kept by the queue (R245). A load that goes through the
L1 takes a queued byte as it stands; one by the Strait path waits for the store's placement. -/
def MemOp.heldBy (entering : Bool) (x y : MemOp) : Bool :=
  y.fenceHolds x || x.releaseWaits y ||
    (!y.bound && y.sameThread x && !y.sibling x && orderAcquires y.order) ||
    (!y.bound && y.sameLine x) ||
    (!y.bound && (y.sameThread x || y.inst == x.inst) && y.meets x &&
      !(y.queues && y.ent.isSome && (entering || (x.isLoad && x.place == .device))))

/-- A fence is complete: its earlier accesses are visible, its earlier loads and atomics performed (R154). -/
def MemOp.fenceWaits (x y : MemOp) : Bool :=
  y.sameThread x && (x.uni || !y.uni) && ((orderReleases x.order && y.hidden x.scope) ||
    (orderAcquires x.order && y.loadsOrAtomic))

/-- Bytes of a row of a drain or fill in the array, for each of the 128 rows. -/
def rowRanges (off stride n : Nat) : List (Nat × Nat) := (upFrom 0 128).map fun i => (off + i * stride, n)

/-- Bytes that a row of 128 elements takes in scratchpad (R203). -/
def drainRowBytes (f : Fmt) : Nat := 16 * f.width

/-- Scratchpad bytes that a fill reads for a row (R196). -/
def fillRowBytes (f : Fmt) : Nat := if f.isPlane then 16 * f.planes else if f.width = 6 then 120 else 128

/-- Scratchpad bytes that a queued drain is still to write. -/
def TileAct.drains : TileAct → List (Nat × Nat)
  | .drain _ fmt _ _ _ _ off stride => rowRanges off stride (drainRowBytes fmt)
  | _ => []

/-- Scratchpad bytes that a queued fill or scale is still to read (R193, R196, R202). -/
def TileAct.sources : TileAct → List (Nat × Nat)
  | .fill _ fmt off stride => rowRanges off stride (fillRowBytes fmt)
  | .scale _ _ off _ => [(off, 512)]
  | _ => []

/-- Scratchpad bytes of an operation. -/
def TileAct.bytes (a : TileAct) : List (Nat × Nat) := a.drains ++ a.sources

/-- A queued operation of the threads of an access. -/
def TileOp.sameThread (t : TileOp) (o : MemOp) : Bool := t.slot == o.slot && t.gen == o.gen && t.lanes &&& o.lanes != 0

/-- A queued operation of the same threads reads or writes bytes that a write touches: the write comes after it; a release
that covers all memory comes after their operations on scratchpad (R193, R254, R255, R257, notes/assumptions/7.md). -/
def TileOp.holds (t : TileOp) (o : MemOp) : Bool :=
  t.sameThread o && decide (t.id < o.id) && (
    (!o.isLoad && o.ogen == t.gen && (match o.place with
      | .sram _ => rangesMeet t.act.bytes o.pieces
      | _ => false)) ||
    (orderReleases o.order && o.cover.isNone && !t.act.bytes.isEmpty))

/-- A fence that an `ADRAIN.rel` has left waits for the drain (R193); `ea` holds the operation's identity plus one. -/
def MemOp.waitsDrain (o : MemOp) (x : Core) : Bool := o.ea != 0 && x.seq.any fun t => t.id + 1 == o.ea

/-- An access touches bytes of a side of a copy. -/
def FerrySpan.meets (f : FerrySpan) (o : MemOp) : Bool :=
  (f.place == o.place && rangesMeet f.vas o.vas) || (f.home == o.home && rangesMeet f.bytes o.pieces)

/-- A copy in flight of the same threads is still to write bytes that an access touches, or to read bytes that a write touches, or,
with its rel flag, holds back a release (R254, R257). -/
def FerryHold.holds (f : FerryHold) (o : MemOp) : Bool :=
  f.slot == o.slot && f.gen == o.gen && f.lanes &&& o.lanes != 0 && decide (f.id < o.id) &&
    (f.writes.meets o || (!o.isLoad && f.reads.meets o) || (f.rel && orderReleases o.order))

/-- Ticks of `cyc` after which an unacknowledged remote access fails (R385). -/
def remoteLimit : Nat := 3800000

/-- Whether nothing earlier holds an access back. -/
def Core.free (x : Core) (entering : Bool) (earlier : List MemOp) (o : MemOp) : Bool :=
  !(earlier.any (fun y => MemOp.heldBy entering o y)) && !(x.flight.any fun y => o.readWaits y) &&
    !(x.unacked.any (fun u => u.holds o)) &&
    !(x.seq.any fun t => t.holds o) && !(x.ferried.any fun f => f.holds o)

/-- Whether an access may be performed now: nothing earlier holds it, and the queue's order for each byte is kept; an
atomic, and an access by the Strait path, waits for stores to its bytes that its core still queues (R243, R245, R248). -/
def Core.mayPerform (x : Core) (o : MemOp) : Bool :=
  let earlier := x.flight.takeWhile (fun y => y.id != o.id)
  !o.dead && !o.stuck && x.free false earlier o &&
    (if o.queues then o.ent.isSome && !(x.flight.any (fun y => y.id != o.id && y.queues && y.meets o &&
        (match y.ent, o.ent with
         | some a, some b => decide (a < b)
         | _, _ => false)))
     else (o.isLoad && !o.own) || !(x.flight.any (fun y => y.id != o.id && y.queues && y.ent.isSome && y.meets o)))

/-- Bytes written by a context into its L1 line if the core holds it (R245, R365). -/
def Core.updateL1 (x : Core) (ctx addr : Nat) (data : List Byte) : Core :=
  let line := Tbl.get x.l1 (addr / 64)
  if line.bytes.isEmpty || line.ctx != ctx then x else
  let m := Memory.write (line.bytes.zipIdx.map (fun e => (e.2, e.1))) (addr % 64) data
  { x with l1 := Tbl.set x.l1 (addr / 64) { line with bytes := Memory.read m 0 64 } }

/-- The bytes of a store, piece by piece. -/
def splitData : List (Nat × Nat) → List Byte → List (Nat × List Byte)
  | [], _ => []
  | (a, n) :: t, d => (a, d.take n) :: splitData t (d.drop n)

/-- An acquire at `.atoll` or wider invalidates the lines of its cover (R254). -/
def Core.invalidate (x : Core) (ctx : Nat) (cover : Option (List (Nat × Nat))) : Core :=
  { x with l1 := x.l1.filter fun e =>
      !(e.2.ctx == ctx && match cover with
        | none => true
        | some l => rangesMeet l [(e.2.va, 64)]) }

/-- One pass over the accesses in flight, in issue order: stores that may enter the coalescing queue do, and update the
L1; fences whose accesses are done leave, an acquire fence with its invalidation (R154, R245, R254). The fence that a uniform word
leaves also waits for the tile operations that its threads have queued (R193, R257); a lane's fence orders lane accesses alone (R154). -/
def Core.settleFrom (x : Core) (past : List MemOp) : List MemOp → Core
  | [] => { x with flight := past.reverse }
  | o :: t =>
    match o.act with
    | .fence =>
      if o.waitsDrain x || past.any (fun y => o.fenceWaits y) || (past.any fun y => o.readWaits y) || (t.any fun y => o.readWaits y) ||
          x.unacked.any (fun u => u.holds o) || x.ferried.any (fun f => f.holds o) || (o.uni && x.seq.any fun q => q.holds o) then Core.settleFrom x (o :: past) t
      else
        let x := if orderAcquires o.order && wideScope o.scope then x.invalidate o.ctx o.cover else x
        Core.settleFrom x past t
    | .store d =>
      if o.queues && o.ent.isNone && x.free true past o then
        let x := (splitData o.pieces d).foldl (fun x p => x.updateL1 o.ctx p.1 p.2) x
        Core.settleFrom { x with nextEnt := x.nextEnt + 1 } ({ o with ent := some x.nextEnt } :: past) t
      else Core.settleFrom x (o :: past) t
    | _ => Core.settleFrom x (o :: past) t

/-- The core after every store and fence that can has moved on. -/
def Core.settle (x : Core) : Core := Core.settleFrom x [] x.flight

/-- An access issued: it takes its identity and joins the flight (R70, R245). -/
def State.issueOp (s : State) (c : Nat) (o : MemOp) : State :=
  s.modCore c fun x => Core.settle { x with flight := x.flight ++ [{ o with id := x.nextOp, since := s.cyc.toNat }], nextOp := x.nextOp + 1 }

/-- Whether a release at a scope by the threads of `lanes` of a group, after those of their accesses whose number is below
`mark`, still waits: for such an access, for an engine's access of theirs, or for a write that they have read (R251, R254,
R255, R257). -/
def Core.releaseHeld (x : Core) (g : Nat) (gen : Gen) (lanes : Nat) (sc : Scope) (mark : Nat) : Bool :=
  let r : MemOp := { (default : MemOp) with id := mark, slot := g, gen := gen, lanes := lanes, order := .rel, scope := sc, act := .fence }
  x.flight.any (fun y => (y.sameThread r && decide (y.id < mark) && (y.hidden sc ||
      (match y.act with | .fence => true | _ => false))) || r.readWaits y) ||
  x.unacked.any (fun u => u.holds r) || (x.seq.any fun t => t.holds r) || x.ferried.any fun f => f.holds r

/-- Whether a release at a scope by the threads of `lanes` of a group would still wait now. -/
def Core.pendingAt (x : Core) (g : Nat) (gen : Gen) (lanes : Nat) (sc : Scope) : Bool := x.releaseHeld g gen lanes sc x.nextOp

/-! ### Bytes -/

/-- The newest byte of a context's stores in the coalescing queue at an address, if any (R245, R365). -/
def Core.queued (x : Core) (ctx a : Nat) : Option Byte :=
  let hit := x.flight.filterMap fun y => match y.ent, y.act with
    | some n, .store d =>
      if y.ctx != ctx then none else
      (splitData y.pieces d).findSome? (fun p => if p.1 ≤ a && a < p.1 + p.2.length then some (n, p.2.getD (a - p.1) 0) else none)
    | _, _ => none
  (hit.foldl (fun best e => match best with
    | none => some e
    | some b => if b.1 < e.1 then some e else some b) (none : Option (Nat × Byte))).map (·.2)

/-- A byte of the scratchpad array under a generation: zero where its granule is stale (R52). -/
def Core.sramByte (x : Core) (gen : Gen) (a : Nat) : Byte :=
  if Tbl.get x.gtag (a / 32) = gen then Memory.byte x.sram a else 0

/-- A byte of the array written under a generation: a stale granule is zero-filled and tagged (R54). -/
def Core.setSram (x : Core) (gen : Gen) (a : Nat) (b : Byte) : Core :=
  let x := if Tbl.get x.gtag (a / 32) = gen then x else
    { x with gtag := Tbl.set x.gtag (a / 32) gen, sram := Memory.write x.sram (a / 32 * 32) (List.replicate 32 0) }
  { x with sram := Memory.put x.sram a b }

/-- Bytes of the array under a generation. -/
def Core.sramRead (x : Core) (gen : Gen) (a n : Nat) : List Byte := (upFrom a n).map (x.sramByte gen)

/-- Bytes of the array written under a generation. -/
def Core.sramWrite (x : Core) (gen : Gen) (a : Nat) : List Byte → Core
  | [] => x
  | b :: t => Core.sramWrite (x.setSram gen a b) gen (a + 1) t

/-- Whether an allocation of a generation is live on a core (R56). -/
def Core.isLive (x : Core) (gen : Gen) : Bool := x.wgs.any (fun e => e.2.used && e.2.gen == gen)

/-- A load may take an L1 copy: the line is held for its context, the access allows it, and the hardware's choice is a
hit (R240, R242, R255, R256). -/
def State.hitsL1 (s : State) (c : Nat) (o : MemOp) (a : Nat) : Bool :=
  let line := Tbl.get (s.core c).l1 (a / 64)
  s.choose 0 && o.l1 && o.isLoad && !line.bytes.isEmpty && line.ctx == o.ctx && !(orderAcquires o.order && wideScope o.scope)

/-- A byte read at the place of an access (R240, R245). -/
def State.opByte (s : State) (c : Nat) (o : MemOp) (a : Nat) : Byte :=
  match o.place with
  | .device => match (s.core c).queued o.ctx a with
    | some b => b
    | none => if s.hitsL1 c o a then (Tbl.get (s.core c).l1 (a / 64)).bytes.getD (a % 64) 0 else Memory.byte s.dev a
  | .host => Memory.byte s.host a
  | .peer n => if o.own then Memory.byte s.dev a else Memory.byte (Tbl.get s.peers n) a
  | .sram k => (s.core k).sramByte o.ogen a
  | .narrows => Memory.byte s.narrows a

/-- The bytes of an access, piece by piece. -/
def State.opBytes (s : State) (c : Nat) (o : MemOp) : List Byte :=
  o.pieces.flatMap fun p => (upFrom p.1 p.2).map (s.opByte c o)

/-- Bytes stored at the place of an access; a scratchpad whose allocation has ended takes none (R54, R240). -/
def State.opStore (s : State) (o : MemOp) (data : List Byte) : State :=
  (splitData o.pieces data).foldl (fun s p =>
    match o.place with
    | .device => s.placeDev p.1 p.2
    | .host => { s with host := Memory.write s.host p.1 p.2 }
    | .peer n => if o.own then s.placeDev p.1 p.2
      else { s with peers := Tbl.mod s.peers n fun m => Memory.write m p.1 p.2 }
    | .sram k => s.modCore k fun x => if x.isLive o.ogen then x.sramWrite o.ogen p.1 p.2 else x
    | .narrows => { s with narrows := Memory.write s.narrows p.1 p.2 }) s

/-- The line of an address as a context sees it now on a core: memory merged with its queue (R245). -/
def State.lineNow (s : State) (c ctx a : Nat) : List Byte :=
  (upFrom (a / 64 * 64) 64).map fun b => ((s.core c).queued ctx b).getD (Memory.byte s.dev b)

/-- The L1 lines of an access that the Strait path has brought to device memory are evicted from its core, so that no later hit returns
an older value to the same core (R243, R248). -/
def State.evictLines (s : State) (c : Nat) (o : MemOp) : State :=
  s.modCore c fun x => { x with l1 := x.l1.filter fun e => !rangesMeet o.pieces [(64 * e.1, 64)] }

/-- What a load leaves in the L1: a read past the L1 fills the line afresh or drops it, as the hardware chooses, so that
no later hit returns an older value to the same core (R245, R248). -/
def State.afterRead (s : State) (c : Nat) (o : MemOp) : State :=
  if o.own then s.evictLines c o else if o.place != .device then s else
  (o.pieces.zip o.vas).foldl (fun s p =>
    let a := p.1.1
    if s.hitsL1 c o a then s
    else if s.choose 1 && o.l1 then
      let l := s.lineNow c o.ctx a
      s.modCore c fun x => { x with l1 := Tbl.set x.l1 (a / 64) { bytes := l, va := p.2.1 / 64 * 64, ctx := o.ctx } }
    else s.modCore c fun x => { x with l1 := Tbl.erase x.l1 (a / 64) }) s

/-- New value of an atomic (R133). -/
def atomNew (op : AtomOp) (w64 : Bool) (old v : Nat) : Nat :=
  let w := if w64 then 64 else 32
  let so := sextNat old w
  let sv := sextNat v w
  match op with
  | .add => (old + v) % 2 ^ w
  | .and => old &&& v
  | .or => old ||| v
  | .xor => old ^^^ v
  | .min => if so ≤ sv then old else v
  | .max => if so ≤ sv then v else old
  | .umin => min old v
  | .umax => max old v
  | .exch => v
  | .inc => if v ≤ old then 0 else old + 1
  | .dec => if old = 0 || v < old then v else old - 1
  | .fadd =>
    let f := if w64 then fmt64 else fmt32
    f.encode (f.narrow .rne (exactSum .rne [f.decode old, f.decode v]))

/-- The words a load returns for its destination registers (R130, R131). -/
def loadWords (form : LdForm) (bytes : List Byte) (ea : Nat) : List Word :=
  let n := leNat bytes
  match form with
  | .plain .u8 | .plain .u16 | .plain .b32 => [BitVec.ofNat 32 n]
  | .plain .s8 => [BitVec.ofInt 32 (sextNat n 8)]
  | .plain .s16 => [BitVec.ofInt 32 (sextNat n 16)]
  | .plain .b64 => [BitVec.ofNat 32 n, BitVec.ofNat 32 (n / 2 ^ 32)]
  | .plain .b128 => [BitVec.ofNat 32 n, BitVec.ofNat 32 (n / 2 ^ 32), BitVec.ofNat 32 (n / 2 ^ 64), BitVec.ofNat 32 (n / 2 ^ 96)]
  | .plane drop unsigned centre =>
    let k := 8 - drop.val
    let j := ea / 4 % 32
    let element (i : Nat) : Nat :=
      let e := 4 * j + i
      let x := (upFrom 0 k).foldl (fun x p => x + (if (bytes.getD p 0).toNat.testBit (e % 8) then 2 ^ (7 - p) else 0)) 0
      ((planePrefix (!unsigned) k centre x) % 256).toNat
    [BitVec.ofNat 32 (element 0 + element 1 * 2 ^ 8 + element 2 * 2 ^ 16 + element 3 * 2 ^ 24)]

/-- The bytes of one register or pair value. -/
def wideBytes (w64 : Bool) (v : Nat) : List Byte := leBytes v (if w64 then 8 else 4)

/-- The words of a value returned by an atomic. -/
def wideWords (w64 : Bool) (v : Nat) : List Word :=
  if w64 then [BitVec.ofNat 32 v, BitVec.ofNat 32 (v / 2 ^ 32)] else [BitVec.ofNat 32 v]

/-- An atomic's value left in the core's L1 copy (R245). -/
def State.atomL1 (s : State) (c : Nat) (o : MemOp) (data : List Byte) : State :=
  if o.own then s.evictLines c o else if o.place != .device then s else
  s.modCore c fun x => (splitData o.pieces data).foldl (fun x p => x.updateL1 o.ctx p.1 p.2) x

/-- An access performed at its coherence point: the state after it and the words it returns (R130 to R135, R240). -/
def State.performOp (s : State) (c : Nat) (o : MemOp) : State × List Word :=
  match o.act with
  | .load form _ =>
    let b := s.opBytes c o
    (s.afterRead c o, loadWords form b o.ea)
  | .atom op w64 v _ _ =>
    let old := leNat (s.opBytes c o)
    let d := wideBytes w64 (atomNew op w64 old v)
    ((s.opStore o d).atomL1 c o d, wideWords w64 old)
  | .cas w64 e n _ =>
    let old := leNat (s.opBytes c o)
    if old = e then
      let d := wideBytes w64 n
      ((s.opStore o d).atomL1 c o d, wideWords w64 old)
    else (s.atomL1 c o (wideBytes w64 old), wideWords w64 old)
  | .store d => (let t := s.opStore o d; if o.own then t.evictLines c o else t, [])
  | .visw v =>
    let d := leBytes (max (leNat (s.opBytes c o)) v) 8
    ((s.opStore o d).atomL1 c o d, [])
  | .fence | .ray _ _ => (s, [])
  | .result l => (s, l.map (·.2))

/-- Queued stores that a load or atomic reads are marked with its thread and number (R254). -/
def Core.markReaders (x : Core) (o : MemOp) : Core :=
  if !o.loadsOrAtomic then x else
  let r := (o.slot, o.lanes, o.id)
  { x with
    flight := x.flight.map fun y => if y.ent.isSome && y.meets o && !y.sameThread o then { y with readers := r :: y.readers } else y }

/-- A core takes note that a thread of its has read a write that core `k` has placed and that is not acknowledged. -/
def Core.noteFar (x : Core) (k : Nat) (u : Unacked) (o : MemOp) : Core :=
  let r := (o.slot, o.lanes, o.id)
  if x.unacked.any (fun v => v.origin == some (k, u.id)) then
    { x with unacked := x.unacked.map fun v => if v.origin == some (k, u.id) then { v with readers := r :: v.readers } else v }
  else { x with unacked := { u with id := 0, slot := 256, lanes := 0, readers := [r], origin := some (k, u.id) } :: x.unacked }

/-- A write not acknowledged marked by a read of its own core. -/
def Unacked.noted (u : Unacked) (o : MemOp) : Unacked :=
  if u.origin.isNone && u.readBy o then { u with readers := (o.slot, o.lanes, o.id) :: u.readers } else u

/-- Remote or host writes not yet acknowledged, of any core, that a read of a core returns are marked with its thread and number
(R254, R255). -/
def State.markUnacked (s : State) (c : Nat) (o : MemOp) : State :=
  s.cores.foldl (fun s e =>
    let us := e.2.unacked.filter fun u => u.origin.isNone && u.readBy o
    if us.isEmpty then s
    else if e.1 = c then s.modCore c fun x => { x with unacked := x.unacked.map (·.noted o) }
    else us.foldl (fun s u => s.modCore c fun x => x.noteFar e.1 u o) s) s

/-- A read of a core marks the writes that it may return: its core's queued stores, and what waits for its acknowledgement (R254,
R255). -/
def State.markReads (s : State) (c : Nat) (o : MemOp) : State :=
  if !o.loadsOrAtomic then s else (s.modCore c fun x => x.markReaders o).markUnacked c o

/-- A write of a core has been acknowledged or has failed: nothing waits for it any more, on any core (R255, R259, R385). -/
def State.acked (s : State) (c id : Nat) : State :=
  let mine (k : Nat) (u : Unacked) : Bool := (k == c && u.origin.isNone && u.id == id) || u.origin == some (c, id)
  (s.cores.filter fun e => e.2.unacked.any (mine e.1)).foldl (fun s e =>
    s.modCore e.1 fun x => Core.settle { x with unacked := x.unacked.filter fun u => !mine e.1 u }) s

/-- The registers that receive an access's words. -/
def MemOp.dest (o : MemOp) : Option Nat :=
  match o.act with
  | .load _ d => some d
  | .atom _ _ _ d r => if r then some d else none
  | .cas _ _ _ d => some d
  | .result ((r, _) :: _) => some r
  | _ => none

/-- Whether an access holds a place in an outstanding count (R70). -/
def MemOp.counted (o : MemOp) : Bool := o.dest.isSome

/-- Words returned to a thread's lane or to the group's uniform registers, if the allocation and the thread, or some thread of the
group, are still there (R54, R236). -/
def State.returnWords (s : State) (c : Nat) (o : MemOp) (ws : List Word) : State :=
  match o.dest with
  | none => s
  | some d =>
    if !(s.grp c o.slot).used || s.genOf c o.slot != o.gen then s
    else if o.uni then (if (s.grp c o.slot).thr.any fun e => e.2.live then s.modGrp c o.slot fun g => g.setSList d ws else s)
    else
      let l := (maskList o.lanes 64).headD 0
      if !(s.thr c o.slot l).live then s else
      (ws.zipIdx).foldl (fun s w => s.wrV c o.slot (d + w.2) l w.1) s

/-- One place of an outstanding count is given back with the last access of the operation; at zero the owner's switch ends
(R34, R71, R130). -/
def State.uncount (s : State) (c : Nat) (o : MemOp) : State :=
  if !o.counted || !(s.grp c o.slot).used || s.genOf c o.slot != o.gen || (s.core c).flight.any (fun y => y.id != o.id && y.sibling o) then s
  else if o.uni then
    s.modGrp c o.slot fun g => { g with ucount := g.ucount - 1, usw := g.usw && g.ucount != 1 }
  else
    let l := (maskList o.lanes 64).headD 0
    s.modThr c o.slot l fun t => { t with count := t.count - 1, sw := t.sw && t.count != 1 }

/-- The lanes that the end of an access makes ready: those whose switch it ended (R71, R231). -/
def State.wokenBy (s0 s : State) (c : Nat) (o : MemOp) : Nat :=
  if o.uni then (if (s0.grp c o.slot).usw && !(s.grp c o.slot).usw then allLanes else 0)
  else
    let l := (maskList o.lanes 64).headD 0
    if (s0.thr c o.slot l).sw && !(s.thr c o.slot l).sw then 2 ^ l else 0

/-- The Strait port of a line of a peer (R382). -/
def portOf (peer line : Nat) : Nat := Config.straitPort peer line % 24

/-- The Strait ports that a remote access travels on, one for each line that it touches (R382). -/
def MemOp.ports (o : MemOp) : List Nat :=
  match o.place with
  | .peer n => ((o.vas.flatMap fun r => lineRuns r.1 r.2).map fun r => portOf n (r.1 / 64)).eraseDups
  | _ => []

/-- An access reaches its place: a remote one over ports whose links are up (R382, R383), one of device memory at a slice that
takes it (R282). -/
def State.linked (s : State) (o : MemOp) : Bool :=
  o.ports.all (fun p => (Tbl.get s.links p).up) && !(o.home == .device && s.walkFull o.pieces)

/-- One access of a core completes: it is performed, its words return, its count falls and what waited for the count is
ready again (R34, R71, R247). An access that may not be performed yet is left as it is. -/
def State.complete (s : State) (c : Nat) (o : MemOp) : State × Nat :=
  if !(s.core c).mayPerform o || !s.linked o then (s, 0) else
  let s1 := s.markReads c o
  let (s2, ws) := s1.performOp c o
  let s3 := s2.modCore c fun x => { x with flight := x.flight.filter (fun y => y.id != o.id) }
  let away := match o.place with
    | .peer _ | .host => true
    | _ => false
  let s4 := if away && !o.reads then s3.modCore c fun x => { x with unacked :=
      { id := o.id, slot := o.slot, lanes := o.lanes, gen := o.gen, host := o.place == Place.host, readers := o.readers,
        place := o.place, pieces := o.pieces, own := o.own, ea := o.ea, since := o.since, launch := o.launch } :: x.unacked }
    else s3
  let s5 := s4.modCore c fun x =>
    if orderAcquires o.order && wideScope o.scope then Core.settle (x.invalidate o.ctx o.cover) else x.settle
  let s6 := (s5.returnWords c o ws).uncount c o
  (s6, s5.wokenBy s6 c o)

/-- Several accesses complete in turn; the lanes they make ready are gathered by group. -/
def State.completeAll (s : State) (c : Nat) : List MemOp → List (Nat × Nat) → State × List (Nat × Nat)
  | [], acc => (s, acc)
  | o :: t, acc =>
    let (s, m) := s.complete c o
    State.completeAll s c t (if m = 0 then acc else joinParts acc [(o.slot, m)])

/-- The access `id` of a core completes, or with choice bit 6 every access of its instruction that can in this cycle;
what becomes ready together enters the table together (R231, notes/assumptions/1.md). -/
def State.completeOp (s : State) (c id : Nat) (want : MemOp → Bool) : State :=
  match (s.core c).flight.find? (fun o => o.id == id && want o) with
  | none => s
  | some o =>
    let l := if s.choose 6 then (s.core c).flight.filter (fun y => y.inst == o.inst && want y) else [o]
    let (s, ready) := s.completeAll c l []
    ready.foldl (fun s p => s.release c p.1 p.2) s

end Sys2Proof.Machine
end

