-- ==== Sys2Proof/Machine/Run.lean ====
section
/-! DEFINITION. How a word executes for an issue instance (R73, R94, R128, R162 to R164): group by group in ascending
slot, with its guard, its switch bit (R71), the implicit switch at a full count (R35), traps, and the cohorts in which
the threads go on (R227). Every meaning of a word is one effect given to `runLane` or `runUniform`. -/

namespace Sys2Proof.Machine

/-- The outcome type of every meaning. -/
abbrev Result := Host.Outcome State Fault Refusal

/-- One group's part of an instance: present lanes, and those of them whose guard holds. -/
structure Part where
  core : Nat
  slot : Nat
  lanes : Nat
  exec : Nat
  inst : Inst
  deriving DecidableEq, Repr, Inhabited

/-- The word after the instruction. -/
def Inst.after (i : Inst) : Nat := i.pc + 4 * i.words

/-- The executing lanes, ascending (R128). -/
def Part.lanesL (p : Part) : List Nat := maskList p.exec 64

/-- The `tval` of an illegal operand: word and trailer (R44). -/
def Inst.both (i : Inst) : Nat := i.word + i.trailer * 2 ^ 32

/-- Illegal operand (R44). -/
def Inst.illegalOperand (i : Inst) : Trap := { cause := 0x02, tval := i.both }
/-- Rights (R44). -/
def Inst.rights (i : Inst) : Trap := { cause := 0x05, tval := i.word }

/-- What a lane word does to one group: goes on, waits at the word, or traps. -/
inductive LaneOut where
  | ok (s : State)
  | wait
  | trap (t : Trap)
  deriving Inhabited

/-- What a uniform word does to one group: goes on at a word, parks there, waits for the interlock, meets a full count,
or traps. -/
inductive UniOut where
  | ok (s : State) (pc : Nat)
  | park (s : State) (p : Park)
  | wait
  | full
  | trap (t : Trap)
  deriving Inhabited

/-- Lanes of a group put at a word. -/
def State.setPcs (s : State) (c g : Nat) (lanes : List Nat) (pc : Nat) : State :=
  s.modGrp c g fun x => { x with thr := lanes.foldl (fun t l => Tbl.mod t l fun u => { u with pc := pc }) x.thr }

/-- The switch bit on the lanes of a group: those with a count park until it is zero (R71). -/
def State.switchLanes (s : State) (c g : Nat) (lanes : List Nat) : State :=
  s.modGrp c g fun x => { x with thr := lanes.foldl (fun t l => Tbl.mod t l fun u =>
    { u with sw := u.sw || (u.live && u.count != 0) }) x.thr }

/-- The lanes of a mask whose guard holds (R73). -/
def Group.guarded (g : Group) (p m : Nat) : Nat :=
  listMask ((maskList m 64).filter (fun l => (Tbl.get g.thr l).pred p))

/-- The lanes that events of the instruction in execution have woken, event by event (R227). -/
def State.wokenNow (s : State) : List (List (Nat × Nat)) :=
  match s.inst with
  | some i => i.woken
  | none => []

/-- The threads of an instance go on: what one event has woken is a cohort, and so are those present that reach one word
(R227). -/
def State.goOn (s : State) (i : Inst) : State :=
  if i.handler then s else
  let s := s.wokenNow.foldl (fun s e => s.releaseAll i.core e) s
  let cohorts := gather (i.parts.flatMap (s.standing i.core))
  s.modCore i.core fun x => cohorts.foldl (fun x h => x.enter s.coreCyc i.num h.1 h.2) x

/-- One group's part of a lane word. -/
def lanePart (sw : Bool) (guard : Nat) (i : Inst) (f : State → Part → LaneOut) (s : State) (p : Nat × Nat) : State :=
  let G := s.grp i.core p.1
  if !G.used then s
  else if i.handler then s.takeTrap i.core p.1 p.2 i.pc false { cause := 0x01, tval := i.word }
  else
    let lanes := maskList p.2 64
    let s1 := s.setPcs i.core p.1 lanes i.after
    match f s1 { core := i.core, slot := p.1, lanes := p.2, exec := G.guarded guard p.2, inst := i } with
    | .ok s2 => if sw then s2.switchLanes i.core p.1 lanes else s2
    | .wait => s
    | .trap t => s.takeTrap i.core p.1 p.2 i.pc false t

/-- A lane word: every group of the instance in ascending slot (R128). -/
def runLane (sw : Bool) (guard : Nat) (s : State) (f : State → Part → LaneOut) : Result :=
  match s.inst with
  | none => .next s
  | some i => .next ((i.parts.foldl (lanePart sw guard i f) s).goOn i)

/-- The present threads of a group, or its handler, put at a word. -/
def State.advance (s : State) (i : Inst) (p : Nat × Nat) (pc : Nat) : State :=
  if i.handler then
    s.modGrp i.core p.1 fun x => { x with handler := x.handler.map fun h => { h with pc := pc } }
  else s.setPcs i.core p.1 (maskList p.2 64) pc

/-- Parks of a word that does not execute again on release, so that its switch bit counts from now on (R71). -/
def Park.once : Park → Bool
  | .sleep _ | .watch _ | .copy _ | .promise _ _ _ _ | .check _ | .launchw _ _ | .replay | .dbg _ => true
  | _ => false

/-- The switch bit of a word that traps after itself: the group parks until its count is zero, its handler with it (R71,
R187). -/
def State.switchTrap (s : State) (c g : Nat) (sw : Bool) : State :=
  if sw && (s.grp c g).ucount != 0 then s.modGrp c g fun x => { x with usw := true } else s

/-- One group's part of a uniform word (R162, R164). -/
def uniformPart (sw : Bool) (i : Inst) (f : State → Part → UniOut) (s : State) (p : Nat × Nat) : State :=
  let G := s.grp i.core p.1
  if !G.used then s else
  match f s { core := i.core, slot := p.1, lanes := p.2, exec := p.2, inst := i } with
  | .ok s1 pc =>
    let s2 := s1.advance i p pc
    if sw && (s2.grp i.core p.1).ucount != 0 then
      (s2.modGrp i.core p.1 fun x => { x with usw := true }).leaveAll i.core p.1
    else s2
  | .park s1 q =>
    let s2 := s1.parkGrp i.core p.1 q i.pc p.2
    if sw && q.once then s2.modGrp i.core p.1 fun x => { x with usw := x.ucount != 0 } else s2
  | .wait => s
  | .full => (s.modGrp i.core p.1 fun x => { x with usw := true, isw := min (x.isw + 1) 0xFFFF }).leaveAll i.core p.1
  | .trap t => (s.switchTrap i.core p.1 (sw && t.after)).takeTrap i.core p.1 p.2 i.pc true t

/-- A uniform word: once for each contributing group, ascending slot (R162). -/
def runUniform (sw : Bool) (s : State) (f : State → Part → UniOut) : Result :=
  match s.inst with
  | none => .next s
  | some i => .next ((i.parts.foldl (uniformPart sw i f) s).goOn i)

/-- The first of several traps by the ranking of R44: illegal instruction, illegal operand, register bound, rights,
address space, misaligned address, stale read, then by cause. -/
def trapRank (cause : Nat) : Nat :=
  match cause with
  | 0x01 => 1 | 0x02 => 2 | 0x03 => 3 | 0x05 => 4 | 0x04 => 5 | 0x07 => 6 | 0x06 => 7
  | n => n

/-- The trap an instruction reports of those its threads meet: the earliest in rank, of the lowest lane (R44). -/
def worstTrap : List Trap → Option Trap
  | [] => none
  | t :: ts => match worstTrap ts with
    | none => some t
    | some u => if trapRank u.cause < trapRank t.cause then some u else some t

/-- The stale-read trap of source rows, if a thread executes (R52). -/
def State.staleLane (s : State) (p : Part) (srcs : List Nat) : Option Trap :=
  if p.exec = 0 then none else (s.staleRow p.core p.slot srcs).map fun t => { t with lane := p.lanesL.headD 0 }

/-- Register bounds and stale source rows of a lane word (R68 step 5, R52). The bound check holds whatever the guard; a
stale source traps only a thread that executes. -/
def State.laneChecks (s : State) (p : Part) (regs : List (Bool × Nat × Nat)) (srcs : List Nat) : Option Trap :=
  match (s.grp p.core p.slot).bounds regs with
  | some t => some { t with lane := (maskList p.lanes 64).headD 0 }
  | none => s.staleLane p srcs

/-- A computing lane word: each executing thread reads its own lane of the sources and writes its own lane of the
destinations (R94). `regs` are the operands in order, as first register and count. -/
def laneFn (c : LaneCtl) (s : State) (regs : List (Nat × Nat)) (srcs : List Nat)
    (f : (Nat → Word) → List (Nat × Word)) : Result :=
  runLane c.sw c.g.val s fun s p =>
    match s.laneChecks p (regs.map fun r => (true, r.1, r.2)) srcs with
    | some t => .trap t
    | none => .ok (p.lanesL.foldl (fun a l =>
        (f (fun r => s.rdV p.core p.slot r l)).foldl (fun a w => a.wrV p.core p.slot w.1 l w.2) a) s)

/-- A lane word that writes a predicate of each executing thread (R102, R110). -/
def lanePred (c : LaneCtl) (s : State) (pd : Nat) (regs : List Nat) (f : (Nat → Word) → Bool) : Result :=
  runLane c.sw c.g.val s fun s p =>
    match s.laneChecks p (regs.map fun r => (true, r, 1)) regs with
    | some t => .trap t
    | none => .ok (p.lanesL.foldl (fun a l =>
        a.modThr p.core p.slot l fun t => t.setPred pd (f fun r => s.rdV p.core p.slot r l)) s)

/-- A drain under `rs` that a group has issued is still to be done: what else reads or writes `srstate` comes after it
(R20). -/
def Core.drainsRs (x : Core) (g : Nat) (gen : Gen) : Bool :=
  x.seq.any fun o => o.slot == g && o.gen == gen && match o.act with
    | .drain _ _ mode _ _ _ _ _ => mode == .rs
    | _ => false

/-- Executing lanes whose count is full and that would start a further operation (R35). -/
def State.fullLanes (s : State) (p : Part) : List Nat := p.lanesL.filter fun l => (s.thr p.core p.slot l).count == 63

/-- Full lanes park at the word until their count is zero; the statistic rises once (R35). -/
def State.implicitSwitch (s : State) (p : Part) (full : List Nat) : State :=
  if full.isEmpty then s else
  s.modGrp p.core p.slot fun x => { x with
    isw := min (x.isw + 1) 0xFFFF
    thr := full.foldl (fun t l => Tbl.mod t l fun u => { u with sw := true, pc := p.inst.pc }) x.thr }

/-- One more operation outstanding for a thread (R34). -/
def State.countUp (s : State) (c g l : Nat) : State := s.modThr c g l fun t => { t with count := t.count + 1 }

/-- One more operation outstanding for a group (R34). -/
def State.countUpU (s : State) (c g : Nat) : State := s.modGrp c g fun x => { x with ucount := x.ucount + 1 }

/-- A scalar word of fixed latency: registers checked, then the group changed (R166). -/
def scalar (sw : Bool) (s : State) (regs : List (Nat × Nat)) (f : Group → Group) : Result :=
  runUniform sw s fun s p =>
    match (s.grp p.core p.slot).bounds (regs.map fun r => (false, r.1, r.2)) with
    | some t => .trap t
    | none => .ok (s.modGrp p.core p.slot f) p.inst.after

end Sys2Proof.Machine
end

