-- ==== Sys2Proof/Machine/Operands.lean ====
section
/-! DEFINITION. Operand forms: register pairs (R31), packed halves and bytes (R105, R114, R117), bit fields (R101),
integer functions shared by lane and uniform words (R96, R100, R166, R168), and `f32`, `f64` and `f16` arithmetic on
codes (R105 to R113). -/

namespace Sys2Proof.Machine

/-- A pair read through a word reader: the low word in the even register (R31). -/
def pairOf (rd : Nat → Word) (r : Nat) : Nat := (rd r).toNat + (rd (r + 1)).toNat * 2 ^ 32

/-- A pair to be written. -/
def putPair (r x : Nat) : List (Nat × Word) := [(r, BitVec.ofNat 32 x), (r + 1, BitVec.ofNat 32 (x / 2 ^ 32))]

/-- The words of a list to be written to successive registers. -/
def putWords (r : Nat) (ws : List Word) : List (Nat × Word) := ws.zipIdx.map fun w => (r + w.2, w.1)

/-- `SHL` (R96). -/
def shiftL (a c : Word) : Word := if c.toNat < 32 then a <<< c.toNat else 0
/-- `SHR` (R96). -/
def shiftR (a c : Word) : Word := if c.toNat < 32 then a >>> c.toNat else 0
/-- `SAR` (R96). -/
def shiftA (a c : Word) : Word := if c.toNat < 32 then a.sshiftRight c.toNat else a.sshiftRight 31
/-- Signed minimum (R96). -/
def sMin (a b : Word) : Word := if a.toInt ≤ b.toInt then a else b
/-- Signed maximum (R96). -/
def sMax (a b : Word) : Word := if a.toInt ≤ b.toInt then b else a
/-- Unsigned minimum (R96). -/
def uMin (a b : Word) : Word := if a.toNat ≤ b.toNat then a else b
/-- Unsigned maximum (R96). -/
def uMax (a b : Word) : Word := if a.toNat ≤ b.toNat then b else a
/-- The high word of the signed product (R96). -/
def mulHighS (a b : Word) : Word := BitVec.ofInt 32 (a.toInt * b.toInt / 2 ^ 32)
/-- The high word of the unsigned product (R98). -/
def mulHighU (a b : Word) : Word := BitVec.ofNat 32 (a.toNat * b.toNat / 2 ^ 32)

/-- Number of set bits. -/
def popCount (a : Word) : Nat := ((List.range 32).filter (fun i => a.getLsbD i)).length
/-- Number of leading zeros, 32 for zero. -/
def leadZeros (a : Word) : Nat := if a = 0 then 32 else 31 - Nat.log2 a.toNat
/-- Number of trailing zeros, 32 for zero. -/
def trailZeros (a : Word) : Nat := ((List.range 32).find? (fun i => a.getLsbD i)).getD 32

/-- The functions of `IUN` and `SUN` as 64-bit results; all but the last two keep the low word only (R100, R168). -/
def iunVal (fn : IUn) (a : Word) : DWord :=
  let lo (w : Word) : DWord := w.setWidth 64
  match fn with
  | .not => lo (~~~a)
  | .neg => lo (0 - a)
  | .abs => lo (if a.toInt < 0 then 0 - a else a)
  | .popc => BitVec.ofNat 64 (popCount a)
  | .clz => BitVec.ofNat 64 (leadZeros a)
  | .ctz => BitVec.ofNat 64 (trailZeros a)
  | .brev => lo a.reverse
  | .sext8 => lo ((a.setWidth 8).signExtend 32)
  | .sext16 => lo ((a.setWidth 16).signExtend 32)
  | .zext8 => lo ((a.setWidth 8).setWidth 32)
  | .zext16 => lo ((a.setWidth 16).setWidth 32)
  | .sext64 => a.signExtend 64
  | .zext64 => lo a

/-- Clipped field: position and size (R101). -/
def fieldOf (pos len : Nat) : Nat × Nat := (pos, if pos < 32 then min (pos + len) 32 - pos else 0)

/-- Position and length of `BFX` and `BFI`, from a register's low halves or immediates (R101). -/
def fieldPos (f : FieldPos) (rd : Nat → Word) : Nat × Nat :=
  match f with
  | .reg r => fieldOf ((rd r).toNat % 2 ^ 8) ((rd r).toNat / 2 ^ 8 % 2 ^ 8)
  | .imm p l => fieldOf p.val l.val

/-- The registers a field position reads. -/
def fieldRegs : FieldPos → List Nat
  | .reg r => [r.val]
  | .imm _ _ => []

/-- The field extracted (R101). -/
def bfxVal (sgn : Bool) (a : Word) (p : Nat × Nat) : Word :=
  let f := a.toNat / 2 ^ p.1 % 2 ^ p.2
  if p.2 = 0 then 0 else if sgn then BitVec.ofInt 32 (sextNat f p.2) else BitVec.ofNat 32 f

/-- The field inserted (R101). -/
def bfiVal (a b : Word) (p : Nat × Nat) : Word :=
  let mask : Word := BitVec.ofNat 32 ((2 ^ p.2 - 1) * 2 ^ p.1)
  (a &&& ~~~mask) ||| ((b <<< p.1) &&& mask)

/-! ### Floating point on codes -/

/-- a + b under a mode, from codes to a code (R105, R106). -/
def FloatFmt.addC (f : FloatFmt) (mode : Mode) (a b : Nat) : Nat :=
  f.encode (f.narrow mode (exactSum mode [f.decode a, f.decode b]))
/-- a − b (R105). -/
def FloatFmt.subC (f : FloatFmt) (mode : Mode) (a b : Nat) : Nat :=
  f.encode (f.narrow mode (exactSum mode [f.decode a, (f.decode b).neg]))
/-- a · b (R105). -/
def FloatFmt.mulC (f : FloatFmt) (mode : Mode) (a b : Nat) : Nat :=
  f.encode (f.narrow mode (FVal.mul (f.decode a) (f.decode b)))
/-- a · b + c, one rounding (R30). -/
def FloatFmt.fmaC (f : FloatFmt) (mode : Mode) (a b c : Nat) : Nat :=
  f.encode (f.narrow mode (exactSum mode [FVal.mul (f.decode a) (f.decode b), f.decode c]))

/-- The operations of `FFMAX` with `.ftz` on operands and result (R24, R107). -/
def fmaApply (op : FmaOp) (f : FloatFmt) (mode : Mode) (ftz : Bool) (a b c : Nat) : Nat :=
  let x := flush ftz (f.decode a)
  let y := flush ftz (f.decode b)
  let z := flush ftz (f.decode c)
  f.encode (flush ftz (f.narrow mode (match op with
    | .fma => exactSum mode [FVal.mul x y, z]
    | .add => exactSum mode [x, y]
    | .sub => exactSum mode [x, y.neg]
    | .mul => FVal.mul x y)))

/-- `FMIN` or `FMAX`: one of the operands unchanged (R108). -/
def fminmax (takeMax : Bool) (a b : Nat) : Nat :=
  let x := fmt32.decode a
  let y := fmt32.decode b
  if x.isNan && y.isNan then 0x7FC00000 else if x.isNan then b else if y.isNan then a
  else
    let c := FVal.cmp true x y
    if takeMax then (if 0 ≤ c then a else b) else (if c ≤ 0 then a else b)

/-- The conditions of `FCMP` (R110). -/
def fcondTest (c : FCond) (a b : Nat) : Bool :=
  let x := fmt32.decode a
  let y := fmt32.decode b
  let u := x.isNan || y.isNan
  let o := FVal.cmp false x y
  match c with
  | .eq => !u && o == 0 | .ne => u || o != 0
  | .lt => !u && decide (o < 0) | .le => !u && decide (o ≤ 0)
  | .gt => !u && decide (0 < o) | .ge => !u && decide (0 ≤ o)
  | .ord => !u | .uno => u
  | .ueq => u || o == 0 | .ult => u || decide (o < 0) | .ule => u || decide (o ≤ 0)
  | .ugt => u || decide (0 < o) | .uge => u || decide (0 ≤ o)
  | .lg => !u && o != 0

/-- An operation on the two `f16` halves of a register, each on its own (R107, R112). -/
def halves (f : Nat → Nat → Nat → Nat) (a b c : Word) : Word :=
  let lo := f (a.toNat % 2 ^ 16) (b.toNat % 2 ^ 16) (c.toNat % 2 ^ 16)
  let hi := f (a.toNat / 2 ^ 16) (b.toNat / 2 ^ 16) (c.toNat / 2 ^ 16)
  BitVec.ofNat 32 (lo + hi * 2 ^ 16)

/-- Byte i of a register (R114). -/
def byteAt (a : Word) (i : Nat) : Nat := a.toNat / 2 ^ (8 * i) % 2 ^ 8

end Sys2Proof.Machine
end

