-- ==== Sys2Proof/Machine/Flags.lean ====
section
/-! DEFINITION. The flag computations: `mxstat` (R25, R45), `mxerr` (R46), `oc` (R48) and the words in which programs
read the group's and the workgroup's registers (R39 to R49). -/

namespace Sys2Proof.Machine

/-- NV, OF, IOV and ME set in a group's `mxstat` (R45); a flag once set stays. -/
def Group.setFlags (g : Group) (cyc : Nat) (nv of iov me : Bool) : Group :=
  let m : BitVec 4 := (if nv then 1 else 0) ||| (if of then 2 else 0) ||| (if iov then 4 else 0) ||| (if me then 8 else 0)
  if m = 0 then g
  else { g with mxstat := g.mxstat ||| m, setAt := cyc, setNow := if g.setAt = cyc then g.setNow ||| m else m }

/-- The flags set in this cycle (R25). -/
def Group.justSet (g : Group) (cyc : Nat) : BitVec 4 := if g.setAt = cyc then g.setNow else 0

/-- A write of ones clears flags (R45); one that is set in the same cycle stays set (R25). -/
def Group.clearFlags (g : Group) (cyc : Nat) (w : Word) : Group :=
  { g with mxstat := g.mxstat &&& (~~~(w.setWidth 4) ||| g.justSet cyc) }

/-- One operand-memory element replaced by zero: the first one is recorded, later ones are counted (R46, R270). -/
def mxerrNote (e : Word) (slot row bit : Nat) : Word :=
  if e.getLsbD 31 then
    let n := min (e.toNat / 2 ^ 22 % 256 + 1) 255
    BitVec.ofNat 32 (2 ^ 31 + 2 ^ 30 + n * 2 ^ 22 + e.toNat % 2 ^ 22)
  else BitVec.ofNat 32 (2 ^ 31 + bit * 2 ^ 12 + row * 2 ^ 5 + slot)

/-- The word of `oc` (R48). -/
def Group.oc (g : Group) : Word :=
  let tmax := (List.range 64).foldl (fun m l => max m (Tbl.get g.thr l).count) 0
  BitVec.ofNat 32 (g.isw * 2 ^ 16 + tmax * 2 ^ 8 + g.ucount)

/-- The word of `rpidx` (R42). -/
def Wg.rpidx (w : Wg) : Word := BitVec.ofNat 32 ((if w.rst then 2 ^ 16 else 0) + w.count * 2 ^ 8 + w.point)

/-- The seed of R19 for a lane: base work identifier, level boundary, point, record seed, group and lane. -/
def seedOf (base wgbit point rsseed g l : Nat) : Word :=
  let w : Word := BitVec.ofNat 32 (base / 2 ^ wgbit)
  let x : Word := BitVec.ofNat 32 rsseed ^^^ (w * 0x9E3779B1) ^^^ (BitVec.ofNat 32 (g * 64) ||| BitVec.ofNat 32 l)
  let x := x ^^^ (BitVec.ofNat 32 point * 0x85EBCA6B)
  if x = 0 then 1 else x

/-- The level boundary at a workgroup size of g groups (R220). -/
def wgbitOf (g : Nat) : Nat := if g ≤ 1 then 6 else if g ≤ 2 then 7 else if g ≤ 4 then 8 else if g ≤ 8 then 9 else 10

/-- Every lane of every group of a workgroup receives the seed of R19 for its current point; a task takes level boundary
6 (DESIGN CHOICE, notes/assumptions/59.md). -/
def State.reseed (s : State) (c w : Nat) : State :=
  let W := s.wg c w
  let L := s.launch W.launch
  let wgbit := if W.task.isSome then 6 else wgbitOf L.lr.groups
  W.slots.zipIdx.foldl (fun s e => s.modGrp c e.1 fun g => { g with
    thr := (List.range 64).foldl (fun t l => Tbl.mod t l fun u =>
      { u with seed := seedOf W.base wgbit W.point L.lr.rsseed e.2 l }) g.thr }) s

end Sys2Proof.Machine
end

