-- ==== Sys2Proof/Machine/LaneFloat.lean ====
section
/-! DEFINITION. Lane floating point and conversion (R105 to R119). -/

namespace Sys2Proof.Machine

/-- A two-operand `f32` word (R106). -/
def float2 (c : LaneCtl) (vd va vb : VReg) (f : Nat → Nat → Nat) (s : State) : Result :=
  laneFn c s [(vd, 1), (va, 1), (vb, 1)] [va, vb] fun rd => [(vd, BitVec.ofNat 32 (f (rd va).toNat (rd vb).toNat))]

/-- `FADD` (R106). -/
def execFadd (c : LaneCtl) (vd va vb : VReg) (s : State) : Result := float2 c vd va vb (fmt32.addC .rne) s
/-- `FSUB` (R106). -/
def execFsub (c : LaneCtl) (vd va vb : VReg) (s : State) : Result := float2 c vd va vb (fmt32.subC .rne) s
/-- `FMUL` (R106). -/
def execFmul (c : LaneCtl) (vd va vb : VReg) (s : State) : Result := float2 c vd va vb (fmt32.mulC .rne) s
/-- `FFMA` (R106); `vd` is also a source. -/
def execFfma (c : LaneCtl) (vd va vb : VReg) (s : State) : Result :=
  laneFn c s [(vd, 1), (va, 1), (vb, 1)] [vd, va, vb] fun rd =>
    [(vd, BitVec.ofNat 32 (fmt32.fmaC .rne (rd va).toNat (rd vb).toNat (rd vd).toNat))]
/-- `FFMAX` (R107). `vc` is a source of the fused form only. -/
def execFfmax (c : LaneCtl) (op : FmaOp) (ty : FType) (mode : Mode) (ftz : Bool) (vd va vb vc : VReg) (s : State) : Result :=
  let vcs : List Nat := if op = .fma then [vc.val] else []
  match ty with
  | .f32 => laneFn c s ([(vd.val, 1), (va.val, 1), (vb.val, 1)] ++ vcs.map (·, 1)) (va.val :: vb.val :: vcs) fun rd =>
      [(vd, BitVec.ofNat 32 (fmaApply op fmt32 mode ftz (rd va).toNat (rd vb).toNat (rd vc).toNat))]
  | .f16 => laneFn c s ([(vd.val, 1), (va.val, 1), (vb.val, 1)] ++ vcs.map (·, 1)) (va.val :: vb.val :: vcs) fun rd =>
      [(vd, halves (fmaApply op fmt16 mode false) (rd va) (rd vb) (rd vc))]
  | .f64 => laneFn c s ([(vd.val, 2), (va.val, 2), (vb.val, 2)] ++ vcs.map (·, 2))
      ([va.val, va.val + 1, vb.val, vb.val + 1] ++ vcs.flatMap fun r => [r, r + 1]) fun rd =>
      putPair vd (fmaApply op fmt64 mode false (pairOf rd va) (pairOf rd vb) (pairOf rd vc))
/-- `FDIV` (R109). -/
def execFdiv (c : LaneCtl) (f64 : Bool) (mode : Mode) (ftz : Bool) (vd va vb : VReg) (s : State) : Result :=
  let quot (f : FloatFmt) (a b : Nat) : Nat :=
    f.encode (flush ftz (f.narrow mode (FVal.div (flush ftz (f.decode a)) (flush ftz (f.decode b)))))
  if f64 then
    laneFn c s [(vd, 2), (va, 2), (vb, 2)] [va, va.val + 1, vb, vb.val + 1] fun rd =>
      putPair vd (quot fmt64 (pairOf rd va) (pairOf rd vb))
  else float2 c vd va vb (quot fmt32) s
/-- `FMIN` (R108). -/
def execFmin (c : LaneCtl) (vd va vb : VReg) (s : State) : Result := float2 c vd va vb (fminmax false) s
/-- `FMAX` (R108). -/
def execFmax (c : LaneCtl) (vd va vb : VReg) (s : State) : Result := float2 c vd va vb (fminmax true) s
/-- `FCMP` (R110). -/
def execFcmp (c : LaneCtl) (cond : FCond) (pd : PReg) (va vb : VReg) (s : State) : Result :=
  lanePred c s pd [va, vb] fun rd => fcondTest cond (rd va).toNat (rd vb).toNat
/-- `FUN` (R111). -/
def execFunf (c : LaneCtl) (fn : FunFn) (ftz : Bool) (vd va : VReg) (s : State) : Result :=
  laneFn c s [(vd, 1), (va, 1)] [va] fun rd => [(vd, BitVec.ofNat 32 (funApply fn ftz (rd va).toNat))]
/-- `HPADD` (R112). -/
def execHpadd (c : LaneCtl) (vd va vb : VReg) (s : State) : Result :=
  laneFn c s [(vd, 1), (va, 1), (vb, 1)] [va, vb] fun rd =>
    [(vd, halves (fun x y _ => fmt16.addC .rne x y) (rd va) (rd vb) 0)]
/-- `HPMUL` (R112). -/
def execHpmul (c : LaneCtl) (vd va vb : VReg) (s : State) : Result :=
  laneFn c s [(vd, 1), (va, 1), (vb, 1)] [va, vb] fun rd =>
    [(vd, halves (fun x y _ => fmt16.mulC .rne x y) (rd va) (rd vb) 0)]
/-- `HPFMA` (R112). -/
def execHpfma (c : LaneCtl) (vd va vb : VReg) (s : State) : Result :=
  laneFn c s [(vd, 1), (va, 1), (vb, 1)] [vd, va, vb] fun rd =>
    [(vd, halves (fmt16.fmaC .rne) (rd va) (rd vb) (rd vd))]
/-- A two-operand `f64` word on pairs (R113). -/
def double2 (c : LaneCtl) (vd va vb : VReg) (f : Nat → Nat → Nat) (s : State) : Result :=
  laneFn c s [(vd, 2), (va, 2), (vb, 2)] [va, va.val + 1, vb, vb.val + 1] fun rd =>
    putPair vd (f (pairOf rd va) (pairOf rd vb))
/-- `DADD` (R113). -/
def execDadd (c : LaneCtl) (vd va vb : VReg) (s : State) : Result := double2 c vd va vb (fmt64.addC .rne) s
/-- `DMUL` (R113). -/
def execDmul (c : LaneCtl) (vd va vb : VReg) (s : State) : Result := double2 c vd va vb (fmt64.mulC .rne) s
/-- `DFMA` (R113). -/
def execDfma (c : LaneCtl) (vd va vb : VReg) (s : State) : Result :=
  laneFn c s [(vd, 2), (va, 2), (vb, 2)] [vd, vd.val + 1, va, va.val + 1, vb, vb.val + 1] fun rd =>
    putPair vd (fmt64.fmaC .rne (pairOf rd va) (pairOf rd vb) (pairOf rd vd))
/-- The exact sum of `FDOT8`, rounded once (R114). -/
def fdot8Val (fa fb : Fmt) (mode : Mode) (a b acc : Word) : Nat :=
  let prods := (List.range 4).map fun i => FVal.mul (fmtValue fa (byteAt a i)) (fmtValue fb (byteAt b i))
  fmt32.encode (fmt32.narrow mode (exactSum mode (fmt32.decode acc.toNat :: prods)))
/-- `FDOT8` (R114). -/
def execFdot8 (c : LaneCtl) (aE5 bE5 : Bool) (mode : Mode) (vd va vb vc : VReg) (s : State) : Result :=
  laneFn c s [(vd, 1), (va, 1), (vb, 1), (vc, 1)] [va, vb, vc] fun rd =>
    [(vd, BitVec.ofNat 32 (fdot8Val (if aE5 then .e5m2 else .e4m3) (if bE5 then .e5m2 else .e4m3) mode
      (rd va) (rd vb) (rd vc)))]
/-- The wrapped sum of `IDOT4` (R115). -/
def idot4Val (sa sb : Bool) (a b acc : Word) : Word :=
  let el (sg : Bool) (w : Word) (i : Nat) : Int := if sg then sextNat (byteAt w i) 8 else (byteAt w i : Nat)
  BitVec.ofInt 32 (acc.toNat + (List.range 4).foldl (fun t i => t + el sa a i * el sb b i) (0 : Int))
/-- `IDOT4` (R115). -/
def execIdot4 (c : LaneCtl) (aSigned bSigned : Bool) (vd va vb vc : VReg) (s : State) : Result :=
  laneFn c s [(vd, 1), (va, 1), (vb, 1), (vc, 1)] [va, vb, vc] fun rd =>
    [(vd, idot4Val aSigned bSigned (rd va) (rd vb) (rd vc))]

/-- The low `w` bits at element `i` of a value replaced (R117). -/
def putField (old w i code : Nat) : Nat := old - old / 2 ^ (w * i) % 2 ^ w * 2 ^ (w * i) + code % 2 ^ w * 2 ^ (w * i)

/-- The conversion of one element (R118): source code to destination code, flags and stochastic state. -/
def cvtElement (dst src : Fmt) (mode : Mode) (ftz : Bool) (bound : Option Word) (rs : Word) (code : Nat) : Nat × Conv :=
  let x := flush (ftz && src == .f32) (fmtValue src code)
  let r := fmtConvert dst x mode (bound.map fun b => (fmt32.decode b.toNat).abs) rs
  (fmtCode dst (flush (ftz && dst == .f32) r.val), r)

/-- `CVT` (R116 to R118): each executing lane converts one element; NV and OF go to the group's `mxstat`. One under `rs` comes
after the drains under `rs` that the group has queued (R20). -/
def execCvt (c : LaneCtl) (dst src : Fmt) (mode : Mode) (ftz : Bool) (clamp : Option VReg) (vd : VReg) (di : Fin 16)
    (va : VReg) (si : Fin 16) (s : State) : Result :=
  let wd := dst.width
  let ws := src.width
  let pair (w : Nat) : Nat := if w = 64 then 2 else 1
  let bs : List Nat := clamp.toList.map (·.val)
  let srcs := (List.range (pair ws)).map (va.val + ·) ++ bs ++ (if wd < 32 then [vd.val] else [])
  runLane c.sw c.g.val s fun s p =>
    match s.laneChecks p ([(true, vd.val, pair wd), (true, va.val, pair ws)] ++ bs.map (true, ·, 1)) srcs with
    | some t => .trap t
    | none => if mode == .rs && (s.core p.core).drainsRs p.slot (s.genOf p.core p.slot) then .wait else
      .ok (p.lanesL.foldl (fun a l =>
        let rd := fun r => s.rdV p.core p.slot r l
        let whole := if ws = 64 then pairOf rd va else (rd va).toNat
        let e := cvtElement dst src mode ftz (clamp.map fun b => rd b.val) (s.thr p.core p.slot l).seed
          (whole / 2 ^ (ws * si.val) % 2 ^ ws)
        let ws' := if wd = 64 then putPair vd e.1 else if wd = 32 then [(vd.val, BitVec.ofNat 32 e.1)]
          else [(vd.val, BitVec.ofNat 32 (putField (rd vd).toNat wd di.val e.1))]
        let a := ws'.foldl (fun a w => a.wrV p.core p.slot w.1 l w.2) a
        let a := a.modThr p.core p.slot l fun t => { t with seed := e.2.rs }
        a.modGrp p.core p.slot fun g => g.setFlags s.cyc.toNat e.2.nv e.2.of false false) s)

end Sys2Proof.Machine
end

