-- ==== Sys2Proof/Machine/Log.lean ====
section
/-! DEFINITION. What the device records of itself: the error log (R394) and the error counters (R393). -/

namespace Sys2Proof.Machine

/-- An error-log record written, if a log exists (R394). -/
def State.postLog (s : State) (kind cls unit addr : Nat) : State :=
  if s.logBase = 0 then s else
  let bytes := leBytes (kind + cls * 2 ^ 8) 4 ++ leBytes unit 4 ++ leBytes addr 8 ++ leBytes s.cyc.toNat 8 ++ leBytes s.ptimeNs 8
  let at_ := s.logBase + 32 * (s.logIndex % 2 ^ (s.logSize + 4))
  { s.placeDev at_ bytes with logIndex := (s.logIndex + 1) % 2 ^ 64 }

/-- What the control node asks is done, but in recovery, where only I3C and the test port answer (R401). -/
def State.answers (s t : State) : State := if s.service.recovery then s else t

/-- The counters of a class changed (R393). -/
def State.modCounters (s : State) (cls : Nat) (f : Counters → Counters) : State :=
  { s with counters := Tbl.mod s.counters cls f }

/-- An error corrected only by a retry (R392). -/
def State.countRetried (s : State) (cls : Nat) : State :=
  s.modCounters cls fun k => { k with corrected := satUp k.corrected, retried := satUp k.retried }

/-- An error that the code corrects without a retry (R270, R393). -/
def State.countCorrected (s : State) (cls : Nat) : State := s.modCounters cls fun k => { k with corrected := satUp k.corrected }

/-- A lasting error counted and recorded (R392, R394). -/
def State.countLasting (s : State) (cls unit addr : Nat) : State :=
  (s.modCounters cls fun k => { k with lasting := satUp k.lasting }).postLog 0x01 cls unit addr

/-! ### Fenced cores (R395, R396) -/

/-- The physical row of a logical core (R395). -/
def State.coreRow (s : State) (c : Nat) : Nat :=
  let b := Tbl.get s.rowShift (c % 16)
  if b = 0 ∨ c / 16 < b - 1 then c / 16 else c / 16 + 1

/-- The spare core of a core's column is in use: a row of it is retired, or another core of it is fenced (R395). -/
def State.spareTaken (s : State) (c : Nat) : Bool :=
  Tbl.get s.rowShift (c % 16) != 0 || (List.range 12).any fun r => 16 * r + c % 16 != c && (s.core (16 * r + c % 16)).fenced

/-- A core fenced for want of a spare: its column's spare is in use, or belongs to a core fenced before it. Its logical number is
absent from the grid (R395). -/
def State.absent (s : State) (c : Nat) : Bool :=
  (s.core c).fenced && (Tbl.get s.rowShift (c % 16) != 0 || (List.range 12).any fun r =>
    let x := s.core (16 * r + c % 16)
    16 * r + c % 16 != c && x.fenced && decide (x.fencedAt < (s.core c).fencedAt))

/-- A core fenced at once, with its record: a retirement, or its column's spare is in use (R395). -/
def State.fenceCore (s : State) (cls c : Nat) : State :=
  if (s.core c).fenced then s else
  (s.modCore c fun x => { x with fenced := true, fencedAt := s.tick }).postLog (if s.spareTaken c then 0x03 else 0x02) cls c (s.coreRow c)

end Sys2Proof.Machine
end

