-- ==== Sys2Proof/Machine/Address.lean ====
section
/-! DEFINITION. Generic pointers (R124 to R127, R240, R241): the checks of an address in their order, the place it
reaches, and the issue of one access, with the translation fault that parks its thread (R129). -/

namespace Sys2Proof.Machine

/-- What an access is, for the spaces it may reach (R126, R172). -/
inductive AccKind where
  | load | store
  /-- `fadd` traps on host memory -/
  | atomic (fadd : Bool)
  | visw
  /-- the registration of a watch (R151, R177) -/
  | watch
  deriving DecidableEq, Repr, Inhabited

/-- Whether a space is accepted (R126); a uniform access has no private space (R172). -/
def AccKind.accepts (k : AccKind) (uni : Bool) (space : Nat) : Bool :=
  (!(uni && space == 3)) && match k with
  | .load | .store => true
  | .atomic fadd => space != 6 && !(fadd && space == 5)
  | .watch => space == 0 || space == 1 || space == 3
  | .visw => space == 0 || space == 1 || space == 2 || space == 7

/-- Address space (R44). -/
def spaceTrap (ea : Nat) : Trap := { cause := 0x04, tval := ea }

/-- The bytes of an access around its address: plainly, or one byte of each plane of the row (R131). -/
def accessBytes (plane : Option Nat) (a size : Nat) : List (Nat × Nat) :=
  match plane with
  | none => [(a, size)]
  | some k =>
    let row := a / 128 * 128
    let j := a / 4 % 32
    (upFrom 0 k).map fun p => (row + 16 * p + j / 2, 1)

/-- The private mapping of one byte run that stays in its 8-byte piece (R241). -/
def privateAddr (base group psize lane a : Nat) : Nat := base + group * 64 * psize + a / 8 * 512 + 8 * lane + a % 8

/-- Byte runs cut at 8-byte pieces and mapped (R241). -/
def privateBytes (f : Nat → Nat) (l : List (Nat × Nat)) : List (Nat × Nat) :=
  l.flatMap fun r => if r.2 ≤ 8 then [(f r.1, r.2)] else
    (upFrom 0 (r.2 / 8)).map fun i => (f (r.1 + 8 * i), 8)

/-- Whether a policy lets the space use the L1 (R240, R242). -/
def usesL1 (space policy : Nat) : Bool := (space == 0 || space == 3) && !(policy == 2 || policy == 3 || policy == 5)

/-- The length of the Narrows slot that a handle of a workgroup is bound to (R341). -/
def Core.narrowsLen (x : Core) (wg slot : Nat) : Option Nat :=
  (x.handles.find? (fun e => e.2.narrows && e.2.owner == wg + 1 && e.2.off == slot && e.2.state != .free)).map (·.2.len)

/-- The private mapping of a thread: base, group number and per-thread size (R241). -/
def State.privateOf (s : State) (p : Part) : Nat × Nat × Nat :=
  let W := s.wgOf p.core p.slot
  let L := s.launchOf p.core p.slot
  match W.task with
  | some t => (t.privbase, 0, if t.privbase = 0 then 0 else L.lr.psize)
  | none => (L.lr.privbase, W.index * L.lr.groups + (s.grp p.core p.slot).index, L.lr.psize)

/-- Steps 1 to 5 of R125 for one address; `lane` 64 is a uniform access. -/
def State.checkAddr (s : State) (p : Part) (k : AccKind) (lane ea size : Nat) (plane : Option Nat) : Except Trap Reach :=
  let W := s.wgOf p.core p.slot
  let uni := lane == 64
  let space := ea / 2 ^ 60 % 16
  let policy := ea / 2 ^ 57 % 8
  let peer := ea / 2 ^ 48 % 512
  let a := ea % 2 ^ 48
  let L := s.launchOf p.core p.slot
  let at_ (t : Trap) : Trap := { t with lane := if uni then 0 else lane }
  let bytes := accessBytes plane a size
  if 8 ≤ space then .error (at_ (spaceTrap ea))
  else if space = 7 ∧ k ≠ .watch ∧ !L.lr.coresident then .error (at_ p.inst.rights)
  else if (space ≠ 4 ∧ peer ≠ 0) ∨ (space = 4 ∧ (288 ≤ peer ∨ s.peerNum = 0x1FF)) then .error (at_ (spaceTrap ea))
  else if !k.accepts uni space then .error (at_ (spaceTrap ea))
  else
    let reach : Option Reach := match space with
      | 0 | 1 => some { place := .device, vas := bytes, paged := true, l1 := usesL1 space policy, ea := ea }
      | 2 => if a < W.scrLen then
          some { place := .sram p.core, vas := bytes.map fun r => (W.scrOff + r.1, r.2), ogen := W.gen, off := W.scrOff, ea := ea }
        else none
      | 3 =>
        let m := s.privateOf p
        if a < m.2.2 then
          some { place := .device, vas := privateBytes (privateAddr m.1 m.2.1 m.2.2 lane) bytes, paged := true,
                 l1 := usesL1 space policy, ea := ea }
        else none
      | 4 => some { place := .peer peer, vas := bytes, ea := ea }
      | 5 => some { place := .host, vas := bytes, ea := ea }
      | 6 =>
        let slot := a / 2 ^ 36
        let off := a % 2 ^ 36
        match (s.core p.core).narrowsLen (s.grp p.core p.slot).wg slot with
        | some len => if slot < Config.narrowsUnits ∧ off < len then
            some { place := .narrows, vas := (accessBytes plane off size).map fun r => (slot * Config.unitBytes + r.1, r.2), ea := ea }
          else none
        | none => none
      | _ =>
        let n := a / 2 ^ 44
        let off := a % 2 ^ 44
        match (if n ≤ 3 then W.partners[n]? else none) with
        | some q =>
          let V := s.wg q.1 q.2.1
          if V.used ∧ V.gen = q.2.2 ∧ off < V.scrLen then
            some { place := .sram q.1, vas := (accessBytes plane off size).map fun r => (V.scrOff + r.1, r.2),
                   ogen := V.gen, off := V.scrOff, ea := ea }
          else none
        | none => none
    match reach with
    | none => .error (at_ (spaceTrap ea))
    | some r => if ea % size ≠ 0 then .error (at_ { cause := 0x07, tval := ea }) else .ok r

/-- A write of the same threads, issued earlier and still in flight, makes a granule current before a later read of
theirs finds it (R54, R128). -/
def State.ownWrite (s : State) (p : Part) (lane : Nat) (r : Reach) (granule : Nat) : Bool :=
  let lanes := if lane = 64 then p.lanes else 2 ^ lane
  (s.core p.core).flight.any fun o => o.slot == p.slot && o.gen == s.genOf p.core p.slot && o.lanes &&& lanes != 0 &&
    !o.isLoad && !o.bound && o.place == r.place && o.ogen == r.ogen && rangesMeet o.pieces [(granule * 32, 32)]

/-- Step 6 of R125: the lowest stale granule of a read, where the launch chose the trap (R52, R127). -/
def State.staleGranule (s : State) (p : Part) (lane : Nat) (r : Reach) : Option Trap :=
  match r.place with
  | .sram c =>
    if !(s.launchOf p.core p.slot).lr.staleTrap then none else
    let gs := (r.vas.flatMap fun v => upFrom (v.1 / 32) ((v.1 + v.2 - 1) / 32 + 1 - v.1 / 32)).filter
      (fun g => Tbl.get (s.core c).gtag g != r.ogen && !s.ownWrite p lane r g)
    match gs with
    | [] => none
    | g :: t =>
      let m := t.foldl min g
      some { cause := 0x06, tval := 2 ^ 56 + (Tbl.get (s.core c).gtag m).toNat * 2 ^ 40 + (m * 32 - r.off),
             lane := if lane = 64 then 0 else lane }
  | _ => none

/-- All of R125 for one address; `reads` says whether a stale granule can trap (R127). -/
def State.reach (s : State) (p : Part) (k : AccKind) (reads : Bool) (lane ea size : Nat) (plane : Option Nat) :
    Except Trap Reach :=
  match s.checkAddr p k lane ea size plane with
  | .error t => .error t
  | .ok r => match (if reads then s.staleGranule p lane r else none) with
    | some t => .error t
    | none => .ok r

/-- The cover of a release or acquire on bytes of a launch (R180, R252). -/
def coverOf (L : Launch) (r : Reach) : Option (List (Nat × Nat)) :=
  let space := r.ea / 2 ^ 60
  if space ≠ 0 ∧ space ≠ 1 then none else
  let named := L.attached.filterMap fun e => match e.2 with
    | some a => if rangesMeet [(a.obj % 2 ^ 48, 8)] r.vas then some a else none
    | none => none
  match named with
  | [] => none
  | l => some (r.vas ++ l.flatMap fun a => a.regions.map fun g => (g.1 % 2 ^ 48, g.2))

/-- The context whose pod context number is the issuer's, open to remote access (R384). -/
def State.podContext (s : State) (pod : Nat) : Option Nat :=
  firstFrom (fun k => s.ctxEnabled k && s.ctxNat k 0x0C 4 % 2 ^ 16 == pod && (s.ctxNat k 0x0C 4).testBit 31) 0 s.ctxCount

/-- The physical bytes of a remote access that comes back to this device, or the context and kind of its translation fault;
none where no context accepts it (R243, R384). -/
def State.ownRemote (s : State) (ctx : Nat) (need : Need) (vas : List (Nat × Nat)) : Option (Nat × Nat ⊕ List (Nat × Nat)) :=
  (s.podContext (s.ctxNat ctx 0x0C 4 % 2 ^ 16)).map fun k => vas.foldr (fun v acc => match s.xlateDev k v.1 need, acc with
      | .fault f, _ => .inl (k, f)
      | .ok pa, .inr l => .inr ((pa, v.2) :: l)
      | .ok _, .inl f => .inl f) (.inr [])

/-- The bytes from `skip` on, `n` of them, of a list of runs. -/
def cutRanges : List (Nat × Nat) → Nat → Nat → List (Nat × Nat)
  | [], _, _ => []
  | (a, len) :: t, skip, n =>
    if len ≤ skip then cutRanges t (skip - len) n
    else
      let m := min n (len - skip)
      (a + skip, m) :: (if m = n then [] else cutRanges t 0 (n - m))

/-- A 128-bit access is four separate accesses of 32 bits (R130, R132). -/
def MemOp.quarters (o : MemOp) : List MemOp :=
  let quarter (i : Nat) (act : MemAct) : MemOp := { o with
    wide := true, act := act, pieces := cutRanges o.pieces (4 * i) 4, vas := cutRanges o.vas (4 * i) 4 }
  match o.act with
  | .load (.plain .b128) d => (upFrom 0 4).map fun i => quarter i (.load (.plain .b32) (d + i))
  | .store data => if data.length = 16 then (upFrom 0 4).map fun i => quarter i (.store ((data.drop (4 * i)).take 4)) else [o]
  | _ => [o]

/-- The right an access needs of its page (R376). -/
def MemAct.need : MemAct → Need
  | .load _ _ => .read
  | _ => .write

/-- One access issued: translated and put in flight, or the fault kind and the address that faulted (R129). -/
def State.issueAccess (s : State) (p : Part) (lanes : Nat) (uni : Bool) (r : Reach) (act : MemAct) (order : Order)
    (scope : Scope) : State × Option (Nat × Nat) :=
  let need := act.need
  let put (s : State) (o : MemOp) : State := o.quarters.foldl (fun s o => s.issueOp p.core o) s
  let W := s.wgOf p.core p.slot
  let L := s.launchOf p.core p.slot
  let op : MemOp := {
    id := 0, inst := s.tick, slot := p.slot, lanes := lanes, uni := uni, gen := W.gen, ctx := L.ctx,
    place := r.place, pieces := r.vas, vas := r.vas, ea := r.ea, ogen := r.ogen, l1 := r.l1, act := act, order := order,
    scope := scope, cover := if order = .rlx then none else coverOf L r, pc := p.inst.pc, launch := W.launch }
  if r.paged then
    match s.xlateAll p.core L.ctx need r.vas with
    | (s, .inl f) => (s, some (f.1, if r.ea / 2 ^ 60 = 3 then f.2 else r.ea))
    | (s, .inr l) => (put s { op with pieces := l }, none)
  else if r.place = .peer s.peerNum then
    match s.ownRemote L.ctx need r.vas with
    | some (.inr l) => (put s { op with pieces := l, own := true }, none)
    | some (.inl (k, f)) => ((put s { op with stuck := true }).postFault k r.ea f (.strait s.peerNum), none)
    | none => (put s { op with dead := true }, none)
  else (put s op, none)

/-- What a word that a translation fault stops leaves: the access to be replayed (R129). -/
def Part.stall (p : Part) (gen : Gen) (lanes : Nat) (uni sw : Bool) (act : StallAct) : Stall :=
  { slot := p.slot, lanes := lanes, uni := uni, handler := p.inst.handler, gen := gen, pc := p.inst.pc, words := p.inst.words,
    sw := sw, act := act }

/-- A thread parks at the word for a translation fault, which is posted; its access is kept to be replayed (R129, R379). -/
def State.parkFault (s : State) (p : Part) (lane ptr kind : Nat) (sw : Bool) (act : StallAct) : State :=
  let s := s.modThr p.core p.slot lane fun t => { t with wait := .fault, pc := p.inst.pc }
  let stall := p.stall (s.genOf p.core p.slot) (2 ^ lane) false sw act
  (s.modCore p.core fun x => { x with stalls := stall :: x.stalls }).postFault
    (s.launchOf p.core p.slot).ctx ptr kind (.thread p.core p.slot lane)

/-- The access of one thread issued, or the thread parked for its fault (R125, R129). -/
def State.issueLane (s : State) (p : Part) (l : Nat) (sw counted : Bool) (r : Reach) (act : MemAct) (order : Order)
    (scope : Scope) : State :=
  match s.issueAccess p (2 ^ l) false r act order scope with
  | (s, some f) => s.parkFault p l f.2 f.1 sw (.access r act order scope)
  | (s, none) => if counted then s.countUp p.core p.slot l else s

/-- The first checks of a lane memory word: a stale row among `srcs`, which form the address, traps before it is known, and names
the lowest-numbered stale row of all the word reads (R52). -/
def State.addrChecks (s : State) (p : Part) (regs : List (Bool × Nat × Nat)) (srcs data : List Nat) : Option Trap :=
  match s.laneChecks p regs srcs with
  | some t => if t.cause = 0x06 then s.staleLane p (srcs ++ data) else some t
  | none => none

/-- A lane memory word: every executing thread's address is checked first; then each access issues in lane order, a
fault parking its own thread only (R125, R128, R129). Stale rows among `srcs` trap first; stale rows among `data` alone rank
after the checks of the address (R44). `counted` operations take a place in the thread's count. -/
def laneMem (c : LaneCtl) (s : State) (regs : List (Nat × Nat)) (srcs data : List Nat) (counted reads : Bool) (k : AccKind)
    (size : Nat) (plane : Option Nat) (order : Order) (scope : Scope) (ea : (Nat → Word) → Nat)
    (act : (Nat → Word) → MemAct) : Result :=
  runLane c.sw c.g.val s fun s p =>
    match s.addrChecks p (regs.map fun r => (true, r.1, r.2)) srcs data with
    | some t => .trap t
    | none =>
      let full := if counted then s.fullLanes p else []
      let rd (l : Nat) (r : Nat) : Word := s.rdV p.core p.slot r l
      let todo := (p.lanesL.filter fun l => !full.contains l).map fun l =>
        (l, s.reach p k reads l (ea (rd l)) size plane)
      match worstTrap ((s.staleLane p data).toList ++ todo.filterMap fun e => match e.2 with | .error t => some t | .ok _ => none) with
      | some t => .trap t
      | none =>
        .ok (todo.foldl (fun a e => match e.2 with
          | .error _ => a
          | .ok r => a.issueLane p e.1 c.sw counted r (act (rd e.1)) order scope) (s.implicitSwitch p full))

/-- The address of a lane memory word (R124). -/
def laneEa (va : VReg) (off : BitVec 13) (rd : Nat → Word) : Nat :=
  (BitVec.ofNat 64 (pairOf rd va) + off.signExtend 64).toNat

end Sys2Proof.Machine
end

