-- ==== Sys2Proof/Machine/Sync.lean ====
section
/-! DEFINITION. What releases parked threads on a core: mask completions (R150), barrier phases (R156 to R159), replay
points (R181); and the registration of a watch by a thread or a group (R152). -/

namespace Sys2Proof.Machine

/-- A group parked by a word goes on after it: its present threads, or its handler, move past the word and the group is
released (R164). -/
def State.resumeAfter (s : State) (c g : Nat) (f : Park → Bool) (words : Nat) : State :=
  let G := s.grp c g
  let w := G.parkWord f
  let pc := w.1 + 4 * words
  let moved (h : Handler) : Handler := { h with pc := pc }
  let s := if f G.park && G.handler.isSome then s.modGrp c g fun x => { x with handler := x.handler.map moved }
    else s.setPcs c g (maskList w.2 64) pc
  s.wakeGrp c g f

/-- The waits of some lanes cleared: they are ready where they stand. -/
def State.clearWaits (s : State) (c g : Nat) (ls : List Nat) : State :=
  s.modGrp c g fun x => { x with thr := ls.foldl (fun t l => Tbl.mod t l fun u => { u with wait := .none }) x.thr }

/-- The lanes of a group whose wait satisfies a test. -/
def Group.waiting (g : Group) (f : Wait → Bool) : List Nat :=
  (List.range 64).filter fun l => (Tbl.get g.thr l).live && f (Tbl.get g.thr l).wait

/-- Waits of a group that a completion ends: the lanes become ready together (R150, R158, R181). -/
def State.wakeWhere (s : State) (c g : Nat) (f : Wait → Bool) : State :=
  match (s.grp c g).waiting f with
  | [] => s
  | ls => (s.clearWaits c g ls).wake c g (listMask ls)

/-- The test after a change to a mask: with A ⊇ M, every thread parked on it becomes ready (R150). -/
def State.maskTest (s : State) (c g k : Nat) : State :=
  let K := Tbl.get (s.grp c g).k k
  if K.m &&& ~~~K.a != 0 then s else s.wakeWhere c g fun w => w == .mask k

/-- A mask register changed, and tested (R149, R150). -/
def State.modMask (s : State) (c g k : Nat) (f : Mask → Mask) : State :=
  (s.modGrp c g fun x => { x with k := Tbl.mod x.k k f }).maskTest c g k

/-- The phase of a barrier word (R156). -/
def barPhase (b : Nat) : Nat := b / 2 ^ 16 % 2
/-- The target of a barrier word (R156). -/
def barTarget (b : Nat) : Nat := b / 2 ^ 11 % 2 ^ 5
/-- The arrivals of a barrier word (R156). -/
def barArrived (b : Nat) : Nat := b % 2 ^ 11

/-- The threads of a workgroup that have ended (R158, R234). -/
def State.ended (s : State) (c w : Nat) : Nat :=
  (s.wg c w).slots.foldl (fun n g => n + ((List.range 64).filter (fun l => !(s.thr c g l).live)).length) 0

/-- Whether a thread waits for a phase of a barrier of a workgroup. -/
def waitsBar (c w b ph : Nat) : Wait → Bool
  | .bar c' w' b' p _ _ => c' == c && w' == w && b' == b && p == ph
  | _ => false

/-- Whether a thread waits at a barrier of another workgroup, so that it resumes with an acquire at `.atoll` (R251). -/
def waitsFar : Wait → Bool
  | .bar _ _ _ _ _ r => r
  | _ => false

/-- The threads of some groups whose wait satisfies a test, by group. -/
def State.waitingIn (s : State) (c : Nat) (gs : List Nat) (f : Wait → Bool) : List (Nat × List Nat) :=
  (gs.map fun g => (g, (s.grp c g).waiting f)).filter fun e => !e.2.isEmpty

/-- Threads of several groups whose waits one completion ends: they become ready together (R158, R181, R227). -/
def State.wakeTogether (s : State) (c : Nat) (l : List (Nat × List Nat)) : State :=
  if l.isEmpty then s else
  (l.foldl (fun s e => s.clearWaits c e.1 e.2) s).wakeAll c (l.map fun e => (e.1, listMask e.2))

/-- The threads of a core parked on a completed phase become ready; one that used the remote form acquires at
`.atoll` (R158, R251). Those of one workgroup become ready together (R227). -/
def State.wakeBar (s : State) (k c w b ph : Nat) : State :=
  let all := s.waitingIn k (Tbl.keys (s.core k).grps) (waitsBar c w b ph)
  let far (e : Nat × List Nat) : Bool := e.2.any fun l => waitsFar (s.thr k e.1 l).wait
  let s := (all.filter far).foldl (fun s e => s.modCore k fun x => x.invalidate (s.launchOf k e.1).ctx none) s
  let wgs := (all.map fun e => (s.grp k e.1).wg).eraseDups
  wgs.foldl (fun s v => s.wakeTogether k (all.filter fun e => (s.grp k e.1).wg == v)) s

/-- The test after an arrival or an `EXIT`: the phase completes with `arrived + X ≥ 64 · target` (R158), also where no arrival
has set a target yet (notes/assumptions/20.md). -/
def State.barTest (s : State) (c w b : Nat) : State :=
  let v := Tbl.get (s.wg c w).bars b
  if barArrived v + s.ended c w < 64 * barTarget v then s else
  let ph := barPhase v
  let s := s.modWg c w fun x => { x with bars := Tbl.set x.bars b ((1 - ph) * 2 ^ 16) }
  s.cores.foldl (fun s e => s.wakeBar e.1 c w b ph) s

/-- One arrival at a barrier; the first of a phase sets the target (R157). -/
def State.arrive (s : State) (c w b cnt : Nat) : State :=
  (s.modWg c w fun x =>
    let v := Tbl.get x.bars b
    let target := if barTarget v = 0 then (if cnt = 0 then x.slots.length else cnt) else barTarget v
    { x with bars := Tbl.set x.bars b (barPhase v * 2 ^ 16 + target * 2 ^ 11 + (barArrived v + 1)) }).barTest c w b

/-- Whether a wait is an arrival at the replay point. -/
def waitsReplay : Wait → Bool
  | .replay _ _ => true
  | _ => false

/-- The live threads of a workgroup, by group and lane. -/
def State.liveThreads (s : State) (c w : Nat) : List Thread :=
  (s.wg c w).slots.flatMap fun g => ((List.range 64).map fun l => s.thr c g l).filter (·.live)

/-- The test after an arrival at `REPLAY` or an `EXIT`: once every thread of the workgroup that has not ended has
arrived, the point is passed, with its four effects, and every arrived thread is released, and a handler that waits for it
(R181). The point is that of
the first arrived thread (all threads of a workgroup reach one `REPLAY`). -/
def State.replayTest (s : State) (c w : Nat) : State :=
  match s.liveThreads c w with
  | [] => s
  | t :: ts =>
    if !((t :: ts).all fun u => waitsReplay u.wait) then s else
    let W := s.wg c w
    let point : Bool × Nat := match t.wait with
      | .replay off next => (off, next)
      | _ => (false, t.pc)
    let s := s.modWg c w fun x => { x with
      point := min (x.point + 1) 0xFF
      restart := point.2
      restartable := !point.1 && (s.launch W.launch).lr.restartable }
    let s := s.reseed c w
    let s := s.wakeTogether c (s.waitingIn c W.slots waitsReplay)
    W.slots.foldl (fun s g =>
      if (s.grp c g).park == .replay then s.resumeAfter c g (· == .replay) 1 else s) s

/-- Lanes of a group end (R146, R234): they leave every mask, and count as exited at every barrier and for the replay
point of their workgroup. DESIGN CHOICE (notes/assumptions/20.md): the threads that one EXIT word ends in a group make one test of each
barrier, not one test each. -/
def State.exitLanes (s : State) (c g m : Nat) : State :=
  let w := (s.grp c g).wg
  let ls := maskList m 64
  let bm : DWord := BitVec.ofNat 64 m
  let s := s.modGrp c g fun x => { x with thr := ls.foldl (fun t l => Tbl.mod t l fun u => { u with live := false, sw := false }) x.thr }
  let s := (List.range 12).foldl (fun s k => s.modMask c g k fun K => { K with m := K.m &&& ~~~bm, a := K.a &&& ~~~bm }) s
  let s := (List.range 16).foldl (fun s b => s.barTest c w b) s
  s.replayTest c w


/-! ### Watches of threads and groups -/

/-- The access that a registration is: it waits for the earlier accesses that an atomic of its order would wait for
(R152, R255). -/
def State.watchOp (s : State) (p : Part) (lanes : Nat) (uni : Bool) (r : Reach) (pieces : List (Nat × Nat)) (order : Order)
    (scope : Scope) : MemOp :=
  let L := s.launchOf p.core p.slot
  { id := (s.core p.core).nextOp, inst := s.tick, slot := p.slot, lanes := lanes, uni := uni, gen := s.genOf p.core p.slot,
    ctx := L.ctx, place := .device, pieces := pieces, vas := r.vas, ea := r.ea, ogen := 0, l1 := false,
    act := .cas false 0 0 0, order := order, scope := scope, cover := coverOf L r }

/-- The acquire of a wait that has ended (R152, R251, R254). -/
def State.acquireAt (s : State) (c ctx : Nat) (order : Order) (scope : Scope) (cover : Option (List (Nat × Nat))) : State :=
  if orderAcquires order && wideScope scope then s.modCore c fun x => x.invalidate ctx cover else s

/-- A thread of the core has seen the value of a watched word at its home slice: an older line of the L1 gives way (R248). -/
def State.seenAt (s : State) (c addr : Nat) : State := s.modCore c fun x => { x with l1 := Tbl.erase x.l1 (addr / 64) }

/-- What a registration came to: decided with an outcome, entered as a watch, held back by earlier accesses, or a
translation fault of a kind. -/
inductive Registered where
  | decided (s : State) (outcome : Bool)
  | entered (s : State) (watch : Nat)
  | held
  | fault (s : State) (kind : Nat)
  deriving Inhabited

/-- The registration of one watch on the bytes of a reach (R152). -/
def State.registerOn (s : State) (p : Part) (lanes : Nat) (waiter : Waiter) (cond : Cond) (w64 : Bool) (operand timeout : Nat)
    (pd : Nat) (order : Order) (scope : Scope) (r : Reach) : Registered :=
  let L := s.launchOf p.core p.slot
  match s.xlateAll p.core L.ctx .read r.vas with
  | (s, .inl f) => .fault s f.1
  | (s, .inr pieces) =>
    let op := s.watchOp p lanes waiter.isGroup r pieces order scope
    if !(s.core p.core).mayPerform op || s.walkFull pieces then .held else
    let addr := (pieces.headD (0, 0)).1
    let n := s.freeWatch
    let w : Watch := {
      used := true, slice := sliceOf addr, addr := addr, w64 := w64, cond := cond,
      operand := operand, timeout := if timeout = 2 ^ 32 - 1 then none else some timeout, ctx := L.ctx, waiter := waiter,
      gen := s.genOf p.core p.slot, pd := pd, order := order, scope := scope,
      cover := if order = .rlx then none else coverOf L r }
    match s.register n w with
    | (s, some b) => .decided ((s.acquireAt p.core L.ctx order scope w.cover).seenAt p.core addr) b
    | (s, none) => .entered s n

end Sys2Proof.Machine
end

