-- ==== Sys2Proof/Machine/Engine.lean ====
section
/-! DEFINITION. The matrix engine (R191 to R205, R263 to R270): the sequencer's queue, what each operation does chunk by
chunk, and the numbers it computes. -/

namespace Sys2Proof.Machine

/-! ### Dense rows -/

/-- `n` entries of a table from a key up. -/
def Tbl.dense {α : Type} [Inhabited α] (t : Tbl α) (k : Nat) : Nat → List α
  | 0 => []
  | n + 1 => match t with
    | [] => default :: Tbl.dense [] (k + 1) n
    | (j, v) :: r =>
      if j < k then Tbl.get r k :: Tbl.dense r (k + 1) n
      else if j = k then v :: Tbl.dense r (k + 1) n else default :: Tbl.dense ((j, v) :: r) (k + 1) n

/-- A slot row under a generation: zero where the slot is stale (R53). -/
def Slot.row (u : Slot) (gen : Gen) (i : Nat) : Nat := if u.tag = gen then (Tbl.get u.rows i).toNat else 0

/-- The code of element e of a slot row (R14, R15). -/
def rowCode (f : Fmt) (row e : Nat) : Nat :=
  if f.isPlane then
    (List.range f.planes).foldl (fun x q => if row.testBit (128 * q + e) then x + 2 ^ (7 - q) else x) 0
  else row / 2 ^ (f.width * e) % 2 ^ f.width

/-- The 64-bit words of a row that element e lies in (R270). -/
def elemWords (f : Fmt) (e : Nat) : List Nat :=
  if f.isPlane then (List.range f.planes).map fun q => (128 * q + e) / 64
  else [f.width * e / 64, (f.width * e + f.width - 1) / 64]

/-- The value of element e of row i of a slot, 0 where an uncorrectable word replaced it (R200, R270). -/
def Slot.value (u : Slot) (gen : Gen) (f : Fmt) (ctr : Bool) (i e : Nat) : FVal × Bool :=
  let zero : FVal := .fin false 0
  if u.tag = gen ∧ (elemWords f e).any (fun w => u.bad.contains (16 * i + w)) then (zero, true)
  else
    let c := rowCode f (u.row gen i) e
    (if f.isPlane then .ofInt (planePrefix f.planeSigned f.planes ctr c) else fmtValue f c, false)

/-- A K-block of 32 values of each of the 128 rows of a slot. -/
def Slot.block (u : Slot) (gen : Gen) (f : Fmt) (ctr : Bool) (b : Nat) : List (List (FVal × Bool)) :=
  (List.range 128).map fun i => (upFrom (32 * b) 32).map fun e => u.value gen f ctr i e

/-- The words of an accumulator under a generation, a stale one and an uncorrectable word reading as +0 (R53, R270). -/
def Tile.words (t : Tile) (gen : Gen) : List Word :=
  if t.tag = gen then (Tbl.dense t.acc 0 16384).zipIdx.map fun e => if t.bad.contains e.2 then 0 else e.1
  else List.replicate 16384 0

/-- Block counter and check record under a generation: a stale tile has none (R52, R201, notes/assumptions/22.md). -/
def Tile.record (t : Tile) (gen : Gen) : Nat × Option Nat := if t.tag = gen then (t.blocks, t.check) else (0, none)

/-- A tile written whole under a generation (R54, R192). -/
def Tile.put (t : Tile) (gen : Gen) (ws : List Word) : Tile := { t with tag := gen, acc := Tbl.ofWords ws, bad := [] }

/-- One folded element of a floating-point product (R26, R27). -/
def foldFloat (part : Bool) (acc : Word) (a b : List FVal) : Word :=
  let ps := List.zipWith FVal.mul a b
  BitVec.ofNat 32 (fmt32.encode (matrixRound (matrixSum (if part then ps else fmt32.decode acc.toNat :: ps))))

/-- One folded element of an integer product and whether it overflowed (R29). -/
def foldInt (part : Bool) (acc : Word) (a b : List FVal) : Word × Bool :=
  let s := (ratSum (List.zipWith FVal.mul a b)).num
  let t := if part then s else acc.toInt + s
  (BitVec.ofInt 32 t, decide (t < -2 ^ 31) || decide (2 ^ 31 ≤ t))

/-- The elements of a block that were replaced: row and element (R270). -/
def replaced (b : Nat) (rows : List (List (FVal × Bool))) : List (Nat × Nat) :=
  rows.zipIdx.flatMap fun r => r.1.zipIdx.filterMap fun e => if e.1.2 then some (r.2, 32 * b + e.2) else none

/-- One K-block folded into a tile: its words and whether an integer overflowed (R200). -/
def foldBlock (plane part : Bool) (acc : List Word) (a b : List (List FVal)) : List Word × Bool :=
  let cells := a.flatMap fun ra => b.map fun rb => (ra, rb)
  if plane then
    let r := List.zipWith (fun w c => foldInt part w c.1 c.2) acc cells
    (r.map (·.1), r.any (·.2))
  else (List.zipWith (fun w c => foldFloat part w c.1 c.2) acc cells, false)

/-! ### Operations of the queue -/

/-- The units that an operation uses: slots (`false`) and tiles (`true`). -/
def TileAct.units : TileAct → List (Bool × Nat)
  | .fill n _ _ _ | .zero n => [(false, n)]
  | .mma c a b _ _ _ _ _ _ _ => [(true, c), (false, a), (false, b)]
  | .clear c | .drain c _ _ _ _ _ _ _ | .read c _ _ _ => [(true, c)]
  | .scale d r _ _ => [(true, d), (true, r)]
  | .free acc n => [(acc, n)]

/-- Two operations share a unit or a scratchpad byte (R191, R265). -/
def TileAct.shares (a b : TileAct) : Bool := a.units.any (fun u => b.units.contains u) || rangesMeet a.bytes b.bytes

/-- The port that serves an operation; the freeing step has none (R263). -/
def TileAct.port : TileAct → Option EnginePort
  | .fill _ _ _ _ | .zero _ => some .fill
  | .mma _ _ _ _ _ _ _ _ _ _ => some .array
  | .free _ _ => none
  | _ => some .drain

/-- Chunks of an operation (R264). -/
def TileAct.chunks : TileAct → Nat
  | .fill _ _ _ _ | .scale _ _ _ _ | .drain _ _ _ _ _ _ _ _ => 8
  | .mma _ _ _ fa fb _ _ part oa ob => if part.isSome then 1 else mmaBlocks fa fb oa ob
  | _ => 1

/-- Whether an operation counts in the group's uniform count (R192). -/
def TileAct.counted : TileAct → Bool
  | .zero _ | .clear _ | .free _ _ => false
  | _ => true

/-- Every earlier operation of the group that shares something with it has completed (R265). -/
def eligible (seq : List TileOp) (o : TileOp) : Bool :=
  !((seq.takeWhile fun y => y.id != o.id).any fun y => y.slot == o.slot && y.gen == o.gen && y.act.shares o.act)

/-- The order of the classes: strip, graphics, tensor, background (R265). -/
def classRank : Nat → Nat
  | 3 => 0 | 0 => 1 | 1 => 2 | _ => 3

/-- The three steps of the choice at a chunk boundary, as a rank; the lower goes first (R265). -/
def Core.seqRank (x : Core) (ticks : Nat) (o : TileOp) : Nat :=
  if (Tbl.get x.wgs o.wg).save != .no then 0
  else if o.since + 4096 * 1900 ≤ ticks then 1
  else 2 + classRank o.cls

/-- The operation that a port takes next: the first of the lowest rank among the eligible ones (R265). -/
def Core.choosePort (x : Core) (ticks : Nat) (port : EnginePort) : Option TileOp :=
  ((x.seq.filter fun o => o.act.port == some port && eligible x.seq o).foldl (fun best o => match best with
    | none => some o
    | some b => if x.seqRank ticks o < x.seqRank ticks b then some o else some b) none)

/-- An operation of the queue changed. -/
def Core.modSeq (x : Core) (id : Nat) (f : TileOp → TileOp) : Core :=
  { x with seq := x.seq.map fun o => if o.id = id then f o else o }

/-- A unit becomes free (R195). -/
def Core.freeUnit (x : Core) (acc : Bool) (n : Nat) : Core :=
  if acc then { x with tiles := Tbl.mod x.tiles n fun u => { u with owner := 0 } }
  else { x with slots := Tbl.mod x.slots n fun u => { u with owner := 0 } }

/-- Freeing steps whose turn has come are taken (R195); `fuel` bounds the queue. -/
def Core.takeFrees (x : Core) : Nat → Core
  | 0 => x
  | fuel + 1 => match x.seq.find? (fun o => o.act.port.isNone && eligible x.seq o) with
    | none => x
    | some o =>
      let x := match o.act with
        | .free acc n => x.freeUnit acc n
        | _ => x
      Core.takeFrees { x with seq := x.seq.filter fun y => y.id != o.id } fuel

/-- The uniform count of a group falls by one; at zero its switch ends (R34, R71, R192). -/
def State.uncountGroup (s : State) (c g : Nat) (gen : Gen) : State :=
  if !(s.grp c g).used || s.genOf c g != gen then s else
  let G := s.grp c g
  let s := s.modGrp c g fun x => { x with ucount := x.ucount - 1, usw := x.usw && x.ucount != 1 }
  if G.usw && G.ucount == 1 then s.wake c g allLanes else s

/-- A write that finds its allocation ended is dropped and counted (R56). -/
def Core.drop (x : Core) : Core := { x with drops := min (x.drops + 1) 0xFFFF }

/-- The trap of R204, and the removal of the operation that met it, which leaves an entry for groups that wait for one (R263);
otherwise the parked group goes on. -/
def State.checkStep (s : State) (c : Nat) (o : TileOp) : State × Bool :=
  let tile : Nat := match o.act with
    | .drain n _ _ _ _ _ _ _ | .read n _ _ _ => n
    | _ => 8
  let parked := (s.grp c o.slot).parkedBy (· == .check o.id) && s.genOf c o.slot == o.gen
  if !parked then (s, true)
  else match ((Tbl.get (s.core c).tiles tile).record o.gen).2 with
    | some b =>
      let w := (s.grp c o.slot).parkWord (· == .check o.id)
      let s := s.modCore c fun x => { x with seq := x.seq.filter fun y => y.id != o.id }
      let s := s.modGrp c o.slot fun x =>
        { x.endPark (· == .check o.id) with ucount := x.ucount - 1, usw := x.usw && x.ucount != 1 && !(x.park == .check o.id) }
      ((s.takeTrap c o.slot w.2 w.1 true { cause := 0x09, tval := tile + b * 2 ^ 8 }).wakeSequencer c, false)
    | none => (s.resumeAfter c o.slot (· == .check o.id) 2, true)

/-- Idle ports take their next operation, unless the thermal stop holds them (R399); a drain or read of redundant mode meets its check first (R204, R264, R265). -/
def State.startPort (s : State) (c : Nat) (port : EnginePort) : Nat → State
  | 0 => s
  | fuel + 1 =>
    if s.power.stopped || (s.core c).seq.any (fun o => o.running && o.act.port == some port) then s else
    match (s.core c).choosePort s.power.ticks port with
    | none => s
    | some o =>
      let (s, go) := if o.done = 0 then s.checkStep c o else (s, true)
      let armed := s.injections
      let now := s.tick
      if go then s.modCore c fun x => x.modSeq o.id fun y => { y with running := true, armed := armed, begun := now }
      else s.startPort c port fuel

/-- All three ports, and the freeing steps. -/
def State.startPorts (s : State) (c : Nat) : State :=
  let s := s.modCore c fun x => x.takeFrees x.seq.length
  [EnginePort.fill, .array, .drain].foldl (fun s p => s.startPort c p 33) s

/-! ### One chunk -/

/-- Sixteen slot rows filled from scratchpad, a stale granule giving zeros (R192, R196). -/
def fillChunk (x : Core) (gen : Gen) (n : Nat) (f : Fmt) (off stride k : Nat) : Core :=
  let rows := (upFrom (16 * k) 16).map fun i => (i, BitVec.ofNat 1024 (leNat (x.sramRead gen (off + i * stride) (fillRowBytes f))))
  { x with slots := Tbl.mod x.slots n fun u =>
      let u := if u.tag = gen then u else { u with tag := gen, rows := [], bad := [] }
      { u with rows := rows.foldl (fun t r => Tbl.set t r.1 r.2) u.rows
               bad := u.bad.filter fun b => decide (b / 16 < 16 * k) || decide (16 * k + 16 ≤ b / 16) } }

/-- The mismatch log of a core after a mismatch: a further mismatch on the same rows, a free entry, or the count of entry
7; and what that means (R269, R409): 1 a new entry, 2 a count that moved from 0 to 1 on the same rows, 3 the count of entry 7
that moved from 0 to 1 on other rows. -/
def Core.logMismatch (x : Core) (rowa rowb block tile : Nat) : Core × Nat :=
  let e (n : Nat) : Nat := (Tbl.get x.mismatch n).toNat
  let bump (v : Nat) : Nat := v - bitsOf v 47 40 * 2 ^ 40 + min (bitsOf v 47 40 + 1) 255 * 2 ^ 40
  let put (n v : Nat) : Core := { x with mismatch := Tbl.set x.mismatch n (BitVec.ofNat 64 v) }
  match (List.range 8).find? (fun n => (e n).testBit 63 && bitsOf (e n) 39 32 == rowa && bitsOf (e n) 31 24 == rowb) with
  | some n => (put n (bump (e n)), if bitsOf (e n) 47 40 = 0 then 2 else 0)
  | none => match (List.range 8).find? (fun n => !(e n).testBit 63) with
    | some n => (put n (2 ^ 63 + rowa * 2 ^ 32 + rowb * 2 ^ 24 + block * 2 ^ 8 + tile), 1)
    | none => (put 7 (bump (e 7)), if bitsOf (e 7) 47 40 = 0 then 3 else 0)

/-- The physical row of a logical array row (R268). -/
def Core.physRow (x : Core) (i : Nat) : Nat :=
  let m := Tbl.get x.rowMap i
  if m = 0 then i else m - 1

/-! ### Array faults -/

/-- Fields of an injection entry (R407). -/
def injSkip (v : Nat) : Nat := bitsOf v 55 48
/-- Blocks still to corrupt. -/
def injCount (v : Nat) : Nat := bitsOf v 47 40
/-- Physical array row. -/
def injRow (v : Nat) : Nat := bitsOf v 39 32
/-- Logical core. -/
def injCore (v : Nat) : Nat := bitsOf v 23 16
/-- Armed and sticky. -/
def injArm (v : Nat) : Bool := v.testBit 63
/-- Sticky. -/
def injSticky (v : Nat) : Bool := v.testBit 62

/-- An injection entry after a K-block of a core's array that used the physical rows of a list (R408). -/
def injAfter (c : Nat) (rows : List Nat) (v : Nat) : Nat :=
  if !injArm v || injCore v != c then v
  else if injSkip v != 0 then v - 2 ^ 48
  else if injSticky v || !rows.contains (injRow v) then v
  else if injCount v ≤ 1 then v - 2 ^ 63 - injCount v * 2 ^ 40
  else v - 2 ^ 40

/-- The four injection entries changed. -/
def State.mapInjections (s : State) (f : Nat → Nat) : State :=
  { s with injections := (List.range 4).foldl (fun t n => Tbl.mod t n fun v => BitVec.ofNat 64 (f v.toNat)) s.injections }

/-- The entries after a K-block of a core's array; one written while the chunk ran, since the turn `begun`, stays as written (R408). -/
def State.injectStep (s : State) (c : Nat) (rows : List Nat) (begun : Nat) : State :=
  { s with injections := (List.range 4).foldl (fun t n => if Tbl.get s.injected n ≤ begun then
      Tbl.mod t n fun v => BitVec.ofNat 64 (injAfter c rows v.toNat) else t) s.injections }

/-- Times that the sums of a physical row are corrupted in a K-block of a core's array, by the entries as they stood when the
chunk began (R408). -/
def corruptions (armed : Tbl (BitVec 64)) (c row : Nat) : Nat :=
  ((List.range 4).filter fun n =>
    let v := (Tbl.get armed n).toNat
    injArm v && injCore v == c && injSkip v == 0 && injRow v == row).length

/-- A block sum under one corruption: its negative, or 1 in place of 0 (R408). -/
def corruptSum (v : FVal) : FVal := if v.isZero then .fin false 1 else v.neg

/-- A value corrupted a number of times. -/
def corrupted (n : Nat) (v : FVal) : FVal := (List.range n).foldl (fun v _ => corruptSum v) v

/-- Two rows of a core's array retired to spares, the lower-numbered one first; without a spare the core is fenced
(R395, R409). -/
def State.retireRows (s : State) (c rowa rowb : Nat) : State :=
  let one (s : State) (r : Nat) : State :=
    let x := s.core c
    match (List.range 128).find? (fun i => x.physRow i == r) with
    | none => s
    | some i =>
      if x.rowSpares < 4 then
        let s := s.modCore c fun x => { x with rowMap := Tbl.set x.rowMap i (128 + x.rowSpares + 1),
                                               rowSpares := x.rowSpares + 1, rowsRetired := r :: x.rowsRetired }
        s.mapInjections fun v => if injArm v && injSticky v && injCore v == c && injRow v == r then v - 2 ^ 63 else v
      else s
  let s := one (one s (min rowa rowb)) (max rowa rowb)
  let spare (r : Nat) : Bool := (s.core c).rowsRetired.contains r
  let s := s.postLog (if spare rowa then 0x02 else 0x03) 0x8 c rowa
  let s := s.postLog (if spare rowb then 0x02 else 0x03) 0x8 c rowb
  if spare rowa && spare rowb then s else s.fenceCore 0x8 c

/-- The mismatch of a block: the log, the counters and, at the second mismatch on the same rows, the retirement (R269,
R395, R409). -/
def State.mismatch (s : State) (c i block tile : Nat) : State :=
  let x := s.core c
  let rowa := x.physRow i
  let rowb := x.physRow ((i + 64) % 128)
  let r := x.logMismatch rowa rowb block tile
  let s := s.setCore c r.1
  if r.2 = 1 then s.countRetried 0x8
  else if r.2 = 2 then (s.countLasting 0x8 c (rowa + rowb * 2 ^ 8)).retireRows c rowa rowb
  else if r.2 = 3 then s.countLasting 0x8 c (rowa + rowb * 2 ^ 8)
  else s

/-- The exact sum of one element's products in a block (R26, R29). -/
def blockSum (plane : Bool) (a b : List FVal) : FVal :=
  let ps := List.zipWith FVal.mul a b
  if plane then .ofInt (ratSum ps).num else matrixSum ps

/-- A block folded with its corrupted sums in place of the true ones: words, integer overflow, first row whose two
computations differ (R200, R201, R268, R408). -/
def foldFaulty (s : State) (c : Nat) (armed : Tbl (BitVec 64)) (plane part : Bool) (acc : List Word) (a b : List (List FVal)) : List Word × Bool × Option Nat :=
  let x := s.core c
  let cells := a.zipIdx.flatMap fun ra => b.map fun rb => (ra.2, ra.1, rb)
  let one (w : Word) (e : Nat × List FVal × List FVal) : Word × Bool × Option Nat :=
    let v := blockSum plane e.2.1 e.2.2
    let v1 := corrupted (corruptions armed c (x.physRow e.1)) v
    let v2 := corrupted (corruptions armed c (x.physRow ((e.1 + 64) % 128))) v
    let r : Word × Bool := if plane then foldInt part w [v1] [.fin false 1] else (foldFloat part w [v1] [.fin false 1], false)
    (r.1, r.2, if v1 = v2 then none else some e.1)
  let l := List.zipWith one acc cells
  (l.map (·.1), l.any (·.2.1), l.findSome? (·.2.2))

/-- One K-block of an `MMA` (R200, R201, R268 to R270, R408). -/
def State.mmaChunk (s : State) (c : Nat) (o : TileOp) (acc ta tb : Nat) (fa fb : Fmt) (ctra ctrb : Bool)
    (part : Option Nat) (oa ob k : Nat) : State :=
  let x := s.core c
  let j := part.getD k
  let A := (Tbl.get x.slots ta).block o.gen fa ctra (oa + j)
  let B := (Tbl.get x.slots tb).block o.gen fb ctrb (ob + j)
  let lost : List (Nat × Fmt × Nat × Nat) := (replaced (oa + j) A).map (fun e => (ta, fa, e)) ++ (replaced (ob + j) B).map (fun e => (tb, fb, e))
  let t := Tbl.get x.tiles acc
  let me := !lost.isEmpty || (part.isNone && t.tag == o.gen && !t.bad.isEmpty)
  let av := A.map (·.map (·.1))
  let bv := B.map (·.map (·.1))
  let faulty := (List.range 132).any fun r => decide (0 < corruptions o.armed c r)
  let plain := foldBlock fa.isPlane part.isSome (t.words o.gen) av bv
  let r : List Word × Bool × Option Nat :=
    if faulty then foldFaulty s c o.armed fa.isPlane part.isSome (t.words o.gen) av bv else (plain.1, plain.2, none)
  let live := x.isLive o.gen
  let blocks := if part.isSome then 1 else min ((t.record o.gen).1 + 1) 0xFFFF
  let base := if part.isSome then none else (t.record o.gen).2
  let differs := if o.redundant then r.2.2 else none
  let bad := o.redundant && (!lost.isEmpty || differs.isSome)
  let rows := (List.range 128).map x.physRow
  let s := s.injectStep c rows o.begun
  let s := match differs with
    | some i => s.mismatch c i blocks acc
    | none => s
  if !live then s.modCore c Core.drop else
  let s := s.modCore c fun x => { x with tiles := Tbl.mod x.tiles acc fun u => { u.put o.gen r.1 with
      blocks := blocks, check := if bad && base.isNone then some blocks else base } }
  let cyc := s.cyc.toNat
  s.modGrp c o.slot fun g =>
    let g := g.setFlags cyc false false r.2.1 me
    lost.foldl (fun g e =>
      let bit := if e.2.1.isPlane then e.2.2.2 else e.2.1.width * e.2.2.2
      { g with mxerr := mxerrNote g.mxerr e.1 e.2.2.1 bit }) g

/-- Sixteen rows of an `ASCALE` (R202, R28). -/
def State.scaleChunk (s : State) (c : Nat) (o : TileOp) (dst src off : Nat) (s32 : Bool) (k : Nat) : State :=
  let x := s.core c
  let T := Tbl.get x.tiles dst
  let S := Tbl.get x.tiles src
  let half (a : Nat) : FVal := scaleDecode (leNat (x.sramRead o.gen a 2))
  let cols := (List.range 128).map fun j => half (off + 256 + 2 * j)
  let dw := T.words o.gen
  let sw := S.words o.gen
  let rows := (List.range 128).flatMap fun i =>
    let d := (dw.drop (128 * i)).take 128
    if 16 * k ≤ i ∧ i < 16 * k + 16 then
      let p := (sw.drop (128 * i)).take 128
      let ra := half (off + 2 * i)
      List.zipWith (fun (e : Word × Word) (cb : FVal) =>
        let v : FVal := if s32 then .ofInt e.2.toInt else fmt32.decode e.2.toNat
        BitVec.ofNat 32 (fmt32.encode (matrixRound (matrixSum [fmt32.decode e.1.toNat, FVal.mul (FVal.mul v ra) cb]))))
        (d.zip p) cols
    else d
  let me := (T.tag == o.gen && !T.bad.isEmpty) || (S.tag == o.gen && !S.bad.isEmpty)
  if !(x.isLive o.gen) then s.modCore c Core.drop else
  let last := k = 7
  let s := s.modCore c fun x => { x with tiles := Tbl.mod x.tiles dst fun u =>
    let own := (u.record o.gen).2
    let blocks := if last then min ((u.record o.gen).1 + 1) 0xFFFF else (u.record o.gen).1
    let from_ := (S.record o.gen).2
    { u.put o.gen rows with
      blocks := blocks
      check := if last && own.isNone && from_.isSome then some blocks else own } }
  let cyc := s.cyc.toNat
  s.modGrp c o.slot fun g => g.setFlags cyc false false false me

/-- What the conversion of one drained row carries on: codes, seeds of the 64 lanes, NV, OF. -/
structure DrainRow where
  codes : List Nat := []
  seeds : List Word
  nv : Bool := false
  of : Bool := false
  deriving Inhabited

/-- The format that a plane target converts to (R203). -/
def drainFmt : Fmt → Fmt
  | .pi8 => .s8 | .pn8 => .u8 | f => f

/-- One row converted, element by element; element j steps the state of lane j mod 64 (R203, R20). -/
def drainElems (f : Fmt) (mode : Mode) (bound : Option Word) (s32 : Bool) (row : List Word) (r : DrainRow) : DrainRow :=
  row.zipIdx.foldl (fun r e =>
    let v : FVal := if s32 then .ofInt e.1.toInt else fmt32.decode e.1.toNat
    let cv := fmtConvert (drainFmt f) v mode (bound.map fun b => (fmt32.decode b.toNat).abs) (r.seeds.getD (e.2 % 64) 0)
    { r with codes := r.codes ++ [fmtCode (drainFmt f) cv.val], seeds := r.seeds.set (e.2 % 64) cv.rs,
             nv := r.nv || cv.nv, of := r.of || cv.of }) r

/-- The bytes of a row of codes: packed from bit 0, or in planes (R14, R15, R203). -/
def packRow (f : Fmt) (codes : List Nat) : List Byte :=
  if f.isPlane then
    leBytes (codes.zipIdx.foldl (fun n e => (List.range 8).foldl (fun n q =>
      if e.1.testBit (7 - q) then n + 2 ^ (128 * q + e.2) else n) n) 0) 128
  else leBytes (codes.zipIdx.foldl (fun n e => n + e.1 % 2 ^ f.width * 2 ^ (f.width * e.2)) 0) (drainRowBytes f)

/-- Sixteen rows of an `ADRAIN` (R203). -/
def State.drainChunk (s : State) (c : Nat) (o : TileOp) (acc : Nat) (f : Fmt) (mode : Mode) (bound : Option Word) (s32 : Bool)
    (off stride k : Nat) : State :=
  let x := s.core c
  let T := Tbl.get x.tiles acc
  let ws := T.words o.gen
  if !(x.isLive o.gen) then s.modCore c Core.drop else
  let G := s.grp c o.slot
  let seeds := (List.range 64).map fun l => (Tbl.get G.thr l).seed
  let r := (upFrom (16 * k) 16).foldl (fun (acc : Core × DrainRow) i =>
    let d := drainElems f mode bound s32 ((ws.drop (128 * i)).take 128) { acc.2 with codes := [] }
    (acc.1.sramWrite o.gen (off + i * stride) (packRow f d.codes), d)) (x, ({ seeds := seeds } : DrainRow))
  let s := s.setCore c r.1
  let cyc := s.cyc.toNat
  s.modGrp c o.slot fun g =>
    let g := g.setFlags cyc r.2.nv r.2.of false (T.tag == o.gen && !T.bad.isEmpty)
    { g with thr := r.2.seeds.zipIdx.foldl (fun t e => if (Tbl.get t e.2).seed = e.1 then t
        else Tbl.mod t e.2 fun u => { u with seed := e.1 }) g.thr }

/-- The rows of an `AREAD` written whole (R205). -/
def State.readChunk (s : State) (c : Nat) (o : TileOp) (acc row n vd : Nat) : State :=
  let x := s.core c
  let T := Tbl.get x.tiles acc
  let ws := T.words o.gen
  if !(x.isLive o.gen) then s.modCore c Core.drop else
  let half (m h : Nat) : List Word :=
    if 128 ≤ row + m then List.replicate 64 0 else (ws.drop (128 * (row + m) + 64 * h)).take 64
  let s := s.modCore c fun x => (List.range (2 * n)).foldl (fun x i =>
    { x with rows := Tbl.set x.rows (128 * o.slot + vd + i) { tag := o.gen, lanes := Tbl.ofWords (half (i / 2) (i % 2)) } }) x
  let cyc := s.cyc.toNat
  s.modGrp c o.slot fun g => g.setFlags cyc false false false (T.tag == o.gen && T.bad.any fun w => row ≤ w / 128 && w / 128 < row + n)

/-- The effect of one chunk of an operation. -/
def State.chunkEffect (s : State) (c : Nat) (o : TileOp) : State :=
  let live := (s.core c).isLive o.gen
  match o.act with
  | .fill n f off stride => s.modCore c fun x => if live then fillChunk x o.gen n f off stride o.done else x.drop
  | .zero n => s.modCore c fun x => if live then { x with slots := Tbl.mod x.slots n fun u =>
      { u with tag := o.gen, rows := [], bad := [] } } else x.drop
  | .mma acc ta tb fa fb ctra ctrb part oa ob => s.mmaChunk c o acc ta tb fa fb ctra ctrb part oa ob o.done
  | .clear n => s.modCore c fun x => if live then { x with tiles := Tbl.mod x.tiles n fun u =>
      { u.put o.gen [] with blocks := 0, check := none } } else x.drop
  | .scale d r off s32 => s.scaleChunk c o d r off s32 o.done
  | .drain acc f mode bound s32 _ off stride => s.drainChunk c o acc f mode bound s32 off stride o.done
  | .read acc row n vd => s.readChunk c o acc row n vd
  | .free _ _ => s

/-- An operation leaves the queue after its last write: its count falls, and its entry frees (R192, R263). -/
def State.finishTileOp (s : State) (c : Nat) (o : TileOp) : State :=
  let s := s.modCore c fun x => Core.settle { x with seq := x.seq.filter fun y => y.id != o.id }
  let s := if o.act.counted then s.uncountGroup c o.slot o.gen else s
  s.wakeSequencer c

/-- TILE_CHUNK_COMPLETION (R264): the chunk that a port runs ends with its writes, and the port takes its next one. -/
def execTileChunkCompletion (core : Nat) (port : EnginePort) (s : State) : Result :=
  match (s.core core).seq.find? (fun o => o.running && o.act.port == some port) with
  | none => .next (s.startPorts core)
  | some o =>
    let s := s.chunkEffect core o
    let s := s.modCore core fun x => x.modSeq o.id fun y => { y with running := false, done := y.done + 1 }
    let s := if o.act.chunks ≤ o.done + 1 || !(s.core core).isLive o.gen then s.finishTileOp core o else s
    .next (s.startPorts core)

end Sys2Proof.Machine
end

