-- ==== Sys2Proof/Machine/Chain.lean ====
section
/-! DEFINITION. Strip chains in time: the conversion of `ptime` instants (R335), deadlines (R347), reserved cores (R349),
and which bin workgroup or upscale job of a chain is due (R345, R348). -/

namespace Sys2Proof.Machine

/-! ### Clocks and deadlines -/

/-- A `ptime` instant, in units of 2^-32 ns, converted into `cyc` (R335). -/
def State.toCyc (s : State) (t : Nat) : Int :=
  (s.servo.c0 : Int) + ((t : Int) - s.servo.p0) * s.servo.num / (s.servo.den * 2 ^ 32 : Nat)

/-- The instant t(f, k, y), in units of 2^-32 ns (R347). -/
def Chain.instant (x : Chain) (f k y : Nat) : Nat :=
  x.field 0x40 8 * 2 ^ 32 + x.field 0x48 4 + f * x.field 0x50 8 + (x.field 0x60 2 + k * x.Ho + y) * x.field 0x58 8

/-- The strip period Ts in `cyc` (R340). -/
def State.period (s : State) (x : Chain) : Nat := x.Ho * x.field 0x58 8 * s.servo.num / (s.servo.den * 2 ^ 32)

/-- The deadline of a strip converted now (R347). -/
def State.deadlineNow (s : State) (x : Chain) (f k : Nat) : Int := s.toCyc (x.instant f k 0) - x.field 0x64 4

/-- A frame of a chain by its number. -/
def Chain.frame (x : Chain) (f : Nat) : Option Frame := x.frames.find? fun r => r.num == f

/-- A frame changed. -/
def Chain.modFrame (x : Chain) (f : Nat) (g : Frame → Frame) : Chain :=
  { x with frames := x.frames.map fun r => if r.num = f then g r else r }

/-- What is kept of a strip of a frame. -/
def Chain.strip (x : Chain) (f k : Nat) : Strip :=
  match x.frame f with
  | some r => Tbl.get r.strips k
  | none => {}

/-- The deadline of a strip: as converted at its opening, else as it would be now (R347). -/
def State.deadlineFor (s : State) (x : Chain) (f k : Nat) : Int := ((x.strip f k).deadline).getD (s.deadlineNow x f k)

/-! ### Reserved cores -/

/-- The chain that reserves an atoll (R340, R349). -/
def State.reservedBy (s : State) (a : Nat) : Option Nat :=
  (s.chains.find? fun e => e.2.active && (e.2.field 0x30 8).testBit a).map (·.1)

/-- The four cores of an atoll. -/
def atollCores (a : Nat) : List Nat := (List.range 4).map (coreAt a)

/-- A chain's reserved cores in ascending logical number (R286, R349). -/
def Chain.cores (x : Chain) : List Nat := (List.range Config.cores).filter fun c => (x.field 0x30 8).testBit (atollOf c)

/-! ### What is due -/

/-- The workgroup index that a stage launch places next: a restart first, none when all are placed. -/
def Launch.nextIndex (L : Launch) (total : Nat) : Option Nat :=
  match L.restarts with
  | r :: _ => some r.index
  | [] => if L.next < total then some L.next else none

/-- The next bin workgroup of a chain: its frame, launch and index; frames go in order (R286, R348). -/
def State.nextBin (s : State) (x : Chain) : Option (Nat × Nat × Nat) :=
  x.frames.findSome? fun f => if f.shade = 0 then none else
    let L := s.launch (f.shade - 1)
    if L.used && L.checked && L.status == 0 then (L.nextIndex (x.K * x.B)).map fun n => (f.num, f.shade - 1, n) else none

/-- Whether a strip's bin workgroups may be placed: not before D − 2·Ts (R348). -/
def State.binDue (s : State) (x : Chain) (f n : Nat) : Bool :=
  decide (s.deadlineFor x f (n / x.B) - 2 * s.period x ≤ s.cyc.toNat)

/-- The reserved core of a bin workgroup (R286). -/
def Chain.binCore (x : Chain) (n : Nat) : Nat := x.cores.getD (n % x.cores.length) 0

/-- The next upscale job of a chain: its frame, launch and index. -/
def State.nextJob (s : State) (x : Chain) : Option (Nat × Nat × Nat) :=
  x.frames.findSome? fun f => if f.upscale = 0 then none else
    let L := s.launch (f.upscale - 1)
    if L.used && L.checked && L.status == 0 then (L.nextIndex x.K).map fun n => (f.num, f.upscale - 1, n) else none

/-- Whether an upscale job may be placed: source strip k + 1 has become full, or strip k has and is the frame's last; the job itself
waits for strip k (R302, R345). -/
def Chain.jobDue (x : Chain) (f k : Nat) : Bool := (x.strip f (if k + 1 < x.K then k + 1 else k)).source

/-- Whether a chain workgroup waits for a core: a due bin workgroup of that core, or a due upscale job (R349). -/
def State.chainWaits (s : State) (c : Nat) : Bool :=
  match s.reservedBy (atollOf c) with
  | none => false
  | some n =>
    let x := s.chain n
    (match s.nextBin x with
     | some (f, _, i) => s.binDue x f i && x.binCore i == c
     | none => false) ||
    (match s.nextJob x with
     | some (f, _, k) => x.jobDue f k
     | none => false)

end Sys2Proof.Machine
end

