-- ==== Sys2Proof/Machine/Place.lean ====
section
/-! DEFINITION. Placing workgroups (R31 to R33, R51, R219 to R225, R323): the levels of a work identifier, the resources of
a core, the cores a launch may use, and what a placement writes. -/

namespace Sys2Proof.Machine

/-! ### Levels -/

/-- Offset of level i (R219). -/
def LaunchRec.offset (r : LaunchRec) (i : Nat) : Nat := (r.widths.take i).foldl (· + ·) 0

/-- The levels of nonzero width: offset, width, extent (R219). -/
def LaunchRec.levels (r : LaunchRec) : List (Nat × Nat × Nat) :=
  ((List.range 6).filter fun i => r.widths.getD i 0 != 0).map fun i =>
    let o := r.offset i
    let w := r.widths.getD i 0
    (o, w, bitsOf r.ext (o + w - 1) o + 1)

/-- The workgroup boundary of a launch (R220). -/
def LaunchRec.wgbit (r : LaunchRec) : Nat := wgbitOf r.groups

/-- The workgroup levels, lowest first (R220). -/
def LaunchRec.workLevels (r : LaunchRec) : List (Nat × Nat × Nat) := r.levels.filter fun l => decide (r.wgbit ≤ l.1)

/-- Workgroups of a launch (R221). -/
def LaunchRec.workgroups (r : LaunchRec) : Nat := r.workLevels.foldl (fun n l => n * l.2.2) 1

/-- The work identifier of lane 0 of group 0 of workgroup n (R221). -/
def LaunchRec.baseOf (r : LaunchRec) (n : Nat) : Nat :=
  (r.workLevels.foldl (fun (a : Nat × Nat) l => (a.1 / l.2.2, a.2 + a.1 % l.2.2 * 2 ^ l.1)) (n, 0)).2

/-- Whether the lane of a work identifier is live (R221). -/
def LaunchRec.laneLive (r : LaunchRec) (id : Nat) : Bool :=
  (r.levels.filter fun l => decide (l.1 < r.wgbit)).all fun l => decide (bitsOf id (l.1 + l.2.1 - 1) l.1 < l.2.2)

/-! ### Resources of a core -/

/-- What a workgroup of a launch needs (R222). -/
def LaunchRec.needs (r : LaunchRec) : Needs := { groups := r.groups, vregs := r.vregs, sregs := r.sregs, scratch := r.scratch }

/-- What a core has in use: groups, workgroups, vector rows, uniform words, scratchpad ranges; and its scratchpad bytes. -/
structure Room where
  groups : Nat := 0
  wgs : Nat := 0
  vregs : Nat := 0
  sregs : Nat := 0
  ranges : List (Nat × Nat) := []
  limit : Nat := 0
  deriving DecidableEq, Repr, Inhabited

/-- The lowest scratchpad address at which a range fits (R222). -/
def firstFit (used : List (Nat × Nat)) (limit len : Nat) : Option Nat :=
  let starts := 0 :: used.map fun r => r.1 + r.2
  let ok := starts.filter fun a => decide (a + len ≤ limit) && (len == 0 || !rangesMeet [(a, len)] used)
  match ok with
  | [] => none
  | a :: t => some (t.foldl min a)

/-- The scratchpad offset at which a workgroup fits into a room (R222). -/
def Room.fit (m : Room) (n : Needs) : Option Nat :=
  if m.groups + n.groups ≤ Config.groupSlots ∧ m.wgs + 1 ≤ Config.wgSlots ∧ m.vregs + n.groups * n.vregs ≤ Config.vectorRows ∧
      m.sregs + n.groups * n.sregs ≤ Config.uniformWords then
    if n.scratch = 0 then some 0 else firstFit m.ranges m.limit n.scratch
  else none

/-- A room after a workgroup has taken its part. -/
def Room.take (m : Room) (n : Needs) : Room :=
  match m.fit n with
  | none => m
  | some off => { m with
      groups := m.groups + n.groups, wgs := m.wgs + 1, vregs := m.vregs + n.groups * n.vregs,
      sregs := m.sregs + n.groups * n.sregs,
      ranges := if n.scratch = 0 then m.ranges else (off, n.scratch) :: m.ranges }

/-- A core without any work; the launch check measures against the requested share (R322). -/
def Core.emptyRoom (x : Core) : Room := { limit := x.req * Config.sramStep }

/-- A core as it is (R61, R222). -/
def Core.room (x : Core) : Room :=
  let gs := x.grps.filter fun e => e.2.used
  let ws := x.wgs.filter fun e => e.2.used
  { groups := gs.length, wgs := ws.length, vregs := gs.foldl (fun n e => n + e.2.vregs) 0,
    sregs := gs.foldl (fun n e => n + e.2.sregs) 0,
    ranges := (ws.filter fun e => e.2.scrLen != 0).map fun e => (e.2.scrOff, e.2.scrLen),
    limit := min x.cur x.req * Config.sramStep }

/-- The room of a core with the resources reserved for waiting restores taken out (R63). -/
def State.roomOf (s : State) (c : Nat) : Room :=
  (s.restores.filter fun r => r.reserved && r.core == some c).foldl (fun m r => m.take r.needs) (s.core c).room

/-- The generation after another (R51). -/
def nextGenOf (g : Gen) : Gen := if g + 1 = 0 then 1 else g + 1

/-- Whether a core can take a further allocation of a launch apart from its room: a launch number, and a generation
inside the window (R58, R222). -/
def Core.opens (x : Core) (l : Nat) : Bool :=
  (List.range 64).any (fun n => Tbl.get x.nums n == l + 1 || Tbl.get x.nums n == 0) &&
    decide ((nextGenOf x.nextGen - x.low).toNat ≤ 32768)

/-- The generation of the allocation that comes after some others (R51). -/
def Core.genAfter (x : Core) : Nat → Gen
  | 0 => nextGenOf x.nextGen
  | k + 1 => nextGenOf (x.genAfter k)

/-- A core has a generation inside the window for one more allocation after some others (R58). -/
def Core.opensAfter (x : Core) (k : Nat) : Bool := decide ((x.genAfter k - x.low).toNat ≤ 32768)

/-- The offset at which a core can take a workgroup at once; a fenced core takes no new placement (R222, R395). -/
def State.canTake (s : State) (c l : Nat) (n : Needs) : Option Nat :=
  if (s.core c).fenced || !(s.core c).opens l then none else (s.roomOf c).fit n

/-! ### What a placement writes -/

/-- The lowest free group slots (R222). -/
def Core.freeGroups (x : Core) (n : Nat) : List Nat :=
  ((List.range Config.groupSlots).filter fun g => !(Tbl.get x.grps g).used).take n

/-- The lowest free workgroup slot (R222). -/
def Core.freeWg (x : Core) : Nat := (firstFrom (fun w => !(Tbl.get x.wgs w).used) 0 Config.wgSlots).getD 0

/-- The launch's number on the core, taken if it has none yet (R222). -/
def Core.withNum (x : Core) (l : Nat) : Core :=
  if (List.range 64).any (fun n => Tbl.get x.nums n == l + 1) then x
  else match firstFrom (fun n => Tbl.get x.nums n == 0) 0 64 with
    | some n => { x with nums := Tbl.set x.nums n (l + 1) }
    | none => x

/-- What a placement gives beside the launch: index, base identifier, entry, `s7`, live lanes, and the workgroup's fields. -/
structure Placing where
  base : Nat
  entry : Nat
  args : Nat
  groups : Nat
  s7 : Nat := 0
  live : Nat → Bool
  wg : Wg
  needs : Needs

/-- The group of a placement (R31, R33, R221). -/
def Placing.group (q : Placing) (core w j : Nat) : Group :=
  let at_ (n v : Nat) : Nat × Word := (n, BitVec.ofNat 32 v)
  let words := [at_ 0 q.args, at_ 1 (q.args / 2 ^ 32), at_ 2 q.base, at_ 3 (q.base / 2 ^ 32), at_ 4 j, at_ 5 q.groups, at_ 6 core,
    at_ 7 q.s7]
  let g : Group := {
    used := true, wg := w, index := j, vregs := q.needs.vregs, sregs := q.needs.sregs
    thr := (List.range 64).foldl (fun t l => Tbl.set t l
      { live := q.live (q.base + 64 * j + l), pc := q.entry }) [] }
  words.foldl (fun g e => g.setS e.1 e.2) g

/-- A workgroup or task placed on a core at a scratchpad offset: group slots, workgroup slot, launch number, generation,
launch-initial values, seeds, the acquire of its first word, and its threads in the table (R33, R51, R222, R251). The
number of its workgroup slot is returned. -/
def State.place (s : State) (c l off : Nat) (q : Placing) : State × Nat :=
  let x := (s.core c).withNum l
  let w := x.freeWg
  let slots := x.freeGroups q.needs.groups
  let gen := x.nextGen
  let W : Wg := { q.wg with
    used := true, launch := l, base := q.base, slots := slots, gen := gen, scrOff := off, scrLen := q.needs.scratch,
    placed := s.placements }
  let ids (j h : Nat) : Tbl Word := Tbl.ofWords ((List.range 64).map fun i => BitVec.ofNat 32 ((q.base + 64 * j + i) / 2 ^ (32 * h)))
  let x := slots.zipIdx.foldl (fun x e => { x with
    grps := Tbl.set x.grps e.1 (q.group c w e.2)
    rows := Tbl.set (Tbl.set x.rows (128 * e.1) { tag := gen, lanes := ids e.2 0 }) (128 * e.1 + 1) { tag := gen, lanes := ids e.2 1 } }) x
  let x := { x with wgs := Tbl.set x.wgs w W, nextGen := nextGenOf gen }
  let x := x.invalidate (s.launch l).ctx none
  let s := { s.setCore c x with placements := s.placements + 1 }
  let s := s.reseed c w
  (slots.foldl (fun s g => s.release c g allLanes) s, w)

/-! ### Launches -/

/-- Cores that a launch's atoll mask names (R319, R323). -/
def LaunchRec.inMask (r : LaunchRec) (c : Nat) : Bool := r.atolls == 0 || r.atolls.testBit (atollOf c)

/-- Whether a launch may use a core: its mask, and the cores reserved for chains (R323, R346, R349). -/
def State.mayUse (s : State) (L : Launch) (c : Nat) : Bool :=
  L.lr.inMask c && ((s.reservedBy (atollOf c)).isNone || (L.lr.restartable && !(L.chain != 0 && L.role == 3)))

/-- The cores of the grid that a launch may use, ascending (R323, R395). -/
def State.usable (s : State) (L : Launch) : List Nat := (List.range Config.cores).filter fun c => s.mayUse L c && !s.absent c

/-- Whether a new workgroup of a context has to let a saved one of the context go first on a core (R318, R369). -/
def State.savedFirst (s : State) (ctx c : Nat) : Bool :=
  (Tbl.get s.ctxRegs ctx).saved.any fun e => e.2.used && (e.2.core == c || e.2.core == 0xFF)

/-- Rank of a class: strip, graphics, tensor, background (R316). -/
def queueClassRank (c : Nat) : Nat := if c = 3 then 0 else c + 1

/-- The slot that holds a queue (R316). -/
def State.slotOfQueue (s : State) (q : Nat) : Option Nat := firstFrom (fun n => (Tbl.get s.hwSlots n).queue == q + 1) 0 64

/-- Whether a launch still has workgroups to place: a restart, or, while its queue holds a slot, a new one (R317, R323). -/
def State.toPlace (s : State) (l : Nat) : Bool :=
  let L := s.launch l
  L.used && L.checked && L.status == 0 && (match L.restarts with
    | [] => decide (L.next < L.lr.workgroups) && (L.queue == 0 || (s.slotOfQueue (L.queue - 1)).isSome)
    | _ => true)

/-- A core that the rules give to workgroups of a launch: those of a stage go to their chain's reserved cores alone (R323, R349). -/
def State.givenTo (s : State) (L : Launch) (c : Nat) : Bool :=
  if L.chain != 0 && (L.role == 1 || L.role == 2) then (s.chain (L.chain - 1)).cores.contains c else s.mayUse L c

/-- A launch of a higher class, of a resident context, waits for a core (R369). -/
def State.higherWaits (s : State) (l c : Nat) : Bool :=
  s.launches.any fun e => s.toPlace e.1 && s.ctxState e.2.ctx == 0 && decide (queueClassRank e.2.cls < queueClassRank (s.launch l).cls) &&
    s.givenTo e.2 c

/-- Whether a core takes the next workgroup of a launch now (R222, R349, R369). -/
def State.takesNow (s : State) (l c : Nat) : Option Nat :=
  let L := s.launch l
  if s.savedFirst L.ctx c || ((s.reservedBy (atollOf c)).isSome && s.chainWaits c) ||
      (L.chain != 0 && L.role == 3 && (s.handle c 63).owner != 0) then none else s.canTake c l L.lr.needs

/-- The cores on which a launch's next workgroup may be placed, ascending: one of a co-resident launch restarts on the core of
its place in the quad (R225), and one flushed by pre-emption where no launch of a higher class waits (R369). -/
def State.nextCores (s : State) (l : Nat) : List Nat :=
  let us := s.usable (s.launch l)
  match (s.launch l).restarts with
  | [] => us
  | r :: _ => us.filter fun c => (r.core == 0 || r.core == c + 1) && !(r.yields && s.higherWaits l c)

/-- The first core that can take the next workgroup, in the order of R323, and its offset. -/
def State.chooseCore (s : State) (l : Nat) : Option (Nat × Nat) :=
  let L := s.launch l
  let us := s.nextCores l
  let order := us.filter (fun c => decide (L.lastCore ≤ c)) ++ us.filter fun c => decide (c < L.lastCore)
  order.findSome? fun c => (s.takesNow l c).map fun off => (c, off)

/-- The quads of a co-resident launch placed one after another in rooms: the atoll of each; `ok` says whether a core takes one
more workgroup after some of the launch (R225). -/
def quadPlan (ok : Nat → Nat → Bool) (room : Nat → Room) (needs : Needs) (total : Nat) : Nat → List (Nat × Room) → List Nat → Option (List Nat)
  | 0, _, acc => some acc
  | k + 1, taken, acc =>
    let q := (total + 3) / 4 - (k + 1)
    let r := min 4 (total - 4 * q)
    let roomNow (c : Nat) : Room := ((taken.find? fun e => e.1 == c).map (·.2)).getD (room c)
    let had (c : Nat) : Nat := (roomNow c).wgs - (room c).wgs
    match (List.range Config.atolls).find? (fun a => (List.range r).all fun i =>
        ok (coreAt a i) (had (coreAt a i)) && ((roomNow (coreAt a i)).fit needs).isSome) with
    | none => none
    | some a =>
      let new := (List.range r).map fun i => (coreAt a i, (roomNow (coreAt a i)).take needs)
      quadPlan ok room needs total k (new ++ taken.filter fun e => !(new.any fun n => n.1 == e.1)) (acc ++ [a])

/-- The atolls of a co-resident launch's quads, on the cores as they are (R225). -/
def State.quads (s : State) (l : Nat) : Option (List Nat) :=
  let L := s.launch l
  let n := L.lr.workgroups
  quadPlan (fun c k => s.mayUse L c && (s.takesNow l c).isSome && (s.core c).opensAfter k && (k == 0 || L.chain == 0 || L.role != 3))
    s.roomOf L.lr.needs n ((n + 3) / 4) [] []

/-- Whether a mesh workgroup's slot is free for it (R287, R289). -/
def State.meshSlotFree (s : State) (L : Launch) (n : Nat) : Bool :=
  if L.chain = 0 || L.role ≠ 0 then true else
  let e := s.slotEntry (s.stageSlot { chain := L.chain - 1, role := 0, frame := L.frame, bin := n })
  (e.state == .free && e.mesh.isNone) || e.mesh == some (L.frame, n)

/-- Whether the mesh slots that a launch's placement needs are free: that of its next workgroup, or, where all are placed in one
step, those of all, each with a slot of its own (R225, R287). -/
def State.meshReady (s : State) (l : Nat) : Bool :=
  let L := s.launch l
  if L.lr.coresident && !L.placed then
    L.chain == 0 || L.role != 0 || (decide (L.lr.workgroups ≤ (s.chain (L.chain - 1)).field 0x16 2) &&
      (List.range L.lr.workgroups).all (s.meshSlotFree L))
  else match L.nextIndex L.lr.workgroups with
    | some n => s.meshSlotFree L n
    | none => false

/-- Whether a launch that waits for cores could place its next workgroup now; stage launches of a chain are placed by the
strip scheduler instead, one workgroup at a time and without partners whatever their co-resident flag says. DESIGN CHOICE
(notes/assumptions/63.md). -/
def State.placeable (s : State) (l : Nat) : Bool :=
  let L := s.launch l
  let stage := L.chain != 0 && (L.role == 1 || L.role == 2)
  s.toPlace l && !stage && s.ctxState L.ctx == 0 && s.meshReady l &&
    (if L.lr.coresident && !L.placed then (s.quads l).isSome else (s.chooseCore l).isSome)

/-- The order in which launches compete for cores: class, pending-launch queues before slots, priority, readiness (R316,
R323, R325). -/
def Launch.rank (L : Launch) : List Nat :=
  [(match L.cls with | 3 => 0 | 0 => 1 | 1 => 2 | _ => 3), (if L.queue = 0 then 0 else 1), 15 - L.priority, L.ready]

/-- Lexicographic order. -/
def lexLt : List Nat → List Nat → Bool
  | a :: s, b :: t => decide (a < b) || (a == b && lexLt s t)
  | _, _ => false

/-- Whether another launch takes its cores before this one (R323). -/
def State.outranked (s : State) (l : Nat) : Bool :=
  s.launches.any fun e => e.1 != l && lexLt e.2.rank (s.launch l).rank && s.placeable e.1

/-- One workgroup of a launch placed at an index, a restart with the replay state of its record (R182, R223). -/
def State.placeIndex (s : State) (l c off n : Nat) (s7 : Nat) (stage : Option StageInfo) : State × Nat :=
  let L := s.launch l
  let r := L.lr
  let again := L.restarts.find? fun a => a.index == n
  let entry := r.code % 2 ^ 48
  let wg : Wg := match again with
    | some a => { (default : Wg) with index := n, point := a.point, count := a.count, rst := true, restart := a.pc,
                                      restartable := a.restartable, stage := stage }
    | none => { (default : Wg) with index := n, restart := entry, restartable := r.restartable, stage := stage }
  let q : Placing := {
    base := r.baseOf n, entry := wg.restart, args := r.args, groups := r.groups, s7 := s7, live := r.laneLive, wg := wg,
    needs := r.needs }
  let (s, w) := s.place c l off q
  let s := s.modLaunch l fun L => { L with
    restarts := L.restarts.filter fun a => a.index != n
    next := if again.isSome then L.next else n + 1
    lastCore := if again.isSome then L.lastCore else c + 1
    since := s.cyc.toNat
    placed := true
    firstCyc := if L.placed then L.firstCyc else s.cyc.toNat
    firstNs := if L.placed then L.firstNs else s.ptimeNs
    textAt := if L.placed then L.textAt else s.past.length }
  (s, w)

/-- The stage that a workgroup of a launch plays when the queue scheduler places it: a mesh workgroup or a consumer. -/
def Launch.stageOf (L : Launch) (n : Nat) : Option StageInfo :=
  if L.chain = 0 then none
  else some { chain := L.chain - 1, role := L.role, frame := L.frame, strip := L.strip, bin := if L.role = 3 then L.outSlot else n }

/-- The placement frees the pending-launch entry of its launch (R325). -/
def State.freePend (s : State) (l : Nat) : State :=
  let c := (s.launch l).core
  if c = 0 then s else s.modCore (c - 1) fun x => { x with pend := x.pend.filter fun e => e.launch != l + 1 }

/-- A handle that mirrors a slot entry takes its state (R217, R277). -/
def Handle.mirror (h : Handle) (e : SlotEntry) : Handle :=
  let flags := if e.fault then h.status ||| 16 else h.status
  let h := { h with state := e.state, cons := e.cons, retain := e.retain, scope := e.scope, bare := e.bare, status := flags }
  if e.state == .free then h.freed else h

/-- A placed mesh workgroup holds its slot (R289); a compute consumer finds h63 bound to its output slot, as a mirror of its
entry (R346). -/
def State.bindStage (s : State) (c w : Nat) : State :=
  match (s.wg c w).stage with
  | none => s
  | some st =>
    if st.role = 0 then s.modSlot (s.stageSlot st) fun e => { e with mesh := some (st.frame, st.bin) }
    else if st.role = 3 then
      let e := s.slotEntry st.bin
      let h : Handle := {
        narrows := true, off := st.bin, len := e.units * Config.unitBytes, owner := w + 1, gen := (s.wg c w).gen, fixed := 2 }
      s.modHandle c 63 fun _ => h.mirror e
    else s

/-- `s7` at placement: zero, but for a compute consumer (R33, R346). -/
def Launch.s7 (L : Launch) : Nat := if L.chain ≠ 0 ∧ L.role = 3 then L.outSlot + L.strip % 2 ^ 16 * 2 ^ 16 else 0

/-- The partners of the workgroups of a co-resident launch, once all are placed: index, core and workgroup slot of each
(R225). -/
def State.setPartners (s : State) (placed : List (Nat × Nat × Nat)) : State :=
  placed.foldl (fun s e =>
    let quad := (placed.filter fun o => o.1 / 4 == e.1 / 4).map fun o => (o.2.1, o.2.2, (s.wg o.2.1 o.2.2).gen)
    s.modWg e.2.1 e.2.2 fun W => { W with partners := quad }) s

/-- A workgroup of a quad placed again: its partners name its new allocation, and it takes theirs (R225). -/
def State.rejoin (s : State) (c w : Nat) : State :=
  let W := s.wg c w
  let L := s.launch W.launch
  if !L.lr.coresident || W.task.isSome then s else
  let a := atollOf c
  let of (i : Nat) : Option (Nat × Nat × Gen) :=
    let k := coreAt a i
    ((s.core k).wgs.find? fun e => e.2.used && e.2.launch == W.launch && e.2.task.isNone && e.2.index == 4 * (W.index / 4) + i).map
      fun e => (k, e.1, e.2.gen)
  let quad := (List.range (min 4 (L.lr.workgroups - 4 * (W.index / 4)))).map fun i => (of i).getD (coreAt a i, Config.wgSlots, 0)
  quad.foldl (fun s e => if e.2.1 = Config.wgSlots then s else s.modWg e.1 e.2.1 fun V => { V with partners := quad }) s

/-- A co-resident launch placed whole in one step, or not at all (R225). -/
def State.placeQuads (s : State) (l : Nat) (atolls : List Nat) : State :=
  let n := (s.launch l).lr.workgroups
  let r := (List.range n).foldl (fun (a : Option (State × List (Nat × Nat × Nat))) i => a.bind fun a =>
    let c := coreAt (atolls.getD (i / 4) 0) (i % 4)
    (a.1.canTake c l (a.1.launch l).lr.needs).map fun off =>
      let p := a.1.placeIndex l c off i (a.1.launch l).s7 ((a.1.launch l).stageOf i)
      (p.1.bindStage c p.2, a.2 ++ [(i, c, p.2)])) (some (s, []))
  match r with
  | some r => r.1.setPartners r.2
  | none => s

/-- The next workgroup of a launch placed, if it can be and no launch before it in the order can (R222, R223, R323). -/
def State.placeNext (s : State) (l : Nat) : State :=
  if !s.placeable l || s.outranked l then s else
  let L := s.launch l
  let s1 : State := if L.lr.coresident && !L.placed then
      match s.quads l with
      | some plan => s.placeQuads l plan
      | none => s
    else match L.nextIndex L.lr.workgroups, s.chooseCore l with
      | some n, some (c, off) =>
        let (s, w) := s.placeIndex l c off n L.s7 (L.stageOf n)
        (s.bindStage c w).rejoin c w
      | _, _ => s
  s1.freePend l

/-- WORKGROUP_PLACEMENT (R222). -/
def execWorkgroupPlacement (launch : Nat) (s : State) : Result := .next (s.placeNext launch)

end Sys2Proof.Machine
end

