-- ==== Sys2Proof/Machine/LaneMem.lean ====
section
/-! DEFINITION. Lane loads, stores, atomics and prefetch (R124 to R136). -/

namespace Sys2Proof.Machine

/-- Bytes of a load width (R130). -/
def loadSize : LdForm → Nat
  | .plain .u8 | .plain .s8 => 1
  | .plain .u16 | .plain .s16 => 2
  | .plain .b32 | .plane _ _ _ => 4
  | .plain .b64 => 8
  | .plain .b128 => 16

/-- Registers that a load writes (R130). -/
def loadRegs : LdForm → Nat
  | .plain .b64 => 2
  | .plain .b128 => 4
  | _ => 1

/-- Planes that a load reads (R131). -/
def loadPlanes : LdForm → Option Nat
  | .plane drop _ _ => some (8 - drop.val)
  | _ => none

/-- Bytes of a store width (R132). -/
def storeSize : StWidth → Nat
  | .b8 => 1 | .b16 => 2 | .b32 => 4 | .b64 => 8 | .b128 => 16

/-- Registers that a store reads (R132). -/
def storeRegs : StWidth → Nat
  | .b64 => 2 | .b128 => 4 | _ => 1

/-- The registers from one on. -/
def regsFrom (r n : Nat) : List Nat := upFrom r n

/-- The number held by successive registers, the first the lowest. -/
def wideOf (rd : Nat → Word) (r : Nat) : Nat → Nat
  | 0 => 0
  | n + 1 => (rd r).toNat + 2 ^ 32 * wideOf rd (r + 1) n

/-- `LD` (R130, R131). -/
def execLd (c : LaneCtl) (form : LdForm) (order : Order) (scope : Scope) (vd va : VReg) (off : BitVec 13) (s : State) : Result :=
  laneMem c s [(vd, loadRegs form), (va, 2)] (regsFrom va 2) [] true true .load (loadSize form) (loadPlanes form) order scope
    (laneEa va off) fun _ => .load form vd

/-- `ST` (R132). -/
def execSt (c : LaneCtl) (w : StWidth) (order : Order) (scope : Scope) (va : VReg) (off : BitVec 13) (vb : VReg) (s : State) : Result :=
  laneMem c s [(va, 2), (vb, storeRegs w)] (regsFrom va 2) (regsFrom vb (storeRegs w)) false false .store (storeSize w) none
    order scope (laneEa va off) fun rd => .store (leBytes (wideOf rd vb (storeRegs w)) (storeSize w))

/-- Registers of an atomic's operand. -/
def atomRegs (w64 : Bool) : Nat := if w64 then 2 else 1

/-- `ATOM` (R133). -/
def execAtom (c : LaneCtl) (op : AtomOp) (w64 : Bool) (order : Order) (scope : Scope) (vd va : VReg) (off : BitVec 13)
    (vb : VReg) (s : State) : Result :=
  laneMem c s [(vd, atomRegs w64), (va, 2), (vb, atomRegs w64)] (regsFrom va 2) (regsFrom vb (atomRegs w64)) true true
    (.atomic (op == .fadd)) (4 * atomRegs w64) none order scope (laneEa va off)
    fun rd => .atom op w64 (wideOf rd vb (atomRegs w64)) vd true

/-- `RED` (R133); a stale row reads as zero (R161). -/
def execRed (c : LaneCtl) (op : AtomOp) (w64 : Bool) (order : Order) (scope : Scope) (va : VReg) (off : BitVec 13)
    (vb : VReg) (s : State) : Result :=
  laneMem c s [(va, 2), (vb, atomRegs w64)] [] [] false false
    (.atomic (op == .fadd)) (4 * atomRegs w64) none order scope (laneEa va off)
    fun rd => .atom op w64 (wideOf rd vb (atomRegs w64)) 0 false

/-- `ACAS` (R134). -/
def execAcas (c : LaneCtl) (w64 : Bool) (order : Order) (scope : Scope) (vd va : VReg) (off : BitVec 13) (vb vc : VReg)
    (s : State) : Result :=
  let n := atomRegs w64
  laneMem c s [(vd, n), (va, 2), (vb, n), (vc, n)] (regsFrom va 2) (regsFrom vb n ++ regsFrom vc n) true true
    (.atomic false) (4 * n) none order scope (laneEa va off) fun rd => .cas w64 (wideOf rd vb n) (wideOf rd vc n) vd

/-- `VISW` (R135); a stale row reads as zero (R161). -/
def execVisw (c : LaneCtl) (order : Order) (scope : Scope) (va : VReg) (off : BitVec 13) (vb : VReg) (s : State) : Result :=
  laneMem c s [(va, 2), (vb, 2)] [] [] false false .visw 8 none order scope (laneEa va off)
    fun rd => .visw (wideOf rd vb 2)

/-- `PREF`: it may bring the line into the L1 (choice bit 1) or have no effect; it never traps on its address and never
faults (R136). -/
def execPref (c : LaneCtl) (level : PrefLevel) (va : VReg) (off : BitVec 13) (s : State) : Result :=
  runLane c.sw c.g.val s fun s p =>
    match s.laneChecks p [(true, va.val, 2)] [] with
    | some t => .trap t
    | none => .ok (p.lanesL.foldl (fun a l =>
        let ea := laneEa va off (fun r => s.rdV p.core p.slot r l)
        match s.checkAddr p .load l (ea / 4 * 4) 4 none with
        | .ok r =>
          if level == .l1 && r.l1 && s.choose 1 then
            let ctx := (s.launchOf p.core p.slot).ctx
            match r.vas with
            | v :: _ => match s.xlateDev ctx v.1 .read with
              | .ok pa =>
                let line : L1Line := { bytes := s.lineNow p.core ctx pa, va := v.1 / 64 * 64, ctx := ctx }
                a.modCore p.core fun x => { x with l1 := Tbl.set x.l1 (pa / 64) line }
              | .fault _ => a
            | [] => a
          else a
        | .error _ => a) s)

end Sys2Proof.Machine
end

