-- ==== Sys2Proof/Machine/LaneControl.lean ====
section
/-! DEFINITION. Branches, calls and returns, masks, fences, waits and barriers of lanes (R144 to R160). -/

namespace Sys2Proof.Machine

/-- A word address reached by a signed offset in words (R144, R171); addresses have 48 bits (R148). DESIGN CHOICE: no rule says
what a target below address 0 or at 2^48 is; the sum is taken modulo 2^48 (notes/assumptions/59.md). -/
def jump (pc : Nat) (words : Int) : Nat := (((pc : Int) + 4 * words) % 2 ^ 48).toNat

/-- `BRA` (R144). -/
def execBra (c : LaneCtl) (off : BitVec 21) (s : State) : Result :=
  runLane c.sw c.g.val s fun s p => .ok (s.setPcs p.core p.slot p.lanesL (jump p.inst.pc off.toInt))

/-- `CALL` (R144). -/
def execCall (c : LaneCtl) (vd : VReg) (off : BitVec 32) (s : State) : Result :=
  runLane c.sw c.g.val s fun s p =>
    match s.laneChecks p [(true, vd.val, 2)] [] with
    | some t => .trap t
    | none =>
      let s := p.lanesL.foldl (fun a l => (putPair vd p.inst.after).foldl (fun a w => a.wrV p.core p.slot w.1 l w.2) a) s
      .ok (s.setPcs p.core p.slot p.lanesL (jump p.inst.pc off.toInt))

/-- The traps of a branch target (R145). -/
def targetTrap (a lane : Nat) : Option Trap :=
  if a / 2 ^ 48 ≠ 0 then some { spaceTrap a with lane := lane }
  else if a % 4 ≠ 0 then some { cause := 0x07, tval := a, lane := lane }
  else none

/-- The shared effect of `RET` and `BRX` (R145); a stale row reads as zero (R161). -/
def branchTo (c : LaneCtl) (va : VReg) (s : State) : Result :=
  runLane c.sw c.g.val s fun s p =>
    match s.laneChecks p [(true, va.val, 2)] [] with
    | some t => .trap t
    | none =>
      let target (l : Nat) : Nat := pairOf (fun r => s.rdV p.core p.slot r l) va
      match worstTrap (p.lanesL.filterMap fun l => targetTrap (target l) l) with
      | some t => .trap t
      | none => .ok (p.lanesL.foldl (fun a l => a.setPcs p.core p.slot [l] (target l)) s)

/-- `RET` (R145). -/
def execRet (c : LaneCtl) (va : VReg) (s : State) : Result := branchTo c va s
/-- `BRX` (R145). -/
def execBrx (c : LaneCtl) (va : VReg) (s : State) : Result := branchTo c va s

/-- `EXIT` (R146). -/
def execExit (c : LaneCtl) (s : State) : Result :=
  runLane c.sw c.g.val s fun s p => .ok (s.exitLanes p.core p.slot p.exec)

/-- `YIELD`: every thread goes on at the next word as part of a new cohort (R147, R230). -/
def execYield (c : LaneCtl) (s : State) : Result := runLane c.sw c.g.val s fun s _ => .ok s

/-- The halves of a fence: `.ar` is both, and orders no store before a later load (R154, R260 case 12). -/
def fenceHalves : Order → List Order
  | .ar => [.rel, .acq]
  | o => [o]

/-- `FENCE` (R154): one fence of each half in flight for each executing thread. -/
def execFence (c : LaneCtl) (order : Order) (scope : Scope) (s : State) : Result :=
  runLane c.sw c.g.val s fun s p =>
    .ok (p.lanesL.foldl (fun a l => (fenceHalves order).foldl (fun a o => a.issueOp p.core {
      id := 0, inst := s.tick, slot := p.slot, lanes := 2 ^ l, uni := false, gen := s.genOf p.core p.slot,
      ctx := (s.launchOf p.core p.slot).ctx, place := .device, pieces := [], vas := [], ea := 0, ogen := 0, l1 := false,
      act := .fence, order := o, scope := scope, cover := none }) a) s)

/-! ### Masks -/

/-- `KSET` (R149). -/
def execKset (c : LaneCtl) (k : KReg) (neg : Bool) (pp : PReg) (s : State) : Result :=
  runLane c.sw c.g.val s fun s p =>
    if p.exec = 0 then .ok s else
    let m := listMask (p.lanesL.filter fun l => (s.thr p.core p.slot l).pred pp != neg)
    .ok (s.modMask p.core p.slot k fun _ => { m := BitVec.ofNat 64 m, a := 0 })

/-- `KARR`: an arrival, a release at `.wg` (R149, R251). -/
def execKarr (c : LaneCtl) (k : KReg) (s : State) : Result :=
  runLane c.sw c.g.val s fun s p =>
    if (s.core p.core).pendingAt p.slot (s.genOf p.core p.slot) p.exec .wg then .wait else
    .ok (s.modMask p.core p.slot k fun K => { K with a := K.a ||| BitVec.ofNat 64 p.exec })

/-- Lanes parked for a cause. -/
def State.parkLanes (s : State) (c g : Nat) (ls : List Nat) (w : Wait) : State :=
  s.modGrp c g fun x => { x with thr := ls.foldl (fun t l => Tbl.mod t l fun u => { u with wait := w }) x.thr }

/-- `KWAIT`: each executing thread arrives and parks; the test may release it at once (R149, R150). -/
def execKwait (c : LaneCtl) (k : KReg) (s : State) : Result :=
  runLane c.sw c.g.val s fun s p =>
    if (s.core p.core).pendingAt p.slot (s.genOf p.core p.slot) p.exec .wg then .wait else
    .ok ((s.parkLanes p.core p.slot p.lanesL (.mask k)).modMask p.core p.slot k fun K =>
      { K with a := K.a ||| BitVec.ofNat 64 p.exec })

/-- `KLEAVE` (R149). -/
def execKleave (c : LaneCtl) (k : KReg) (s : State) : Result :=
  runLane c.sw c.g.val s fun s p =>
    let e : DWord := BitVec.ofNat 64 p.exec
    .ok (s.modMask p.core p.slot k fun K => { m := K.m &&& ~~~e, a := K.a &&& ~~~e })

/-! ### Waiting on a word -/

/-- One thread's `WAITU` once its address is good (R152): decided at once, parked on a watch, or parked for a fault;
`none` where its earlier accesses hold the registration back. -/
def State.waituLane (s : State) (p : Part) (sw : Bool) (cond : Cond) (w64 : Bool) (order : Order) (scope : Scope)
    (pd l operand timeout : Nat) (r : Reach) : Option State :=
  match s.registerOn p (2 ^ l) (.thread p.core p.slot l) cond w64 operand timeout pd order scope r with
  | .decided s b => some (s.modThr p.core p.slot l fun t => t.setPred pd b)
  | .entered s n => some (s.parkLanes p.core p.slot [l] (.watch n))
  | .fault s k => some (s.parkFault p l r.ea k sw (.watch r cond w64 operand timeout pd order scope))
  | .held => none

/-- `WAITU` (R151 to R153). -/
def execWaitu (c : LaneCtl) (cond : Cond) (w64 : Bool) (order : Order) (scope : Scope) (pd : PReg) (va vb vc : VReg)
    (s : State) : Result :=
  let n := atomRegs w64
  let vbs : List (Nat × Nat) := if cond = .any then [] else [(vb.val, n)]
  runLane c.sw c.g.val s fun s p =>
    match s.laneChecks p ((true, va.val, 2) :: (vbs.map fun r => (true, r.1, r.2)) ++ [(true, vc.val, 1)]) [] with
    | some t => .trap t
    | none =>
      let rd (l : Nat) (r : Nat) : Word := s.rdV p.core p.slot r l
      let todo := p.lanesL.map fun l => (l, s.reach p .watch false l (pairOf (rd l) va) (4 * n) none)
      match worstTrap (todo.filterMap fun e => match e.2 with | .error t => some t | .ok _ => none) with
      | some t => .trap t
      | none =>
        let done := todo.foldl (fun (a : Option State) e => match a, e.2 with
          | some a, .ok r => a.waituLane p c.sw cond w64 order scope pd e.1 (wideOf (rd e.1) vb n) (rd e.1 vc).toNat r
          | a, _ => a) (some s)
        match done with
        | some s => .ok s
        | none => .wait

/-! ### Barriers -/

/-- The barrier's workgroup as a lane names it: its own, or the partner on atoll core `va` (R157); a
partner that has retired traps (DESIGN CHOICE, notes/assumptions/63.md). -/
def State.barOwner (s : State) (p : Part) (remote : Option VReg) (l : Nat) : Except Trap (Nat × Nat) :=
  match remote with
  | none => .ok (p.core, (s.grp p.core p.slot).wg)
  | some va =>
    let v := (s.rdV p.core p.slot va l).toNat
    if v < 4 then match (s.wgOf p.core p.slot).partners[v]? with
      | some q => if (s.wg q.1 q.2.1).used ∧ (s.wg q.1 q.2.1).gen = q.2.2 then .ok (q.1, q.2.1) else .error { spaceTrap v with lane := l }
      | none => .error { spaceTrap v with lane := l }
    else .error { spaceTrap v with lane := l }

/-- One lane at a barrier: its arrival, and its park unless its own arrival completed the phase (R157 to R159). -/
def State.barLane (s : State) (p : Part) (arrives waits remote : Bool) (b cnt l : Nat) (o : Nat × Nat) : State :=
  let ph := barPhase (Tbl.get (s.wg o.1 o.2).bars b)
  let s := if arrives then s.arrive o.1 o.2 b cnt else s
  if !waits then s
  else if barPhase (Tbl.get (s.wg o.1 o.2).bars b) = ph then
    s.parkLanes p.core p.slot [l] (.bar o.1 o.2 b ph arrives remote)
  else if remote then s.modCore p.core fun x => x.invalidate (s.launchOf p.core p.slot).ctx none
  else s

/-- The shared effect of the three barrier words (R155 to R159); an arrival is a release (R251). -/
def barrier (c : LaneCtl) (arrives waits : Bool) (b : BarNum) (remote : Option VReg) (cnt : Fin 17) (s : State) : Result :=
  let regs : List Nat := (remote.map (·.val)).toList
  runLane c.sw c.g.val s fun s p =>
    match s.laneChecks p (regs.map fun r => (true, r, 1)) [] with
    | some t => .trap t
    | none =>
      if p.exec = 0 then .ok s
      else if remote.isSome && !(s.launchOf p.core p.slot).lr.coresident then
        .trap { p.inst.rights with lane := p.lanesL.headD 0 }
      else
        let todo := p.lanesL.map fun l => (l, s.barOwner p remote l)
        match worstTrap (todo.filterMap fun e => match e.2 with | .error t => some t | .ok _ => none) with
        | some t => .trap t
        | none =>
          if arrives && (s.core p.core).pendingAt p.slot (s.genOf p.core p.slot) p.exec
              (if remote.isSome then .atoll else .wg) then .wait
          else .ok (todo.foldl (fun a e => match e.2 with
            | .ok o => a.barLane p arrives waits remote.isSome b cnt.val e.1 o
            | .error _ => a) s)

/-- `BAR` (R159). -/
def execBar (c : LaneCtl) (b : BarNum) (remote : Option VReg) (cnt : Fin 17) (s : State) : Result :=
  barrier c true true b remote cnt s
/-- `BARA` (R159). -/
def execBara (c : LaneCtl) (b : BarNum) (remote : Option VReg) (cnt : Fin 17) (s : State) : Result :=
  barrier c true false b remote cnt s
/-- `BARW` (R159). -/
def execBarw (c : LaneCtl) (b : BarNum) (remote : Option VReg) (cnt : Fin 17) (s : State) : Result :=
  barrier c false true b remote cnt s

end Sys2Proof.Machine
end

