-- ==== Sys2Proof/Machine/Texture.lean ====
section
/-! DEFINITION. Reads that the texture and traversal units make for a lane at its issue, and textures (R137 to R139). -/

namespace Sys2Proof.Machine

/-- A run of bytes cut at multiples of 64 KiB, the smallest page (R375). -/
def pageSplit (va n : Nat) : List (Nat × Nat) :=
  let first := min n (0x10000 - va % 0x10000)
  if first = n then [(va, n)] else [(va, first), (va + first, n - first)]

/-- What a unit's reads give: a value with the reads made, or a translation fault's address and kind, or the pointer of an
address-space trap. -/
inductive UnitRead (α : Type) where
  | ok (x : α) (reads : List MemOp)
  | fault (ptr kind : Nat)
  | trap (ptr : Nat)
  deriving Inhabited

/-- One read after another. -/
def UnitRead.andThen {α β : Type} (r : UnitRead α) (f : α → UnitRead β) : UnitRead β :=
  match r with
  | .ok x l => match f x with
    | .ok y m => .ok y (l ++ m)
    | e => e
  | .fault p k => .fault p k
  | .trap p => .trap p

/-- A pointer of space 0x0 or 0x1 without a peer field (R125, R126). DEDUCED (notes/assumptions/23.md): the peer field is tested
also where the rule names only the spaces (R179, R183, R184, R305). -/
def inDevice (ptr : Nat) : Bool := decide (ptr / 2 ^ 60 ≤ 1) && ptr / 2 ^ 48 % 512 == 0

/-- Bytes read now by a unit of a core for a group: translated, through the L1 where `l1` allows and the hardware's
choice hits, merged with the core's queue (R137, R245, R305). -/
def State.unitBytes (s : State) (c ctx : Nat) (l1 : Bool) (ptr n : Nat) : UnitRead (List Byte) :=
  (pageSplit (ptr % 2 ^ 48) n).foldl (fun acc v => acc.andThen fun bs =>
    match (s.xlate c ctx v.1 .read).2 with
    | .fault k => .fault (ptr / 2 ^ 48 * 2 ^ 48 + v.1) k
    | .ok pa =>
      let o : MemOp := { (default : MemOp) with
        place := .device, pieces := [(pa, v.2)], vas := [v], ctx := ctx, l1 := l1, act := .load (.plain .b32) 0 }
      .ok (bs ++ s.opBytes c o) [o]) (.ok [] [])

/-- The reads that a unit has made. -/
def UnitRead.made {α : Type} : UnitRead α → List MemOp
  | .ok _ l => l
  | _ => []

/-- A read of a unit as one of the threads of `lanes` of a group, at the number that the core's next access takes. -/
def State.unitRead (s : State) (c g lanes : Nat) (o : MemOp) : MemOp :=
  { o with slot := g, lanes := lanes, gen := s.genOf c g, id := (s.core c).nextOp }

/-- What the reads that a unit has made for threads leave: they count as reads of those threads, and a line read past the L1
gives way (R245, R248, R254). -/
def State.afterUnit (s : State) (c g lanes : Nat) (reads : List MemOp) : State :=
  reads.foldl (fun s o => (s.markReads c (s.unitRead c g lanes o)).afterRead c (s.unitRead c g lanes o)) s

/-- An earlier access of a thread that every read of a unit has to follow: an acquire or an acquire fence (R154, R255). -/
def Core.unitHeld (x : Core) (g lane : Nat) (gen : Gen) : Bool :=
  x.flight.any fun y => y.slot == g && y.gen == gen && y.lanes.testBit lane && orderAcquires y.order &&
    (match y.act with
     | .result _ | .ray _ _ => false
     | _ => true)

/-- An earlier access of a thread, not yet performed, or an earlier copy's write, that reads of a unit to the same bytes have to follow:
a queued store gives them its bytes (R128, R245, R248, R257). -/
def State.unitMeets (s : State) (c g lanes : Nat) (reads : List MemOp) : Bool :=
  reads.any fun r =>
    let o := s.unitRead c g lanes r
    ((s.core c).flight.any fun y => y.sameThread o && !y.bound && y.meets o && !(y.queues && y.ent.isSome)) ||
      (s.core c).ferried.any fun f => f.holds o

/-- An access of a unit for one thread, joined to the flight. -/
def State.issueUnit (s : State) (p : Part) (l : Nat) (act : MemAct) : State :=
  s.issueOp p.core {
    id := 0, inst := s.tick, slot := p.slot, lanes := 2 ^ l, uni := false, gen := s.genOf p.core p.slot,
    ctx := (s.launchOf p.core p.slot).ctx, place := .device, pieces := [], vas := [], ea := 0, ogen := 0, l1 := false,
    act := act, order := .rlx, scope := .dev, cover := none, pc := p.inst.pc, launch := (s.wgOf p.core p.slot).launch }

/-! ### Textures -/

/-- A texture descriptor (R138). -/
structure Texture where
  base : Nat
  w : Nat
  h : Nat
  levels : Nat
  fmt : Nat
  modeU : Nat
  modeV : Nat
  linear : Bool
  deriving DecidableEq, Repr, Inhabited

/-- A descriptor read from its 32 bytes, none where a field is reserved (R138). -/
def textureOf (bs : List Byte) : Option Texture :=
  let f := fieldAt bs
  let base := f 0 8
  let ok := inDevice base && base % 256 == 0 && decide (f 0x0C 1 ≤ 14) && decide (f 0x0D 1 ≤ 5) && decide (f 0x0E 1 < 32) && f 0x0F 17 == 0
  if ok then some {
    base := base, w := f 8 2 + 1, h := f 0x0A 2 + 1, levels := f 0x0C 1 + 1, fmt := f 0x0D 1, modeU := f 0x0E 1 % 4,
    modeV := f 0x0E 1 / 4 % 4, linear := (f 0x0E 1).testBit 4 }
  else none

/-- Bytes of a texel (R138). -/
def texelSize : Nat → Nat
  | 0 => 4 | 1 => 1 | 2 => 8 | 3 => 4 | 4 => 4 | _ => 16

/-- The four channels of a texel as values (R138). -/
def texelValue (fmt : Nat) (bs : List Byte) : List FVal :=
  let one : FVal := .fin false 1
  let zero : FVal := .fin false 0
  let unorm (i : Nat) : FVal := fmt32.narrow .rne (.fin false (mkRat (fieldAt bs i 1) 255))
  let half (i : Nat) : FVal := fmt16.decode (fieldAt bs (2 * i) 2)
  let single (i : Nat) : FVal := fmt32.decode (fieldAt bs (4 * i) 4)
  match fmt with
  | 0 => [unorm 0, unorm 1, unorm 2, unorm 3]
  | 1 => [unorm 0, zero, zero, one]
  | 2 => [half 0, half 1, half 2, half 3]
  | 3 => [half 0, half 1, zero, one]
  | 4 => [single 0, zero, zero, one]
  | _ => [single 0, single 1, single 2, single 3]

/-- Round up to a multiple. -/
def roundUp (x m : Nat) : Nat := (x + m - 1) / m * m

/-- Width or height of level n (R138). -/
def levelDim (w n : Nat) : Nat := max 1 (w / 2 ^ n)

/-- Bytes of a row of level n (R138). -/
def Texture.rowBytes (t : Texture) (n : Nat) : Nat := roundUp (levelDim t.w n * texelSize t.fmt) 16

/-- Address of level n (R138). -/
def Texture.levelBase (t : Texture) : Nat → Nat
  | 0 => t.base
  | n + 1 => roundUp (t.levelBase n + t.rowBytes n * levelDim t.h n) 256

/-- An index under an address mode, none for the border (R138). -/
def addressMode (mode : Nat) (i : Int) (n : Nat) : Option Nat :=
  match mode with
  | 0 => some (i % (n : Int)).toNat
  | 1 => some (max 0 (min i ((n : Int) - 1))).toNat
  | 2 => let j := (i % (2 * n : Int)).toNat; some (if j < n then j else 2 * n - 1 - j)
  | _ => if 0 ≤ i ∧ i < n then some i.toNat else none

/-- One texel of a level. -/
def State.texel (s : State) (c ctx : Nat) (t : Texture) (n x y : Nat) : UnitRead (List FVal) :=
  let a := t.levelBase n + y * t.rowBytes n + x * texelSize t.fmt
  (s.unitBytes c ctx (usesL1 (a / 2 ^ 60 % 16) (a / 2 ^ 57 % 8)) a (texelSize t.fmt)).andThen fun bs => .ok (texelValue t.fmt bs) []

/-- A texel by index under the address modes; the border gives zeros (R138, R139). -/
def State.texelMode (s : State) (c ctx : Nat) (t : Texture) (n : Nat) (x y : Int) : UnitRead (List FVal) :=
  match addressMode t.modeU x (levelDim t.w n), addressMode t.modeV y (levelDim t.h n) with
  | some i, some j => s.texel c ctx t n i j
  | _, _ => .ok (List.replicate 4 (.fin false 0)) []

/-- The index and the weight in 1/256 along one axis (R139). -/
def linearAxis (u : Rat) (n : Nat) : Int × Rat :=
  let x := u * (n : Rat) - mkRat 1 2
  let i := x.floor
  let f := roundInt .rne false ((x - (i : Rat)) * 256)
  if f = 256 then (i + 1, 0) else (i, mkRat f 256)

/-- The nearest integer to the logarithm of a positive rational; a tie cannot occur (R139). -/
def roundLog2 (r : Rat) : Int := floorLog2 (r * r * 2) / 2

/-- The level that `.auto` chooses, from the four differences; a difference that is not finite leaves the level open
(R139, notes/assumptions/13.md). -/
def autoLevel (t : Texture) (d : List (FVal × FVal)) (key : Nat) : Nat :=
  if d.any fun e => e.1.isNan || e.2.isNan || decide (e.1 = .inf e.1.sign) || decide (e.2 = .inf e.2.sign) then
    (Config.openWord key).toNat % t.levels
  else
    let scaled (e : FVal × FVal) : List Rat := [e.1.abs.toRat * (t.w : Rat), e.2.abs.toRat * (t.h : Rat)]
    let rho := (d.flatMap scaled).foldl max 0
    if rho = 0 then 0 else (max 0 (min (roundLog2 rho) ((t.levels : Int) - 1))).toNat

/-- The level that `.lvl` chooses; a NaN leaves it open (R139). -/
def lvlLevel (t : Texture) (v : FVal) (key : Nat) : Nat :=
  match v with
  | .nan => (Config.openWord key).toNat % t.levels
  | .inf neg => if neg then 0 else t.levels - 1
  | .fin neg m => if neg then 0 else min (roundInt .rne false m) (t.levels - 1)

/-- The colour sampled at finite coordinates in a level (R139). -/
def State.sampleAt (s : State) (c ctx : Nat) (t : Texture) (n : Nat) (u v : Rat) : UnitRead (List FVal) :=
  let w := levelDim t.w n
  let h := levelDim t.h n
  if t.linear then
    let ax := linearAxis u w
    let ay := linearAxis v h
    (s.texelMode c ctx t n ax.1 ay.1).andThen fun a =>
    (s.texelMode c ctx t n (ax.1 + 1) ay.1).andThen fun b =>
    (s.texelMode c ctx t n ax.1 (ay.1 + 1)).andThen fun e =>
    (s.texelMode c ctx t n (ax.1 + 1) (ay.1 + 1)).andThen fun g =>
      let wt (x y : Rat) (v : FVal) : FVal := FVal.mul (.fin false (x * y)) v
      .ok ((upFrom 0 4).map fun i => fmt32.narrow .rne (exactSum .rne [
        wt (1 - ax.2) (1 - ay.2) (a.getD i default), wt ax.2 (1 - ay.2) (b.getD i default),
        wt (1 - ax.2) ay.2 (e.getD i default), wt ax.2 ay.2 (g.getD i default)])) []
  else s.texelMode c ctx t n (u * (w : Rat)).floor (v * (h : Rat)).floor

/-- The descriptor of a lane, with the trap of R138. -/
def State.textureAt (s : State) (c ctx ptr : Nat) : UnitRead Texture :=
  if !inDevice ptr then .trap ptr else
  (s.unitBytes c ctx (usesL1 (ptr / 2 ^ 60) (ptr / 2 ^ 57 % 8)) ptr 32).andThen fun bs =>
    match textureOf bs with
    | some t => .ok t []
    | none => .trap ptr

/-- A colour as register words. -/
def colourWords (vs : List FVal) : List Word := vs.map fun v => BitVec.ofNat 32 (fmt32.encode v)

/-- The difference of a coordinate to the neighbour's, zero where the neighbour does not take part (R139). -/
def neighbourDiff (p : Part) (co : Nat → Nat → FVal) (l k r : Nat) : FVal :=
  if p.exec.testBit k then
    match co k r, co l r with
    | .fin a m, .fin b n => exactSum .rne [.fin a m, (FVal.fin b n).neg]
    | _, _ => .nan
  else .fin false 0

/-- The words of a sample or texel (R137 to R139). -/
def State.texWords (s : State) (c ctx : Nat) : TexReq → UnitRead (List Word)
  | .sample ptr u v level key => (s.textureAt c ctx ptr).andThen fun t =>
    match fmt32.decode u.toNat, fmt32.decode v.toNat with
    | .fin a x, .fin b y =>
      let n := match level with
        | .l0 => 0
        | .lvl w => lvlLevel t (fmt32.decode w.toNat) key
        | .auto d => autoLevel t d key
      (s.sampleAt c ctx t n (FVal.toRat (.fin a x)) (FVal.toRat (.fin b y))).andThen fun vs => .ok (colourWords vs) []
    | _, _ => .ok (List.replicate 4 0) []
  | .texel ptr x y n => (s.textureAt c ctx ptr).andThen fun t =>
    let n := n.toNat
    let x := x.toInt
    let y := y.toInt
    if n < t.levels ∧ 0 ≤ x ∧ x < levelDim t.w n ∧ 0 ≤ y ∧ y < levelDim t.h n then
      (s.texel c ctx t n x.toNat y.toNat).andThen fun vs => .ok (colourWords vs) []
    else .ok (List.replicate 4 0) []

/-- One thread's request served: its result in flight, or its park for a fault (R129, R137). -/
def State.texLane (s : State) (p : Part) (l : Nat) (sw : Bool) (vd : Nat) (req : TexReq) : UnitRead (List Word) → State
  | .ok ws reads => ((s.afterUnit p.core p.slot (2 ^ l) reads).issueUnit p l (.result (putWords vd ws))).countUp p.core p.slot l
  | .fault ptr k => s.parkFault p l ptr k sw (.texture req vd)
  | .trap _ => s

/-- A word of the texture unit, whose reads are made at issue: traps first, then each thread's result in flight, a fault
parking its own thread; a stale row reads as zero (R137, R161). The group stays at the word while an earlier access has to come
before a read (R128, R248). -/
def laneTexture (c : LaneCtl) (s : State) (regs : List (Nat × Nat)) (vd : Nat) (f : State → Part → Nat → TexReq) : Result :=
  runLane c.sw c.g.val s fun s p =>
    match s.laneChecks p (regs.map fun r => (true, r.1, r.2)) [] with
    | some t => .trap t
    | none =>
      let ctx := (s.launchOf p.core p.slot).ctx
      if p.lanesL.any fun l => (s.core p.core).unitHeld p.slot l (s.genOf p.core p.slot) then .wait else
      let full := s.fullLanes p
      let todo := (p.lanesL.filter fun l => !full.contains l).map fun l => (l, f s p l, s.texWords p.core ctx (f s p l))
      match worstTrap (todo.filterMap fun e => match e.2.2 with | .trap a => some { spaceTrap a with lane := e.1 } | _ => none) with
      | some t => .trap t
      | none =>
        if todo.any fun e => s.unitMeets p.core p.slot (2 ^ e.1) e.2.2.made then .wait else
        .ok (todo.foldl (fun a e => a.texLane p e.1 c.sw vd e.2.1 e.2.2) (s.implicitSwitch p full))

/-- `TEX` (R137 to R139). -/
def execTex (c : LaneCtl) (lod : TexLod) (vd va vb vc : VReg) (s : State) : Result :=
  let e : List Nat := if lod = .lvl then [vc.val] else []
  laneTexture c s ([(vd.val, 4), (va.val, 2), (vb.val, 2)] ++ e.map (·, 1)) vd fun s p l =>
    let rd (k r : Nat) : Word := s.rdV p.core p.slot r k
    let co (k r : Nat) : FVal := fmt32.decode (rd k r).toNat
    let diff (k : Nat) : FVal × FVal := (neighbourDiff p co l k vb, neighbourDiff p co l k (vb + 1))
    .sample (pairOf (rd l) va) (rd l vb) (rd l (vb + 1)) (match lod with
      | .l0 => .l0
      | .lvl => .lvl (rd l vc)
      | .auto => .auto [diff (l ^^^ 1), diff (l ^^^ 2)]) (s.tick * 1024 + l)

/-- `TLD` (R137, R139). -/
def execTld (c : LaneCtl) (vd va vb vc : VReg) (s : State) : Result :=
  laneTexture c s [(vd.val, 4), (va.val, 2), (vb.val, 2), (vc.val, 1)] vd fun s p l =>
    let rd (r : Nat) : Word := s.rdV p.core p.slot r l
    .texel (pairOf rd va) (rd vb) (rd (vb + 1)) (rd vc)

end Sys2Proof.Machine
end

