-- ==== Sys2Proof/Machine/Uniform.lean ====
section
/-! DEFINITION. Uniform scalar and memory words (R162 to R173). -/

namespace Sys2Proof.Machine

/-- A two-operand scalar word (R166). -/
def scalar2 (sw : Bool) (sd sa sb : SReg) (f : Word → Word → Word) (s : State) : Result :=
  scalar sw s [(sd.val, 1), (sa.val, 1), (sb.val, 1)] fun g => g.setS sd (f (g.sreg sa) (g.sreg sb))

/-- `SADD` (R166). -/
def execSadd (sw : Bool) (sd sa sb : SReg) (s : State) : Result := scalar2 sw sd sa sb (· + ·) s
/-- `SSUB` (R166). -/
def execSsub (sw : Bool) (sd sa sb : SReg) (s : State) : Result := scalar2 sw sd sa sb (· - ·) s
/-- `SMUL` (R166). -/
def execSmul (sw : Bool) (sd sa sb : SReg) (s : State) : Result := scalar2 sw sd sa sb (· * ·) s
/-- `SAND` (R166). -/
def execSand (sw : Bool) (sd sa sb : SReg) (s : State) : Result := scalar2 sw sd sa sb (· &&& ·) s
/-- `SOR` (R166). -/
def execSor (sw : Bool) (sd sa sb : SReg) (s : State) : Result := scalar2 sw sd sa sb (· ||| ·) s
/-- `SXOR` (R166). -/
def execSxor (sw : Bool) (sd sa sb : SReg) (s : State) : Result := scalar2 sw sd sa sb (· ^^^ ·) s
/-- `SSHL` (R166). -/
def execSshl (sw : Bool) (sd sa sb : SReg) (s : State) : Result := scalar2 sw sd sa sb shiftL s
/-- `SSHR` (R166). -/
def execSshr (sw : Bool) (sd sa sb : SReg) (s : State) : Result := scalar2 sw sd sa sb shiftR s
/-- `SSAR` (R166). -/
def execSsar (sw : Bool) (sd sa sb : SReg) (s : State) : Result := scalar2 sw sd sa sb shiftA s
/-- `SMIN` (R166). -/
def execSmin (sw : Bool) (sd sa sb : SReg) (s : State) : Result := scalar2 sw sd sa sb sMin s
/-- `SMAX` (R166). -/
def execSmax (sw : Bool) (sd sa sb : SReg) (s : State) : Result := scalar2 sw sd sa sb sMax s
/-- `SUMIN` (R166). -/
def execSumin (sw : Bool) (sd sa sb : SReg) (s : State) : Result := scalar2 sw sd sa sb uMin s
/-- `SUMAX` (R166). -/
def execSumax (sw : Bool) (sd sa sb : SReg) (s : State) : Result := scalar2 sw sd sa sb uMax s

/-- `SMOV` (R167). -/
def execSmov (sw : Bool) (sd sa : SReg) (s : State) : Result :=
  scalar sw s [(sd.val, 1), (sa.val, 1)] fun g => g.setS sd (g.sreg sa)

/-- `SMOVI` (R167). -/
def execSmovi (sw : Bool) (sd : SReg) (imm : BitVec 16) (s : State) : Result :=
  scalar sw s [(sd.val, 1)] fun g => g.setS sd (imm.signExtend 32)

/-- `SMOVX` (R167). -/
def execSmovx (sw w64 : Bool) (sd : SReg) (imm : BitVec 32) (s : State) : Result :=
  scalar sw s [(sd.val, if w64 then 2 else 1)] fun g =>
    if w64 then g.setSPair sd (imm.signExtend 64) else g.setS sd imm

/-- `SADD64` (R166). -/
def execSadd64 (sw : Bool) (sd sa sb : SReg) (s : State) : Result :=
  scalar sw s [(sd.val, 2), (sa.val, 2), (sb.val, 2)] fun g => g.setSPair sd (g.spair sa + g.spair sb)

/-- The uniform value of a word or a pair. -/
def Group.swide (g : Group) (w64 : Bool) (n : Nat) : Nat := if w64 then (g.spair n).toNat else (g.sreg n).toNat

/-- `SCMP` (R169). -/
def execScmp (sw : Bool) (cond : Cond) (w64 : Bool) (qd : QReg) (sa sb : SReg) (s : State) : Result :=
  let n := if w64 then 2 else 1
  scalar sw s [(sa.val, n), (sb.val, n)] fun g =>
    g.setQ qd (Cond.holds cond (32 * n) (g.swide w64 sa) (g.swide w64 sb))

/-- `SSEL` (R170). -/
def execSsel (sw : Bool) (q : QReg) (sd sa sb : SReg) (s : State) : Result :=
  scalar sw s [(sd.val, 1), (sa.val, 1), (sb.val, 1)] fun g => g.setS sd (if g.qpred q then g.sreg sa else g.sreg sb)

/-- `SUN` (R168). -/
def execSun (sw : Bool) (fn : IUn) (sd sa : SReg) (s : State) : Result :=
  scalar sw s [(sd.val, if fn.isPair then 2 else 1), (sa.val, 1)] fun g =>
    let v := iunVal fn (g.sreg sa)
    if fn.isPair then g.setSPair sd v else g.setS sd (v.setWidth 32)

/-- `SBRA` (R171). -/
def execSbra (sw neg : Bool) (q : QReg) (off : BitVec 20) (s : State) : Result :=
  runUniform sw s fun s p =>
    .ok s (if (s.grp p.core p.slot).qpred q != neg then jump p.inst.pc off.toInt else p.inst.after)

/-! ### Uniform memory -/

/-- The address of a uniform memory word (R172). -/
def uniformEa (g : Group) (sa : SReg) (off : BitVec 16) : Nat := (g.spair sa + off.signExtend 64).toNat

/-- A uniform access posted as a translation fault and kept to be replayed; the group parks at the word (R129, R189). -/
def State.groupFault (s : State) (p : Part) (ptr kind : Nat) (sw : Bool) (act : StallAct) : State :=
  let stall := p.stall (s.genOf p.core p.slot) p.lanes true sw act
  (s.modCore p.core fun x => { x with stalls := stall :: x.stalls }).postFault
    (s.launchOf p.core p.slot).ctx ptr kind (.group p.core p.slot p.lanes p.inst.handler)

/-- A uniform memory word (R165, R172): one access for the threads present. -/
def uniformMem (sw : Bool) (s : State) (regs : List (Nat × Nat)) (counted reads : Bool) (k : AccKind) (size : Nat)
    (order : Order) (scope : Scope) (ea : Group → Nat) (act : Group → MemAct) : Result :=
  runUniform sw s fun s p =>
    let g := s.grp p.core p.slot
    match g.bounds (regs.map fun r => (false, r.1, r.2)) with
    | some t => .trap t
    | none =>
      if counted && g.ucount == 63 then .full else
      match s.reach p k reads 64 (ea g) size none with
      | .error t => .trap t
      | .ok r =>
        match s.issueAccess p p.lanes true r (act g) order scope with
        | (s, some f) => .park (s.groupFault p f.2 f.1 sw (.access r (act g) order scope)) (.fault p.inst.handler)
        | (s, none) => .ok (if counted then s.countUpU p.core p.slot else s) p.inst.after

/-- `SLD` (R172). -/
def execSld (sw : Bool) (w : LdWidth) (order : Order) (scope : Scope) (sd sa : SReg) (off : BitVec 16) (s : State) : Result :=
  uniformMem sw s [(sd.val, loadRegs (.plain w)), (sa.val, 2)] true true .load (loadSize (.plain w)) order scope
    (fun g => uniformEa g sa off) fun _ => .load (.plain w) sd

/-- `SST` (R172). -/
def execSst (sw : Bool) (w : StWidth) (order : Order) (scope : Scope) (sa : SReg) (off : BitVec 16) (sb : SReg) (s : State) : Result :=
  uniformMem sw s [(sa.val, 2), (sb.val, storeRegs w)] false false .store (storeSize w) order scope
    (fun g => uniformEa g sa off) fun g => .store (leBytes (wideOf g.sreg sb (storeRegs w)) (storeSize w))

/-- `SATOM` (R173). -/
def execSatom (sw : Bool) (op : AtomOp) (w64 nr : Bool) (order : Order) (scope : Scope) (sd sa : SReg) (off : BitVec 16)
    (sb : SReg) (s : State) : Result :=
  let n := atomRegs w64
  let dst : List (Nat × Nat) := if nr then [] else [(sd.val, n)]
  uniformMem sw s (dst ++ [(sa.val, 2), (sb.val, n)]) (!nr) (!nr) (.atomic (op == .fadd)) (4 * n) order scope
    (fun g => uniformEa g sa off) fun g => .atom op w64 (wideOf g.sreg sb n) sd (!nr)

end Sys2Proof.Machine
end

