-- ==== Sys2Proof/Machine/System.lean ====
section
/-! DEFINITION. System registers, time, sleeping and waiting, attached regions, replay points, launches, generations and
traps (R174 to R188). -/

namespace Sys2Proof.Machine

/-- The low word of a number. -/
def lowWord (x : Nat) : Word := BitVec.ofNat 32 x

/-- The two words of a 64-bit number. -/
def twoWords (x : Nat) : List Word := [lowWord x, lowWord (x / 2 ^ 32)]

/-- The words of a system register as a group reads them (R37 to R49). -/
def State.csrWords (s : State) (p : Part) (r : Csr) (lane : Nat) : List Word :=
  let g := s.grp p.core p.slot
  let W := s.wgOf p.core p.slot
  let L := s.launchOf p.core p.slot
  match r with
  | .cyc => twoWords s.cyc.toNat
  | .ptime => twoWords s.ptimeNs ++ [lowWord s.ptime, 0]
  | .gen => [(s.core p.core).nextGen ++ W.gen]
  | .genlow => [lowWord ((s.core p.core).drops * 2 ^ 16 + (s.core p.core).low.toNat)]
  | .ctxid => [lowWord (L.cls * 2 ^ 16 + L.ctx)]
  | .rpidx => [W.rpidx]
  | .tpc => twoWords g.tpc.toNat
  | .tcause => [g.tcause]
  | .tval => twoWords g.tval.toNat
  | .mxstat => [g.mxstat.setWidth 32]
  | .mxerr => [g.mxerr]
  | .rastthr => [(Tbl.get s.ctxRegs L.ctx).rastthr.setWidth 32]
  | .oc => [g.oc]
  | .srstate => [(Tbl.get g.thr lane).seed]

/-- Registers that an access width takes (R174). -/
def csrCount : CsrWidth → Nat
  | .w32 => 1 | .w64 => 2 | .w128 => 4

/-- `CSRR` (R36, R174). -/
def execCsrr (sw : Bool) (r : Csr) (width : CsrWidth) (word : Fin 4) (sd sx : SReg) (s : State) : Result :=
  let n := csrCount width
  let ix : List (Nat × Nat) := if r = .srstate then [(sx.val, 1)] else []
  runUniform sw s fun s p =>
    let g := s.grp p.core p.slot
    match g.bounds (((sd.val, n) :: ix).map fun e => (false, e.1, e.2)) with
    | some t => .trap t
    | none =>
      let ws := ((s.csrWords p r ((g.sreg sx).toNat % 64)).drop word.val).take n
      .ok (s.modGrp p.core p.slot fun x => x.setSList sd ws) p.inst.after

/-- Part of a 64-bit register replaced, from a word on. -/
def putDWord (d : DWord) (word : Nat) (ws : List Word) : DWord :=
  let lo := if word = 0 then ws.headD 0 else d.setWidth 32
  let hi := if word = 0 then (if ws.length = 2 then ws.getD 1 0 else (d >>> 32).setWidth 32) else ws.headD 0
  hi ++ lo

/-- Registers that only a handler may write (R36, R43). -/
def handlerOnly : Csr → Bool
  | .tpc | .tcause | .tval => true
  | _ => false

/-- A system register written: only its RW and W1C fields; reserved bits ignore it (R4, R37 to R49, R174). -/
def State.csrPut (s : State) (p : Part) (r : Csr) (word lane : Nat) (ws : List Word) : State :=
  let w := ws.headD 0
  let onGrp (f : Group → Group) : State := s.modGrp p.core p.slot f
  match r with
  | .tpc => onGrp fun g => { g with tpc := putDWord g.tpc word ws &&& 0x0000FFFFFFFFFFFC }
  | .tcause => onGrp fun g => { g with tcause := w &&& 0x000FFFFF }
  | .tval => onGrp fun g => { g with tval := putDWord g.tval word ws }
  | .mxstat => onGrp fun g => g.clearFlags s.cyc.toNat w
  | .mxerr => onGrp fun g => if w.getLsbD 31 then { g with mxerr := 0 } else g
  | .oc => onGrp fun g => { g with isw := w.toNat / 2 ^ 16 }
  | .srstate => s.modThr p.core p.slot lane fun t => { t with seed := if w = 0 then 1 else w }
  | .rastthr =>
    let ctx := (s.launchOf p.core p.slot).ctx
    { s with ctxRegs := Tbl.mod s.ctxRegs ctx fun x => { x with rastthr := w.setWidth 24 } }
  | _ => s

/-- `CSRW` (R36, R47, R174); one to `srstate` comes after the group's queued drains under `rs` (R20). -/
def execCsrw (sw : Bool) (r : Csr) (width : CsrWidth) (word : Fin 4) (sx sa : SReg) (s : State) : Result :=
  let n := csrCount width
  let ix : List (Nat × Nat) := if r = .srstate then [(sx.val, 1)] else []
  runUniform sw s fun s p =>
    let g := s.grp p.core p.slot
    let cls := (s.launchOf p.core p.slot).cls
    match g.bounds ((ix ++ [(sa.val, n)]).map fun e => (false, e.1, e.2)) with
    | some t => .trap t
    | none =>
      if (handlerOnly r && !p.inst.handler) || (r == .rastthr && cls != 0 && cls != 3) then .trap p.inst.rights
      else if r == .srstate && (s.core p.core).drainsRs p.slot (s.genOf p.core p.slot) then .wait
      else
        let ws := (upFrom sa.val n).map g.sreg
        .ok (s.csrPut p r word.val ((g.sreg sx).toNat % 64) ws) p.inst.after

/-! ### Time and waiting -/

/-- Registers that `TIME` writes (R175). -/
def timeCount : TimeSel → Nat
  | .cyc | .ns => 2
  | .ptime | .both => 4

/-- Both clocks in one cycle (R175). -/
def State.timeWords (s : State) : TimeSel → List Word
  | .cyc => twoWords s.cyc.toNat
  | .ns => twoWords s.ptimeNs
  | .ptime => twoWords s.ptimeNs ++ [lowWord s.ptime, 0]
  | .both => twoWords s.cyc.toNat ++ twoWords s.ptimeNs

/-- `TIME` (R175). -/
def execTime (sw : Bool) (sel : TimeSel) (sd : SReg) (s : State) : Result :=
  scalar sw s [(sd.val, timeCount sel)] fun g => g.setSList sd (s.timeWords sel)

/-- `SLEEP` (R176): a passed deadline does not park the group. -/
def execSleep (sw absolute : Bool) (sa : SReg) (s : State) : Result :=
  runUniform sw s fun s p =>
    let g := s.grp p.core p.slot
    match g.bounds [(false, sa.val, if absolute then 2 else 1)] with
    | some t => .trap t
    | none =>
      let deadline := if absolute then (g.spair sa).toNat else s.cyc.toNat + (g.sreg sa).toNat
      if deadline ≤ s.cyc.toNat then .ok s p.inst.after else .park s (.sleep deadline)

/-- `WAITS` (R177). -/
def execWaits (sw : Bool) (cond : Cond) (w64 : Bool) (order : Order) (scope : Scope) (qd : QReg) (sa sb st : SReg)
    (s : State) : Result :=
  let n := if w64 then 2 else 1
  let op : List (Nat × Nat) := if cond = .any then [] else [(sb.val, n)]
  runUniform sw s fun s p =>
    let g := s.grp p.core p.slot
    let regs : List (Nat × Nat) := [(sa.val, 2)] ++ op ++ [(st.val, 1)]
    match g.bounds (regs.map fun e => (false, e.1, e.2)) with
    | some t => .trap t
    | none =>
      match s.reach p .watch false 64 (g.spair sa).toNat (4 * n) none with
      | .error t => .trap t
      | .ok r =>
        match s.registerOn p p.lanes (.group p.core p.slot) cond w64 (g.swide w64 sb) (g.sreg st).toNat qd order scope r with
        | .decided s b => .ok (s.modGrp p.core p.slot fun x => x.setQ qd b) p.inst.after
        | .entered s w => .park s (.watch w)
        | .held => .wait
        | .fault s k => .park (s.groupFault p r.ea k sw
            (.watch r cond w64 (g.swide w64 sb) (g.sreg st).toNat qd order scope)) (.fault p.inst.handler)

/-! ### Attached regions and replay points -/

/-- The traps of an attachment block, in the ranking of R44 (R179). -/
def attachTrap (i : Inst) (obj : Nat) (regions : List (Nat × Nat)) : Option Trap :=
  let bad (r : Nat × Nat) : Bool := !inDevice r.1 || decide (2 ^ 48 < r.1 % 2 ^ 48 + 64 * r.2)
  if regions.any (fun r => r.2 == 0) then some i.illegalOperand
  else if !inDevice obj then some (spaceTrap obj)
  else match regions.find? bad with
    | some r => some (spaceTrap r.1)
    | none =>
      if obj % 8 ≠ 0 then some { cause := 0x07, tval := obj }
      else (regions.find? fun r => r.1 % 64 != 0).map fun r => { cause := 0x07, tval := r.1 }

/-- `ATTACH`: `n` holds the region count less one (R179). DESIGN CHOICE (notes/assumptions/66.md): a block that runs past the
allocation is register bound whatever the lengths within it hold. -/
def execAttach (sw : Bool) (e : ENum) (sa : SReg) (n : Fin 4) (s : State) : Result :=
  runUniform sw s fun s p =>
    let g := s.grp p.core p.slot
    match g.bounds [(false, sa.val, 2 + 4 * (n.val + 1))] with
    | some t => .trap t
    | none =>
      let obj := (g.spair sa).toNat
      let regions := (upFrom 0 (n.val + 1)).map fun i =>
        ((g.spair (sa.val + 2 + 4 * i)).toNat, (g.sreg (sa.val + 4 + 4 * i)).toNat)
      match attachTrap p.inst obj regions with
      | some t => .trap t
      | none =>
        let a : Attachment := { obj := obj, regions := regions.map fun r => (r.1, 64 * r.2) }
        .ok (s.modLaunch (s.wgOf p.core p.slot).launch fun L => { L with attached := Tbl.set L.attached e (some a) }) p.inst.after

/-- `DETACH` (R179). -/
def execDetach (sw : Bool) (e : ENum) (s : State) : Result :=
  runUniform sw s fun s p =>
    .ok (s.modLaunch (s.wgOf p.core p.slot).launch fun L => { L with attached := Tbl.set L.attached e none }) p.inst.after

/-- `REPLAY` (R181): the present threads arrive and wait for the point; the arrival is a release at `.wg` (R251). In a handler
the threads of the trapping set arrive where they stand, and the group is parked until the point is passed (R164, R186). -/
def execReplay (sw off : Bool) (s : State) : Result :=
  runUniform sw s fun s p =>
    if (s.core p.core).pendingAt p.slot (s.genOf p.core p.slot) p.lanes .wg then .wait else
    let ls := (maskList p.lanes 64).filter fun l => (s.thr p.core p.slot l).live
    let s := if p.inst.handler then s else s.setPcs p.core p.slot ls p.inst.after
    let s := (s.parkLanes p.core p.slot ls (.replay off p.inst.after)).replayTest p.core (s.grp p.core p.slot).wg
    if p.inst.handler && ls.any fun l => waitsReplay (s.thr p.core p.slot l).wait then .park s .replay else .ok s p.inst.after

/-! ### Launches -/

/-- A record pointer of `LAUNCH`, `LAUNCHW` or `TASKQ` of a size it is aligned to (R183, R184). DEDUCED
(notes/assumptions/23.md): a nonzero peer field is an address-space trap too. -/
def recordTrap (ptr size : Nat) : Option Trap :=
  if !inDevice ptr then some (spaceTrap ptr)
  else if ptr % size ≠ 0 then some { cause := 0x07, tval := ptr }
  else none

/-- Steps 1 and 2 of R183 for a record of some size: the earlier accesses made visible, and the record read whole as one
relaxed read, where an entry is free. `noRoom` says what happens where none is, `go` what the record's bytes do. -/
def State.readRecord (s : State) (p : Part) (sw : Bool) (w : RecordWord) (ptr size : Nat) (free : Bool) (noRoom : UniOut)
    (go : State → List Byte → UniOut) : UniOut :=
  match recordTrap ptr size with
  | some t => .trap t
  | none =>
    if (s.core p.core).pendingAt p.slot (s.genOf p.core p.slot) p.lanes .dev then .wait
    else if !free then noRoom
    else match s.unitBytes p.core (s.launchOf p.core p.slot).ctx (usesL1 (ptr / 2 ^ 60) (ptr / 2 ^ 57 % 8)) ptr size with
    | .ok bs ops => go (s.afterUnit p.core p.slot p.lanes ops) bs
    | .fault a k => .park (s.groupFault p a k sw (.record w ptr)) (.fault p.inst.handler)
    | .trap a => .trap (spaceTrap a)

/-- A word whose pair of uniform registers holds a record's pointer (R183, R184). -/
def recordWord (sw : Bool) (sa : SReg) (s : State) (f : State → Part → Nat → UniOut) : Result :=
  runUniform sw s fun s p =>
    let g := s.grp p.core p.slot
    match g.bounds [(false, sa.val, 2)] with
    | some t => .trap t
    | none => f s p (g.spair sa).toNat

/-- Entries of a core's pending-launch queue (R183). -/
def pendEntries : Nat := 4

/-- A park by `LAUNCHW`: the `cyc` since when, and its record. -/
def Park.launchwSince : Park → Option (Nat × Nat)
  | .launchw t ptr => some (t, ptr)
  | _ => Option.none

/-- A park by `LAUNCHW`. -/
def Park.waitsEntry (q : Park) : Bool := q.launchwSince.isSome

/-- A group parked by `LAUNCHW`, now or behind its handler. -/
def Group.launchwSince (g : Group) : Option (Nat × Nat) :=
  match g.park.launchwSince with
  | some x => some x
  | none => g.handler.bind fun h => h.held.launchwSince

/-- Whether a launch word finds an entry that no parked `LAUNCHW` takes before it (R183); a group that is being saved takes none
(R368). -/
def Core.pendFree (x : Core) : Bool :=
  decide (x.pend.length + (x.grps.filter fun e => e.2.used && !e.2.halted && e.2.launchwSince.isSome).length < pendEntries)

/-- A record put into the pending-launch queue of a group's core. -/
def State.pendLaunch (s : State) (c g ptr : Nat) (bytes : List Byte) : State :=
  let e : Pending := { addr := ptr, bytes := bytes, ctx := (s.launchOf c g).ctx }
  s.modCore c fun x => { x with pend := x.pend ++ [e] }

/-- `LAUNCH` of a group, its pointer read (R183). -/
def State.launchGo (s : State) (p : Part) (sw : Bool) (qd ptr : Nat) : UniOut :=
  let out (s : State) (b : Bool) : UniOut := .ok (s.modGrp p.core p.slot fun x => x.setQ qd b) p.inst.after
  s.readRecord p sw (.launch qd) ptr 128 (s.core p.core).pendFree (out s false) fun s bs => out (s.pendLaunch p.core p.slot ptr bs) true

/-- `LAUNCH` (R183). -/
def execLaunch (sw : Bool) (qd : QReg) (sa : SReg) (s : State) : Result :=
  recordWord sw sa s fun s p ptr => s.launchGo p sw qd ptr

/-- `LAUNCHW` of a group, its pointer read (R183). -/
def State.launchwGo (s : State) (p : Part) (sw : Bool) (ptr : Nat) : UniOut :=
  s.readRecord p sw .launchw ptr 128 (s.core p.core).pendFree (.park s (.launchw s.cyc.toNat ptr)) fun s bs =>
    .ok (s.pendLaunch p.core p.slot ptr bs) p.inst.after

/-- `LAUNCHW` (R183). -/
def execLaunchw (sw : Bool) (sa : SReg) (s : State) : Result :=
  recordWord sw sa s fun s p ptr => s.launchwGo p sw ptr

/-! ### Generations and traps -/

/-- The tag of one of the group's own units, none outside the allocation or for an unbound name (R185). -/
def State.unitTag (s : State) (p : Part) (cls : GenClass) (i : Nat) : Option Gen :=
  let g := s.grp p.core p.slot
  let W := s.wgOf p.core p.slot
  let x := s.core p.core
  match cls with
  | .vrow => if i < g.vregs then some (x.row p.slot i).tag else none
  | .gran => if i < W.scrLen then some (Tbl.get x.gtag ((W.scrOff + i) / 32)) else none
  | .slot => if i < 8 ∧ Tbl.get g.tn i ≠ 0 then some (Tbl.get x.slots (Tbl.get g.tn i - 1)).tag else none
  | .acc => if i < 8 ∧ Tbl.get g.an i ≠ 0 then some (Tbl.get x.tiles (Tbl.get g.an i - 1)).tag else none

/-- `GENR` (R185). -/
def execGenr (sw : Bool) (cls : GenClass) (sd sa : SReg) (s : State) : Result :=
  runUniform sw s fun s p =>
    let g := s.grp p.core p.slot
    match g.bounds [(false, sd.val, 1), (false, sa.val, 1)] with
    | some t => .trap t
    | none =>
      let v : Word := match s.unitTag p cls (g.sreg sa).toNat with
        | none => 0x80000000
        | some t => lowWord (t.toNat + if t = s.genOf p.core p.slot then 0 else 2 ^ 16)
      .ok (s.modGrp p.core p.slot fun x => x.setS sd v) p.inst.after

/-- `TRAP` (R187). -/
def execTrap (sw : Bool) (imm : BitVec 16) (s : State) : Result :=
  runUniform sw s fun _ _ => .trap { cause := 0x0C, tval := imm.toNat }

/-- `TRET` (R188). -/
def execTret (sw : Bool) (s : State) : Result :=
  runUniform sw s fun s p =>
    if p.inst.handler then .ok (s.returnTrap p.core p.slot) p.inst.after else .trap p.inst.rights

/-- Whether the debugger has claimed a launch: by context and user tag (R403). -/
def State.claimed (s : State) (L : Launch) : Bool :=
  s.dbg.claim.getLsbD 31 && s.dbg.claim.toNat % 2 ^ 16 == L.ctx && s.dbg.tag == L.lr.tag

/-- The lowest free entry of the stop table (R403). -/
def State.freeStop (s : State) : Option Nat := firstFrom (fun n => !(Tbl.get s.dbg.stops n).2.2.2) 0 64

/-- A stopped group takes an entry of the stop table, which names the word after its `BRK` (R403). -/
def State.takeStop (s : State) (c g n pc : Nat) : State :=
  let s := { s with dbg := { s.dbg with stops := Tbl.set s.dbg.stops n (c, g, (pc + 4) / 4 % 2 ^ 46, true) } }
  s.modGrp c g fun x => match x.handler with
    | some h => if h.held == .dbg 0 then { x with handler := some { h with held := .dbg (n + 1) } } else { x with park := .dbg (n + 1) }
    | none => { x with park := .dbg (n + 1) }

/-- Groups parked at a `BRK` for which the stop table had no entry. -/
def State.unlistedStops (s : State) : List (Nat × Nat) :=
  s.cores.flatMap fun c => (c.2.grps.filter fun g => g.2.used && g.2.parkedBy (· == .dbg 0)).map fun g => (c.1, g.1)

/-- The stop table's free entries go to the groups that wait for one, in ascending core and slot (R403). -/
def State.listStops (s : State) : State :=
  s.unlistedStops.foldl (fun s g => match s.freeStop with
    | some n => s.takeStop g.1 g.2 n ((s.grp g.1 g.2).parkWord (· == .dbg 0)).1
    | none => s) s

/-- `BRK`: a trap, or a stop for the debugger that has claimed the launch (R187, R403). -/
def execBrk (sw : Bool) (imm : BitVec 16) (s : State) : Result :=
  runUniform sw s fun s p =>
    if !s.claimed (s.launchOf p.core p.slot) then .trap { cause := 0x0B, tval := imm.toNat } else
    let s := s.modGrp p.core p.slot fun x => { x with tpc := tpcOf (p.inst.pc + 4) }
    match s.freeStop with
    | some n => .park (s.takeStop p.core p.slot n p.inst.pc) (.dbg (n + 1))
    | none => .park s (.dbg 0)

end Sys2Proof.Machine
end

