-- ==== Sys2Proof/Machine/Queue.lean ====
section
/-! DEFINITION. Launch records and their check (R178, R319 to R322), user queues and hardware slots (R313 to R318), and the
pending-launch queues of the cores (R183, R325). -/

namespace Sys2Proof.Machine

/-! ### Reads and writes of device agents through a context -/

/-- Bytes of a context's space read by an agent of the device, none where the tables give no page (R376). -/
def State.devRead (s : State) (ctx va n : Nat) : Option (List Byte) :=
  (pageSplit (va % 2 ^ 48) n).foldl (fun acc v => match acc, s.xlateDev ctx v.1 .read with
    | some bs, .ok pa => some (bs ++ Memory.read s.dev pa v.2)
    | _, _ => none) (some [])

/-- Bytes of a context's space written by an agent of the device. -/
def State.devWrite (s : State) (ctx va : Nat) (bs : List Byte) : Option State :=
  (splitData (pageSplit (va % 2 ^ 48) bs.length) bs).foldl (fun acc v => match acc with
    | none => none
    | some a => match a.xlateDev ctx v.1 .write with
      | .ok pa => some (a.placeDev pa v.2)
      | .fault _ => none) (some s)

/-! ### Launch records -/

/-- The launch record in 128 bytes (R319). -/
def LaunchRec.ofBytes (b : List Byte) : LaunchRec := {
  code := fieldAt b 0x00 8, args := fieldAt b 0x08 8, comp := fieldAt b 0x10 8, sig := fieldAt b 0x18 8
  sigval := fieldAt b 0x20 8, handler := fieldAt b 0x28 8, attach := fieldAt b 0x30 8, privbase := fieldAt b 0x38 8
  psize := fieldAt b 0x40 4, rsseed := fieldAt b 0x44 4
  widths := (upFrom 0x48 6).map fun o => fieldAt b o 1 % 128
  ext := fieldAt b 0x50 8, scratch := fieldAt b 0x58 4, vregs := fieldAt b 0x5C 1, sregs := 16 * (fieldAt b 0x5D 1 % 32)
  groups := fieldAt b 0x5E 1 % 32
  producer := if (fieldAt b 0x5F 1).testBit 7 then some (fieldAt b 0x5F 1 % 16) else none
  flags := fieldAt b 0x60 4, atolls := fieldAt b 0x68 8 % 2 ^ 48, tag := fieldAt b 0x70 8 }

/-- Sum of the widths. -/
def LaunchRec.width (r : LaunchRec) : Nat := r.widths.foldl (· + ·) 0

/-- Reserved fields, bytes and bits of a record are zero and its scope code is one of R80 (reason 0x01). -/
def recordReserved (b : List Byte) : Bool :=
  let r := LaunchRec.ofBytes b
  (upFrom 0x48 6).all (fun o => decide (fieldAt b o 1 < 128)) && fieldAt b 0x4E 2 == 0 && r.ext / 2 ^ r.width == 0 &&
    decide (fieldAt b 0x5D 1 < 32) && decide (fieldAt b 0x5E 1 < 32) && bitsOf (fieldAt b 0x5F 1) 6 4 == 0 &&
    bitsOf r.flags 31 22 == 0 && bitsOf r.flags 15 10 == 0 && decide (r.scope < 6) && fieldAt b 0x64 4 == 0 &&
    fieldAt b 0x68 8 / 2 ^ 48 == 0 && fieldAt b 0x78 8 == 0

/-- A pointer without a peer field in one of some spaces, aligned (R319, notes/assumptions/23.md). -/
def ptrOk (spaces : List Nat) (align ptr : Nat) : Bool :=
  spaces.contains (ptr / 2 ^ 60) && ptr / 2 ^ 48 % 512 == 0 && ptr % align == 0

/-- A completion or signal pointer (R319). -/
def outPtrOk (align ptr : Nat) : Bool := ptr == 0 || ptrOk [0, 1, 5] align ptr

/-- The address fields of a record (reason 0x02). -/
def LaunchRec.addressesOk (r : LaunchRec) : Bool :=
  r.code / 2 ^ 48 == 0 && r.code % 256 == 0 && outPtrOk 64 r.comp && outPtrOk 8 r.sig &&
    (r.handler == 0 || ptrOk [0] 4 r.handler) && (if r.attachN = 0 then r.attach == 0 else ptrOk [0, 1] 64 r.attach) &&
    ptrOk [0] 65536 r.privbase

/-- Widths and boundary (R219, R220; reason 0x03). -/
def LaunchRec.widthsOk (r : LaunchRec) : Bool :=
  r.widths.all (fun w => decide (w ≤ 64)) && decide (r.width ≤ 64) &&
    (!(decide (1 ≤ r.groups) && decide (r.groups ≤ 16)) || (List.range 7).any fun i => r.offset i == r.wgbit)

/-- Register counts, groups and producer (reason 0x04). -/
def LaunchRec.countsOk (r : LaunchRec) : Bool :=
  r.vregs % 8 == 0 && decide (8 ≤ r.vregs) && decide (r.vregs ≤ 128) && decide (16 ≤ r.sregs) && decide (r.sregs ≤ 256) &&
    decide (1 ≤ r.groups) && decide (r.groups ≤ 16) && r.producer.all fun p => decide (p < r.groups)

/-- The cores that the fitting tests look at: those the launch may use, or all of the grid (reasons 0x05, 0x06). -/
def State.fitCores (s : State) (L : Launch) : List Nat :=
  match s.usable L with
  | [] => (List.range Config.cores).filter fun c => !s.absent c
  | l => l

/-- Private size and scratchpad (reason 0x05). -/
def State.scratchOk (s : State) (L : Launch) : Bool :=
  L.lr.psize % 8 == 0 && L.lr.scratch % 32 == 0 &&
    (s.fitCores L).any fun c => decide (L.lr.scratch ≤ (s.core c).req * Config.sramStep)

/-- A co-resident launch can be held whole by empty cores (R225; reason 0x06). -/
def State.quadsOk (s : State) (L : Launch) : Bool :=
  if !L.lr.coresident then true else
  let n := L.lr.workgroups
  let cs := s.fitCores L
  decide (n ≤ Config.cores * Config.wgSlots) &&
    (quadPlan (fun c k => cs.contains c && (k == 0 || L.chain == 0 || L.role != 3)) (fun c => (s.core c).emptyRoom) L.lr.needs n ((n + 3) / 4) [] []).isSome

/-- One attachment entry (R178): empty, or its object and regions; none where it breaks the layout. -/
def attachEntry (b : List Byte) : Option (Option Attachment) :=
  let obj := fieldAt b 0 8
  let n := fieldAt b 8 8
  let base (i : Nat) : Nat := fieldAt b (0x10 + 12 * i) 8
  let lines (i : Nat) : Nat := fieldAt b (0x18 + 12 * i) 4
  let ok (i : Nat) : Bool :=
    if i < n then ptrOk [0, 1] 64 (base i) && lines i != 0 else base i == 0 && lines i == 0
  if 4 < n ∨ !(upFrom 0 4).all ok ∨ (n != 0 && !ptrOk [0, 1] 8 obj) then none
  else if n = 0 then some none
  else some (some { obj := obj, regions := (upFrom 0 n).map fun i => (base i, 64 * lines i) })

/-- The attachment table of a record, entry by entry (R321). -/
def State.attachTable (s : State) (ctx : Nat) (r : LaunchRec) : Option (Tbl (Option Attachment)) :=
  if 32 < r.attachN then none else
  (upFrom 0 r.attachN).foldl (fun acc e => match acc, s.devRead ctx (r.attach + 64 * e) 64 with
    | some t, some b => (attachEntry b).map fun a => Tbl.set t e a
    | _, _ => none) (some [])

/-- The refusal reason of a launch's record, 0 for none (R322). -/
def State.recordReason (s : State) (L : Launch) (b : List Byte) : Nat :=
  if !recordReserved b then 1
  else if !L.lr.addressesOk then 2
  else if !L.lr.widthsOk then 3
  else if !L.lr.countsOk then 4
  else if !s.scratchOk L then 5
  else if !s.quadsOk L then 6
  else if (s.usable L).isEmpty then 7
  else if (s.attachTable L.ctx L.lr).isNone then 8
  else 0

/-- Steps 4 and 5 of R317: the check; a refused launch goes straight to its end, another waits for cores from now on. -/
def State.checkLaunch (s : State) (l : Nat) (b : List Byte) : State :=
  let L := s.launch l
  let r := s.recordReason L b
  s.modLaunch l fun L => { L with
    checked := true
    since := s.cyc.toNat
    firstCyc := s.cyc.toNat
    firstNs := s.ptimeNs
    attached := (s.attachTable L.ctx L.lr).getD []
    status := if r = 0 then L.status else 3
    reason := r }

/-- A launch dispatched under a new number. -/
def State.newLaunch (s : State) (L : Launch) : State × Nat :=
  let n := (firstFrom (fun n => !(s.launch n).used) s.launchCount (s.launches.length + 1)).getD 0
  ({ s with launches := Tbl.set s.launches n { L with used := true }, launchCount := n + 1 }, n)

/-- Whether a launch has placed every workgroup once, or will place no more (R317). -/
def Launch.placedOnce (L : Launch) : Bool :=
  !L.used || L.status != 0 || (L.checked && decide (L.lr.workgroups ≤ L.next))

/-! ### User queues -/

/-- Address of a queue descriptor (R313). -/
def State.queueAddr (s : State) (q : Nat) : Nat := s.queueBase + 64 * q
/-- A field of a queue descriptor (R314). -/
def State.queueNat (s : State) (q off n : Nat) : Nat := Memory.nat s.dev (s.queueAddr q + off) n
/-- Context of a queue. -/
def State.queueCtx (s : State) (q : Nat) : Nat := s.queueNat q 0x0C 4 % 2 ^ 16
/-- Class of a queue. -/
def State.queueCls (s : State) (q : Nat) : Nat := bitsOf (s.queueNat q 0x0C 4) 17 16
/-- Priority of a queue. -/
def State.queuePrio (s : State) (q : Nat) : Nat := bitsOf (s.queueNat q 0x0C 4) 21 18
/-- A queue of the table that is enabled. -/
def State.queueOn (s : State) (q : Nat) : Bool := decide (q < s.queueCount) && (s.queueNat q 0x0C 4).testBit 31
/-- Entries not yet taken: write index less read index, unsigned (R314, R315). -/
def State.queuePending (s : State) (q : Nat) : Nat := (s.queueNat q 0x10 8 + 2 ^ 64 - s.queueNat q 0x18 8) % 2 ^ 64

/-- A descriptor that the scheduler takes no entry from: a reserved field, n above 16, or more entries than the ring
holds (R315). -/
def State.queueBroken (s : State) (q : Nat) : Bool :=
  let n := s.queueNat q 8 4
  decide (16 < n) || bitsOf (s.queueNat q 0x0C 4) 30 22 != 0 || (upFrom 0 4).any (fun i => s.queueNat q (0x20 + 8 * i) 8 != 0) ||
    s.queueNat q 0 8 % 128 != 0 || decide (2 ^ n < s.queuePending q)

/-- A queue changed. -/
def State.modQueue (s : State) (q : Nat) (f : QueueRegs → QueueRegs) : State := { s with queues := Tbl.mod s.queues q f }
/-- What the scheduler holds of a queue. -/
def State.queue (s : State) (q : Nat) : QueueRegs := Tbl.get s.queues q

/-- The queue's last launch is not yet past step 5 with all workgroups placed (R317). -/
def State.queueBusy (s : State) (q : Nat) : Bool :=
  let l := (s.queue q).last
  l != 0 && !(s.launch (l - 1)).placedOnce

/-- Entries wait, or a launch is being dispatched. -/
def State.queueWork (s : State) (q : Nat) : Bool :=
  s.queueOn q && s.queueCls q != 3 && (s.queuePending q != 0 || s.queueBusy q)

/-- A queue stops being ready: its slot frees (R316). -/
def State.idleQueue (s : State) (q : Nat) : State :=
  let s := s.modQueue q fun r => { r with ready := 0 }
  match s.slotOfQueue q with
  | some n => { s with hwSlots := Tbl.erase s.hwSlots n }
  | none => s

/-- A queue that the scheduler takes out of service: enabled bit cleared, number posted (R315). -/
def State.stopQueue (s : State) (q : Nat) : State :=
  ((s.placeNat (s.queueAddr q + 0x0C) 4 (s.queueNat q 0x0C 4 % 2 ^ 31)).idleQueue q).postLog 0x04 0 q 0

/-- Whether the scheduler's watch on a queue stands, or its outcome is on its way. -/
def State.queueWatched (s : State) (q : Nat) : Bool :=
  s.watches.any (fun e => e.2.used && e.2.waiter == .queue q) || s.msgs.any fun e => e.2.used && e.2.data.waiter == .queue q

/-- A queue becomes ready, if it is not (R315, R316). -/
def State.readyQueue (s : State) (q : Nat) : State :=
  if (s.queue q).ready = 0 then s.modQueue q fun r => { r with ready := s.cyc.toNat + 1 } else s

/-- The watch of the scheduler on a write index: one that holds at once makes the queue ready, if its class can be (R315). -/
def State.watchQueue (s : State) (q : Nat) : State :=
  if s.queueWatched q then s else
  let n := s.freeWatch
  let addr := s.queueAddr q + 0x10
  let w : Watch := {
    slice := sliceOf addr, addr := addr, w64 := true, cond := .ne,
    operand := s.queueNat q 0x18 8, ctx := deviceCtx, waiter := .queue q, order := .acq, scope := .sys }
  match s.register n w with
  | (s, some _) => if s.queueCls q = 3 then s else s.readyQueue q
  | (s, none) => s

/-- The number of a context whose descriptor breaks its layout is posted, once (R364). -/
def State.postContext (s : State) (ctx : Nat) : State :=
  if (Tbl.get s.ctxRegs ctx).posted then s else
  { s with ctxRegs := Tbl.mod s.ctxRegs ctx fun x => { x with posted := true } }.postLog 0x06 0 ctx 0

/-- The scheduler examines a queue (R315). -/
def State.examineQueue (s : State) (q : Nat) : State :=
  if !s.queueOn q then s.idleQueue q
  else if s.queueBroken q then s.stopQueue q
  else if !s.ctxLayout (s.queueCtx q) then (s.postContext (s.queueCtx q)).stopQueue q
  else if s.queueWork q then s.readyQueue q
  else (s.idleQueue q).watchQueue q

/-- QUEUE_READY (R315). -/
def execQueueReady (q : Nat) (s : State) : Result :=
  .next (s.walkersTake (if s.queueCount ≤ q then s else s.examineQueue q))

/-! ### Hardware slots -/

/-- The place of a queue in the waiting order (R316). -/
def State.queueRank (s : State) (q : Nat) : List Nat :=
  [queueClassRank (s.queueCls q), 15 - s.queuePrio q, (s.queue q).ready, q]

/-- Ready queues of resident contexts without a slot (R316). -/
def State.waitingQueues (s : State) : List Nat :=
  (Tbl.keys s.queues).filter fun q => (s.queue q).ready != 0 && s.queueOn q && s.queueCls q != 3 &&
    s.ctxEnabled (s.queueCtx q) && s.ctxState (s.queueCtx q) == 0 && (s.slotOfQueue q).isNone

/-- The first of a list under a rank. -/
def firstBy (rank : Nat → List Nat) : List Nat → Option Nat
  | [] => none
  | a :: t => match firstBy rank t with
    | none => some a
    | some b => if lexLt (rank b) (rank a) then some b else some a

/-- Whether a waiting queue may take a bound slot (R316). -/
def State.mayTakeSlot (s : State) (q n : Nat) : Bool :=
  let h := Tbl.get s.hwSlots n
  let o := h.queue - 1
  h.queue != 0 && (decide (queueClassRank (s.queueCls q) < queueClassRank (s.queueCls o)) ||
    (s.queueCls q == s.queueCls o && decide (s.queuePrio o ≤ s.queuePrio q) && h.expired))

/-- The slot that a waiting queue takes: a free one, else the one of the lowest class that has held longest (R316). -/
def State.slotFor (s : State) (q : Nat) : Option Nat :=
  match firstFrom (fun n => (Tbl.get s.hwSlots n).queue == 0) 0 64 with
  | some n => some n
  | none => firstBy (fun n => [4 - queueClassRank (s.queueCls ((Tbl.get s.hwSlots n).queue - 1)), (Tbl.get s.hwSlots n).since, n])
      ((List.range 64).filter (s.mayTakeSlot q))

/-- A queue takes a slot; a displaced queue joins the waiting order as if it had just become ready (R316). -/
def State.takeSlot (s : State) (q n : Nat) : State :=
  let o := (Tbl.get s.hwSlots n).queue
  let s := if o = 0 then s else s.modQueue (o - 1) fun r => { r with ready := s.cyc.toNat + 1 }
  { s with hwSlots := Tbl.set s.hwSlots n { queue := q + 1, since := s.cyc.toNat } }

/-- QUEUE_SLOT_BIND (R316): the first waiting queue takes this slot, if this is the one that it takes. -/
def execQueueSlotBind (slot : Nat) (s : State) : Result :=
  .next (match firstBy s.queueRank s.waitingQueues with
    | none => s
    | some q =>
      let free := (Tbl.get s.hwSlots slot).queue == 0 && decide (slot < 64)
      if free || s.slotFor q == some slot then s.takeSlot q slot else s)

/-- The time slice of a class in `cyc`, the frequency being 1,900 cycles a µs (R37, R313). -/
def State.sliceCyc (s : State) (cls : Nat) : Nat :=
  1900 * (let v := Tbl.get s.timeSlices cls; if v = 0 then 0x3E8 else v)

/-- SLOT_TIME_SLICE_EXPIRY (R316). -/
def execSlotTimeSliceExpiry (slot : Nat) (s : State) : Result :=
  let h := Tbl.get s.hwSlots slot
  .next (if h.queue = 0 ∨ s.cyc.toNat < h.since + s.sliceCyc (s.queueCls (h.queue - 1)) then s
    else { s with hwSlots := Tbl.set s.hwSlots slot { h with expired := true } })

/-- A launch of the mesh queue of a running chain is the mesh launch of its next frame (R294). -/
def State.adopt (s : State) (q : Nat) (L : Launch) : State × Launch :=
  match s.chains.find? fun e => e.2.state == 1 && e.2.field 0x10 4 == q with
  | none => (s, L)
  | some e =>
    let f : Frame := { num := e.2.launched, total := L.lr.workgroups }
    (s.modChain e.1 fun x => { x with launched := x.launched + 1, frames := x.frames ++ [f] },
     { L with chain := e.1 + 1, frame := e.2.launched })

/-- Steps 1 and 2 of R317: the entry is read, the read index advances, the launch takes its number. -/
def State.takeEntryOf (s : State) (q : Nat) : State :=
  let i := s.queueNat q 0x18 8
  let addr := s.queueNat q 0 8 + 128 * (i % 2 ^ (s.queueNat q 8 4))
  let b := Memory.read s.dev addr 128
  let r := LaunchRec.ofBytes b
  let s := s.placeNat (s.queueAddr q + 0x18) 8 (i + 1)
  let L : Launch := {
    lr := r, addr := addr, bytes := b, ctx := s.queueCtx q, cls := s.queueCls q, queue := q + 1, priority := s.queuePrio q,
    ready := (s.queue q).ready - 1, prev := if r.serial then (s.queue q).last else 0 }
  let (s, L) := s.adopt q L
  let (s, l) := s.newLaunch L
  s.modQueue q fun r => { r with last := l + 1 }

/-- QUEUE_DISPATCH (R317): the check of the launch in dispatch once its predecessor has signalled, or the next entry once
every workgroup of the last launch has been placed; a queue that has stopped being ready gives its slot up (R316). -/
def State.dispatchSlot (s : State) (slot : Nat) : State :=
  let h := Tbl.get s.hwSlots slot
  if h.queue = 0 then s else
  let q := h.queue - 1
  let last := (s.queue q).last
  if s.queueBusy q then
    let L := s.launch (last - 1)
    if L.checked || L.prev != 0 then s else s.checkLaunch (last - 1) L.bytes
  else if !s.queueOn q || s.queueBroken q then s.examineQueue q
  else if s.queuePending q = 0 || s.queueCls q = 3 then s.idleQueue q
  else s.takeEntryOf q

/-- QUEUE_DISPATCH (R317). -/
def execQueueDispatch (slot : Nat) (s : State) : Result := .next (s.walkersTake (s.dispatchSlot slot))

/-! ### Pending-launch queues -/

/-- LAUNCHW_ENTRY_TAKEN (R183): with an entry free, the group parked longest reads its record into it and goes on. -/
def State.entryTaken (s : State) (c : Nat) : State :=
  let x := s.core c
  let parked := (Tbl.keys x.grps).filter fun g => (Tbl.get x.grps g).used && (Tbl.get x.grps g).launchwSince.isSome && !(Tbl.get x.grps g).halted
  match (if x.pend.length < pendEntries then
      firstBy (fun g => [((Tbl.get x.grps g).launchwSince.getD (0, 0)).1, g]) parked else none) with
  | none => s
  | some g =>
    let ptr := ((s.grp c g).launchwSince.getD (0, 0)).2
    match s.unitBytes c (s.launchOf c g).ctx (usesL1 (ptr / 2 ^ 60) (ptr / 2 ^ 57 % 8)) ptr 128 with
    | .ok b ops => ((s.afterUnit c g ((s.grp c g).parkWord Park.waitsEntry).2 ops).pendLaunch c g ptr b).resumeAfter c g Park.waitsEntry 1
    | .fault a k =>
      let G := s.grp c g
      let h := G.handler.isSome && G.park.waitsEntry
      let w := G.parkWord Park.waitsEntry
      let i : Inst := { core := c, pc := w.1, num := 0, parts := [(g, w.2)], handler := h }
      (s.modGrp c g fun x => x.rePark Park.waitsEntry (.fault h)).groupFault
        { core := c, slot := g, lanes := w.2, exec := w.2, inst := i } a k false (.record .launchw ptr)
    | .trap a => s.trapParked c g Park.waitsEntry (spaceTrap a)

/-- LAUNCHW_ENTRY_TAKEN (R183). -/
def execLaunchwEntryTaken (core : Nat) (s : State) : Result := .next (s.entryTaken core)

/-- The first pending record of a core becomes a launch of its issuer's context (R325). -/
def State.dispatchPending (s : State) (c : Nat) (e : Pending) (rest : List Pending) : State :=
  let r := LaunchRec.ofBytes e.bytes
  let L : Launch := {
    lr := r, addr := e.addr, bytes := e.bytes, ctx := e.ctx, cls := s.ctxClass e.ctx, ready := s.cyc.toNat,
    prev := if r.serial then (s.core c).lastLaunch else 0, core := c + 1 }
  let (s, l) := s.newLaunch L
  s.modCore c fun x => { x with pend := { e with launch := l + 1 } :: rest, lastLaunch := l + 1 }

/-- PENDING_LAUNCH_DISPATCH (R325): the first record of the queue is dispatched, then checked once its predecessor has
signalled; a refusal frees its entry. -/
def execPendingLaunchDispatch (core : Nat) (s : State) : Result :=
  .next (match (s.core core).pend with
    | [] => s
    | e :: rest =>
      if !s.ctxLayout e.ctx then s.postContext e.ctx
      else if s.ctxState e.ctx != 0 || !s.ctxEnabled e.ctx then s
      else if e.launch = 0 then s.dispatchPending core e rest
      else
        let l := e.launch - 1
        if (s.launch l).checked || (s.launch l).prev != 0 then s else
        let s := s.checkLaunch l e.bytes
        if (s.launch l).status = 0 then s else s.freePend l)

end Sys2Proof.Machine
end

