-- ==== Sys2Proof/Machine/Slots.lean ====
section
/-! DEFINITION. Device-level slot entries at work (R217, R277, R341 to R346): mirrors, parts, and what follows when a source
or an output slot becomes full (R351, R353). -/

namespace Sys2Proof.Machine

/-! ### Handles and their mirrors -/

/-- The number of a scope (R80). -/
def scopeOfCode (n : Nat) : Scope :=
  match n with
  | 0 => .wg | 1 => .core | 2 => .atoll | 3 => .dev | 4 => .pod | _ => .sys

/-- Whether a handle is bound to a slot. -/
def Handle.isMirror (h : Handle) (u : Nat) : Bool := h.narrows && h.off == u && h.owner != 0

/-- The mirrors of a slot on a core follow its entry; waiting groups look again, those of a claim among them (R217). -/
def State.mirrorCore (s : State) (u c : Nat) : State :=
  let e := s.slotEntry u
  let old := (s.core c).handles
  let new := old.foldl (fun t h => if h.2.isMirror u then Tbl.set t h.1 (h.2.mirror e) else t) old
  let s := s.modCore c fun x => { x with handles := new }
  s.wakeHandles c fun n => (Tbl.get old n).isMirror u || (Tbl.get old n).state == .free

/-- A slot entry changed, with its mirrors on every core (R217). -/
def State.putSlot (s : State) (u : Nat) (f : SlotEntry → SlotEntry) : State :=
  let s := s.modSlot u f
  (Tbl.keys s.cores).foldl (fun s c => s.mirrorCore u c) s

/-- An entry that becomes free; its fault bit stays until the slot is opened again (R214, R342). -/
def SlotEntry.freed (e : SlotEntry) : SlotEntry :=
  { e with state := .free, parts := 0, cons := 0, retain := 0, mesh := none }

/-- One consumer of an entry frees its count, as `HFREE` does (R216, R354). -/
def SlotEntry.free1 (e : SlotEntry) : SlotEntry :=
  let e := { e with cons := e.cons - 1, state := .draining }
  if e.cons = 0 ∧ e.retain = 0 then e.freed else e

/-- A device consumer frees its count. -/
def State.freeCount (s : State) (u : Nat) : State := s.putSlot u SlotEntry.free1

/-! ### Rings -/

/-- The slots of a ring. -/
def ringSlots (r : Nat × Nat × Nat) : List Nat := (upFrom 0 r.2.1).map fun i => r.1 + i * r.2.2

/-- The slots that a stage workgroup may claim (R287, R344). -/
def State.claimable (s : State) (st : StageInfo) : List Nat :=
  let x := s.chain st.chain
  match st.role with
  | 0 => upFrom (x.field 0x14 2) (x.field 0x16 2)
  | 1 => ringSlots (x.ring false)
  | 2 => ringSlots (x.ring true)
  | _ => []

/-- The consumer count of the ring that a stage fills (R289, R344). -/
def Chain.ringCons (x : Chain) (role : Nat) : Nat :=
  if role = 0 ∨ (role = 1 ∧ x.up) then 1 else x.field 0xB4 4 % 8

/-- The strip of a stage workgroup (R344). -/
def State.stripOf (s : State) (st : StageInfo) : Nat := st.frame * (s.chain st.chain).K + st.strip

/-- A free slot opened by a stage workgroup (R289, R344). -/
def State.openSlot (s : State) (u : Nat) (st : StageInfo) : State :=
  let x := s.chain st.chain
  s.putSlot u fun e => { e with
    state := .filling, cons := x.ringCons st.role, retain := 0, fault := false, bare := true, scope := 0
    mesh := if st.role = 0 then some (st.frame, st.bin) else e.mesh
    parts := if st.role = 1 then x.B else 1
    strip := if st.role = 0 then e.strip else s.stripOf st }

/-- A filling slot that this workgroup joins: same strip, or its own mesh index (R289, R344). -/
def State.joins (s : State) (u : Nat) (st : StageInfo) : Bool :=
  let e := s.slotEntry u
  e.state == .filling && (if st.role = 0 then e.mesh == some (st.frame, st.bin) else e.strip == s.stripOf st)

/-! ### Full slots -/

/-- A source strip has become full, which is kept for the upscale jobs (R345); its shade time is a sample (R351, R398). -/
def State.shadeTime (s : State) (c g : Nat) : State :=
  let x := s.chain c
  let t := x.strip (g / x.K) (g % x.K)
  let s := s.modChain c fun y => y.modFrame (g / x.K) fun r => { r with strips := Tbl.mod r.strips (g % x.K) fun t => { t with source := true } }
  s.sample 0x01 (some c) ((s.cyc.toNat : Int) - t.first)

/-- The calm counter and the rate after a complete strip of a slack (R353). -/
def Chain.calmed (x : Chain) (ts : Nat) (slack : Int) : Chain :=
  let n := if slack > (ts / 4 : Nat) then x.calm + 1 else 0
  if n = 16 then { x with calm := 0, rate := max (x.rate - 1) (bitsOf (x.field 0x28 1) 5 3) } else { x with calm := n }

/-- The compute consumer launch of a full output slot: a copy of the record (R346). -/
def State.consumerLaunch (s : State) (c u g : Nat) : State :=
  let x := s.chain c
  let b := (s.devRead x.ctx (x.field 0x90 8) 128).getD []
  let L : Launch := {
    lr := LaunchRec.ofBytes b, addr := x.field 0x90 8, bytes := b, ctx := x.ctx, cls := 3, ready := s.cyc.toNat, chain := c + 1,
    role := 3, frame := g / x.K, outSlot := u, strip := g }
  let (s, l) := s.newLaunch L
  s.checkLaunch l b

/-- An output slot has become full: count, slack, calm and rate, then its consumer (R346, R351, R353, R354, R362). -/
def State.stripComplete (s : State) (c u : Nat) : State :=
  let x := s.chain c
  let g := (s.slotEntry u).strip
  let slack := s.deadlineFor x (g / x.K) (g % x.K) - s.cyc.toNat
  let s := s.sample 0x02 (some c) slack
  let made (y : Chain) : Chain := y.modFrame (g / x.K) fun r => { r with strips := Tbl.mod r.strips (g % x.K) fun t => { t with full := true } }
  let s := s.modChain c fun y => { (made y).calmed (s.period x) slack with strips := (y.strips + 1) % 2 ^ 64 }
  if x.missed.contains g then
    (s.modChain c fun y => { y with missed := y.missed.filter (· != g) }).freeCount u
  else if x.field 0x2A 1 = 2 then
    (if (s.slotEntry u).fault then s.freeCount u
     else s.consumerLaunch c u g)
  else s

/-- What follows when a slot of a chain becomes full. -/
def State.slotFull (s : State) (u : Nat) : State :=
  let e := s.slotEntry u
  let x := s.chain e.chain
  if !e.granted || !x.active then s else
  let s := if (ringSlots (x.ring false)).contains u then s.shadeTime e.chain e.strip else s
  if (ringSlots (x.ring true)).contains u then s.stripComplete e.chain u else s

/-- A part of a strip slot finished with a release at a scope, a copy's own bytes alone where `bare` (R252, R344). -/
def State.finishPart (s : State) (u scope : Nat) (fault bare : Bool) : State :=
  let e := s.slotEntry u
  if e.state != .filling then s else
  let full := decide (e.parts ≤ 1)
  let s := s.putSlot u fun e => { e with
    parts := e.parts - 1, scope := scope, fault := e.fault || fault, bare := e.bare && bare
    state := if full then .full else .filling }
  if full then s.slotFull u else s

/-- A mesh slot made full (R289). -/
def State.fillMesh (s : State) (u scope : Nat) (bare : Bool) : State :=
  s.putSlot u fun e => if e.state == .filling then { e with parts := 0, scope := scope, bare := bare, state := .full } else e

/-- A workgroup of a stage has finished its part of the slot it claimed (R344). -/
def State.partDone (s : State) (c w u scope : Nat) (fault bare : Bool) : State :=
  match (s.wg c w).stage with
  | none => s
  | some st =>
    if st.finished || st.role = 0 || st.role = 3 then s else
    (s.modWg c w fun W => { W with stage := some { st with finished := true } }).finishPart u scope fault bare

/-- The slot of a stage workgroup: the one that a handle of it mirrors while it fills, else the one of its strip (R344). -/
def State.claimedSlot (s : State) (c w : Nat) (st : StageInfo) : Nat :=
  match (s.core c).handles.find? fun e => e.2.narrows && e.2.owner == w + 1 && e.2.fixed == 0 && e.2.state == .filling with
  | some e => e.2.off
  | none => s.stageSlot st

end Sys2Proof.Machine
end

