-- ==== Sys2Proof/Machine/Handles.lean ====
section
/-! DEFINITION. The handle words (R213 to R217, R258, R289, R302, R344 to R346). -/

namespace Sys2Proof.Machine

/-- Code of a handle state (R214). -/
def HState.code : HState → Nat
  | .free => 0 | .filling => 1 | .full => 2 | .draining => 3

/-- The status word of a handle (R214). -/
def Handle.word (h : Handle) : Nat :=
  h.scope * 2 ^ 21 + (if h.narrows then 2 ^ 20 else 0) + h.retain * 2 ^ 17 + h.cons * 2 ^ 14 + h.state.code * 2 ^ 12 + h.status.toNat

/-- The fault bit (R214). -/
def Handle.faulty (h : Handle) : Bool := h.status.getLsbD 4

/-- Handle fault (R44). -/
def handleFault (h : Nat) : Trap := { cause := 0x0D, tval := h }

/-- A handle that is not free and is held by another allocation (R216). -/
def State.heldElse (s : State) (p : Part) (h : Nat) : Bool :=
  let H := s.handle p.core h
  H.state != .free && H.owner != (s.grp p.core p.slot).wg + 1

/-- A handle that the device has bound for a compute consumer (R346). -/
def Handle.consumer (h : Handle) : Bool := h.fixed == 2

/-- One of the source mirrors of an upscale job (R345). -/
def State.sourceMirror (s : State) (p : Part) (h : Nat) : Bool :=
  (match (s.wgOf p.core p.slot).stage with
   | some st => st.role == 2
   | none => false) && decide (60 ≤ h) && decide (h ≤ 62)

/-- A transition of a handle: on the device-level entry for a Narrows target, else on the core's handle; waiting groups
look again (R217, R277). -/
def State.putHandle (s : State) (c h : Nat) (f : Handle → Handle) : State :=
  let old := s.handle c h
  let new := f old
  if old.narrows then s.putSlot old.off fun e =>
    if new.state == .free then e.freed
    else { e with state := new.state, cons := new.cons, retain := new.retain, scope := new.scope, bare := new.bare }
  else (s.modHandle c h fun _ => if new.state == .free then new.freed else new).wakeHandles c (· == h)

/-- An acquire at a handle's recorded scope (R216, R258); a compute consumer's is at `.dev` (R346). A handle that a ferry
filled without rel covers the bytes of its target alone, of which no L1 holds a copy (R252). -/
def State.acquireOf (s : State) (p : Part) (H : Handle) : State :=
  if H.bare then s else
  s.acquireAt p.core (s.launchOf p.core p.slot).ctx .acq (if H.consumer then .dev else scopeOfCode H.scope) none

/-- The acquire of a consumer (R216, R258). -/
def State.acquireHandle (s : State) (p : Part) (h : Nat) : State := s.acquireOf p (s.handle p.core h)

/-- What a handle word does to a group in the state it finds. -/
inductive HandleOut where
  | ok (s : State)
  | waits
  | fault
  | hold
  | trap (t : Trap)
  deriving Inhabited

/-- A handle word: registers checked, then its action (R216). -/
def handleWord (sw : Bool) (h : HNum) (regs : List (Nat × Nat)) (s : State) (f : State → Part → Handle → HandleOut) : Result :=
  runUniform sw s fun s p =>
    match (s.grp p.core p.slot).bounds (regs.map fun r => (false, r.1, r.2)) with
    | some t => .trap t
    | none => match f s p (s.handle p.core h) with
      | .ok s => .ok s p.inst.after
      | .waits => .park s (.handle h)
      | .fault => .trap (handleFault h)
      | .hold => .wait
      | .trap t => .trap t

/-! ### `HCLAIM` -/

/-- What `HCLAIM` asks for: target, kind and consumer count as the registers hold them. -/
structure Claim where
  off : Nat
  len : Nat
  ctl : Nat

/-- The claim of a group's registers (R215). -/
def Group.claim (g : Group) (sa : SReg) : Claim :=
  { off := (g.sreg sa).toNat, len := (g.sreg (sa.val + 1)).toNat, ctl := (g.sreg (sa.val + 2)).toNat }

/-- A Narrows target. -/
def Claim.narrows (k : Claim) : Bool := k.ctl.testBit 3

/-- The slots granted to a workgroup's launch (R215, R344). -/
def State.granted (s : State) (W : Wg) : List Nat :=
  match W.stage with
  | some st => s.claimable st
  | none => []

/-- The values of a claim checked, the trap by the ranking of R44 (R215). DESIGN CHOICE (notes/assumptions/66.md): `tval` of the
misaligned-address and address-space traps is the value of `sa`, a byte offset or a slot number. -/
def State.claimTrap (s : State) (p : Part) (h : HNum) (k : Claim) : Option Trap :=
  let W := s.wgOf p.core p.slot
  let space := if k.narrows then !(s.granted W).contains k.off else decide (W.scrLen < k.off + k.len)
  let mis := !k.narrows && (k.off % 32 != 0 || k.len % 32 != 0)
  let bad := k.ctl % 8 == 0 || k.ctl / 16 != 0 || (if k.narrows then k.len != 0 else k.len == 0)
  if space then some (spaceTrap k.off) else if mis then some { cause := 0x07, tval := k.off }
  else if bad then some (handleFault h) else none

/-- The handle that a claim leaves (R215). -/
def Claim.handle (k : Claim) (W : Wg) (w : Nat) : Handle :=
  { state := .filling, cons := k.ctl % 8, off := W.scrOff + k.off, len := k.len, owner := w + 1, gen := W.gen }

/-- A claim of a Narrows slot: opens a free slot, joins one that is filling for the same strip or index, else waits (R289, R344). -/
def State.claimSlot (s : State) (p : Part) (h : HNum) (k : Claim) (st : StageInfo) : HandleOut :=
  let w := (s.grp p.core p.slot).wg
  let e := s.slotEntry k.off
  if k.ctl % 8 ≠ (s.chain st.chain).ringCons st.role then .fault else
  let mine := e.mesh.isNone || e.mesh == some (st.frame, st.bin)
  let s? : Option State :=
    if s.joins k.off st then some s
    else if e.state == .free && (st.role != 0 || mine) then some (s.openSlot k.off st)
    else none
  match s? with
  | none => .waits
  | some s =>
    let H : Handle := {
      narrows := true, off := k.off, len := (s.slotEntry k.off).units * Config.unitBytes, owner := w + 1,
      gen := (s.wg p.core w).gen }
    .ok (((s.acquireOf p ({ H with scope := e.scope, bare := e.bare || e.state != .free } : Handle)).modHandle p.core h fun _ =>
      H.mirror (s.slotEntry k.off)).wakeHandles p.core (· == h.val))

/-- A claim through a handle that already mirrors the slot for this workgroup, by a later cohort of it: it joins, and the entry is
unchanged (R344). -/
def State.rejoins (s : State) (p : Part) (H : Handle) (k : Claim) (st : StageInfo) : Bool :=
  k.narrows && H.isMirror k.off && H.owner == (s.grp p.core p.slot).wg + 1 && s.joins k.off st &&
    k.ctl % 8 == (s.chain st.chain).ringCons st.role

/-- `HCLAIM` (R215, R216): the claim of a free handle acquires (R251), and groups that wait for it look again (R277). -/
def execHclaim (sw : Bool) (h : HNum) (sa : SReg) (s : State) : Result :=
  handleWord sw h [(sa.val, 3)] s fun s p H =>
    let k := (s.grp p.core p.slot).claim sa
    match s.claimTrap p h k with
    | some t => .trap t
    | none =>
      let W := s.wgOf p.core p.slot
      if s.sourceMirror p h || (H.consumer && !s.heldElse p h) then .fault
      else if W.stage.any (s.rejoins p H k) then
        .ok (s.modHandle p.core h fun x => ({ x with status := 0 } : Handle).mirror (s.slotEntry k.off))
      else if H.state != .free then .waits
      else match k.narrows, W.stage with
        | true, some st => s.claimSlot p h k st
        | _, _ => .ok (((s.acquireOf p H).modHandle p.core h fun _ => k.handle W (s.grp p.core p.slot).wg).wakeHandles p.core (· == h.val))

/-! ### Producers and consumers -/

/-- `HFULL` of a workgroup's part of a strip slot or of its mesh slot (R289, R344). -/
def State.fullNarrows (s : State) (p : Part) (h scope : Nat) : HandleOut :=
  let H := s.handle p.core h
  match (s.wgOf p.core p.slot).stage with
  | none => .fault
  | some st =>
    if st.role = 0 then .ok (s.fillMesh H.off scope false)
    else if st.finished then .fault
    else .ok (s.partDone p.core (s.grp p.core p.slot).wg H.off scope false false)

/-- `HFULL` (R216): a release, then the handle becomes full. -/
def execHfull (sw : Bool) (scope : Scope) (h : HNum) (s : State) : Result :=
  handleWord sw h [] s fun s p H =>
    if s.heldElse p h || H.consumer || H.state != .filling then .fault
    else if (s.core p.core).pendingAt p.slot (s.genOf p.core p.slot) p.lanes scope then .hold
    else if H.narrows then s.fullNarrows p h scope.code
    else .ok (s.putHandle p.core h fun x => { x with state := .full, scope := scope.code, bare := false })

/-- A consumer passes a full or draining handle: it waits on a free or filling one, and a faulty one traps (R216). -/
def consume (s : State) (p : Part) (h : HNum) (H : Handle) (ok : State → State) : HandleOut :=
  if s.heldElse p h then .fault
  else if H.state == .free || H.state == .filling then .waits
  else if H.faulty then .fault
  else .ok (ok (s.acquireHandle p h))

/-- `HDRAIN` (R216). -/
def execHdrain (sw : Bool) (h : HNum) (s : State) : Result :=
  handleWord sw h [] s fun s p H =>
    consume s p h H fun s => if H.state == .full then s.putHandle p.core h fun x => { x with state := .draining } else s

/-- Status written to a uniform register. -/
def State.putStatus (s : State) (p : Part) (sd : SReg) (H : Handle) : State :=
  s.modGrp p.core p.slot fun g => g.setS sd (lowWord H.word)

/-- `HWAIT` (R216). -/
def execHwait (sw free : Bool) (sd : SReg) (h : HNum) (s : State) : Result :=
  handleWord sw h [(sd.val, 1)] s fun s p H =>
    if free then
      (if H.consumer && !s.heldElse p h then .fault
       else if H.state == .free then .ok (s.putStatus p sd H) else .waits)
    else consume s p h H fun s => s.putStatus p sd H

/-- Earlier accesses of a group's present threads to a handle's target that are still in flight: of the pipes, and of
queued engine operations (R216, R257, R258). -/
def State.targetBusy (s : State) (p : Part) (H : Handle) : Bool :=
  let x := s.core p.core
  let range : List (Nat × Nat) := [(if H.narrows then H.off * Config.unitBytes else H.off, H.len)]
  let place : Place := if H.narrows then .narrows else .sram p.core
  x.flight.any (fun o => o.slot == p.slot && o.gen == H.gen && o.lanes &&& p.lanes != 0 && !o.bound && o.place == place &&
    rangesMeet o.pieces range) ||
  (!H.narrows && x.seq.any fun t => t.slot == p.slot && t.gen == H.gen && t.lanes &&& p.lanes != 0 && rangesMeet t.act.bytes range)

/-- The state of a handle after a count has fallen: free once both are zero (R216). -/
def Handle.settled (h : Handle) (other : HState) : Handle :=
  { h with state := if h.cons = 0 ∧ h.retain = 0 then .free else other }

/-- A count of a handle falls: the earlier accesses of the group's threads to the target come first, and where the handle
becomes free a release of theirs at its scope, over all memory but for one that a ferry filled without rel (R216, R251,
R252). -/
def State.lowerHandle (s : State) (p : Part) (h : HNum) (H new : Handle) : HandleOut :=
  if s.targetBusy p H || (new.state == .free && !H.bare &&
      (s.core p.core).pendingAt p.slot (s.genOf p.core p.slot) p.lanes (scopeOfCode H.scope)) then .hold
  else .ok (s.putHandle p.core h fun _ => new)

/-- `HFREE` (R216). -/
def execHfree (sw : Bool) (h : HNum) (s : State) : Result :=
  handleWord sw h [] s fun s p H =>
    if s.heldElse p h || H.consumer || (s.sourceMirror p h && h.val != 61) || H.state == .free || H.state == .filling ||
        H.cons == 0 then .fault
    else s.lowerHandle p h H (({ H with cons := H.cons - 1 } : Handle).settled .draining)

/-- `HRET` (R216). -/
def execHret (sw : Bool) (h : HNum) (s : State) : Result :=
  handleWord sw h [] s fun s p H =>
    if s.heldElse p h || H.consumer || H.state == .free || H.retain == 7 then .fault
    else .ok (s.putHandle p.core h fun x => { x with retain := x.retain + 1 })

/-- `HREL` (R216). -/
def execHrel (sw : Bool) (h : HNum) (s : State) : Result :=
  handleWord sw h [] s fun s p H =>
    if s.heldElse p h || H.consumer || H.state == .free || H.state == .filling || H.retain == 0 then .fault
    else s.lowerHandle p h H (({ H with retain := H.retain - 1 } : Handle).settled H.state)

/-! ### `CPYW` -/

/-- The 32-bit signed number nearest to an integer, as a word (R213). -/
def satWord (x : Int) : Nat := (max (-2 ^ 31) (min (2 ^ 31 - 1) x) % 2 ^ 32).toNat

/-- The check of `CPYW` at or after the promised time (R213): a trap, or the status written with an acquire. -/
def State.promiseCheck (s : State) (p : Part) (deadline issued : Nat) (sd : SReg) (h : HNum) : HandleOut :=
  let H := s.handle p.core h
  if s.heldElse p h || H.consumer || H.state == .free then .fault
  else if H.state == .filling then
    .trap { cause := 0x08, tval := h.val + satWord ((deadline : Int) - issued) * 2 ^ 32 }
  else if H.faulty then .fault
  else .ok ((s.acquireHandle p h).putStatus p sd H)

/-- `CPYW` (R213). -/
def execCpyw (sw : Bool) (sd sa : SReg) (h : HNum) (s : State) : Result :=
  runUniform sw s fun s p =>
    match (s.grp p.core p.slot).bounds [(false, sd.val, 1), (false, sa.val, 2)] with
    | some t => .trap t
    | none =>
      let t := ((s.grp p.core p.slot).spair sa).toNat
      if s.cyc.toNat < t then .park s (.promise t s.cyc.toNat sd h)
      else match s.promiseCheck p t s.cyc.toNat sd h with
        | .ok s => .ok s p.inst.after
        | .trap t => .trap t
        | _ => .trap (handleFault h)

/-- The part of a group that a parked word stands for. -/
def State.parkedPart (s : State) (c g : Nat) (f : Park → Bool) : Part :=
  let G := s.grp c g
  let w := G.parkWord f
  { core := c, slot := g, lanes := w.2, exec := w.2,
    inst := { core := c, pc := w.1, num := 0, parts := [(g, w.2)], handler := G.handler.isSome && f G.park } }

/-- A park of `CPYW` whose promised time has come: that time, the `cyc` of its issue, destination and handle. -/
def Park.promised (cyc : Nat) : Park → Option (Nat × Nat × Nat × Nat)
  | .promise deadline issued sd h => if deadline ≤ cyc then some (deadline, issued, sd, h) else .none
  | _ => .none

/-- The park of a group by such a `CPYW`, now or behind its handler. -/
def Group.promised (g : Group) (cyc : Nat) : Option (Nat × Nat × Nat × Nat) :=
  match Park.promised cyc g.park with
  | some x => some x
  | none => g.handler.bind fun h => Park.promised cyc h.held

/-- CPYW_PROMISE_REACHED (R213): the group's promised time has come, and the handle is checked. -/
def execCpywPromiseReached (core slot : Nat) (s : State) : Result :=
  let due (q : Park) : Bool := (Park.promised s.cyc.toNat q).isSome
  .next (match (s.grp core slot).used, (s.grp core slot).halted, (s.grp core slot).promised s.cyc.toNat with
    | true, false, some (deadline, issued, sd, h) =>
      match s.promiseCheck (s.parkedPart core slot due) deadline issued (Fin.ofNat 256 sd) (Fin.ofNat 64 h) with
      | .ok s => s.resumeAfter core slot due 1
      | .trap t => s.trapParked core slot due t
      | _ => s.trapParked core slot due (handleFault h)
    | _, _, _ => s)

end Sys2Proof.Machine
end

