-- ==== Sys2Proof/Machine/Ferry.lean ====
section
/-! DEFINITION. Copies (R206 to R212) and the ferries that carry them (R271 to R276): the box, its elements and their
conversion, the checks, the promise, delivery and completion. -/

namespace Sys2Proof.Machine

/-! ### Command and record -/

/-- A field of the copy command (R208). -/
def Copy.c (k : Copy) (off n : Nat) : Nat := fieldAt k.cmd off n
/-- A field of the tensor parameter record (R207). -/
def Copy.t (k : Copy) (off n : Nat) : Nat := fieldAt k.tensor off n
/-- A flag of the command word at 0x30. -/
def Copy.flag (k : Copy) (bit : Nat) : Bool := (k.c 0x30 4).testBit bit
/-- Direction handle to tensor. -/
def Copy.out (k : Copy) : Bool := k.flag 0
/-- Transposed. -/
def Copy.transposed (k : Copy) : Bool := k.flag 1
/-- Fill. -/
def Copy.fills (k : Copy) : Bool := k.flag 2 && !k.out
/-- Acquire flag. -/
def Copy.acq (k : Copy) : Bool := k.flag 3
/-- Release flag. -/
def Copy.rel (k : Copy) : Bool := k.flag 4
/-- Scope code. -/
def Copy.scope (k : Copy) : Nat := bitsOf (k.c 0x30 4) 7 5
/-- Handle-side format. -/
def Copy.hfmt (k : Copy) : Fmt := (Fmt.ofCode (bitsOf (k.c 0x30 4) 12 8)).getD .f32
/-- Handle number. -/
def Copy.h (k : Copy) : Nat := bitsOf (k.c 0x30 4) 21 16
/-- Ferry field. -/
def Copy.ferryField (k : Copy) : Nat := bitsOf (k.c 0x30 4) 29 24
/-- Multicast column mask. -/
def Copy.cols (k : Copy) : Nat := k.c 0x34 2
/-- Multicast row mask. -/
def Copy.rows (k : Copy) : Nat := k.c 0x36 2 % 2 ^ 12
/-- Handle-side row pitch. -/
def Copy.pitch (k : Copy) : Nat := k.c 0x38 4
/-- Start coordinate i. -/
def Copy.start (k : Copy) (i : Nat) : Int := sextNat (k.c (0x08 + 4 * i) 4) 32
/-- Extent i. -/
def Copy.ext (k : Copy) (i : Nat) : Nat := k.c (0x1C + 4 * i) 4
/-- Rank of the tensor. -/
def Copy.rank (k : Copy) : Nat := k.t 0x08 1 % 8
/-- Tensor format. -/
def Copy.tfmt (k : Copy) : Fmt := (Fmt.ofCode (k.t 0x09 1 % 32)).getD .f32
/-- Size of dimension i. -/
def Copy.size (k : Copy) (i : Nat) : Nat := k.t (0x20 + 4 * i) 4
/-- Byte stride of dimension i, from 1. -/
def Copy.stride (k : Copy) (i : Nat) : Int := sextNat (k.t (0x38 + 8 * (i - 1)) 8) 64
/-- Base pointer of the tensor. -/
def Copy.base (k : Copy) : Nat := k.t 0 8
/-- Conversion mode. -/
def Copy.mode (k : Copy) : Mode := (Mode.ofCode (bitsOf (k.t 0x0B 1) 3 1)).getD .rne
/-- Clamp bound. -/
def Copy.bound (k : Copy) : Option FVal := if (k.t 0x0B 1).testBit 0 then some (fmt32.decode (k.t 0x0C 4)).abs else none
/-- Tile scale. -/
def Copy.scale (k : Copy) : FVal := fmt32.decode (k.t 0x10 4)
/-- Fill value. -/
def Copy.fillValue (k : Copy) : FVal := fmt32.decode (k.t 0x14 4)

/-! ### The box -/

/-- Elements along a handle-side row (R210). -/
def Copy.rowElems (k : Copy) : Nat := if k.transposed then k.ext 1 else k.ext 0
/-- Handle-side rows (R210). -/
def Copy.rowCount (k : Copy) : Nat := (if k.transposed then k.ext 0 else k.ext 1) * k.ext 2 * k.ext 3 * k.ext 4
/-- Bytes of a handle-side row (R210). -/
def Copy.rowBytes (k : Copy) : Nat :=
  if k.hfmt.isPlane then 128 * ((k.rowElems + 127) / 128) else (k.rowElems * k.hfmt.width + 7) / 8
/-- The box has no element. -/
def Copy.empty (k : Copy) : Bool := (List.range 5).any fun i => k.ext i == 0
/-- Bytes from the target on that the box takes on the handle side, of an empty box too (R210). -/
def Copy.span (k : Copy) : Nat := (k.rowCount - 1) * k.pitch + k.rowBytes
/-- Elements of the box. -/
def Copy.count (k : Copy) : Nat := (List.range 5).foldl (fun n i => n * k.ext i) 1

/-- Coordinate i of the n-th element, b0 counting fastest (R274). -/
def Copy.coord (k : Copy) (n i : Nat) : Nat := n / ((List.range i).foldl (fun m j => m * k.ext j) 1) % k.ext i

/-- Row and place in the row on the handle side of an element (R210). -/
def Copy.place (k : Copy) (n : Nat) : Nat × Nat :=
  let b := k.coord n
  let u := if k.transposed then b 1 else b 0
  let v := if k.transposed then b 0 else b 1
  let nrows := if k.transposed then k.ext 0 else k.ext 1
  (v + nrows * (b 2 + k.ext 2 * (b 3 + k.ext 3 * b 4)), u)

/-- Tensor coordinate i of an element (R210). -/
def Copy.tcoord (k : Copy) (n i : Nat) : Int := k.start i + k.coord n i

/-- Start of an element's row, relative to the base (R207). -/
def Copy.rowStart (k : Copy) (n : Nat) : Int := (upFrom 1 4).foldl (fun a i => a + k.tcoord n i * k.stride i) 0

/-- First bit of an element's code relative to the base, for a dense tensor; the plane row and position otherwise (R207). -/
def Copy.firstByte (k : Copy) (n : Nat) : Int :=
  let c0 := k.tcoord n 0
  (k.base % 2 ^ 48 : Nat) + k.rowStart n +
    (if k.tfmt.isPlane then 128 * (c0 / 128) else c0 * k.tfmt.width / 8)

/-- Bytes of an element in the tensor's space: one for each plane, or those of its code (R207). -/
def Copy.bytesAt (k : Copy) (n : Nat) : List (Int × Nat) :=
  let a := k.firstByte n
  let c0 := (k.tcoord n 0 % 128).toNat
  if k.tfmt.isPlane then (upFrom 0 k.tfmt.planes).map fun p => (a + (16 * p + c0 / 8 : Nat), 1)
  else
    let bit := (k.tcoord n 0 * k.tfmt.width % 8).toNat
    [(a, (bit + k.tfmt.width + 7) / 8)]

/-- Whether an element lies in the tensor and its address in its space (R210). -/
def Copy.inside (k : Copy) (n : Nat) : Bool :=
  (List.range 5).all (fun i => decide (k.rank ≤ i) || (decide (0 ≤ k.tcoord n i) && decide (k.tcoord n i < k.size i))) &&
    (k.bytesAt n).all fun b => decide (0 ≤ b.1) && decide (b.1 + b.2 ≤ 2 ^ 48)

/-- Byte ranges of an element by 48-bit address. -/
def Copy.ranges (k : Copy) (n : Nat) : List (Nat × Nat) := (k.bytesAt n).map fun b => (b.1.toNat, b.2)

/-- Lines of the tensor that hold an element inside the box and the tensor (R272). -/
def Copy.lines (k : Copy) : List Nat :=
  (((List.range k.count).filter k.inside).flatMap fun n =>
    (k.ranges n).flatMap fun r => upFrom (r.1 / 64) ((r.1 + r.2 - 1) / 64 + 1 - r.1 / 64)).eraseDups

/-! ### Checks -/

/-- Values of the record that R207 leaves no room for (R209). -/
def Copy.recordBad (k : Copy) : Bool :=
  let f := k.tfmt
  let space := k.base / 2 ^ 60
  let align := if f.isPlane then 128 else max (f.width / 8) 1
  k.rank == 0 || decide (5 < k.rank) || decide (8 ≤ k.t 0x08 1) || decide (32 ≤ k.t 0x09 1) || decide (2 ≤ k.t 0x0A 1) ||
    decide (16 ≤ k.t 0x0B 1) || decide (4 ≤ bitsOf (k.t 0x0B 1) 3 1) || k.t 0x18 8 != 0 || k.t 0x34 4 != 0 ||
    (k.tensor.drop 0x58).any (· != 0) || (k.t 0x0A 1 == 1) != f.isPlane ||
    (List.range 5).any (fun i => decide (k.rank ≤ i) && k.size i != 0) ||
    (upFrom 1 4).any (fun i => decide (k.rank ≤ i) && k.stride i != 0) ||
    !([0, 1, 4].contains space) || (space != 4 && k.base / 2 ^ 48 % 512 != 0) ||
    (space == 4 && decide (Config.peers ≤ k.base / 2 ^ 48 % 512)) || k.base % align != 0

/-- Values of the command that R208 leaves no room for, apart from its record pointer (R209). -/
def Copy.commandBad (k : Copy) : Bool :=
  let w := k.c 0x30 4
  bitsOf w 15 13 != 0 || bitsOf w 23 22 != 0 || bitsOf w 31 30 != 0 || decide (6 ≤ k.scope) ||
    (decide (32 ≤ k.ferryField) && k.ferryField != 63) || k.c 0x36 2 / 2 ^ 12 != 0 || k.c 0x3C 4 != 0 ||
    (k.cols == 0) != (k.rows == 0) || (k.out && (k.cols != 0 || k.rows != 0))

/-- The pointer of the tensor record (R208). -/
def Copy.ptr (k : Copy) : Nat := k.c 0 8

/-- Plane codes other than the whole prefix. -/
def partPlane (f : Fmt) : Bool := f.isPlane && f != .pi8 && f != .pn8

/-- The issuing core is a destination (R211); a command with one mask zero names none and is refused. -/
def Copy.ownDest (k : Copy) : Bool :=
  k.out || (k.cols == 0 && k.rows == 0) || (k.rows.testBit (k.core / 16) && k.cols.testBit (k.core % 16))

/-- The box fits a handle (R210). -/
def Copy.fits (k : Copy) (H : Handle) : Bool := decide (k.span ≤ H.len)

/-- The refusal at acceptance (R209). -/
def Copy.refused (k : Copy) (H : Handle) : Bool :=
  k.commandBad || !ptrOk [0, 1] 128 k.ptr || k.recordBad || partPlane k.hfmt || (k.out && partPlane k.tfmt) ||
    (upFrom 0 5).any (fun i => decide (k.rank ≤ i) && (k.start i != 0 || k.ext i != 1)) ||
    decide (k.pitch < k.rowBytes) || (k.ownDest && (!k.fits H || (H.narrows && (k.cols != 0 || k.rows != 0))))

/-! ### The promise -/

/-- Physical row of a core: rows at and below a retired row move down by one (R272, R395). -/
def State.physRowOf (s : State) (c : Nat) : Nat :=
  let r := Tbl.get s.rowShift (c % 16)
  if r ≠ 0 ∧ r ≤ c / 16 + 1 then c / 16 + 1 else c / 16

/-- The cores a copy goes to (R211). -/
def Copy.destinations (k : Copy) : List Nat :=
  if k.out || (k.cols == 0 && k.rows == 0) then [k.core]
  else (List.range Config.cores).filter fun c => k.rows.testBit (c / 16) && k.cols.testBit (c % 16)

/-- Hops from a ferry to a core (R272). -/
def State.hops (s : State) (f c : Nat) : Nat :=
  let col := c % 16
  let at_ := f % 16
  (if col < at_ then at_ - col else col - at_) + (if f < 16 then s.physRowOf c else 12 - s.physRowOf c) + 1

/-- The promise of a command at a ferry, accepted now (R272). -/
def State.promiseAt (s : State) (k : Copy) (f : Nat) : Nat :=
  let up (n d : Nat) : Nat := (n + d - 1) / d
  let tensor := 64 * k.lines.length
  let hand := k.rowCount * k.rowBytes
  let bread := if k.fills then 0 else tensor
  let bwrite := if k.out then tensor else hand
  let d := (k.destinations.map (s.hops f)).foldl max 0
  let x := if k.base / 2 ^ 60 = 4 then 20000 + up (if k.out then bwrite else bread) 16 else 0
  max s.cyc.toNat (Tbl.get s.ferries f).prev + 256 + max (up bread 64) (up bwrite 64) + 2 * d + x

/-- The promise that a ferry would give; a refused command and an empty box have the `cyc` of acceptance (R272). -/
def State.promiseOr (s : State) (k : Copy) (refused : Bool) (f : Nat) : Nat :=
  if refused || k.empty then s.cyc.toNat else s.promiseAt k f

/-- The ferry that a command goes to (R271). DESIGN CHOICE (notes/assumptions/67.md): the north edge counts as the nearer one for
the middle row. -/
def State.ferryOf (s : State) (k : Copy) (refused : Bool) : Nat :=
  if k.ferryField < 32 then k.ferryField else
  let north := decide (s.physRowOf k.core ≤ 12 - s.physRowOf k.core)
  (firstBy (fun f => [s.promiseOr k refused f, (if decide (f < 16) == north then 0 else 1), f]) (List.range 32)).getD 0

/-! ### Issue -/

/-- What `CPY` finds at its handle: goes on, waits, or a fault (R206, R216, R344). -/
def State.copyHandle (s : State) (p : Part) (k : Copy) : HandleOut :=
  if !k.ownDest then .ok s else
  let H := s.handle p.core k.h
  let W := s.wgOf p.core p.slot
  if s.heldElse p k.h then .fault
  else if k.out then
    (match H.state with
     | .free | .filling => .waits
     | .full => .ok (s.putHandle p.core k.h fun x => { x with state := .draining })
     | .draining => .ok s)
  else match H.state with
    | .free => .waits
    | st => if H.narrows && (W.stage.any fun st => st.role != 0 && (st.finished || st.copying)) then .fault
      else if st == .filling then .ok s else .waits

/-- A number for a copy that no copy and no open translation fault uses. -/
def State.freeCopy (s : State) : Nat :=
  let taken (n : Nat) : Bool := (s.copy n).used || s.faults.any fun f => f.agent == .ferry n
  (firstFrom (fun n => !taken n) 0 (s.copies.length + s.faults.length + 1)).getD 0

/-- `CPY` (R206): the command is read at issue and offered to a ferry; the group waits for the answer. -/
def execCpy (sw : Bool) (sd sa : SReg) (s : State) : Result :=
  runUniform sw s fun s p =>
    let g := s.grp p.core p.slot
    let W := s.wgOf p.core p.slot
    match g.bounds [(false, sd.val, 2), (false, sa.val, 16)] with
    | some t => .trap t
    | none =>
      if W.task.isSome || (s.launchOf p.core p.slot).lr.producer != some g.index then .trap p.inst.rights
      else if g.ucount == 63 then .full else
      let k : Copy := {
        used := true, cmd := (upFrom sa.val 16).flatMap fun r => leBytes (g.sreg r).toNat 4, core := p.core, slot := p.slot,
        wg := g.wg, gen := W.gen, launch := W.launch, ctx := (s.launchOf p.core p.slot).ctx, lanes := p.lanes, sd := sd.val,
        mark := (s.core p.core).nextOp }
      match s.copyHandle p k with
      | .ok s =>
        let n := s.freeCopy
        .park ((({ s with copies := Tbl.set s.copies n k }.countUpU p.core p.slot)).modCore p.core fun x =>
          { x with nextOp := x.nextOp + 1 }) (.copy n)
      | .waits => .park s (.handle k.h)
      | .hold => .wait
      | .fault => .trap (handleFault k.h)
      | .trap t => .trap t

/-! ### Handles of a copy -/

/-- Status bits of a copy on a destination: the skipped bit stands at the issuing core only (R211). -/
def Copy.bitsFor (k : Copy) (c : Nat) : BitVec 7 := if c = k.core then k.status else k.status &&& ~~~(8 : BitVec 7)

/-- The end of a copy into a slot whose stage workgroup has been saved meanwhile: the part is finished as it would be on a core (R236,
R344, R368). -/
def State.savedPart (s : State) (ctx e u scope : Nat) (fault bare : Bool) : State :=
  match (s.saved ctx e).stage with
  | none => s
  | some st =>
    if st.role = 0 then s.fillMesh u scope bare else
    let s := s.modSaved ctx e fun v => { v with stage := some { st with copying := false, finished := true } }
    if st.finished || st.role = 3 then s else s.finishPart u scope fault bare

/-- The end of a copy at a handle: full, or one count less; its part of a strip slot finished; one copy fewer in flight.
A handle whose workgroup has ended frees with its last copy (R216, R217, R344). -/
def State.endAt (s : State) (n c : Nat) : State :=
  let k := s.copy n
  let H := s.handle c k.h
  let gen := ((k.gens.find? fun e => e.1 == c).map (·.2)).getD 0
  let mine := H.state != .free && H.owner != 0 && H.gen == gen
  match k.part with
  | some u => s.finishPart u k.scope (k.status.getLsbD 4) !k.rel
  | none =>
    if mine then
      let s := s.modHandle c k.h fun x => { x with status := x.status ||| k.bitsFor c, copies := x.copies - 1 }
      if k.out then
        (if k.status.getLsbD 5 || H.state != .draining then s.wakeHandles c (· == k.h)
         else s.putHandle c k.h fun x => ({ x with cons := x.cons - 1 } : Handle).settled .draining)
      else if H.narrows then
        match H.savedAt with
        | some h => s.savedPart h.1 h.2 H.off k.scope (k.status.getLsbD 4) !k.rel
        | none =>
        match (s.wg c (H.owner - 1)).stage with
        | some st =>
          if st.role = 0 then s.fillMesh H.off k.scope !k.rel else
          let s := s.modWg c (H.owner - 1) fun W => { W with stage := some { st with copying := false } }
          s.partDone c (H.owner - 1) H.off k.scope (k.status.getLsbD 4) !k.rel
        | none => s
      else if H.state == .filling then s.putHandle c k.h fun x => { x with state := .full, scope := k.scope, bare := !k.rel }
      else s
    else if H.state == .filling ∧ H.owner = 0 ∧ H.gen = gen ∧ H.copies ≠ 0 then
      if H.copies = 1 then (s.modHandle c k.h fun x => ({ x with copies := 0 } : Handle).freed).wakeHandles c (· == k.h)
      else s.modHandle c k.h fun x => { x with copies := x.copies - 1 }
    else s

/-- The ferry's entry of a copy, and what its bytes held back, go. -/
def State.dropCopy (s : State) (n : Nat) : State :=
  let k := s.copy n
  let s := { s with ferries := Tbl.mod s.ferries k.ferry fun f => { f with queue := f.queue.filter (· != n) }
                    copies := Tbl.erase s.copies n }
  s.modCore k.core fun x => Core.settle { x with ferried := x.ferried.filter fun f => f.copy != n }

/-! ### Acceptance -/

/-- Bytes of a copy's handle on a core. -/
def handleRange (H : Handle) : List (Nat × Nat) := [(if H.narrows then H.off * Config.unitBytes else H.off, H.len)]

/-- Virtual ranges of device memory with the physical bytes that a context's tables give now. -/
def State.devSpan (s : State) (ctx : Nat) (need : Need) (vas : List (Nat × Nat)) : FerrySpan :=
  { vas := vas, bytes := (vas.flatMap fun r => pageSplit r.1 r.2).filterMap fun v => match s.xlateDev ctx v.1 need with
    | .ok pa => some (pa, v.2)
    | .fault _ => none }

/-- The box's bytes on the tensor's side (R207, R243). -/
def State.tensorSpan (s : State) (k : Copy) : FerrySpan :=
  let all := ((List.range k.count).filter k.inside).flatMap k.ranges
  let need : Need := if k.out then .write else .read
  if k.base / 2 ^ 60 ≠ 4 then s.devSpan k.ctx need all
  else
    let n := k.base / 2 ^ 48 % 512
    let own (v : Nat × Nat) : List (Nat × Nat) := match s.ownRemote k.ctx need [v] with
      | some (.inr l) => l
      | _ => []
    if n = s.peerNum then { place := .peer n, vas := all, bytes := (all.flatMap fun r => pageSplit r.1 r.2).flatMap own }
    else { place := .peer n, vas := all, home := .peer n, bytes := all }

/-- The box's bytes on the handle's side at the issuing core. -/
def State.handleSpan (s : State) (k : Copy) : FerrySpan :=
  let H := s.handle k.core k.h
  let at_ : Place := if H.narrows then .narrows else .sram k.core
  let l := if k.ownDest then (handleRange H).map fun r => (r.1, k.span) else []
  { place := at_, vas := l, home := at_, bytes := l }

/-- What a copy reads for its issuing threads: nothing where it fills (R210). -/
def State.copyReads (s : State) (k : Copy) : FerrySpan :=
  if k.out then s.handleSpan k else if k.fills then {} else s.tensorSpan k

/-- What a copy writes for its issuing threads. -/
def State.copyWrites (s : State) (k : Copy) : FerrySpan := if k.out then s.tensorSpan k else s.handleSpan k

/-- The bytes of the tensor record (R208). -/
def State.recordSpan (s : State) (k : Copy) : FerrySpan := s.devSpan k.ctx .read [(k.ptr % 2 ^ 48, 128)]

/-- What comes before a copy holds it: of its threads' accesses those that write bytes that the ferry reads or that touch bytes that it
writes, and with acq every one; of their tile operations those on its bytes, and with acq every one on scratchpad; with acq also the
stores to the bytes it reads that its core still queues, which a `.wg` or `.core` release may have shown to its threads (R212, R257). -/
def State.copyWaits (s : State) (k : Copy) : Bool :=
  let x := s.core k.core
  let reads := s.copyReads k
  let writes := s.copyWrites k
  let sources (y : MemOp) : Bool := (s.recordSpan k).meets y || reads.meets y
  x.flight.any (fun y => decide (y.id < k.mark) && (
    (y.slot == k.slot && y.gen == k.gen && y.lanes &&& k.lanes != 0 &&
      (match y.act with
       | .fence => true
       | _ => !y.bound && (k.acq || (!y.isLoad && sources y) || writes.meets y))) ||
    (k.acq && y.queues && y.ent.isSome && sources y))) ||
  x.seq.any fun t => t.slot == k.slot && t.gen == k.gen && decide (t.id < k.mark) && t.lanes &&& k.lanes != 0 &&
    ((k.acq && !t.act.bytes.isEmpty) || (reads.home == .sram k.core && rangesMeet t.act.drains reads.bytes) ||
      (writes.home == .sram k.core && rangesMeet t.act.bytes writes.bytes))

/-- A copy with rel still waits for its threads' earlier accesses (R212). -/
def State.copyReleaseWaits (s : State) (k : Copy) : Bool :=
  k.rel && (s.core k.core).releaseHeld k.slot k.gen k.lanes (scopeOfCode k.scope) k.mark

/-- The answer of a ferry (R70, R206): the promise in `sd`, the count back, the group goes on. -/
def State.answerCopy (s : State) (n : Nat) : State :=
  let k := s.copy n
  let s := s.modGrp k.core k.slot fun g => g.setSPair k.sd (BitVec.ofNat 64 k.promise)
  (s.uncountGroup k.core k.slot k.gen).resumeAfter k.core k.slot (· == .copy n) 1

/-- A refused or stopped command: the handle of an issuing core that is a destination takes the bits (R209). -/
def State.refuseCopy (s : State) (n : Nat) (bits : BitVec 7) : State :=
  let k := s.copy n
  let H := s.handle k.core k.h
  let k := { k with status := k.status ||| bits, promise := s.cyc.toNat, gens := [(k.core, H.gen)] }
  let s := { s with copies := Tbl.set s.copies n k }
  let s := if k.ownDest then (s.modHandle k.core k.h fun x => { x with copies := x.copies + 1 }).endAt n k.core else s
  (s.answerCopy n).dropCopy n

/-- A command accepted: promise, destinations, the handle's copy, and the bytes that its threads' later accesses follow. -/
def State.acceptCopy (s : State) (n f : Nat) : State :=
  let k := s.copy n
  let H := s.handle k.core k.h
  let p := if k.empty then s.cyc.toNat else s.promiseAt k f
  let dests : List (Nat × Nat) := k.destinations.map fun c => (c, 0)
  let hold : FerryHold := {
    copy := n, id := k.mark, slot := k.slot, gen := k.gen, lanes := k.lanes, writes := s.copyWrites k
    reads := s.copyReads k, rel := k.rel }
  let s := { s with
    copies := Tbl.set s.copies n { k with
      phase := .moving, ferry := f, promise := p, accepted := s.cyc.toNat, dests := dests
      gens := if k.ownDest then [(k.core, H.gen)] else [] }
    ferries := Tbl.mod s.ferries f fun y => { queue := y.queue ++ [n], prev := if k.empty then y.prev else p } }
  let s := if k.ownDest then s.modHandle k.core k.h fun x => { x with copies := x.copies + 1 } else s
  let s := if k.ownDest && H.narrows then s.modWg k.core k.wg fun W => { W with
      stage := W.stage.map fun st => ({ st with copying := true } : StageInfo) } else s
  let s := s.modCore k.core fun x => { x with ferried := hold :: x.ferried }
  let s := if k.acq then s.acquireAt k.core k.ctx .acq (scopeOfCode k.scope) none else s
  s.answerCopy n

/-- The launch of the workgroup that holds a handle, also where it has been saved (R211, R371). -/
def State.holderLaunch (s : State) (c : Nat) (H : Handle) : Option Nat :=
  if H.owner = 0 then none
  else match H.savedAt with
    | some h => some (s.saved h.1 h.2).launch
    | none => some (s.wg c (H.owner - 1)).launch

/-- Whether a remote destination takes a copy: filling, held by the same launch, scratchpad, and room (R211). -/
def State.destOk (s : State) (k : Copy) (c : Nat) : Bool :=
  let H := s.handle c k.h
  H.state == .filling && s.holderLaunch c H == some k.launch && !H.narrows && k.fits H

/-- A destination moves on: the state of its stage (0 to deliver, 1 delivered, 2 complete, 3 skipped). -/
def State.setDest (s : State) (n c v : Nat) : State :=
  s.modCopy n fun k => { k with dests := k.dests.map fun e => if e.1 = c then (c, v) else e }

/-- A destination is reached (R211): the issuing core's handle recorded its generation at acceptance; a remote one is
skipped or takes part from now on. -/
def State.reachDest (s : State) (n c : Nat) : State × Bool :=
  let k := s.copy n
  if c = k.core then (s, true)
  else if s.destOk k c then
    ((s.modCopy n fun k => { k with gens := (c, (s.handle c k.h).gen) :: k.gens }).modHandle c k.h fun x => { x with copies := x.copies + 1 }, true)
  else ((s.setDest n c 3).modCopy n fun k => { k with status := k.status ||| 8 }, false)

/-- A copy whose every destination is complete or skipped leaves; a promise that it has missed is a sample (R273). -/
def State.finishCopy (s : State) (n : Nat) : State :=
  let k := s.copy n
  if k.dests.any fun e => e.2 < 2 then s else
  let s := if k.promise < s.cyc.toNat && !k.empty then s.sample 0x06 none ((s.cyc.toNat : Int) - k.promise) else s
  s.dropCopy n

/-- A destination completes (R276). -/
def State.completeDest (s : State) (n c : Nat) : State := ((s.endAt n c).setDest n c 2).finishCopy n

/-- A box without elements: every destination completes at acceptance (R210). -/
def State.completeEmpty (s : State) (n : Nat) : State :=
  let all := (s.copy n).dests.map (·.1)
  let s := all.foldl (fun s c => (s.reachDest n c).1) s
  (all.filter fun c => (s.copy n).dests.contains (c, 0)).foldl (fun s c => s.completeDest n c) (s.finishCopy n)

/-- Whether the group that issued a copy still waits for its answer. -/
def State.copyAwaited (s : State) (n : Nat) : Bool :=
  let k := s.copy n
  (s.grp k.core k.slot).used && s.genOf k.core k.slot == k.gen && (s.grp k.core k.slot).parkedBy (· == .copy n)

/-- COPY_ACCEPTANCE (R209, R271, R272). DESIGN CHOICE (notes/assumptions/67.md): a command whose ferry field names no ferry is
refused at once, with no test for room. -/
def State.acceptance (s : State) (n : Nat) : State :=
  let k := s.copy n
  let refused := k.refused (s.handle k.core k.h)
  let f := s.ferryOf k refused
  if !k.used || k.phase != .offered then s
  else if !s.copyAwaited n then s.dropCopy n
  else if (s.grp k.core k.slot).halted || s.copyWaits k || s.faults.any (fun x => x.agent == .ferry n) then s
  else if k.status.getLsbD 4 then s.refuseCopy n 16
  else if k.tensor.isEmpty && ptrOk [0, 1] 128 k.ptr then
    match s.devRead k.ctx k.ptr 128, s.xlateDev k.ctx (k.ptr % 2 ^ 48) .read with
    | some b, _ => s.modCopy n fun k => { k with tensor := b }
    | none, .fault kind => (s.modCopy n fun k => { k with ferry := s.ferryOf k false }).postFault k.ctx k.ptr kind (.ferry n)
    | none, .ok _ => s
  else if refused then
    (if k.commandBad && decide (32 ≤ k.ferryField) && k.ferryField != 63 then s.refuseCopy n 48
     else if Config.ferryQueue ≤ (Tbl.get s.ferries f).queue.length then s else s.refuseCopy n 48)
  else if Config.ferryQueue ≤ (Tbl.get s.ferries f).queue.length then s
  else if k.empty then
    (if s.copyReleaseWaits k then s else (s.acceptCopy n f).completeEmpty n)
  else s.acceptCopy n f

/-- COPY_ACCEPTANCE (R272): the record is read, the command checked and accepted, in one step; a record that the tables do
not give parks it (R210). -/
def execCopyAcceptance (copy : Nat) (s : State) : Result :=
  let t := s.acceptance copy
  .next (if (s.copy copy).tensor.isEmpty && !(t.copy copy).tensor.isEmpty then t.acceptance copy else t)

/-! ### Elements -/

/-- A byte of the tensor's space: device memory through the context's tables, or a peer's (R207, R243). -/
def State.tensorByte (s : State) (k : Copy) (a : Nat) : Byte :=
  if k.base / 2 ^ 60 = 4 then
    let n := k.base / 2 ^ 48 % 512
    if n = s.peerNum then
      match s.ownRemote k.ctx .read [(a, 1)] with
      | some (.inr l) => Memory.byte s.dev (l.headD (0, 0)).1
      | _ => 0
    else Memory.byte (Tbl.get s.peers n) a
  else match s.xlateDev k.ctx a .read with
    | .ok pa => Memory.byte s.dev pa
    | .fault _ => 0

/-- The first page of the box that the tables do not give, with the kind of the fault (R210). -/
def State.boxFault (s : State) (k : Copy) : Option (Nat × Nat) :=
  if k.base / 2 ^ 60 = 4 || k.fills then none else
  ((List.range k.count).filter k.inside).findSome? fun n => (k.ranges n).findSome? fun r =>
    (pageSplit r.1 r.2).findSome? fun v =>
      match s.xlateDev k.ctx v.1 (if k.out then .write else .read) with
      | .fault kind => some (k.base / 2 ^ 48 * 2 ^ 48 + v.1, kind)
      | .ok _ => none

/-- The code of an element of the tensor: its planes' bits from bit 7 down, or its own bits (R14, R16, R207). -/
def Copy.codeOf (k : Copy) (byte : Nat → Byte) (n : Nat) : Nat :=
  let c0 := (k.tcoord n 0 % 128).toNat
  if k.tfmt.isPlane then
    ((k.ranges n).zipIdx.map fun e => if (byte e.1.1).toNat.testBit (c0 % 8) then 2 ^ (7 - e.2) else 0).foldl (· + ·) 0
  else
    let bit := (k.tcoord n 0 * k.tfmt.width % 8).toNat
    let x := leNat ((k.ranges n).flatMap fun r => (upFrom r.1 r.2).map byte)
    x / 2 ^ bit % 2 ^ k.tfmt.width

/-- The value of a code of the tensor's or the handle's format (R9, R16). -/
def codeValue (f : Fmt) (c : Nat) : FVal :=
  if f.isPlane then .ofInt (planePrefix f.planeSigned f.planes false c) else fmtValue f c

/-- A value scaled and converted into a format: code, NV and OF (R210). -/
def Copy.conv (k : Copy) (f : Fmt) (x : FVal) : Nat × Bool × Bool :=
  let r := fmtConvert (drainFmt f) (FVal.mul x k.scale) k.mode k.bound 0
  (fmtCode (drainFmt f) r.val, r.nv, r.of)

/-- Bytes of a place that a lasting error has zeroed and that still read as zero (R210, R392, notes/assumptions/33.md). -/
def State.zeroedIn (s : State) (pl : Place) (byte : Nat → Byte) (ps : List (Nat × Nat)) : Bool :=
  s.zeroed.any fun z => z.1 == pl && ps.any fun p =>
    let lo := max p.1 z.2.1
    let n := min (p.1 + p.2) (z.2.1 + z.2.2) - lo
    n != 0 && (upFrom lo n).all fun a => byte a == 0

/-- Whether an element of the tensor lies in such bytes of device memory, also where it is named through the device's own peer number
(R243). -/
def State.zeroedAt (s : State) (k : Copy) (n : Nat) : Bool :=
  s.zeroedIn .device (Memory.byte s.dev) ((k.ranges n).flatMap fun r =>
    if k.base / 2 ^ 60 ≠ 4 then (s.devSpan k.ctx .read [r]).bytes
    else if k.base / 2 ^ 48 % 512 ≠ s.peerNum then []
    else match s.ownRemote k.ctx .read (pageSplit r.1 r.2) with
      | some (.inr l) => l
      | _ => [])

/-- Bits of a code laid from a bit on, by byte: address, mask and value (R14, R15). -/
def codeBytes (f : Fmt) (start e code : Nat) : List (Nat × Nat × Nat) :=
  if f.isPlane then (upFrom 0 8).map fun q =>
    (start + 128 * (e / 128) + 16 * q + e % 128 / 8, 2 ^ (e % 8), if code.testBit (7 - q) then 2 ^ (e % 8) else 0)
  else
    let bit := f.width * e
    let mask := (2 ^ f.width - 1) * 2 ^ (bit % 8)
    let val := code % 2 ^ f.width * 2 ^ (bit % 8)
    (upFrom 0 ((bit % 8 + f.width + 7) / 8)).map fun i => (start + bit / 8 + i, mask / 2 ^ (8 * i) % 256, val / 2 ^ (8 * i) % 256)

/-- Whether an element of the handle lies in such bytes of the Narrows or of the scratchpad. -/
def State.zeroedHandle (s : State) (k : Copy) (H : Handle) (n : Nat) : Bool :=
  let r := k.place n
  let at_ (a : Nat) : Nat := if H.narrows then H.off * Config.unitBytes + a else H.off + a
  s.zeroedIn (if H.narrows then .narrows else .sram k.core)
    (fun a => if H.narrows then Memory.byte s.narrows a else (s.core k.core).sramByte H.gen a)
    ((codeBytes k.hfmt (r.1 * k.pitch) r.2 0).map fun b => (at_ b.1, 1))

/-- The bits of the copy status: clipped, NV, OF and zeroed. -/
def statusBits (clipped nv of zeroed : Bool) : BitVec 7 :=
  (if clipped then 1 else 0) ||| (if nv then 2 else 0) ||| (if of then 4 else 0) ||| (if zeroed then 64 else 0)

/-- What the ferry reads: a code to write for each element of the box, none where it writes nothing, and the status
(R210, R274). -/
def State.gatherBox (s : State) (k : Copy) (H : Handle) (handleCode : Nat → Nat) : List (Option Nat) × BitVec 7 :=
  let byte := s.tensorByte k
  let one (n : Nat) : Option Nat × BitVec 7 :=
    if k.out then
      if !k.inside n then (none, statusBits true false false false)
      else
        if s.zeroedHandle k H n then (some 0, statusBits false false false true) else
        let r := k.conv k.tfmt (codeValue k.hfmt (handleCode n))
        (some r.1, statusBits false r.2.1 r.2.2 false)
    else if k.fills then
      let r := k.conv k.hfmt k.fillValue
      (some r.1, statusBits false r.2.1 r.2.2 false)
    else if !k.inside n then (some 0, statusBits true false false false)
    else if s.zeroedAt k n then (some 0, statusBits false false false true)
    else
      let r := k.conv k.hfmt (codeValue k.tfmt (k.codeOf byte n))
      (some r.1, statusBits false r.2.1 r.2.2 false)
  let all := (List.range k.count).map one
  (all.map (·.1), all.foldl (fun b e => b ||| e.2) 0)

/-- A byte with some of its bits replaced. -/
def mergeByte (old : Byte) (mask val : Nat) : Byte := BitVec.ofNat 8 ((old.toNat &&& (255 - mask)) ||| val)

/-- A byte of a handle's target (R53, R210). -/
def State.handleByte (s : State) (c : Nat) (H : Handle) (a : Nat) : Byte :=
  if H.narrows then Memory.byte s.narrows (H.off * Config.unitBytes + a) else (s.core c).sramByte H.gen (H.off + a)

/-- A byte of a handle's target written, under the generation of its claim (R54, R210). -/
def State.putHandleByte (s : State) (c : Nat) (H : Handle) (a : Nat) (b : Byte) : State :=
  if H.narrows then { s with narrows := Memory.put s.narrows (H.off * Config.unitBytes + a) b }
  else s.modCore c fun x => x.setSram H.gen (H.off + a) b

/-- The code of an element as the handle holds it. -/
def State.handleCode (s : State) (k : Copy) (H : Handle) (n : Nat) : Nat :=
  let r := k.place n
  let bytes := codeBytes k.hfmt (r.1 * k.pitch) r.2 0
  let old (a : Nat) : Nat := (s.handleByte k.core H a).toNat
  if k.hfmt.isPlane then
    (bytes.zipIdx.map fun b => if (old b.1.1).testBit (r.2 % 8) then 2 ^ (7 - b.2) else 0).foldl (· + ·) 0
  else (bytes.foldr (fun b x => old b.1 + 256 * x) 0) / 2 ^ (k.hfmt.width * r.2 % 8) % 2 ^ k.hfmt.width

/-- The box written into a handle (R210); with its allocation ended the writes are dropped and counted (R56). -/
def State.fillHandle (s : State) (k : Copy) (c : Nat) (H : Handle) : State :=
  let gen := ((k.gens.find? fun e => e.1 == c).map (·.2)).getD 0
  if !H.narrows && !(s.core c).isLive gen then s.modCore c Core.drop else
  k.data.zipIdx.foldl (fun s e => match e.1 with
    | none => s
    | some code =>
      let r := k.place e.2
      (codeBytes k.hfmt (r.1 * k.pitch) r.2 code).foldl (fun s b =>
        s.putHandleByte c { H with gen := gen } b.1 (mergeByte (s.handleByte c { H with gen := gen } b.1) b.2.1 b.2.2)) s) s

/-- The bytes of one element of the tensor written whole, at each page at once (R246, R279). -/
def State.putTensor (s : State) (k : Copy) (a : Nat) (bs : List Byte) : State :=
  if k.base / 2 ^ 60 = 4 then
    let n := k.base / 2 ^ 48 % 512
    if n = s.peerNum then
      match s.ownRemote k.ctx .write (pageSplit a bs.length) with
      | some (.inr l) => (splitData l bs).foldl (fun s p => s.placeDev p.1 p.2) s
      | _ => s
    else { s with peers := Tbl.mod s.peers n fun m => Memory.write m a bs }
  else (splitData (pageSplit a bs.length) bs).foldl (fun s v => match s.xlateDev k.ctx v.1 .write with
    | .ok pa => s.placeDev pa v.2
    | .fault _ => s) s

/-- Runs of bytes of an element in the tensor, each with the mask and the value of a code for its bytes. -/
def Copy.tensorBits (k : Copy) (n code : Nat) : List (Nat × List (Nat × Nat)) :=
  let c0 := (k.tcoord n 0 % 128).toNat
  if k.tfmt.isPlane then (k.ranges n).zipIdx.map fun e =>
    (e.1.1, [(2 ^ (c0 % 8), if code.testBit (7 - e.2) then 2 ^ (c0 % 8) else 0)])
  else
    let bit := (k.tcoord n 0 * k.tfmt.width % 8).toNat
    (k.ranges n).map fun r => (r.1, (upFrom 0 r.2).map fun i =>
      ((2 ^ k.tfmt.width - 1) * 2 ^ bit / 2 ^ (8 * i) % 256, code % 2 ^ k.tfmt.width * 2 ^ bit / 2 ^ (8 * i) % 256))

/-- The box written into the tensor, in ascending box order (R274). -/
def State.drainHandle (s : State) (k : Copy) : State :=
  k.data.zipIdx.foldl (fun s e => match e.1 with
    | none => s
    | some code => (k.tensorBits e.2 code).foldl (fun s b =>
        s.putTensor k b.1 (b.2.zipIdx.map fun m => mergeByte (s.tensorByte k (b.1 + m.2)) m.1.1 m.1.2)) s) s

/-! ### Delivery -/

/-- Earlier commands of the ferry have begun, or wait for a translation (R271). -/
def State.copyTurn (s : State) (n : Nat) : Bool :=
  let k := s.copy n
  ((Tbl.get s.ferries k.ferry).queue.takeWhile (· != n)).all fun m => (s.copy m).taken || (s.copy m).stuck.isSome ||
    s.faults.any fun f => f.agent == .ferry m

/-- A copy whose tensor lies at a peer's number (R207, R382). -/
def Copy.remote (k : Copy) : Bool := k.base / 2 ^ 60 == 4 && !k.fills
/-- That number. -/
def Copy.peer (k : Copy) : Nat := k.base / 2 ^ 48 % 512

/-- The pages of a box in this device's own memory through the Strait path: none where no context accepts them, or the first
that its tables do not give, with its pointer, context and kind (R243, R384). -/
def State.ownFault (s : State) (k : Copy) : Option (Option (Nat × Nat × Nat)) :=
  if !(k.remote && k.peer == s.peerNum) then some none else
  (((List.range k.count).filter k.inside).flatMap fun n => (k.ranges n).flatMap fun r => pageSplit r.1 r.2).foldr (fun v acc =>
    match s.ownRemote k.ctx (if k.out then .write else .read) [v] with
    | none => none
    | some (.inl f) => acc.map fun _ => some (k.base / 2 ^ 48 * 2 ^ 48 + v.1, f)
    | some (.inr _) => acc) (some none)

/-- A copy stops with the fault bit. -/
def State.stopCopy (s : State) (n : Nat) : State :=
  s.modCopy n fun k => { k with taken := true, phase := .moving, stuck := none, status := k.status ||| 16 }

/-- The links of a line of a copy's peer (R382). -/
def State.copyLink (s : State) (k : Copy) (line : Nat) : Port := Tbl.get s.links (portOf k.peer line)

/-- The pointer of a remote access of a copy that fails: the first byte of its box in a line whose port is held down, else its first
byte (R385). -/
def State.failPtr (s : State) (k : Copy) : Nat :=
  let all := ((List.range k.count).filter k.inside).flatMap k.ranges
  k.base / 2 ^ 48 * 2 ^ 48 + ((all.find? fun r => (s.copyLink k (r.1 / 64)).held).getD (all.headD (0, 0))).1

/-- A remote access of a ferry fails: its launch ends, and the copy stops (R385). -/
def State.failCopy (s : State) (n : Nat) : State :=
  let k := s.copy n
  let s := s.stopCopy n
  if (s.launch k.launch).used then s.faultEnd k.launch 0x0A k.core (s.grp k.core k.slot).index (s.failPtr k) else s

/-- What a copy is still to read or to write for its issuing threads changes: accesses that it held back may go on. -/
def State.modHold (s : State) (n : Nat) (f : FerryHold → FerryHold) : State :=
  s.modCore (s.copy n).core fun x => Core.settle { x with ferried := x.ferried.map fun h => if h.copy = n then f h else h }

/-- A ferry's reads count as reads of its issuing threads: writes not acknowledged that they return are marked (R255, R257). -/
def State.ferryReads (s : State) (k : Copy) : State :=
  let r := s.copyReads k
  s.markUnacked k.core { (default : MemOp) with
    id := k.mark, slot := k.slot, lanes := k.lanes, gen := k.gen, ctx := k.ctx, place := r.home, pieces := r.bytes, vas := r.vas
    act := .load (.plain .b32) 0 }

/-- The ferry begins a copy: it reads the box once; a page that the tables do not give parks it (R210, R274, R384). -/
def State.beginCopy (s : State) (n : Nat) : State :=
  let k := s.copy n
  if k.status.getLsbD 4 then s.stopCopy n
  else match s.ownFault k, s.boxFault k with
  | none, _ => s.failCopy n
  | some (some (ptr, ctx, kind)), _ =>
    (s.modCopy n fun k => { k with phase := .parked, stuck := some ptr }).postFault ctx ptr kind (.strait s.peerNum)
  | some none, some f => (s.modCopy n fun k => { k with phase := .parked }).postFault k.ctx f.1 f.2 (.ferry n)
  | some none, none =>
    let H : Handle := { s.handle k.core k.h with gen := ((k.gens.find? fun e => e.1 == k.core).map (·.2)).getD 0 }
    let d := s.gatherBox k H (s.handleCode k H)
    ((s.ferryReads k).modHold n fun h => { h with reads := {} }).modCopy n fun k => { k with taken := true, phase := .moving, stuck := none, data := d.1, status := k.status ||| d.2 }

/-- The ports of a copy's lines are all up: nothing crosses a port that is down or held (R382, R383). -/
def State.copyLinked (s : State) (k : Copy) : Bool := !k.remote || k.lines.all fun l => (s.copyLink k l).up

/-- A ferry's accesses to device memory wait for room in the walkers of filtered lines (R282). -/
def State.copyHeld (s : State) (k : Copy) : Bool :=
  let t := s.tensorSpan k
  !k.fills && t.home == .device && s.walkFull t.bytes

/-- A copy whose remote access may fail: its reads, or its writes, are still to be made; those to another peer fail for want of a
context or by its resolver, those to any on a port held down or past their limit (R383, R385). -/
def State.copyMayFail (s : State) (k : Copy) : Bool :=
  k.used && k.phase != .offered && k.remote && k.status.getLsbD 4 == false && !k.lines.isEmpty &&
    (k.peer != s.peerNum || (k.lines.any fun l => (s.copyLink k l).held) || decide (k.accepted + remoteLimit ≤ s.cyc.toNat)) &&
    (if k.out then k.dests.any fun e => e.2 == 0 else !k.taken)

/-- A copy's writes to a peer wait for their acknowledgement (R259, R385). -/
def State.awaitAck (s : State) (n : Nat) : State :=
  let k := s.copy n
  if !(k.out && k.remote) || k.lines.isEmpty then s else
  let id := (s.core k.core).nextOp
  let u : Unacked := {
    id := id, slot := k.slot, lanes := k.lanes, gen := k.gen, host := false, readers := [], ea := s.failPtr k, place := .peer k.peer
    own := k.peer == s.peerNum, pieces := (s.tensorSpan k).bytes, since := s.cyc.toNat, launch := k.launch }
  (s.modCore k.core fun x => { x with nextOp := x.nextOp + 1, unacked := u :: x.unacked }).modCopy n fun k => { k with ack := id + 1 }

/-- The release of a copy at `.pod` or `.sys` still waits for its own writes (R212, R249). -/
def State.ackWaits (s : State) (k : Copy) : Bool :=
  k.rel && decide (4 ≤ k.scope) && (s.core k.core).unacked.any fun u => u.id + 1 == k.ack

/-- One destination of a copy that has begun (R211, R275). -/
def State.deliver (s : State) (n c : Nat) : State :=
  if !(s.copy n).dests.contains (c, 0) then s else
  let (s, ok) := s.reachDest n c
  if !ok then s.finishCopy n else
  let k := s.copy n
  let s := if k.status.getLsbD 4 then s else if k.out then (s.drainHandle k).awaitAck n else s.fillHandle k c (s.handle c k.h)
  let s := if c = k.core then s.modHold n fun h => { h with writes := {}, reads := {} } else s
  s.setDest n c 1

/-- FERRY_DESTINATION_DELIVERY (R210, R211, R274, R275). -/
def execFerryDestinationDelivery (copy dest : Nat) (s : State) : Result :=
  let k := s.copy copy
  .next (if !k.used || k.phase == .offered || s.power.stopped || !s.copyTurn copy || k.stuck.isSome ||
      !s.copyLinked k || s.copyHeld k || s.faults.any (fun f => f.agent == .ferry copy) then s
    else
      let s := if k.taken then s else s.beginCopy copy
      if (s.copy copy).taken then s.deliver copy dest else s)

/-- COPY_COMPLETION (R212, R276): after the last write at every destination and the release. -/
def execCopyCompletion (copy dest : Nat) (s : State) : Result :=
  let k := s.copy copy
  .next (if !k.used || !k.dests.contains (dest, 1) || k.dests.any (fun e => e.2 == 0) || s.power.stopped || s.copyReleaseWaits k || s.ackWaits k then s
    else s.completeDest copy dest)

end Sys2Proof.Machine
end

