-- ==== Sys2Proof/Machine/Fetch.lean ====
section
/-! DEFINITION. One turn up to the instruction it runs: the turn taken, the entry a pipe issues (R228), the fetch of its
word and trailer (R66, R69, R148), and the decode traps (R68). -/

namespace Sys2Proof.Machine

/-- The next turn: the head of the agenda, or one that the model leaves open (notes/assumptions/1.md). -/
def State.turn (s : State) : Turn :=
  match s.agenda with
  | t :: _ => t
  | [] => Config.freeTurn s.tick

/-! ### Fetch -/

/-- The launch that a launch number names on a core (R222). -/
def Core.launchNumbered (x : Core) (num : Nat) : Nat := Tbl.get x.nums num - 1

/-- A byte of device memory as it stood before the last `k` writes (R69). -/
def State.byteBefore (s : State) (k a : Nat) : Byte :=
  match (s.past.take k).reverse.find? (fun e => decide (e.1 ≤ a) && decide (a < e.1 + e.2.length)) with
  | some e => e.2.getD (a - e.1) 0
  | none => Memory.byte s.dev a

/-- How many of the writes since a launch's first placement a fetch does not see yet: the hardware's choice, in the bits of the turn
from `bit` on (R69). -/
def State.unseen (s : State) (l bit : Nat) : Nat := s.choice / 2 ^ bit % 2 ^ 32 % (s.past.length - (s.launch l).textAt + 1)

/-- One word fetched for a launch on a core, or the kind of the fault (R69, R148). -/
def State.fetchWord (s : State) (c l pc k : Nat) : Except Nat Nat :=
  match (s.xlate c (s.launch l).ctx pc .fetch).2 with
  | .fault f => .error f
  | .ok pa => .ok (if k = 0 then Memory.nat s.dev pa 4 else leNat ((upFrom pa 4).map (s.byteBefore k)))

/-- A word and its trailer, 0 where it has none; each may be an old or the new one (R66, R69). The error holds the address and
the kind of the fault. -/
def State.fetchInst (s : State) (c l pc : Nat) : Except (Nat × Nat) (Nat × Nat × Nat) :=
  match s.fetchWord c l pc (s.unseen l 8) with
  | .error k => .error (pc, k)
  | .ok w =>
    if hasTrailer w && !unassignedMajor w then
      match s.fetchWord c l (pc + 4) (s.unseen l 40) with
      | .error k => .error (pc + 4, k)
      | .ok t => .ok (w, t, 2)
    else .ok (w, 0, 1)

/-! ### The choice of an entry -/

/-- The pipe that a word needs (R228). -/
def pipeOf (w : Nat) : Pipe :=
  let m := w / 2 ^ 24 % 64
  if w.testBit 31 then .uniform
  else if (decide (0x30 ≤ m) && decide (m ≤ 0x36)) || m == 0x3C then .memory
  else .lane

/-- Whether an entry may issue (R228). -/
def Core.eligibleEntry (x : Core) (e : Entry) : Bool :=
  e.aged || (maskList (partLanes e.parts) 64).length == 64 ||
    (x.queue.any (fun h => setOf h.pc h.num == e.set) && (x.freeWay e.set).isNone &&
      oldest (x.table.filter fun f => f.set == e.set) == some e)

/-- Whether a pipe serves an entry: by the word it fetches; any pipe takes a fetch that faults. -/
def State.serves (s : State) (c : Nat) (pipe : Pipe) (e : Entry) : Bool :=
  match s.fetchInst c ((s.core c).launchNumbered e.num) e.pc with
  | .ok (w, _) => pipeOf w == pipe
  | .error _ => true

/-- The oldest eligible entry that a pipe can serve (R228). -/
def State.pickEntry (s : State) (c : Nat) (pipe : Pipe) : Option Entry :=
  oldest ((s.core c).table.filter fun e => (s.core c).eligibleEntry e && s.serves c pipe e)

/-- The entry empties as it issues (R228). -/
def State.takeEntry (s : State) (c : Nat) (e : Entry) : State :=
  s.modCore c fun x => Core.served { x with table := x.table.filter fun f => f != e } s.cyc.toNat

/-- A fetch that faults parks the threads of each group of the entry and posts one record for each group (R129, R148). -/
def State.fetchFault (s : State) (c : Nat) (parts : List (Nat × Nat)) (ptr kind : Nat) : State :=
  parts.foldl (fun s p =>
    let s := s.modGrp c p.1 fun x => { x with
      thr := (maskList p.2 64).foldl (fun t l => Tbl.mod t l fun u => { u with wait := .fault }) x.thr }
    s.postFault (s.launchOf c p.1).ctx ptr kind (.fetch c p.1 p.2 false)) s

/-- A decode trap for every group of the instance that is still there (R68). -/
def State.decodeTrap (s : State) (i : Inst) (t : Trap) : State :=
  let one (s : State) (p : Nat × Nat) : State :=
    if !(s.grp i.core p.1).used then s else s.takeTrap i.core p.1 p.2 i.pc (i.word.testBit 31) { t with lane := (maskList p.2 64).headD 0 }
  i.parts.foldl one s

/-- The instruction that an instance runs, decoded; a decode error is its trap (R68); a lane word in a handler is an illegal
instruction, whatever its operands (R186). -/
def State.decoded (s : State) (i : Inst) : State × Option Instr :=
  match decodeWords i.word i.trailer with
  | .ok ins => ({ s with inst := some i }, some ins)
  | .error .illegalOperand =>
    (s.decodeTrap i (if i.handler && !i.word.testBit 31 then { cause := 0x01, tval := i.word } else { cause := 0x02, tval := i.both }), none)
  | .error _ => (s.decodeTrap i { cause := 0x01, tval := i.word }, none)

/-- A pipe issues: the entry, its word and trailer, the instruction (R228); nothing issues in the thermal stop (R399). -/
def State.issue (s : State) (c : Nat) (pipe : Pipe) : State × Option Instr :=
  if s.power.stopped then (s, none) else
  match s.pickEntry c pipe with
  | none => (s, none)
  | some e =>
    let f := s.fetchInst c ((s.core c).launchNumbered e.num) e.pc
    let s := s.takeEntry c e
    match f with
    | .error (ptr, k) => (s.fetchFault c e.parts ptr k, none)
    | .ok (w, t, n) =>
      s.decoded { core := c, pc := e.pc, num := e.num, parts := e.parts, word := w, trailer := t, words := n }

/-- A group in handler mode issues the handler's next word (R186). -/
def State.handlerIssue (s : State) (c g : Nat) : State × Option Instr :=
  let G := s.grp c g
  match G.handler with
  | none => (s, none)
  | some h =>
    if s.power.stopped || !G.used || G.park != .none || G.usw || G.halted then (s, none) else
    let l := (s.wgOf c g).launch
    match s.fetchInst c l h.pc with
    | .error (ptr, k) =>
      ((s.modGrp c g fun x => { x with park := .fault true, ppc := h.pc, pset := h.set }).postFault (s.launch l).ctx ptr k
        (.fetch c g h.set true), none)
    | .ok (w, t, n) =>
      s.decoded { core := c, pc := h.pc, num := (s.core c).numOf l, parts := [(g, h.set)], handler := true, word := w,
                  trailer := t, words := n }

/-! ### Placing one instruction -/

/-- Where `withFetchWord` puts an instruction: a word address of space 0x0 and the page that holds it. -/
def probePc : Nat := 0x300000000

/-- A machine about to issue one instruction (notes/assumptions/4.md): launch 0 of context 0 runs one workgroup of one
group on core 0, with 64 live threads at `probePc`, 128 vector and 256 uniform registers, a page of code there, and the
instruction's words in device memory; the next turn issues it. -/
def State.placeWord (s : State) (w : Nat) : State :=
  let bytes := wordBytes (w % 2 ^ 32) ++ wordBytes (w / 2 ^ 32 % 2 ^ 32)
  let thr : Tbl Thread := (List.range 64).map fun l => (l, { live := true, pc := probePc, seed := 1 })
  let g : Group := { used := true, wg := 0, index := 0, vregs := 128, sregs := 256, thr := thr }
  let wg : Wg := { used := true, launch := 0, slots := [0], gen := 1, scrLen := 1024 }
  let e : Entry := { set := setOf probePc 0, way := 0, num := 0, pc := probePc, parts := [(0, allLanes)], age := 0, order := 0, aged := true }
  let page : TlbEntry := { ctx := 0, va := probePc, size := 65536, pa := probePc, w := true, x := true }
  let x := s.core 0
  { s with
    agenda := { choice := 0, act := .issue 0 (pipeOf (w % 2 ^ 32)) } :: s.agenda
    dev := Memory.write s.dev probePc bytes
    launches := Tbl.set s.launches 0 { used := true, lr := { vregs := 128, sregs := 256, groups := 1, producer := some 0 } }
    cores := Tbl.set s.cores 0 { x with
      nextGen := 2
      nums := Tbl.set x.nums 0 1
      wgs := Tbl.set x.wgs 0 wg
      grps := Tbl.set x.grps 0 g
      table := [e]
      tlb := [page] } }

end Sys2Proof.Machine
end

