-- ==== Sys2Proof/Machine/Ray.lean ====
section
/-! DEFINITION. The traversal unit: nodes, intersection in exact arithmetic, `RAYQ` and `RAYN` (R140 to R143, R303 to
R305). -/

namespace Sys2Proof.Machine

/-- A value that is a number. -/
def FVal.finite : FVal → Bool
  | .fin _ _ => true
  | _ => false

/-- A NaN anywhere makes every test miss (R141). -/
def Ray.hasNan (r : Ray) : Bool := (r.tmin :: r.tmax :: r.o ++ r.d).any (·.isNan)

/-- The order of R141 on values that are not NaN. -/
def FVal.leq (a b : FVal) : Bool := decide (FVal.cmp false a b ≤ 0)

/-- The larger of two values. -/
def FVal.hi (a b : FVal) : FVal := if a.leq b then b else a
/-- The smaller of two values. -/
def FVal.lo (a b : FVal) : FVal := if a.leq b then a else b

/-- The slab of one axis, none where it is empty (R141). -/
def slab (lo hi o d : Rat) : Option (FVal × FVal) :=
  if d = 0 then (if lo ≤ o ∧ o ≤ hi then some (.inf true, .inf false) else none)
  else
    let t1 := (lo - o) / d
    let t2 := (hi - o) / d
    some (.ofSigned (min t1 t2), .ofSigned (max t1 t2))

/-- The box test: the exact entry distance of a hit (R141). -/
def boxTest (r : Ray) (lo hi : List Rat) : Option FVal :=
  let axis (i : Nat) : Option (FVal × FVal) :=
    slab (lo.getD i 0) (hi.getD i 0) (r.o.getD i default).toRat (r.d.getD i default).toRat
  match axis 0, axis 1, axis 2 with
  | some x, some y, some z =>
    let tn := [x.1, y.1, z.1].foldl FVal.hi r.tmin
    let tf := [x.2, y.2, z.2].foldl FVal.lo r.tmax
    if tn.leq tf then some tn else none
  | _, _, _ => none

/-- The determinant of three columns. -/
def det3 (a b c : List Rat) : Rat :=
  let g (l : List Rat) (i : Nat) : Rat := l.getD i 0
  g a 0 * (g b 1 * g c 2 - g b 2 * g c 1) - g b 0 * (g a 1 * g c 2 - g a 2 * g c 1) + g c 0 * (g a 1 * g b 2 - g a 2 * g b 1)

/-- Differences of two points. -/
def sub3 (a b : List Rat) : List Rat := (upFrom 0 3).map fun i => a.getD i 0 - b.getD i 0

/-- The triangle test: exact t, u, v of a hit (R141). The three unknowns solve t·d − u·e1 − v·e2 = p0 − o; which sign the
culled determinant has is open (`Config.detFlip`). -/
def triTest (r : Ray) (cull : Bool) (p0 p1 p2 : List Rat) : Option (Rat × Rat × Rat) :=
  let d := r.d.map FVal.toRat
  let b := sub3 p0 (r.o.map FVal.toRat)
  let m1 := (sub3 p1 p0).map (- ·)
  let m2 := (sub3 p2 p0).map (- ·)
  let det := det3 d m1 m2
  if det = 0 then none else
  let t := det3 b m1 m2 / det
  let u := det3 d b m2 / det
  let v := det3 d m1 b / det
  let signed := if Config.detFlip then -det else det
  if 0 ≤ u ∧ 0 ≤ v ∧ u + v ≤ 1 ∧ r.tmin.leq (.ofSigned t) ∧ (FVal.ofSigned t).leq r.tmax ∧ ¬(cull = true ∧ signed < 0) then
    some (t, u, v)
  else none

/-! ### Nodes -/

/-- One child of a box node (R303). -/
structure Child where
  slot : Nat
  lo : List FVal
  hi : List FVal
  ptr : Nat
  deriving DecidableEq, Repr, Inhabited

/-- A node as the unit reads it (R303, R304). -/
inductive Node where
  | box (children : List Child)
  | leaf (user : Nat) (tris : List (List FVal))
  deriving DecidableEq, Repr, Inhabited

/-- What a fetch gives: a node, or an unsettled node with the kind byte last read. -/
inductive Fetch where
  | settled (n : Node)
  | unsettled (kind : Nat)
  deriving DecidableEq, Repr, Inhabited

/-- The address of child slot `c`, modulo 2^64 (R303). -/
def childPtr (ptr : Nat) (bs : List Byte) (c : Nat) : Nat :=
  (((ptr : Int) + 64 * sextNat (fieldAt bs (0x30 + 4 * c) 4) 32) % 2 ^ 64).toNat

/-- The bounds of child slot `c` (R303): origin plus quantised offset times two to the exponent. -/
def childBound (bs : List Byte) (c off : Nat) : List FVal :=
  (upFrom 0 3).map fun a =>
    let q := fieldAt bs (0x18 + 6 * c + off + a) 1
    let e := sextNat (fieldAt bs (6 + a) 1) 8
    match fmt32.decode (fieldAt bs (0x0C + 4 * a) 4) with
    | .fin s m => .ofSigned ((FVal.fin s m).toRat + (q : Rat) * pow2 e)
    | v => v

/-- A box node from its bytes (R303, R305). -/
def boxNode (ptr : Nat) (bs : List Byte) : Option Node :=
  let valid := fieldAt bs 5 1
  let cs := (upFrom 0 4).filter fun c => valid.testBit c
  if 16 ≤ valid ∨ fieldAt bs 9 3 ≠ 0 ∨ cs.any (fun c => !inDevice (childPtr ptr bs c)) then none
  else some (.box (cs.map fun c =>
    { slot := c, lo := childBound bs c 0, hi := childBound bs c 3, ptr := childPtr ptr bs c }))

/-- The triangles of a leaf from their bytes (R304). -/
def trianglesOf (n : Nat) (bs : List Byte) : List (List FVal) :=
  (upFrom 0 n).map fun t => (upFrom 0 9).map fun i => fmt32.decode (fieldAt bs (36 * t + 4 * i) 4)

/-- A leaf whose fields let its triangles be read (R304, R305). DESIGN CHOICE (notes/assumptions/60.md): an array pointer that is
not 4-aligned is read where it points. -/
def leafOk (bs : List Byte) : Bool :=
  fieldAt bs 4 1 == 1 && decide (fieldAt bs 5 1 ≤ 16) && fieldAt bs 6 2 == 0 && fieldAt bs 0x0C 4 == 0 && fieldAt bs 0x18 40 == 0 &&
    inDevice (fieldAt bs 0x10 8)

/-- Bytes of a leaf's triangle array (R304). -/
def trisBytes (bs : List Byte) : Nat := if leafOk bs then 36 * fieldAt bs 5 1 else 0

/-- A settled node from its bytes, none where R305 raises the trap. -/
def nodeOf (ptr : Nat) (bs ts : List Byte) : Option Node :=
  if fieldAt bs 4 1 = 0 then boxNode ptr bs
  else if leafOk bs then some (.leaf (fieldAt bs 8 4) (trianglesOf (fieldAt bs 5 1) ts))
  else none

/-- Whether a hit comes before another: smaller t, then lower leaf address, then lower triangle index (R141). -/
def Hit.before (a b : Hit) : Bool :=
  decide (a.t < b.t) || (a.t == b.t && (decide (a.leaf < b.leaf) || (a.leaf == b.leaf && decide (a.tri < b.tri))))

/-- An open numeric outcome as a rational (notes/assumptions/13.md). -/
def openRat (key : Nat) : Rat := (fmt32.decode (Config.openWord key).toNat).toRat

/-- A ray or corner without finite coordinates leaves a test open; a NaN misses, in a corner by DESIGN CHOICE (R141,
notes/assumptions/60.md). -/
def Ray.open_ (r : Ray) (vs : List FVal) : Bool := (r.o ++ r.d ++ vs).any (fun v => !v.finite)

/-- The hits of a leaf in triangle order. -/
def leafHits (r : Ray) (cull : Bool) (key ptr user : Nat) (tris : List (List FVal)) : List Hit :=
  if r.hasNan then [] else
  tris.zipIdx.filterMap fun e =>
    let vs := e.1
    let k := key + 8 * e.2
    if vs.any (·.isNan) then none
    else if r.open_ vs then
      if (Config.openWord k).getLsbD 0 then
        some { t := openRat (k + 1), u := openRat (k + 2), v := openRat (k + 3), tri := e.2, user := user, leaf := ptr }
      else none
    else
      let q := vs.map FVal.toRat
      (triTest r cull (q.take 3) ((q.drop 3).take 3) ((q.drop 6).take 3)).map fun h =>
        { t := h.1, u := h.2.1, v := h.2.2, tri := e.2, user := user, leaf := ptr }

/-- The entry distance of a child, rounded as R141 says, none on a miss. DESIGN CHOICE: a NaN in the bounds misses, which R141
states of a NaN in the ray alone (notes/assumptions/60.md). -/
def childEntry (r : Ray) (key : Nat) (c : Child) : Option FVal :=
  let vs := c.lo ++ c.hi
  if r.hasNan || vs.any (·.isNan) then none
  else (if r.open_ vs then
      if (Config.openWord (key + 2 * c.slot)).getLsbD 0 then some (.ofSigned (openRat (key + 2 * c.slot + 1))) else none
    else boxTest r (c.lo.map FVal.toRat) (c.hi.map FVal.toRat)).map (fmt32.narrow .rd)

/-- The nearest of a list of hits. -/
def nearest : List Hit → Option Hit
  | [] => none
  | h :: t => match nearest t with
    | none => some h
    | some g => if g.before h then some g else some h

/-- A child put among others by ascending entry distance, then slot (R141). -/
def insertChild (e : FVal × Child) : List (FVal × Child) → List (FVal × Child)
  | [] => [e]
  | h :: t => if decide (FVal.cmp false e.1 h.1 < 0) then e :: h :: t else h :: insertChild e t

/-- An `f32` register word of an exact value. -/
def roundWord (mode : Mode) (v : FVal) : Word := BitVec.ofNat 32 (fmt32.encode (fmt32.narrow mode v))

/-- The word of +inf. -/
def infWord : Word := 0x7F800000

/-- The ray in eight registers (R140). -/
def rayOf (rd : Nat → Word) (vb : Nat) : Ray :=
  let f (i : Nat) : FVal := fmt32.decode (rd (vb + i)).toNat
  { o := [f 0, f 1, f 2], tmin := f 3, d := [f 4, f 5, f 6], tmax := f 7 }

/-- The record of `RAYQ` (R142); the registers that a miss does not name are open. -/
def rayqRecord (tr : Trav) : List Word :=
  let status (code : Nat) : Word := BitVec.ofNat 32 (code + (if tr.unstable then 2 else 0) + min tr.visited 0xFFFF * 2 ^ 16)
  let key := tr.key
  match tr.best with
  | some h => [roundWord .rne (.ofSigned h.t), BitVec.ofNat 32 h.tri, BitVec.ofNat 32 h.user,
      roundWord .rne (.ofSigned h.u), roundWord .rne (.ofSigned h.v), status 0,
      BitVec.ofNat 32 h.leaf, BitVec.ofNat 32 (h.leaf / 2 ^ 32)]
  | none => [infWord, Config.openWord key, Config.openWord (key + 1), Config.openWord (key + 2), Config.openWord (key + 3),
      status 1, 0, 0]

/-- The record of `RAYN` (R143). -/
def raynRecord (r : Ray) (cull : Bool) (key ptr : Nat) : Fetch → List Word
  | .unsettled kind => [infWord, infWord, infWord, infWord, if kind = 0 then 0 else infWord, 0, 0, 3]
  | .settled (.box cs) =>
    let entry (i : Nat) : Word := match cs.find? (fun c => c.slot == i) with
      | some c => (match childEntry r key c with
        | some e => roundWord .rd e
        | none => infWord)
      | none => infWord
    [entry 0, entry 1, entry 2, entry 3, 0, 0, 0, 0]
  | .settled (.leaf user tris) =>
    match nearest (leafHits r cull key ptr user tris) with
    | some h => [infWord, infWord, infWord, infWord, roundWord .rne (.ofSigned h.t), roundWord .rne (.ofSigned h.u),
        roundWord .rne (.ofSigned h.v), BitVec.ofNat 32 (1 + 16 * h.tri)]
    | none => [infWord, infWord, infWord, infWord, infWord, 0, 0, 2 + (Config.openWord (key + 1000) &&& 0xF0)]

/-! ### Traversals in flight -/

/-- The traversal goes on with other nodes; with none left, or a first hit, it is over. -/
def Trav.next (t : Trav) (pending : List Nat) : Trav :=
  let t := { t with pending := pending, read := .first, tries := 0, key := t.key + 1024 }
  if pending.isEmpty then { t with record := some (rayqRecord t) } else t

/-- A node has been fetched (R141 to R143, R305): it counts as visited, an unsettled one too (DESIGN CHOICE,
notes/assumptions/60.md); none where more than 256 nodes would be pending. -/
def Trav.visit (t : Trav) (ptr : Nat) (rest : List Nat) (f : Fetch) : Option Trav :=
  if t.one then some { t with record := some (raynRecord t.ray t.cull t.key ptr f) } else
  let t := { t with visited := t.visited + 1 }
  match f with
  | .unsettled _ => some ({ t with unstable := true }.next rest)
  | .settled (.leaf user tris) =>
    let hits := leafHits t.ray t.cull t.key ptr user tris
    if t.anyHit then match hits with
      | h :: _ => some ({ t with best := some h }.next [])
      | [] => some (t.next rest)
    else some ({ t with best := nearest (t.best.toList ++ (nearest hits).toList) }.next rest)
  | .settled (.box cs) =>
    let kids := (cs.filterMap fun k => (childEntry t.ray t.key k).map fun e => (e, k)).foldl (fun l e => insertChild e l) []
    let pending := kids.map (·.2.ptr) ++ rest
    if 256 < pending.length then none else some (t.next pending)

/-- One read of a traversal (R305): the counter, the node, a line of its triangles, or the counter again. A node that is not
settled is read anew up to eight times (R142); one that is settled and not as R303 and R304 say traps. -/
def State.travRead (s : State) (c ctx : Nat) (t : Trav) : UnitRead Trav :=
  match t.pending with
  | [] => .ok { t with record := some (rayqRecord t) } []
  | ptr :: rest =>
    match t.read with
    | .first => (s.unitBytes c ctx false ptr 4).andThen fun b => .ok { t with read := .body (leNat b) } []
    | .body s1 => (s.unitBytes c ctx false ptr 64).andThen fun b =>
      .ok { t with read := if trisBytes b = 0 then .last s1 b [] else .tris s1 b [] } []
    | .tris s1 b got =>
      let a := fieldAt b 0x10 8 + got.length
      let n := min (64 - a % 64) (trisBytes b - got.length)
      (s.unitBytes c ctx false a n).andThen fun g =>
        let got := got ++ g
        .ok { t with read := if trisBytes b ≤ got.length then .last s1 b got else .tris s1 b got } []
    | .last s1 b got => (s.unitBytes c ctx false ptr 4).andThen fun x =>
      if s1 % 2 = 1 ∨ s1 ≠ leNat x then
        if t.tries < 8 then .ok { t with read := .first, tries := t.tries + 1 } []
        else match t.visit ptr rest (.unsettled (fieldAt b 4 1)) with
          | some t => .ok t []
          | none => .trap ptr
      else match (nodeOf ptr b got).bind fun n => t.visit ptr rest (.settled n) with
        | some t => .ok t []
        | none => .trap ptr

/-- A traversal access of an issue instance for a group, and whether it is over. -/
def MemOp.traversal (o : MemOp) : Option Bool :=
  match o.act with
  | .ray t _ => some t.record.isSome
  | _ => none

/-- Lanes of a group that are present at the traversal word of an instance. -/
def State.atUnit (s : State) (c g inst : Nat) : List Nat :=
  (List.range 64).filter fun l => (s.thr c g l).wait == .unit inst

/-- A traversal that is over gives its record, a result in flight (R140). -/
def State.rayResult (s : State) (c : Nat) (o : MemOp) : State :=
  match o.act with
  | .ray t vd =>
    let act := MemAct.result (putWords vd (t.record.getD []))
    s.modCore c fun x => { x with flight := x.flight.map fun y => if y.id = o.id then { y with act := act } else y }
  | _ => s

/-- Once no thread of a group still traverses for an instance, its present threads go on after the word (R44, R140); one that
waits for a translation fault goes on by itself (R129). -/
def State.rayFinish (s : State) (c g inst : Nat) : State :=
  let mine := (s.core c).flight.filter fun o => o.slot == g && o.inst == inst && o.traversal.isSome
  let at_ := s.atUnit c g inst
  let here := mine.filter fun o => at_.any fun l => o.lanes == 2 ^ l
  if here.any fun o => o.traversal == some false then s else
  let s := here.foldl (fun s o => s.rayResult c o) s
  let s := at_.foldl (fun s l => s.modThr c g l fun t => { t with wait := .none, pc := t.pc + 8 }) s
  s.release c g (listMask at_)

/-- Threads whose word traps after its issue: the word has had no effect (R44), so that those of them that it counted for are
counted down again and its switch bit, which may have acted, is undone. -/
def State.undoIssue (s : State) (c g : Nat) (lanes counted : List Nat) : State :=
  s.modGrp c g fun x => { x with thr := lanes.foldl (fun t l => Tbl.mod t l fun u =>
    { u with wait := .none, sw := false, count := if counted.contains l then u.count - 1 else u.count }) x.thr }

/-- One read of the traversal of an access in flight (R305); it waits for an earlier access of the thread to the same bytes (R128,
R248). A trap is that of the whole word for the group (R44, R140), a
translation fault parks its own thread (R129). -/
def State.rayStep (s : State) (c : Nat) (o : MemOp) : State :=
  match o.act with
  | .ray t vd =>
    let l := (maskList o.lanes 64).headD 0
    let at_ := s.atUnit c o.slot o.inst
    if t.record.isSome || !at_.contains l then s else
    match s.travRead c o.ctx t with
    | .ok t reads =>
      if s.unitMeets c o.slot o.lanes reads then s else
      let s := s.afterUnit c o.slot o.lanes reads
      let s := s.modCore c fun x => { x with flight := x.flight.map fun y => if y.id = o.id then { y with act := .ray t vd } else y }
      if t.record.isSome then s.rayFinish c o.slot o.inst else s
    | .fault ptr k =>
      let s := s.modThr c o.slot l fun t => { t with wait := .fault }
      let stall : Stall := { slot := o.slot, lanes := o.lanes, uni := false, gen := o.gen, pc := o.pc, words := 2, sw := false, act := .ray o.id }
      ((s.modCore c fun x => { x with stalls := stall :: x.stalls }).postFault o.ctx ptr k (.traversal c o.slot l)).rayFinish c o.slot o.inst
    | .trap ptr =>
      let gone (y : MemOp) : Bool := y.slot == o.slot && y.inst == o.inst && y.traversal.isSome && y.lanes &&& listMask at_ != 0
      let counted := at_.filter fun l => (s.core c).flight.any fun y => gone y && y.lanes.testBit l
      let s := s.modCore c fun x => { x with flight := x.flight.filter fun y => !gone y }
      (s.undoIssue c o.slot at_ counted).takeTrap c o.slot (listMask at_) o.pc false { spaceTrap ptr with lane := l }
  | _ => s

/-- A traversal word: its root is checked first, then each thread's traversal joins the flight and its count rises (R34, R70); the
present threads stay at the word until all traversals are over, so that a trap of one finds no later instruction of them done
(R44, DEDUCED, notes/assumptions/65.md); a stale row reads as zero (R140, R161, notes/assumptions/7.md). DESIGN CHOICE: a pointer that is
not a multiple of 64 is read where it points (notes/assumptions/60.md). -/
def laneRay (c : LaneCtl) (s : State) (vd va vb : Nat) (one anyHit cull : Bool) : Result :=
  runLane c.sw c.g.val s fun s p =>
    match s.laneChecks p [(true, vd, 8), (true, va, 2), (true, vb, 8)] [] with
    | some t => .trap t
    | none =>
      if p.lanesL.any fun l => (s.core p.core).unitHeld p.slot l (s.genOf p.core p.slot) then .wait else
      let full := s.fullLanes p
      let rd (l r : Nat) : Word := s.rdV p.core p.slot r l
      let todo := p.lanesL.filter fun l => !full.contains l
      let root (l : Nat) : Nat := pairOf (rd l) va
      match worstTrap ((todo.filter fun l => !inDevice (root l)).map fun l => { spaceTrap (root l) with lane := l }) with
      | some t => .trap t
      | none =>
        if todo.isEmpty then .ok (s.implicitSwitch p full) else
        let trav (l : Nat) : Trav := {
          ray := rayOf (rd l) vb, one := one, anyHit := anyHit, cull := cull, pending := [root l], key := (s.tick * 64 + l) * 2 ^ 44 }
        let here := (maskList p.lanes 64).filter fun l => !full.contains l
        let s := todo.foldl (fun a l => (a.issueUnit p l (.ray (trav l) vd)).countUp p.core p.slot l) (s.implicitSwitch p full)
        .ok (s.modGrp p.core p.slot fun x => { x with thr := here.foldl (fun t l => Tbl.mod t l fun u =>
          { u with wait := .unit s.tick, pc := p.inst.pc }) x.thr })

/-- `RAYQ` (R140 to R142). -/
def execRayq (c : LaneCtl) (anyHit cull : Bool) (vd va vb : VReg) (s : State) : Result :=
  laneRay c s vd.val va.val vb.val false anyHit cull

/-- `RAYN` (R140, R143). -/
def execRayn (c : LaneCtl) (cull : Bool) (vd va vb : VReg) (s : State) : Result :=
  laneRay c s vd.val va.val vb.val true false cull

end Sys2Proof.Machine
end

