-- ==== Sys2Proof/Machine/CoreSteps.lean ====
section
/-! DEFINITION. Steps that a core makes by itself: completions and placements of accesses (R34, R70, R245, R247, R259), ageing
of entries (R228), waking from `SLEEP` (R176), the scrubber (R59), the scratchpad share (R60, R61), the retirement of a
workgroup (R235, R236, R289, R329, R344), and the word of an unassigned major (R86). -/

namespace Sys2Proof.Machine

/-! ### Accesses -/

/-- VARIABLE_LATENCY_COMPLETION (R34, R70): an access completes, or a traversal makes its next read (R305). -/
def execVariableLatencyCompletion (core op : Nat) (s : State) : Result :=
  .next (match (s.core core).flight.find? fun o => o.id == op && o.traversal.isSome with
    | some o => s.rayStep core o
    | none => s.completeOp core op (·.counted))

/-- Accesses that return nothing. -/
def MemOp.silent (o : MemOp) : Bool :=
  !o.counted && match o.act with
    | .fence | .ray _ _ => false
    | _ => true

/-- STORE_PLACEMENT (R245, R247). -/
def execStorePlacement (core op : Nat) (s : State) : Result := .next (s.completeOp core op (·.silent))

/-- REMOTE_WRITE_ACKNOWLEDGED (R259). -/
def execRemoteWriteAcknowledged (core op : Nat) (s : State) : Result :=
  .next (s.acked core op)

/-! ### Issue -/

/-- COHORT_ENTRY_AGEING (R228): the entry of a set and way is eligible 16 core cycles after its creation. -/
def execCohortEntryAgeing (core entry : Nat) (s : State) : Result :=
  let old (e : Entry) : Bool := e.set == entry / 4 && e.way == entry % 4 && decide (e.age + 16 ≤ s.coreCyc)
  .next (s.modCore core fun x => { x with table := x.table.map fun e => if old e then { e with aged := true } else e })

/-- The word of an unassigned major traps each group of the instance (R86). -/
def execIllegalInstructionWord (w : BitVec 32) (s : State) : Result :=
  .next (match s.inst with
    | none => s
    | some i => s.decodeTrap { i with word := w.toNat } { cause := 0x01, tval := w.toNat })

/-- A park of `SLEEP` whose deadline has come (R176). -/
def Park.slept (cyc : Nat) : Park → Bool
  | .sleep d => decide (d ≤ cyc)
  | _ => false

/-- SLEEP_WAKE (R176). -/
def execSleepWake (core slot : Nat) (s : State) : Result :=
  let due := Park.slept s.cyc.toNat
  .next (if (s.grp core slot).used && (s.grp core slot).parkedBy due then s.resumeAfter core slot due 1 else s)

/-! ### Scrubber and scratchpad share -/

/-- Distance from one generation to another (R58). -/
def genDist (a b : Gen) : Nat := (b - a).toNat

/-- The oldest live generation of a core, or its next generation (R59). -/
def Core.oldestGen (x : Core) : Gen :=
  (x.wgs.filter fun e => e.2.used).foldl (fun g e => if genDist x.low e.2.gen < genDist x.low g then e.2.gen else g) x.nextGen

/-- A tag that a sweep up to a generation clears (R59). -/
def Core.sweeps (x : Core) (l t : Gen) : Bool := t != 0 && decide (genDist x.low t < genDist x.low l)

/-- A whole sweep (R59): units of generations before the oldest live one are zeroed and untagged, and the window moves up. -/
def Core.sweep (x : Core) : Core :=
  let l := x.oldestGen
  let old := x.sweeps l
  let dead := (x.gtag.filter fun e => old e.2).map (·.1)
  let slots := x.slots.foldl (fun t e => if old e.2.tag then Tbl.set t e.1 { e.2 with tag := 0, rows := [], bad := [] } else t) x.slots
  let tiles := x.tiles.foldl (fun t e =>
    if old e.2.tag then Tbl.set t e.1 { e.2 with tag := 0, acc := [], blocks := 0, check := none, bad := [] } else t) x.tiles
  { x with
    rows := x.rows.filter fun e => !old e.2.tag
    gtag := x.gtag.filter fun e => !old e.2
    sram := x.sram.filter fun c => !dead.contains (c.1 / 32)
    slots := slots
    tiles := tiles
    low := l }

/-- SCRUBBER_SWEEP (R59). -/
def execScrubberSweep (core : Nat) (s : State) : Result := .next (s.modCore core Core.sweep)

/-- A write of the scratchpad-share word (R61). -/
def State.writeShare (s : State) (c v : Nat) : State :=
  let r := bitsOf v 11 8
  if c < Config.cores ∧ 1 ≤ r ∧ r ≤ 11 then s.modCore c fun x => { x with req := r } else s

/-- SCRATCHPAD_SHARE_WRITE (R61). -/
def execScratchpadShareWrite (core : Nat) (value : BitVec 32) (s : State) : Result := .next (s.answers (s.writeShare core value.toNat))

/-- One step of the array moves toward the requested share (R60, R61). -/
def Core.moveStep (x : Core) : Core :=
  if x.req < x.cur then
    if x.wgs.any (fun e => e.2.used && e.2.scrLen != 0 && decide ((x.cur - 1) * Config.sramStep < e.2.scrOff + e.2.scrLen)) then x
    else { x with cur := x.cur - 1 }
  else if x.cur < x.req then
    let inStep (g : Nat) : Bool := g / (Config.sramStep / 32) == x.cur
    { x with
      l1 := x.l1.filter fun e => Config.l1Step e.1 % Config.sramSteps != x.cur
      gtag := x.gtag.filter fun e => !inStep e.1
      cur := x.cur + 1 }
  else x

/-- SCRATCHPAD_STEP_MOVE (R60, R61). -/
def execScratchpadStepMove (core : Nat) (s : State) : Result := .next (s.modCore core Core.moveStep)

/-! ### Retirement -/

/-- Every group of a workgroup has finished (R234). -/
def State.finished (s : State) (c : Nat) (W : Wg) : Bool := W.slots.all fun g => (List.range 64).all fun l => !(s.thr c g l).live

/-- Scratchpad writes or tile operations of a workgroup that its retirement waits for (R235). -/
def Core.retireWaits (x : Core) (w : Nat) (W : Wg) : Bool :=
  x.flight.any (fun o => o.gen == W.gen && W.slots.contains o.slot && !o.isLoad && !o.bound && match o.place with
    | .sram _ => true
    | _ => false) ||
  x.seq.any fun o => o.wg == w && o.gen == W.gen && o.act.port.isSome

/-- Accesses of a workgroup that a release at a scope waits for. -/
def State.wgPending (s : State) (c : Nat) (W : Wg) (sc : Scope) : Bool :=
  W.slots.any fun g => (s.core c).pendingAt g W.gen allLanes sc

/-- Whether a workgroup's part of its strip slot still has to be finished at its retirement (R344). -/
def StageInfo.owes (st : StageInfo) : Bool := (st.role == 1 || st.role == 2) && !st.finished && !st.copying

/-- Whether the strip slot of a workgroup can take its part now: filling for its strip, or free to be opened
(R344, notes/assumptions/24.md). -/
def State.partReady (s : State) (c w : Nat) (W : Wg) (st : StageInfo) : Bool :=
  !s.wgPending c W .dev && (s.joins (s.claimedSlot c w st) st || (s.slotEntry (s.claimedSlot c w st)).state == .free)

/-- What a retiring stage workgroup leaves: its part finished at `.dev`, its part left to a copy, its mesh slot free
(R289, R344), its bin counted (R294). -/
def State.retireStage (s : State) (c w : Nat) (st : StageInfo) : State :=
  let W := s.wg c w
  let u := s.claimedSlot c w st
  if st.role = 0 then
    (if (s.slotEntry u).mesh = some (st.frame, st.bin) ∧ (s.slotEntry u).state ≠ .full ∧ (s.slotEntry u).state ≠ .draining then
      (s.putSlot u SlotEntry.freed).modChain st.chain fun x => x.modFrame st.frame fun f => { f with empty := st.bin :: f.empty }
     else s)
  else
    let s := if st.owes then
        let s := if s.joins u st then s else s.openSlot u st
        s.partDone c w u 3 false false
      else if st.copying && !st.finished then
        { s with copies := s.copies.map fun e =>
            let H := s.handle c e.2.h
            if e.2.core = c ∧ e.2.gen = W.gen ∧ e.2.phase ≠ .offered ∧ !e.2.out ∧ H.narrows ∧ H.off = u then
              (e.1, { e.2 with part := some u }) else e }
      else s
    if st.role = 1 then s.modChain st.chain fun x => x.modFrame st.frame fun f => { f with
      retired := f.retired + 1, bins := Tbl.mod f.bins W.index fun b => { b with entries := [] } } else s

/-- A task that retires sends its decrement, with its release (R329). -/
def State.retireTask (s : State) (c : Nat) (W : Wg) (t : TaskInfo) : State :=
  if t.succ = 0 then s else
  let d : Decrement := { addr := t.succ, launch := W.launch, atoll := t.atoll, core := c, gen := W.gen, rel := if t.rel then some (scopeOfCode t.scope) else none }
  { s with decrements := s.decrements ++ [d] }

/-- A workgroup retires (R235, R236). -/
def State.retire (s : State) (c w : Nat) : State :=
  let W := s.wg c w
  if !W.used || !s.finished c W || (s.core c).retireWaits w W || W.stage.any (fun st => st.owes && !s.partReady c w W st) then s else
  let s := match W.stage with
    | some st => s.retireStage c w st
    | none => s
  let s := match W.task with
    | some t => s.retireTask c W t
    | none => s
  let s := s.modLaunch W.launch fun L => { L with retired := L.retired + 1 }
  s.endWg c w

/-- WORKGROUP_RETIREMENT (R235). -/
def execWorkgroupRetirement (core wg : Nat) (s : State) : Result := .next (s.retire core wg)

end Sys2Proof.Machine
end

