-- ==== Sys2Proof/Machine/Remote.lean ====
section
/-! DEFINITION. Accesses that arrive from Strait peers (R384): translated through the context of the same pod number, placed at
their home slices, atomics once for each sequence number. -/

namespace Sys2Proof.Machine

/-- Bytes of a remote request, and what it needs of their pages (R384). -/
def reqNeed : RemoteReq → Nat × Need
  | .read n => (n, .read)
  | .write d => (d.length, .write)
  | .atomic _ w64 _ _ | .cas w64 _ _ _ => (if w64 then 8 else 4, .write)

/-- The physical bytes of a remote request, or the fault (R384). -/
def State.remoteBytes (s : State) (ctx va n : Nat) (need : Need) : Nat ⊕ List (Nat × Nat) :=
  (pageSplit (va % 2 ^ 48) n).foldr (fun v acc => match s.xlateDev ctx v.1 need, acc with
    | .fault k, _ => .inl k
    | .ok _, .inl k => .inl k
    | .ok pa, .inr l => .inr ((pa, v.2) :: l)) (.inr [])

/-- Bytes placed piece by piece. -/
def State.placePieces (s : State) (ps : List (Nat × Nat)) (data : List Byte) : State :=
  (splitData ps data).foldl (fun s p => s.placeDev p.1 p.2) s

/-- A remote atomic: its first result again, or performed and kept in the source's window of 256 (R384); one that stores
nothing, a failed ACAS, is no write (R279). -/
def State.remoteAtomic (s : State) (source seq : Nat) (ps : List (Nat × Nat)) (w64 : Bool) (new : Nat → Option Nat) : State :=
  let seen := Tbl.get s.windows source
  match seen.find? fun e => e.1 == seq with
  | some e => { s with answer := wideBytes w64 e.2 }
  | none =>
    let old := leNat (ps.flatMap fun p => Memory.read s.dev p.1 p.2)
    { (match new old with | some v => s.placePieces ps (wideBytes w64 v) | none => s) with
      windows := Tbl.set s.windows source (((seq, old) :: seen).take 256), answer := wideBytes w64 old }

/-- A remote request performed (R384). -/
def State.performRemote (s : State) (source : Nat) (ps : List (Nat × Nat)) : RemoteReq → State
  | .read _ => { s with answer := ps.flatMap fun p => Memory.read s.dev p.1 p.2 }
  | .write d => { s.placePieces ps d with answer := [] }
  | .atomic op w64 v seq => s.remoteAtomic source seq ps w64 fun old => some (atomNew op w64 old (if w64 then v.toNat else v.toNat % 2 ^ 32))
  | .cas w64 e n seq =>
    let cut (v : BitVec 64) : Nat := if w64 then v.toNat else v.toNat % 2 ^ 32
    s.remoteAtomic source seq ps w64 fun old => if old = cut e then some (cut n) else none

/-- A remote request: no context fails it, a translation fault makes it wait for its answer (R384, R385). -/
def State.remote (s : State) (r : Remote) : State :=
  match s.podContext r.pod with
  | none => { s with answer := [] }
  | some ctx =>
    let need := reqNeed r.req
    match s.remoteBytes ctx r.va need.1 need.2 with
    | .inl k => { s with remotes := s.remotes ++ [r] }.postFault ctx r.va k (.strait r.source)
    | .inr ps => s.performRemote r.source ps r.req

/-- The slices of a remote request wait for room in their walkers (R282). -/
def State.remoteHeld (s : State) (r : Remote) : Bool :=
  match s.podContext r.pod with
  | none => false
  | some ctx => match s.remoteBytes ctx r.va (reqNeed r.req).1 (reqNeed r.req).2 with
    | .inl _ => false
    | .inr ps => s.walkFull ps

/-- Requests of a source that wait on a pointer. -/
def State.remotesAt (s : State) (source va : Nat) : List Remote := s.remotes.filter fun r => r.source == source && r.va == va

/-- The oldest of them leaves the waiting list. -/
def State.dropRemote (s : State) (source va : Nat) : State :=
  match s.remotesAt source va with
  | [] => s
  | r :: _ => { s with remotes := s.remotes.erase r }

/-- The answer of the resolver lets the request try again (R380, R384). -/
def State.retryRemote (s : State) (source va : Nat) : State :=
  match s.remotesAt source va with
  | [] => s
  | r :: _ => (s.dropRemote source va).remote r

end Sys2Proof.Machine
end

