-- ==== Sys2Proof/Machine/WatchSteps.lean ====
section
/-! DEFINITION. Watches decided and delivered (R152, R153, R278 to R284, R374). -/

namespace Sys2Proof.Machine

/-! ### Decisions at the slice -/

/-- A spilled watch leaves its segment: its record's valid word is cleared; the filter bit and the context's place go with
the last record that needs them (R281, R282). -/
def State.unspill (s : State) (w : Watch) : State :=
  match w.held with
  | .spilled r =>
    let rest := s.watches.filter fun e => e.2.slice == w.slice && match e.2.held with
      | .spilled _ => true
      | _ => false
    let s := if w.ctx = deviceCtx then s else match s.spillAddr w.ctx w.slice r .write with
      | .ok pa => s.placeDev pa (leBytes 0 8)
      | .fault _ => s
    { s with slices := Tbl.mod s.slices w.slice fun sl => { sl with
        filter := if rest.any (fun e => filterBit e.2.addr == filterBit w.addr) then sl.filter
          else sl.filter.filter (· != filterBit w.addr)
        ctxs := if rest.any (fun e => e.2.ctx == w.ctx) then sl.ctxs else sl.ctxs.filter (· != w.ctx) } }
  | _ => s

/-- A watch decided, in the table or spilled (R280, R282). -/
def State.endWatch (s : State) (n : Nat) (out : WatchEnd) : State :=
  let w := Tbl.get s.watches n
  (s.decideWatch n out).unspill w

/-- A write at or before a deadline that the spill walker has still to test (R282). -/
def State.walkPending (s : State) (w : Watch) (d : Nat) : Bool :=
  match w.held with
  | .spilled _ => (Tbl.get s.slices w.slice).walks.any fun k => k.addr == w.addr / 64 * 64 && decide (k.cyc ≤ d)
  | _ => false

/-- WATCH_EXPIRY (R153, R280): the deadline has passed, and every write up to it has been tested. -/
def execWatchExpiry (watch : Nat) (s : State) : Result :=
  let w := Tbl.get s.watches watch
  .next (match w.used, w.deadline with
    | true, some d => if d < s.cyc.toNat && !s.walkPending w d then s.endWatch watch .expired else s
    | _, _ => s)

/-- DEFERRED_REGISTRATION (R281): placed once an entry, a record or a place in the list is free. DESIGN CHOICE
(notes/assumptions/68.md): the schedule gives the order among deferred registrations, and a new one may overtake them. -/
def execDeferredRegistration (watch : Nat) (s : State) : Result :=
  let w := Tbl.get s.watches watch
  .next (s.walkersTake (if !w.used || w.held != .deferred || s.walkFull [(w.addr, w.bytes)] then s else
    let t := s.enterWatch watch w
    if (Tbl.get t.watches watch).held == .deferred then s
    else if w.cond != .any && Cond.holds w.cond (8 * w.bytes) (s.watchedNow w) w.operand then s.decideWatch watch .satisfied
    else t))

/-! ### The spill walker -/

/-- Whether a walk decides a spilled watch: the write came after its registration, touched its word, before its deadline, and
the carried value satisfies it (R282). -/
def Walk.decides (k : Walk) (w : Watch) : Bool :=
  let off := w.addr - k.addr
  decide (w.from_ ≤ k.num) && decide (k.addr ≤ w.addr) && decide (w.addr < k.addr + 64) && decide (k.from_ < off + w.bytes) && decide (off < k.from_ + k.len) &&
    w.deadline.all (fun d => decide (k.cyc ≤ d)) && Cond.holds w.cond (8 * w.bytes) (leNat ((k.line.drop off).take w.bytes)) w.operand

/-- Spilled watches of a context in a slice. -/
def State.spilledOf (s : State) (slice ctx : Nat) : List Nat :=
  (s.watches.filter fun e => e.2.used && e.2.slice == slice && e.2.ctx == ctx && match e.2.held with
    | .spilled _ => true
    | _ => false).map (·.1)

/-- One context's segment under a walk; a record's page that cannot be translated makes its waiters ready at their words and
posts the fault (R153, R282, R379). -/
def State.walkCtx (s : State) (slice : Nat) (k : Walk) (ctx : Nat) : State :=
  let ws := s.spilledOf slice ctx
  let bad := if ctx = deviceCtx then none else ws.findSome? fun n => match (Tbl.get s.watches n).held with
    | .spilled r => (match s.spillAddr ctx slice r .read with
      | .fault kind => some (r, kind)
      | .ok _ => none)
    | _ => none
  match bad with
  | some (r, kind) =>
    let s := ws.foldl (fun s n => s.endWatch n .retranslate) s
    s.postFault ctx ((s.spillSegment ctx slice).1 + 32 * r) kind (.spill slice)
  | none => ws.foldl (fun s n => if k.decides (Tbl.get s.watches n) then s.endWatch n .satisfied else s) s

/-- SPILL_WALK (R282): the oldest write of the slice's queue, tested against the records of every listed context. -/
def execSpillWalk (slice : Nat) (s : State) : Result :=
  .next (match (Tbl.get s.slices slice).walks with
    | [] => s
    | k :: rest =>
      let s := { s with slices := Tbl.mod s.slices slice fun x => { x with walks := rest } }
      let s := (Tbl.get s.slices slice).ctxs.foldl (fun s ctx => s.walkCtx slice k ctx) s
      let bit := filterBit k.addr
      if s.watches.any (fun e => e.2.slice == slice && filterBit e.2.addr == bit && e.2.held != .table && e.2.held != .deferred) then s
      else { s with slices := Tbl.mod s.slices slice fun x => { x with filter := x.filter.filter (· != bit) } })

/-! ### Outcomes at the waiter -/

/-- A group block of a saved workgroup: its address (R62). -/
def State.savedBlock (s : State) (ctx entry group : Nat) : Nat :=
  let v := Tbl.get (Tbl.get s.ctxRegs ctx).saved entry
  v.area + v.blocks.getD group 0

/-- Bytes of a save area that the device rewrites at their home slices. -/
def State.putArea (s : State) (a n x : Nat) : State := s.placeNat a n x

/-- The outcome of a saved lane's watch written into its group block (R374). -/
def State.saveLaneOutcome (s : State) (b lane pd : Nat) (out : WatchEnd) : State :=
  let pc := Memory.nat s.dev (b + 8 * lane) 8
  let preds := Memory.nat s.dev (b + 0x200 + lane) 1
  let bits := Memory.nat s.dev (b + 0x240 + lane) 1
  let s := s.putArea (b + 0x240 + lane) 1 (bits &&& 0xEF)
  if out == .retranslate then s else
  let s := s.putArea (b + 8 * lane) 8 (pc + 8)
  if pd = 7 then s else
  s.putArea (b + 0x200 + lane) 1 (if out == .satisfied then preds ||| 2 ^ pd else preds &&& (255 - 2 ^ pd))

/-- The outcome of a saved group's watch written into its group block: the lanes that stand at the wait word (R374). -/
def State.saveGroupOutcome (s : State) (b qd : Nat) (out : WatchEnd) (lanes : Nat) : State :=
  let q := Memory.nat s.dev (b + 0x440) 4
  let s := s.putArea (b + 0x440) 4 (q % 256)
  if out == .retranslate then s else
  let s := (maskList lanes 64).foldl (fun s l => s.putArea (b + 8 * l) 8 (Memory.nat s.dev (b + 8 * l) 8 + 8)) s
  if qd = 7 then s else
  s.putArea (b + 0x440) 4 (if out == .satisfied then q % 256 ||| 2 ^ qd else q % 256 &&& (255 - 2 ^ qd))

/-- A lane's wait has ended: predicate, acquire, and the lane ready at the next word or, to register again, at its
`WAITU` (R152, R153). -/
def State.laneOutcome (s : State) (m : WatchMsg) (c g l : Nat) : State :=
  let T := s.thr c g l
  if !(s.grp c g).used || s.genOf c g != m.data.gen || T.wait != .watch m.watch then s else
  let s :=
    if m.out == .retranslate then s.modThr c g l fun t => { t with wait := .none, pc := t.pc - 8 }
    else (s.modThr c g l fun t => ({ t with wait := .none } : Thread).setPred m.data.pd (m.out == .satisfied)).acquireAt c
      m.data.ctx m.data.order m.data.scope m.data.cover
  (s.seenAt c m.data.addr).release c g (2 ^ l)

/-- A group's wait has ended (R177). -/
def State.groupOutcome (s : State) (m : WatchMsg) (c g : Nat) : State :=
  let G := s.grp c g
  if !G.used || s.genOf c g != m.data.gen || !G.parkedBy (· == .watch m.watch) then s
  else if m.out == .retranslate then s.wakeGrp c g (· == .watch m.watch)
  else (((s.modGrp c g fun x => x.setQ m.data.pd (m.out == .satisfied)).acquireAt c m.data.ctx m.data.order m.data.scope
    m.data.cover).seenAt c m.data.addr).resumeAfter c g (· == .watch m.watch) 2

/-- A saved waiter's outcome: its group block, and the context that asks to run (R283, R318, R374). -/
def State.savedOutcome (s : State) (m : WatchMsg) (ctx entry group lane : Nat) : State :=
  let v := Tbl.get (Tbl.get s.ctxRegs ctx).saved entry
  if !v.used then s else
  let b := s.savedBlock ctx entry group
  let s := if lane = 64 then s.saveGroupOutcome b m.data.pd m.out m.data.lanes else s.saveLaneOutcome b lane m.data.pd m.out
  { s with ctxRegs := Tbl.mod s.ctxRegs ctx fun x => { x with saved := Tbl.set x.saved entry { v with decided := true } } }

/-- An outcome arrives (R231, R280). -/
def State.arriveOutcome (s : State) (n : Nat) : State :=
  let m := Tbl.get s.msgs n
  if !m.used then s else
  let s := { s with msgs := Tbl.erase s.msgs n }
  match m.data.waiter with
  | .thread c g l => s.laneOutcome m c g l
  | .group c g => s.groupOutcome m c g
  | .saved ctx e g l => s.savedOutcome m ctx e g l
  | .queue q => s.examineQueue q
  | .ring c => s.modChain c fun x => { x with waiting := false }

/-- WATCH_OUTCOME_ARRIVAL (R280, R315, R387). -/
def execWatchOutcomeArrival (msg : Nat) (s : State) : Result := .next (s.walkersTake (s.arriveOutcome msg))

end Sys2Proof.Machine
end

