-- ==== Sys2Proof/Machine/Task.lean ====
section
/-! DEFINITION. Tasks (R184, R326 to R331, R349). -/

namespace Sys2Proof.Machine

/-! ### `TASKQ` -/

/-- The atoll scheduler that takes a task record: the core's own, or, where a chain reserves that, the lowest atoll of the
launch's mask that none reserves (R184). -/
def State.taskAtoll (s : State) (l own : Nat) : Option Nat :=
  if (s.reservedBy own).isNone then some own
  else (List.range Config.atolls).find? fun a => (s.reservedBy a).isNone && (s.launch l).lr.inMask (coreAt a 0)

/-- Entries of a ready queue that are taken (R327). -/
def Atoll.taken (a : Atoll) : Nat := a.ready.length + a.reserved

/-- An atoll of the device. -/
def State.atoll (s : State) (a : Nat) : Atoll := Tbl.get s.atolls a
/-- An atoll changed. -/
def State.modAtoll (s : State) (a : Nat) (f : Atoll → Atoll) : State := { s with atolls := Tbl.mod s.atolls a f }

/-- A record put at the end of a ready queue. -/
def State.pushTask (s : State) (a : Nat) (r : ReadyTask) : State := s.modAtoll a fun x => { x with ready := x.ready ++ [r] }

/-- `TASKQ` of a group, its pointer read (R184). -/
def State.taskqGo (s : State) (p : Part) (sw : Bool) (qd ptr : Nat) : UniOut :=
  let l := (s.wgOf p.core p.slot).launch
  let dest := (s.taskAtoll l (atollOf p.core)).filter fun a => decide ((s.atoll a).taken < Config.taskEntries)
  let out (s : State) (b : Bool) : UniOut := .ok (s.modGrp p.core p.slot fun x => x.setQ qd b) p.inst.after
  s.readRecord p sw (.taskq qd) ptr 64 dest.isSome (out s false) fun s bs => match dest with
    | some a => out (s.pushTask a { bytes := bs, launch := l }) true
    | none => out s false

/-- `TASKQ` (R184). -/
def execTaskq (sw : Bool) (qd : QReg) (sa : SReg) (s : State) : Result :=
  recordWord sw sa s fun s p ptr => s.taskqGo p sw qd ptr

/-! ### The scheduler -/

/-- What a task needs of a core (R326). -/
def taskNeeds (b : List Byte) : Needs :=
  { groups := 1, vregs := fieldAt b 0x24 1, sregs := 16 * (fieldAt b 0x25 1 % 32), scratch := 32 * fieldAt b 0x26 2 }

/-- The refusal reason of a task record, 0 for none (R327). -/
def State.taskReason (s : State) (a : Nat) (b : List Byte) : Nat :=
  let f := fieldAt b 0x20 4
  let n := taskNeeds b
  let succ := fieldAt b 0x18 8
  if f / 2 ^ 5 ≠ 0 ∨ 6 ≤ bitsOf f 4 2 ∨ 32 ≤ fieldAt b 0x25 1 ∨ fieldAt b 0x30 8 ≠ 0 ∨ fieldAt b 0x3C 4 ≠ 0 then 1
  else if !ptrOk [0] 4 (fieldAt b 0 8) || !(succ == 0 || (ptrOk [0, 1] 1 succ && succ % 64 == 0x38)) ||
      !ptrOk [0] 65536 (fieldAt b 0x28 8) then 2
  else if n.vregs % 8 ≠ 0 ∨ n.vregs < 8 ∨ 128 < n.vregs ∨ n.sregs < 16 ∨ 256 < n.sregs ∨
      (atollCores a).all (fun c => ((s.core c).emptyRoom.fit n).isNone) then 4
  else 0

/-- Where a task of an atoll starts now: core and scratchpad offset (R222, R327, R349). -/
def State.taskCore (s : State) (a l : Nat) (n : Needs) : Option (Nat × Nat) :=
  (atollCores a).findSome? fun c =>
    if s.savedFirst (s.launch l).ctx c || s.chainWaits c then none else (s.canTake c l n).map fun off => (c, off)

/-- What a task's placement gives (R328). -/
def taskPlacing (a : Nat) (b : List Byte) : Placing :=
  let f := fieldAt b 0x20 4
  let t : TaskInfo := {
    succ := fieldAt b 0x18 8, rel := f.testBit 1, scope := bitsOf f 4 2, privbase := fieldAt b 0x28 8, atoll := a, bytes := b }
  { base := fieldAt b 0x10 8, entry := fieldAt b 0 8 % 2 ^ 48, args := fieldAt b 8 8, groups := 1, live := fun _ => true
    needs := taskNeeds b
    wg := { (default : Wg) with task := some t, restart := fieldAt b 0 8 % 2 ^ 48 } }

/-- A passing record starts on a core of the atoll; a successor reserves an entry of the atoll's queue (R327 to R329). -/
def State.startTask (s : State) (a : Nat) (r : ReadyTask) : State :=
  match s.taskCore a r.launch (taskNeeds r.bytes) with
  | none => s
  | some (c, off) =>
    let reserve := if fieldAt r.bytes 0x18 8 = 0 then 0 else 1
    let s := s.modAtoll a fun x => { x with ready := x.ready.tail, reserved := x.reserved + reserve }
    let s := (s.place c r.launch off (taskPlacing a r.bytes)).1
    s.modLaunch r.launch fun L => { L with
      placed := true
      firstCyc := if L.placed then L.firstCyc else s.cyc.toNat
      firstNs := if L.placed then L.firstNs else s.ptimeNs
      textAt := if L.placed then L.textAt else s.past.length }

/-- A successor that met a reserved atoll is moved, in its turn, to the queue that R184 would choose (R349). -/
def State.moveTask (s : State) (a : Nat) (r : ReadyTask) : State :=
  match s.taskAtoll r.launch a with
  | some b =>
    if b = a then s.modAtoll a fun x => { x with ready := { r with late := false } :: x.ready.tail }
    else if (s.atoll b).taken < Config.taskEntries then
      (s.modAtoll a fun x => { x with ready := x.ready.tail }).pushTask b { r with late := false }
    else s
  | none => s

/-- TASK_START (R327, R328): the first record of an atoll's queue is checked and, once a core can take it, placed. -/
def execTaskStart (atoll : Nat) (s : State) : Result :=
  .next (match (s.atoll atoll).ready with
    | [] => s
    | r :: _ =>
      let L := s.launch r.launch
      if s.ctxState L.ctx != 0 then s
      else if r.late && (s.reservedBy atoll).isSome then s.moveTask atoll r
      else
        let reason := s.taskReason atoll r.bytes
        if reason = 0 then s.startTask atoll r
        else ((s.modAtoll atoll fun x => { x with ready := x.ready.tail }).modLaunch r.launch fun L => { L with
            reason := if L.status = 0 then reason else L.reason }).faultEnd r.launch 0 0 0 0)

/-! ### Successors -/

/-- Accesses of a retired task that its release still waits for (R329). -/
def State.decrementWaits (s : State) (d : Decrement) : Bool :=
  match d.rel with
  | none => false
  | some sc =>
    let x := s.core d.core
    x.flight.any (fun y => y.gen == d.gen && y.hidden sc) ||
      x.unacked.any fun u => u.origin.isNone && u.gen == d.gen && (if u.host then sc == .sys else sc == .pod || sc == .sys)

/-- The decrement placed at its counter; at zero the successor's record fills the reserved entry, else the reservation is
released (R329). A stop of the launch has discarded the reservation (R331). -/
def State.decrement (s : State) (d : Decrement) (pa : Nat) : State :=
  let v := (Memory.nat s.dev pa 4 + 2 ^ 32 - 1) % 2 ^ 32
  let s := s.placeNat pa 4 v
  if !d.reserved then s else
  let s := s.unreserve d.atoll
  if v ≠ 0 then s else
  s.pushTask d.atoll { bytes := Memory.read s.dev (pa / 64 * 64) 64, launch := d.launch, late := (s.reservedBy d.atoll).isSome }

/-- SUCCESSOR_DECREMENT (R329). -/
def execSuccessorDecrement (n : Nat) (s : State) : Result :=
  .next (s.walkersTake (match s.decrements[n]? with
    | none => s
    | some d =>
      if s.decrementWaits d then s else
      let gone := { s with decrements := s.decrements.eraseIdx n }
      match s.xlateDev (s.launch d.launch).ctx (d.addr % 2 ^ 48) .write with
      | .ok pa => gone.decrement d pa
      | .fault _ => if (s.launch d.launch).status = 0 then s else gone))

end Sys2Proof.Machine
end

