-- ==== Sys2Proof/Machine/End.lean ====
section
/-! DEFINITION. The end of a launch (R332 to R334), the flush of a workgroup (R182, R350, R367), and pre-emption (R369). -/

namespace Sys2Proof.Machine

/-! ### Saved workgroups -/

/-- The address of a directory entry (R372). -/
def State.dirAddr (s : State) (ctx e : Nat) : Nat := s.ctxNat ctx 0x30 8 + 32 * e

/-- The watch's waiter is in this saved workgroup. -/
def Waiter.isSaved (w : Waiter) (ctx e : Nat) : Bool :=
  match w with
  | .saved c n _ _ => c == ctx && n == e
  | _ => false

/-- A saved workgroup leaves its area: directory entry cleared, pages back in the pool (R366, R372). -/
def State.eraseSaved (s : State) (ctx e : Nat) : State :=
  let s := s.placeNat (s.dirAddr ctx e + 0x16) 2 0
  { s.modCtx ctx fun x => { x with saved := Tbl.erase x.saved e } with
      restores := s.restores.filter fun r => !(r.ctx == ctx && r.entry == e) }

/-- A saved workgroup discarded with its watches, handles and reservation (R366). -/
def State.dropSaved (s : State) (ctx e : Nat) : State :=
  let v := s.saved ctx e
  let s := { s with watches := s.watches.filter fun w => !w.2.waiter.isSaved ctx e
                    msgs := s.msgs.filter fun m => !m.2.data.waiter.isSaved ctx e }
  let held := (s.core v.core).handles
  let s := s.modCore v.core fun x => { x with
    handles := x.handles.foldl (fun t h => if h.2.owner = savedOwner ctx e then Tbl.mod t h.1 Handle.ended else t) x.handles }
  let s := s.wakeHandles v.core fun h => (Tbl.get held h).owner == savedOwner ctx e
  let s := match v.task with
    | some t => if t.succ = 0 then s else s.unreserve t.atoll
    | none => s
  let s := match v.stage with
    | some st => s.faultPart st
    | none => s
  s.eraseSaved ctx e

/-- The directory entries of a context whose workgroups belong to a launch. -/
def State.savedOf (s : State) (ctx l : Nat) : List Nat :=
  ((Tbl.get s.ctxRegs ctx).saved.filter fun e => e.2.used && e.2.launch == l).map (·.1)

/-! ### The end of a launch -/

/-- Workgroups, tasks and copies of a launch that its end waits for (R331, R333). -/
def State.launchBusy (s : State) (l : Nat) : Bool :=
  s.cores.any (fun e => e.2.wgs.any fun v => v.2.used && v.2.launch == l) ||
  s.atolls.any (fun e => e.2.ready.any fun r => r.launch == l) ||
  s.decrements.any (fun d => d.launch == l) ||
  s.copies.any fun e => e.2.used && e.2.launch == l && e.2.phase != .offered

/-- Every workgroup and task of a launch has retired or been stopped, and every copy is done (R333). -/
def State.launchOver (s : State) (l : Nat) : Bool :=
  let L := s.launch l
  !s.launchBusy l && (L.status != 0 ||
    (L.checked && decide (L.lr.workgroups ≤ L.next) && L.restarts.isEmpty && (s.savedOf L.ctx l).isEmpty))

/-- Accesses of a launch that are not yet visible at a scope: its release waits for them (R333, R255). -/
def State.launchHidden (s : State) (l : Nat) (sc : Scope) : Bool :=
  s.cores.any fun e => e.2.flight.any (fun o => o.launch == l && o.hidden sc) ||
    e.2.unacked.any fun u => u.origin.isNone && u.launch == l && (if u.host then sc == .sys else sc == .pod || sc == .sys)

/-- Steps 1 and 3 of R333 still wait: the launch's release at its scope, and that of the signal at `.sys`. -/
def State.endWaits (s : State) (l : Nat) : Bool :=
  let L := s.launch l
  (L.lr.rel && s.launchHidden l (scopeOfCode L.lr.scope)) || (L.lr.sig != 0 && s.launchHidden l .sys)

/-- The value of a record's time fields where no workgroup was ever placed: no rule gives it (notes/assumptions/13.md). -/
def State.openTime (s : State) : Nat := (Config.openWord s.tick).toNat

/-- The status byte of the completion record (R334). -/
def Launch.endStatus (L : Launch) : Nat := if L.status = 0 then 1 else L.status

/-- The completion record (R334). -/
def State.completion (s : State) (L : Launch) : List Byte :=
  let known := L.placed || L.status == 3
  let first := L.first.getD (0, 0, 0, 0)
  leBytes (L.endStatus + L.reason * 2 ^ 8) 4 ++ leBytes L.faults 4 ++
    leBytes (if known then L.firstNs else s.openTime) 8 ++ leBytes s.ptimeNs 8 ++
    leBytes (if L.status = 3 then 0 else if L.placed then s.cyc.toNat - L.firstCyc else s.openTime) 8 ++
    leBytes L.retired 8 ++ leBytes (first.1 % 2 ^ 8 + first.2.1 % 2 ^ 8 * 2 ^ 8 + first.2.2.1 % 16 * 2 ^ 16) 4 ++
    leBytes L.restartCount 4 ++ leBytes first.2.2.2 8 ++ leBytes L.lr.tag 8

/-- Bytes written at a pointer of a record: device memory or the host's (R319). -/
def State.outWrite (s : State) (ctx ptr : Nat) (bs : List Byte) : Option State :=
  if ptr / 2 ^ 60 = 5 then some { s with host := Memory.write s.host (ptr % 2 ^ 48) bs } else s.devWrite ctx ptr bs

/-- The number at a pointer of a record. -/
def State.outRead (s : State) (ctx ptr : Nat) : Option Nat :=
  if ptr / 2 ^ 60 = 5 then some (Memory.nat s.host (ptr % 2 ^ 48) 8) else (s.devRead ctx ptr 8).map leNat

/-- Step 2 of R333; none where the pointer cannot be used. -/
def State.writeRecord (s : State) (L : Launch) : Option State :=
  if L.lr.comp = 0 then some s
  else if !outPtrOk 64 L.lr.comp then none
  else s.outWrite L.ctx L.lr.comp (s.completion L)

/-- Step 3 of R333; none where the pointer cannot be used. -/
def State.signal (s : State) (L : Launch) : Option State :=
  if L.lr.sig = 0 then some s
  else if !outPtrOk 8 L.lr.sig then none
  else match s.outRead L.ctx L.lr.sig with
    | none => none
    | some v => s.outWrite L.ctx L.lr.sig (leBytes (v + L.lr.sigval) 8)

/-- Steps 2 and 3 of R333; a launch with an unusable pointer goes to the error log. -/
def State.report (s : State) (L : Launch) : State :=
  let a := s.writeRecord L
  let s := a.getD s
  let b := s.signal L
  let s := b.getD s
  if a.isNone || b.isNone then s.postLog 0x05 0 L.ctx 0 else s

/-- What the end of a mesh launch tells its frame: it has completed; where it ended early, the workgroups that never made
their slots full hold no primitive (R289, R294, notes/assumptions/25.md). -/
def State.meshEnded (s : State) (L : Launch) : State :=
  let c := L.chain - 1
  let total := if L.status = 3 then 0 else if L.status = 0 then L.lr.workgroups else L.next
  let open_ (n : Nat) : Bool :=
    let e := s.slotEntry (s.stageSlot { chain := c, role := 0, frame := L.frame, bin := n })
    L.status != 0 && e.mesh == some (L.frame, n) && e.state != .full && e.state != .draining
  let lost := (List.range total).filter open_
  let s := lost.foldl (fun s n => s.putSlot (s.stageSlot { chain := c, role := 0, frame := L.frame, bin := n }) SlotEntry.freed) s
  s.modChain c fun x => x.modFrame L.frame fun f => { f with meshDone := true, total := total, empty := lost ++ f.empty }

/-- A launch that leaves: launches that wait for its signal go on, and nothing names it any more (R317, R325, R333). -/
def State.eraseLaunch (s : State) (l : Nat) : State :=
  let s := s.freePend l
  { s with
    launches := (Tbl.erase s.launches l).map fun e => (e.1, if e.2.prev = l + 1 then { e.2 with prev := 0 } else e.2)
    queues := s.queues.foldl (fun t e => if e.2.last = l + 1 then Tbl.mod t e.1 fun r => { r with last := 0 } else t) s.queues
    cores := s.cores.foldl (fun t e => if e.2.lastLaunch = l + 1 then Tbl.mod t e.1 fun x => { x with lastLaunch := 0 } else t) s.cores }

/-- Steps 2 to 4 of R333; the bins of a frame go with its shading launch, whose workgroups have retired or never will (R294). -/
def State.closeLaunch (s : State) (l : Nat) : State :=
  let L := s.launch l
  let s := (s.savedOf L.ctx l).foldl (fun s e => s.dropSaved L.ctx e) s
  let s := if L.chain ≠ 0 ∧ L.role = 3 then s.freeCount L.outSlot else s
  let s := s.report L
  let s := if L.chain ≠ 0 ∧ L.role = 0 then s.meshEnded L else s
  let s := if L.chain ≠ 0 ∧ L.role = 1 then s.modChain (L.chain - 1) fun x => x.modFrame L.frame fun f => { f with bins := [] } else s
  s.eraseLaunch l

/-- LAUNCH_END (R333). -/
def execLaunchEnd (launch : Nat) (s : State) : Result :=
  let L := s.launch launch
  .next (s.walkersTake (if !L.used then s
    else if L.status = 3 then s.closeLaunch launch
    else if !s.launchOver launch || s.endWaits launch then s
    else s.closeLaunch launch))

/-! ### Flush -/

/-- A workgroup that a flush may discard: restartable as it stands, and no task (R182, R350, R369). -/
def Wg.flushable (W : Wg) : Bool := W.restartable && W.task.isNone

/-- What a flush keeps of a workgroup: a co-resident one keeps its core (R182, R225, R344, R369). -/
def Wg.restarts (W : Wg) (core : Nat) (yields : Bool) : Restart :=
  { index := W.index, point := W.point, count := min (W.count + 1) 0xFF, pc := W.restart, restartable := W.restartable
    stage := W.stage.map fun st => { st with copying := false }, core := core, yields := yields }

/-- A flush (R350, R367): the workgroup's allocation ends at once, and its index is placed again later; `yields` for one that
pre-emption takes (R369). -/
def State.flushWg (s : State) (c w : Nat) (yields : Bool) : State :=
  let W := s.wg c w
  (s.modLaunch W.launch fun L => { L with
    restarts := L.restarts ++ [W.restarts (if L.lr.coresident then c + 1 else 0) yields]
    restartCount := satUp L.restartCount
    since := if s.toPlace W.launch then L.since else s.cyc.toNat }).endWg c w

/-- A workgroup that keeps its place on a reserved core: one of the stages of a running chain (R350). -/
def State.chainOwn (s : State) (W : Wg) : Bool :=
  match W.stage with
  | some st => (st.role == 1 || st.role == 2) && (s.chain st.chain).active
  | none => false

/-- The workgroup that a reclaim flushes next: the one placed last (R350). -/
def State.reclaimNext (s : State) (c : Nat) : Option Nat :=
  firstBy (fun w => [s.placements - (s.wg c w).placed])
    (((s.core c).wgs.filter fun e => e.2.used && e.2.flushable && !s.chainOwn e.2).map (·.1))

/-- CORE_RECLAIM (R350): workgroups flushed until the needs fit or none is left; nothing is flushed during a thermal stop
(R399). -/
def State.reclaim (s : State) (c l : Nat) (n : Needs) : Nat → State
  | 0 => s
  | k + 1 =>
    if (s.canTake c l n).isSome || (s.core c).fenced || s.power.stopped then s else
    match s.reclaimNext c with
    | none => s
    | some w => State.reclaim (s.flushWg c w false) c l n k

/-! ### Pre-emption -/

/-- The placed workgroups of the device: core and workgroup slot. -/
def State.placedWgs (s : State) : List (Nat × Nat) :=
  s.cores.flatMap fun e => (e.2.wgs.filter fun v => v.2.used).map fun v => (e.1, v.1)

/-- A workgroup halts for its save (R368, step 1). -/
def State.haltWg (s : State) (c w : Nat) : State :=
  let s := s.modWg c w fun W => { W with save := .halting }
  (s.wg c w).slots.foldl (fun s g => (s.modGrp c g fun x => { x with halted := true }).leaveAll c g) s

/-- A workgroup whose save has no room runs on, and its groups that wait on a handle look again (R277, R372). -/
def State.unhaltWg (s : State) (c w : Nat) : State :=
  let s := s.modWg c w fun W => { W with save := .no }
  (s.wg c w).slots.foldl (fun s g => (s.modGrp c g fun x => { x with halted := false }).release c g allLanes) s
    |>.wakeHandles c fun _ => true

/-- The workgroups that are saved together with one: all of its launch where that is co-resident (R370). -/
def State.savedWith (s : State) (c w : Nat) : List (Nat × Nat) :=
  let l := (s.wg c w).launch
  if (s.launch l).lr.coresident && (s.wg c w).task.isNone then
    s.placedWgs.filter fun p => (s.wg p.1 p.2).launch == l && (s.wg p.1 p.2).task.isNone
  else [(c, w)]

/-- Whether a workgroup that leaves its core is flushed: it is restartable and not halted for a save, and at a swap-out so are all that
would be saved with it (R367, R369, R370). -/
def State.flushes (s : State) (c w : Nat) (yields : Bool) : Bool :=
  let may (p : Nat × Nat) : Bool := (s.wg p.1 p.2).flushable && (s.wg p.1 p.2).save == .no
  may (c, w) && (yields || (s.savedWith c w).all may)

/-- A workgroup leaves its core: flushed if it may be, else its save begins (R367 to R370). -/
def State.evict (s : State) (c w : Nat) (yields : Bool) : State :=
  if s.flushes c w yields then s.flushWg c w yields
  else (s.savedWith c w).foldl (fun s p => if (s.wg p.1 p.2).save = .no then s.haltWg p.1 p.2 else s) s

/-- Whether a queue of a context holds a slot (R369). -/
def State.ctxHasSlot (s : State) (ctx : Nat) : Bool := s.hwSlots.any fun h => h.2.queue != 0 && s.queueCtx (h.2.queue - 1) == ctx

/-- A placed workgroup that pre-emption may take for a launch (R369). -/
def State.preemptible (s : State) (L : Launch) (p : Nat × Nat) : Bool :=
  let W := s.wg p.1 p.2
  let M := s.launch W.launch
  s.mayUse L p.1 && M.cls != 3 && !s.ctxHasSlot M.ctx && decide (L.cls < s.ctxClass M.ctx) && W.save == .no

/-- A launch of a slot has waited for cores longer than the pre-emption delay, and no save for it is under way (R369). -/
def State.starves (s : State) (l : Nat) : Bool :=
  let L := s.launch l
  L.queue != 0 && (s.slotOfQueue (L.queue - 1)).isSome && s.toPlace l && s.ctxState L.ctx == 0 && decide (L.since + 1900 * s.delay < s.cyc.toNat) &&
    s.meshReady l &&
    (if L.lr.coresident && !L.placed then (s.quads l).isNone else (s.chooseCore l).isNone) &&
    !s.placedWgs.any fun p => s.mayUse L p.1 && (s.wg p.1 p.2).save != .no

/-- The `cyc`, plus one, at which a save of a workgroup found no room, for the pre-emption delay after it; else 0 (R372). -/
def State.refusedNow (s : State) (W : Wg) : Nat := if s.cyc.toNat < W.refused + 1900 * s.delay then W.refused else 0

/-- PREEMPTION (R369): the workgroup of the lowest class, the one placed last among them, is flushed or halts for its save; within its
class one whose save has just found no room comes after the others (R372, notes/assumptions/54.md). Nothing is flushed or saved during a thermal stop (R399). -/
def execPreemption (launch : Nat) (s : State) : Result :=
  .next (if s.power.stopped || !s.starves launch then s else
    let rank (k : Nat) : List Nat :=
      let W := s.wg (k / 64) (k % 64)
      [2 - (s.launch W.launch).cls, s.refusedNow W, s.placements - W.placed]
    match firstBy rank ((s.placedWgs.filter (s.preemptible (s.launch launch))).map fun p => p.1 * 64 + p.2) with
    | none => s
    | some k => s.evict (k / 64) (k % 64) true)

end Sys2Proof.Machine
end

