-- ==== Sys2Proof/Machine/Save.lean ====
section
/-! DEFINITION. Save and restore of workgroups (R62, R63, R283, R368 to R372, R374): the save area, the retokens, the
directory, and the placement of a saved workgroup. -/

namespace Sys2Proof.Machine

/-! ### The save area -/

/-- A number rounded up to a multiple. -/
def alignUp (n a : Nat) : Nat := (n + a - 1) / a * a

/-- A byte string with zeros up to a multiple of a length. -/
def padTo (a : Nat) (bs : List Byte) : List Byte := bs ++ List.replicate (alignUp bs.length a - bs.length) 0

/-- The word at which a thread is saved: a barrier, watch or replay wait stands at its own word (R152, R160, R182). -/
def savedPc (t : Thread) : Nat :=
  match t.wait with
  | .bar _ _ _ _ _ _ => t.pc - 4
  | .watch _ => t.pc - 8
  | .replay _ next => next - 4
  | _ => t.pc

/-- The wait byte of a thread (R62). -/
def waitByte (t : Thread) : Nat :=
  if !t.live then 32 else
  match t.wait with
  | .mask k => k + 1
  | .watch _ => 16
  | _ => 0

/-- The word of a lane in the image: in handler mode the trapping set stands at its instruction (R186). -/
def Group.savedPcOf (g : Group) (l : Nat) : Nat :=
  match g.handler with
  | some h => if h.set.testBit l then h.back else savedPc (Tbl.get g.thr l)
  | none => savedPc (Tbl.get g.thr l)

/-- What the group itself waits for: behind its handler, whose own progress is given up, what parked it before (R186). -/
def Group.ownPark (g : Group) : Park :=
  match g.handler with
  | some h => h.held
  | none => g.park

/-- The watch of a group that waits in `WAITS` (R62). -/
def Group.ownWatch (g : Group) : Bool :=
  match g.ownPark with
  | .watch _ => true
  | _ => false

/-- A row is stale to a group (R52). -/
def Core.rowStale (x : Core) (gen : Gen) (g n : Nat) : Bool := (x.row g n).tag != gen

/-- The byte of a tile or accumulator name in the image: unit, stale, bound (R62). -/
def nameByte (unit : Nat) (stale : Bool) : Nat := if unit = 0 then 0 else unit - 1 + (if stale then 64 else 0) + 128

/-- A physical slot or tile is stale to a generation. -/
def Core.unitStale (x : Core) (gen : Gen) (acc : Bool) (unit : Nat) : Bool :=
  (if acc then (Tbl.get x.tiles (unit - 1)).tag else (Tbl.get x.slots (unit - 1)).tag) != gen

/-- The fixed part of a group block (R62). -/
def Core.blockHead (x : Core) (gen : Gen) (slot : Nat) : List Byte :=
  let g := Tbl.get x.grps slot
  let lanes (n : Nat) (f : Nat → Nat) : List Byte := (List.range 64).flatMap fun l => leBytes (f l) n
  lanes 8 g.savedPcOf ++
    lanes 1 (fun l => (Tbl.get g.thr l).preds.toNat + if (Tbl.get g.thr l).live then 128 else 0) ++
    lanes 1 (fun l => waitByte (Tbl.get g.thr l)) ++ lanes 4 (fun l => (Tbl.get g.thr l).seed.toNat) ++
    ((List.range 12).flatMap fun k => leBytes (Tbl.get g.k k).m.toNat 8 ++ leBytes (Tbl.get g.k k).a.toNat 8) ++
    leBytes (g.q.toNat + if g.ownWatch then 256 else 0) 4 ++ leBytes g.mxstat.toNat 4 ++ leBytes g.mxerr.toNat 4 ++
    leBytes (g.isw % 2 ^ 16 * 2 ^ 16) 4 ++
    ((List.range 8).flatMap fun n => leBytes (nameByte (Tbl.get g.tn n) (x.unitStale gen false (Tbl.get g.tn n))) 1) ++
    ((List.range 8).flatMap fun n => leBytes (nameByte (Tbl.get g.an n) (x.unitStale gen true (Tbl.get g.an n))) 1) ++
    leBytes (g.vregs + g.sregs * 2 ^ 8) 4 ++ List.replicate 28 0 ++
    leBytes (listMask ((List.range g.vregs).filter (x.rowStale gen slot))) 16

/-- A group block (R62). -/
def Core.block (x : Core) (gen : Gen) (slot : Nat) : List Byte :=
  let g := Tbl.get x.grps slot
  let words (t : Tbl Word) (n : Nat) : List Byte := (Tbl.dense t 0 n).flatMap fun w => leBytes w.toNat 4
  let rows := ((List.range g.vregs).filter fun n => !x.rowStale gen slot n).flatMap fun n => words (x.row slot n).lanes 64
  let slots := ((List.range 8).filter fun n => Tbl.get g.tn n != 0 && !x.unitStale gen false (Tbl.get g.tn n)).flatMap fun n =>
    (Tbl.dense (Tbl.get x.slots (Tbl.get g.tn n - 1)).rows 0 128).flatMap fun r => leBytes r.toNat 128
  let tiles := ((List.range 8).filter fun n => Tbl.get g.an n != 0 && !x.unitStale gen true (Tbl.get g.an n)).flatMap fun n =>
    ((Tbl.get x.tiles (Tbl.get g.an n - 1)).words gen).flatMap fun w => leBytes w.toNat 4
  padTo 4096 (padTo 256 (x.blockHead gen slot ++ words g.s g.sregs) ++ rows ++ slots ++ tiles)

/-- The scratchpad image (R62). -/
def Core.imageOf (x : Core) (W : Wg) : List Byte :=
  let n := W.scrLen / 32
  let stale (i : Nat) : Bool := Tbl.get x.gtag (W.scrOff / 32 + i) != W.gen
  padTo 4096 (leBytes (listMask ((List.range n).filter stale)) ((n + 7) / 8)) ++ x.sramRead W.gen W.scrOff W.scrLen

/-- The header (R62). -/
def areaHead (L : Launch) (W : Wg) : List Byte :=
  leBytes L.addr 8 ++ leBytes W.base 8 ++ leBytes (W.slots.length + W.point * 2 ^ 8 + W.count * 2 ^ 16) 4 ++ leBytes W.scrLen 4 ++
    ((List.range 16).flatMap fun b => leBytes (Tbl.get W.bars b) 4) ++ leBytes W.gen.toNat 2 ++ List.replicate 166 0

/-- Offsets of blocks of some lengths laid one after another. -/
def offsetsFrom : Nat → List (List Byte) → List Nat
  | _, [] => []
  | a, b :: t => a :: offsetsFrom (a + b.length) t

/-- Bytes written by the device at their home slices, line by line (R247). -/
def State.putBytes (s : State) (a : Nat) (bs : List Byte) : State :=
  let head := (64 - a % 64) % 64
  let s := s.placeDev a (bs.take head)
  let rest := bs.drop head
  (List.range ((rest.length + 63) / 64)).foldl (fun s i => s.placeDev (a + head + 64 * i) ((rest.drop (64 * i)).take 64)) s

/-! ### Save -/

/-- A traversal that stands at a translation fault: it is not performed, and its thread is saved at the word (R368). -/
def Core.atFault (x : Core) (o : MemOp) : Bool := o.traversal.isSome && x.stalls.any fun t => match t.act with
  | .ray op => op == o.id
  | _ => false

/-- Work of a workgroup that its save waits for (R62, R368): its accesses, tile operations, copies whose target or source is a
handle of it with a scratchpad target, writes that satisfy a watch of its threads and that a spill walker has still to test (R282,
R283), and outcomes on their way to its threads (R374). -/
def State.saveWaits (s : State) (c w : Nat) : Bool :=
  let x := s.core c
  let W := s.wg c w
  x.flight.any (fun o => o.gen == W.gen && W.slots.contains o.slot && !x.atFault o) ||
    x.unacked.any (fun u => u.gen == W.gen && W.slots.contains u.slot) ||
    x.seq.any (fun o => o.wg == w && o.gen == W.gen) ||
    s.watches.any (fun e => e.2.used && (W.slots.any fun g => e.2.waiter.isOf c g) && e.2.held != .table &&
      (Tbl.get s.slices e.2.slice).walks.any fun k => k.decides e.2) ||
    x.handles.any (fun h => h.2.owner == w + 1 && !h.2.narrows && (h.2.copies != 0 || s.copies.any fun k =>
      k.2.used && k.2.phase != .offered && k.2.h == h.1 && k.2.dests.any fun d => d.1 == c && decide (d.2 < 2))) ||
    s.msgs.any fun m => m.2.used && W.slots.any fun g => m.2.data.waiter.isOf c g

/-- The arrivals of threads that wait in `BAR` taken out of their barriers (R160). -/
def State.takeArrivals (s : State) (c w : Nat) : State :=
  (s.liveThreads c w).foldl (fun s t => match t.wait with
    | .bar k v b _ true _ => s.modWg k v fun W => { W with bars := Tbl.mod W.bars b fun x => x - 1 }
    | _ => s) s

/-- The waiter's new token: its place in the save area (R283). The trapping set of a handler, saved at its own instruction, waits
no longer with the group (R186). -/
def retoken (s : State) (c ctx e : Nat) (slots : List Nat) (w : Watch) : Watch :=
  match w.waiter with
  | .thread k g l => if k = c ∧ slots.contains g then { w with waiter := .saved ctx e (s.grp c g).index l } else w
  | .group k g =>
    let G := s.grp c g
    let lanes := match G.handler with
      | some h => h.hset ^^^ (h.hset &&& h.set)
      | none => G.pset
    if k = c ∧ slots.contains g then { w with waiter := .saved ctx e G.index 64, lanes := lanes } else w
  | _ => w

/-- A watch of a group that its handler has placed. -/
def State.handlerWatch (s : State) (c : Nat) (slots : List Nat) (n : Nat) (w : Watch) : Bool :=
  match w.waiter with
  | .group k g => k == c && slots.contains g && (s.grp c g).handler.isSome && (s.grp c g).park == .watch n
  | _ => false

/-- Retokens of a workgroup's watches; spilled records are rewritten (R281, R283, R368 step 4). -/
def State.retokenAll (s : State) (c ctx e : Nat) (slots : List Nat) : State :=
  let new := (s.watches.filter fun w => !s.handlerWatch c slots w.1 w.2).map fun w => (w.1, retoken s c ctx e slots w.2)
  let moved := (new.filter fun w => w.2.waiter.isSaved ctx e).map (·.2)
  moved.foldl (fun s w => match w.held with
    | .spilled r => if w.ctx = deviceCtx then s else match s.spillAddr w.ctx w.slice r .write with
      | .ok pa => s.placeDev pa w.record
      | .fault _ => s
    | _ => s) { s with watches := new }

/-- Block counter and check record of the tiles that a workgroup has written (R201). -/
def Core.tileRecords (x : Core) (gen : Gen) (slots : List Nat) : List (Nat × Nat × Nat × Option Nat) :=
  slots.flatMap fun g => (List.range 8).filterMap fun n =>
    let u := Tbl.get (Tbl.get x.grps g).an n
    let t := Tbl.get x.tiles (u - 1)
    if u = 0 ∨ t.tag ≠ gen then none else some ((Tbl.get x.grps g).index, n, t.blocks, t.check)

/-- The pool pages that a context's saved workgroups take (R372). -/
def State.poolUsed (s : State) (ctx : Nat) : List (Nat × Nat) :=
  ((Tbl.get s.ctxRegs ctx).saved.filter fun e => e.2.used).map fun e => (e.2.area - s.ctxNat ctx 0x20 8, e.2.pages * 65536)

/-- The first free directory entry (R372). -/
def State.freeDir (s : State) (ctx : Nat) : Option Nat :=
  firstFrom (fun e => !(s.saved ctx e).used && Memory.nat s.dev (s.dirAddr ctx e + 0x16) 2 % 2 == 0) 0 (2 ^ (s.ctxNat ctx 0x38 4 % 16))

/-- What a copy in flight holds back for the threads of a saved workgroup is kept by the index of their group (R257, R368). -/
def FerryHold.saved (W : Wg) (f : FerryHold) : FerryHold :=
  if f.gen = W.gen ∧ W.slots.contains f.slot then { f with slot := 512 + W.slots.findIdx (· == f.slot) } else f

/-- It is theirs again under the generation of the restore (R371). -/
def FerryHold.restored (old new : Gen) (slots : List Nat) (f : FerryHold) : FerryHold :=
  if f.gen = old ∧ 512 ≤ f.slot then { f with slot := slots.getD (f.slot - 512) 0, gen := new } else f

/-- A copy in flight acts on the restored workgroup's handles as before (R371). -/
def Copy.restored (c : Nat) (old new : Gen) (k : Copy) : Copy :=
  { k with gens := k.gens.map fun e => if e = (c, old) then (c, new) else e }

/-- Steps 3 to 5 of R368 for one workgroup, whose entries of the stop table go to groups that wait for one (R403); none where the pool or the directory has no room (R372). -/
def State.saveOne (s : State) (c w : Nat) : Option State :=
  let W := s.wg c w
  let L := s.launch W.launch
  let x := s.core c
  let blocks := W.slots.map (x.block W.gen)
  let head := padTo 4096 (areaHead L W)
  let bytes := head ++ blocks.flatten ++ x.imageOf W
  let offs := offsetsFrom head.length blocks
  let len := alignUp bytes.length 65536
  match firstFit (s.poolUsed L.ctx) (s.ctxNat L.ctx 0x28 8) len, s.freeDir L.ctx with
  | some off, some e =>
    let area := s.ctxNat L.ctx 0x20 8 + off
    let held := x.handles.any fun h => h.2.owner == w + 1
    let v : Saved := {
      used := true, launch := W.launch, area := area, pages := len / 65536, base := W.base, core := if held then c else 0xFF,
      gen := W.gen, task := W.task, stage := W.stage, restart := W.restart, restartable := W.restartable, count := W.count, rst := W.rst,
      index := W.index, blocks := offs, image := head.length + blocks.flatten.length, scrOff := W.scrOff,
      tiles := x.tileRecords W.gen W.slots }
    let entry := leBytes area 8 ++ leBytes L.addr 8 ++ leBytes (if W.task.isSome then 2 ^ 32 - 1 else W.index) 4 ++
      leBytes v.core 2 ++ leBytes 1 2 ++ leBytes s.cyc.toNat 8
    let s := s.putBytes area bytes
    let s := s.retokenAll c L.ctx e W.slots
    let s := s.putBytes (s.dirAddr L.ctx e) entry
    let s := s.modCtx L.ctx fun r => { r with saved := Tbl.set r.saved e v }
    let s := s.modCore c fun x => { x with
      handles := x.handles.map fun h => if h.2.owner = w + 1 then (h.1, { h.2 with owner := savedOwner L.ctx e }) else h
      ferried := x.ferried.map (FerryHold.saved W) }
    let s := { s with
      copies := s.copies.filter fun k => !(k.2.phase == CopyPhase.offered && k.2.core == c && k.2.gen == W.gen)
      dbg := { s.dbg with stops := s.dbg.stops.filter fun n => !(n.2.1 == c && W.slots.contains n.2.2.1) } }
    some ((s.endWg c w).listStops)
  | _, _ => none

/-- Several workgroups saved together, or none of them (R370). -/
def State.saveAll (s : State) (ps : List (Nat × Nat)) : Option State :=
  ps.foldl (fun a p => a.bind fun s => s.saveOne p.1 p.2) (some (ps.foldl (fun s p => s.takeArrivals p.1 p.2) s))

/-- A workgroup of a context that swaps out leaves: flushed, or halted if there is room for its image (R373). -/
def State.leaveCore (s : State) (c w : Nat) : State :=
  if s.flushes c w false || (s.saveAll (s.savedWith c w)).isSome then s.evict c w false else s

/-- WORKGROUP_SAVE (R368): a halted workgroup is saved once its work is done, or runs on for want of room, which is a sample
(R372); a workgroup of a context that swaps out begins its save (R373). Nothing is saved during a thermal stop (R399). -/
def execWorkgroupSave (core wg : Nat) (s : State) : Result :=
  let W := s.wg core wg
  let ps := s.savedWith core wg
  .next (s.walkersTake (if !W.used || s.power.stopped then s
    else if W.save = .no then (if s.ctxState (s.launch W.launch).ctx = 1 then s.leaveCore core wg else s)
    else if ps.any (fun p => (s.wg p.1 p.2).save == .no || s.saveWaits p.1 p.2) then s
    else match s.saveAll ps with
      | some t => t
      | none => (ps.foldl (fun s p => (s.modWg p.1 p.2 fun V => { V with refused := s.cyc.toNat + 1 }).unhaltWg p.1 p.2) s).sample
          0x04 none 65535))

/-! ### Reading an area -/

/-- A field of a saved workgroup's area. -/
def State.areaNat (s : State) (v : Saved) (off n : Nat) : Nat := Memory.nat s.dev (v.area + off) n

/-- Whether bytes of an area are zero. -/
def State.areaZero (s : State) (v : Saved) (off n : Nat) : Bool := (Memory.read s.dev (v.area + off) n).all (· == 0)

/-- A group block keeps its layout and the limits of R31 (R63). -/
def State.blockOk (s : State) (v : Saved) (b : Nat) : Bool :=
  let f := fun off n => s.areaNat v (b + off) n
  let vregs := f 0x460 4 % 2 ^ 8
  let sregs := bitsOf (f 0x460 4) 16 8
  (List.range 64).all (fun l => f (8 * l) 8 / 2 ^ 48 == 0 && f (8 * l) 8 % 4 == 0 && decide (f (0x240 + l) 1 < 64) &&
    decide (f (0x240 + l) 1 % 16 ≤ 12)) &&
  bitsOf (f 0x440 4) 7 7 == 0 && f 0x440 4 / 2 ^ 9 == 0 && f 0x444 4 / 16 == 0 && f 0x44C 4 % 2 ^ 16 == 0 &&
  (List.range 8).all (fun n => bitsOf (f (0x450 + n) 1) 5 5 == 0 && bitsOf (f (0x458 + n) 1) 5 3 == 0) &&
  f 0x460 4 / 2 ^ 17 == 0 && s.areaZero v (b + 0x464) 28 && vregs % 8 == 0 && decide (8 ≤ vregs) && decide (vregs ≤ 128) &&
  sregs % 16 == 0 && decide (16 ≤ sregs) && decide (sregs ≤ 256)

/-- Bound names of a group block: 8 from an offset (R62). -/
def State.boundNames (s : State) (v : Saved) (b off : Nat) : Nat :=
  ((List.range 8).filter fun n => (s.areaNat v (b + off + n) 1).testBit 7).length

/-- A saved image keeps its layout and the limits of R31 (R63). -/
def State.areaOk (s : State) (v : Saved) : Bool :=
  let n := s.areaNat v 0x10 4 % 32
  bitsOf (s.areaNat v 0x10 4) 7 5 == 0 && s.areaNat v 0x10 4 / 2 ^ 24 == 0 && s.areaZero v 0x5A 166 && decide (1 ≤ n) &&
    decide (n ≤ 16) && n == v.blocks.length && s.areaNat v 0x14 4 % 32 == 0 &&
    decide (s.areaNat v 0x14 4 ≤ 11 * Config.sramStep) && v.blocks.all (s.blockOk v)

/-- What the restore of a saved workgroup needs of a core (R63, R222), and its slots and tiles. -/
def State.savedNeeds (s : State) (v : Saved) : Needs × Nat × Nat :=
  let b := v.blocks.headD 0
  ({ groups := v.blocks.length, vregs := s.areaNat v (b + 0x460) 4 % 2 ^ 8, sregs := bitsOf (s.areaNat v (b + 0x460) 4) 16 8
     scratch := s.areaNat v 0x14 4 },
   v.blocks.foldl (fun n b => n + s.boundNames v b 0x450) 0, v.blocks.foldl (fun n b => n + s.boundNames v b 0x458) 0)

/-- Words of an area. -/
def State.areaWords (s : State) (a n : Nat) : Tbl Word :=
  Tbl.ofWords ((upFrom 0 n).map fun i => BitVec.ofNat 32 (Memory.nat s.dev (a + 4 * i) 4))

/-! ### Restore -/

/-- A thread as a block holds it; `watch` names the watch that it still waits for (R374). -/
def State.loadThread (s : State) (v : Saved) (b : Nat) (watch : Nat → Option Nat) (l : Nat) : Thread :=
  let f := fun off n => s.areaNat v (b + off) n
  let p := f (0x200 + l) 1
  let z := f (0x240 + l) 1
  let pc := f (8 * l) 8
  let t : Thread := { live := p.testBit 7, pc := pc, preds := BitVec.ofNat 7 p, seed := BitVec.ofNat 32 (f (0x280 + 4 * l) 4) }
  if z % 16 ≠ 0 then { t with wait := .mask (z % 16 - 1) }
  else match z.testBit 4, watch l with
    | true, some n => { t with wait := .watch n, pc := pc + 8 }
    | _, _ => t

/-- A group as a block holds it, without its names (R62, R63). -/
def State.loadGroup (s : State) (v : Saved) (b w j : Nat) (watch : Nat → Option Nat) (lanes : Nat) : Group :=
  let f := fun off n => s.areaNat v (b + off) n
  let sregs := bitsOf (f 0x460 4) 16 8
  let thr := (List.range 64).foldl (fun t l => Tbl.set t l (s.loadThread v b watch l)) ([] : Tbl Thread)
  { used := true, wg := w, index := j, vregs := f 0x460 4 % 2 ^ 8, sregs := sregs, s := s.areaWords (v.area + b + 0x490) sregs
    q := BitVec.ofNat 7 (f 0x440 4)
    k := (List.range 12).foldl (fun t k => Tbl.set t k
      { m := BitVec.ofNat 64 (f (0x380 + 16 * k) 8), a := BitVec.ofNat 64 (f (0x388 + 16 * k) 8) }) []
    thr := thr, mxstat := BitVec.ofNat 4 (f 0x444 4), mxerr := BitVec.ofNat 32 (f 0x448 4), isw := f 0x44C 4 / 2 ^ 16
    park := match (f 0x440 4).testBit 8, watch 64 with
      | true, some n => .watch n
      | _, _ => .none
    ppc := (maskList lanes 64).head?.elim 0 fun l => f (8 * l) 8
    pset := lanes }

/-- A saved row, slot or tile still to be read: the next position in the area. -/
structure Loading where
  core : Core
  grp : Group
  pos : Nat

/-- The lowest free operand slot of a core. -/
def Core.freeSlot (x : Core) : Nat := (firstFrom (fun n => (Tbl.get x.slots n).owner == 0 && !(Tbl.get x.slots n).retired) 0 32).getD 0
/-- The lowest free accumulator tile of a core. -/
def Core.freeTile (x : Core) : Nat := (firstFrom (fun n => (Tbl.get x.tiles n).owner == 0 && !(Tbl.get x.tiles n).retired) 0 8).getD 0

/-- A row that is not stale is written whole under the new generation (R63). -/
def State.loadRow (s : State) (gen : Gen) (slot stale : Nat) (a : Loading) (n : Nat) : Loading :=
  if stale.testBit n then a
  else { a with core := { a.core with rows := Tbl.set a.core.rows (128 * slot + n) { tag := gen, lanes := s.areaWords a.pos 64 } }
                pos := a.pos + 256 }

/-- A bound tile name finds a free slot; its rows are written unless it was stale (R63). -/
def State.loadSlot (s : State) (v : Saved) (b : Nat) (gen : Gen) (slot : Nat) (a : Loading) (n : Nat) : Loading :=
  let z := s.areaNat v (b + 0x450 + n) 1
  if !z.testBit 7 then a else
  let u := a.core.freeSlot
  let rows : Tbl (BitVec 1024) := Tbl.ofWords ((upFrom 0 128).map fun i => BitVec.ofNat 1024 (Memory.nat s.dev (a.pos + 128 * i) 128))
  let fresh (y : Slot) : Slot := if z.testBit 6 then y else { y with tag := gen, rows := rows, bad := [] }
  { core := { a.core with slots := Tbl.mod a.core.slots u fun y => { fresh y with owner := slot + 1 } }
    grp := { a.grp with tn := Tbl.set a.grp.tn n (u + 1) }
    pos := if z.testBit 6 then a.pos else a.pos + 16384 }

/-- A bound accumulator name finds a free tile; its words and its record are written unless it was stale (R63). -/
def State.loadTile (s : State) (v : Saved) (b : Nat) (gen : Gen) (slot : Nat) (a : Loading) (n : Nat) : Loading :=
  let z := s.areaNat v (b + 0x458 + n) 1
  if !z.testBit 7 then a else
  let u := a.core.freeTile
  let r := ((v.tiles.find? fun r => r.1 == a.grp.index && r.2.1 == n).map fun r => (r.2.2.1, r.2.2.2)).getD (0, none)
  let fresh (y : Tile) : Tile :=
    if z.testBit 6 then y
    else { y with tag := gen, acc := s.areaWords a.pos 16384, blocks := r.1, check := r.2, bad := [] }
  { core := { a.core with tiles := Tbl.mod a.core.tiles u fun y => { fresh y with owner := slot + 1 } }
    grp := { a.grp with an := Tbl.set a.grp.an n (u + 1) }
    pos := if z.testBit 6 then a.pos else a.pos + 65536 }

/-- One group of a saved workgroup placed in a slot of a core (R63). -/
def State.loadBlock (s : State) (v : Saved) (gen : Gen) (x : Core) (slot b : Nat) (g : Group) : Core :=
  let stale := Memory.nat s.dev (v.area + b + 0x480) 16
  let a : Loading := { core := x, grp := g, pos := v.area + b + alignUp (0x490 + 4 * g.sregs) 256 }
  let a := (List.range g.vregs).foldl (s.loadRow gen slot stale) a
  let a := (List.range 8).foldl (s.loadSlot v b gen slot) a
  let a := (List.range 8).foldl (s.loadTile v b gen slot) a
  { a.core with grps := Tbl.set a.core.grps slot a.grp }

/-- The scratchpad image written under the new generation; stale granules stay unwritten (R63). -/
def State.loadImage (s : State) (v : Saved) (gen : Gen) (off len : Nat) (x : Core) : Core :=
  let at_ := v.area + v.image
  let data := at_ + alignUp ((len / 32 + 7) / 8) 4096
  (List.range (len / 32)).foldl (fun x i =>
    if (Memory.nat s.dev (at_ + i / 8) 1).testBit (i % 8) then x
    else x.sramWrite gen (off + 32 * i) (Memory.read s.dev (data + 32 * i) 32)) x

/-- The watch of a saved waiter that is still undecided. -/
def State.savedWatch (s : State) (ctx e g l : Nat) : Option Nat :=
  (s.watches.find? fun w => w.2.used && w.2.waiter == .saved ctx e g l).map (·.1)

/-- The lanes of a saved group that stand at its `WAITS`. -/
def State.savedLanes (s : State) (ctx e g : Nat) : Nat :=
  match s.savedWatch ctx e g 64 with
  | some n => (Tbl.get s.watches n).lanes
  | none => 0

/-- Undecided watches of a restored workgroup name its threads again (R374). -/
def untoken (c ctx e : Nat) (gen : Gen) (slots : List Nat) (w : Watch) : Watch :=
  match w.waiter with
  | .saved x n g l =>
    if x ≠ ctx ∨ n ≠ e then w
    else { w with gen := gen, lanes := 0, waiter := if l = 64 then .group c (slots.getD g 0) else .thread c (slots.getD g 0) l }
  | _ => w

/-- A saved workgroup placed on a core at a scratchpad offset under a new generation (R63, R371, R374). The number of its
workgroup slot is returned. -/
def State.placeSaved (s : State) (ctx e c off : Nat) : State × Nat :=
  let v := s.saved ctx e
  let x := (s.core c).withNum v.launch
  let w := x.freeWg
  let slots := x.freeGroups v.blocks.length
  let gen := x.nextGen
  let len := s.areaNat v 0x14 4
  let W : Wg := {
    used := true, launch := v.launch, index := v.index, base := s.areaNat v 8 8, slots := slots, gen := gen, scrOff := off
    scrLen := len, bars := (List.range 16).foldl (fun t b => Tbl.set t b (s.areaNat v (0x18 + 4 * b) 4)) []
    point := bitsOf (s.areaNat v 0x10 4) 15 8, count := bitsOf (s.areaNat v 0x10 4) 23 16, rst := v.rst, restart := v.restart
    restartable := v.restartable, task := v.task, stage := v.stage, placed := s.placements }
  let x := (slots.zip v.blocks).zipIdx.foldl (fun x g =>
    s.loadBlock v gen x g.1.1 g.1.2 (s.loadGroup v g.1.2 w g.2 (s.savedWatch ctx e g.2) (s.savedLanes ctx e g.2))) x
  let x := s.loadImage v gen off len x
  let own (h : Handle) : Handle :=
    if h.owner = savedOwner ctx e then
      { h with owner := w + 1, gen := gen, off := if h.narrows then h.off else h.off + off - v.scrOff }
    else h
  let x := { x with wgs := Tbl.set x.wgs w W, nextGen := nextGenOf gen, handles := x.handles.map fun (h : Nat × Handle) => (h.1, own h.2)
                    ferried := if v.core = c then x.ferried.map (FerryHold.restored v.gen gen slots) else x.ferried }
  let s := { s.setCore c (x.invalidate ctx none) with
    copies := if v.core = c then s.copies.map fun (k : Nat × Copy) => (k.1, k.2.restored c v.gen gen) else s.copies
    placements := s.placements + 1
    watches := s.watches.map fun (n : Nat × Watch) => (n.1, untoken c ctx e gen slots n.2) }
  let s := s.eraseSaved ctx e
  (slots.foldl (fun s g => s.release c g allLanes) s, w)

/-- Slots and tiles of a core that are free and not held for restores that began to wait before this one (R63). -/
def State.unitsFor (s : State) (ctx e c : Nat) : Nat × Nat :=
  let x := s.core c
  let before := (s.restores.takeWhile fun r => !(r.ctx == ctx && r.entry == e)).filter fun r => r.core == some c
  (((List.range 32).filter fun n => (Tbl.get x.slots n).owner == 0 && !(Tbl.get x.slots n).retired).length -
      before.foldl (fun n r => n + r.slots) 0,
    ((List.range 8).filter fun n => (Tbl.get x.tiles n).owner == 0 && !(Tbl.get x.tiles n).retired).length -
      before.foldl (fun n r => n + r.tiles) 0)

/-- The state without this restore's own reservation. -/
def State.unwait (s : State) (ctx e : Nat) : State :=
  { s with restores := s.restores.map fun r => if r.ctx = ctx ∧ r.entry = e then { r with reserved := false } else r }

/-- The offset at which a core can give a restore the resources of R222; a fenced core takes one that it is bound to
(R371). -/
def State.coreGives (s : State) (ctx e c : Nat) : Option Nat :=
  let v := s.saved ctx e
  let t := s.unwait ctx e
  if ((s.core c).fenced && v.core != c) || !(s.core c).opens v.launch then none else (t.roomOf c).fit (s.savedNeeds v).1

/-- A core can give a restore everything at once (R63). -/
def State.coreGivesAll (s : State) (ctx e c : Nat) : Option Nat :=
  let n := s.savedNeeds (s.saved ctx e)
  let u := s.unitsFor ctx e c
  if n.2.1 ≤ u.1 ∧ n.2.2 ≤ u.2 then s.coreGives ctx e c else none

/-- The cores on which a saved workgroup may be placed, in order: where it waits, its own, or those of its launch (R63,
R371), but never one that a chain has reserved from its launch meanwhile (R349); while its context stays resident, not one that a
higher class waits for (R369). -/
def State.restoreCores (s : State) (ctx e : Nat) : List Nat :=
  let v := s.saved ctx e
  let L := s.launch v.launch
  let waits := ((s.restores.find? fun r => r.ctx == ctx && r.entry == e).bind (·.core)).filter (s.mayUse L)
  let all := match waits with
    | some c => [c]
    | none => if v.core = 0xFF then s.usable L else [v.core].filter (s.mayUse L)
  if s.ctxState ctx = 3 then all else all.filter fun c => !s.higherWaits v.launch c

/-- A restore begins to wait, or learns where it waits (R63). -/
def State.waitRestore (s : State) (r : RestoreWait) : State :=
  if s.restores.any fun x => x.ctx == r.ctx && x.entry == r.entry then
    { s with restores := s.restores.map fun x => if x.ctx = r.ctx ∧ x.entry = r.entry then r else x }
  else { s with restores := s.restores ++ [r] }

/-- The restore of one saved workgroup: placed, waiting, or failed (R63); it waits no longer on a core that a chain has reserved (R349). -/
def State.restoreOne (s : State) (ctx e : Nat) : State :=
  let v := s.saved ctx e
  let n := s.savedNeeds v
  let barred (r : RestoreWait) : Bool := r.ctx == ctx && r.entry == e && r.core.any fun c => !s.mayUse (s.launch v.launch) c
  let s := { s with restores := s.restores.filter fun r => !barred r }
  let cs := s.restoreCores ctx e
  let wait (c : Option Nat) (r : Bool) : RestoreWait :=
    { ctx := ctx, entry := e, core := c, reserved := r, needs := n.1, slots := n.2.1, tiles := n.2.2 }
  match cs.findSome? fun c => (s.coreGivesAll ctx e c).map fun off => (c, off) with
  | some (c, off) => (s.placeSaved ctx e c off).1
  | none =>
    if v.core ≠ 0xFF then (if cs.isEmpty then s else s.waitRestore (wait (some v.core) false))
    else match cs.find? fun c => (s.coreGives ctx e c).isSome with
      | some c => s.waitRestore (wait (some c) true)
      | none => if s.ctxState ctx = 3 then s.waitRestore (wait none false) else s

/-- The saved workgroups of the partner quad of one of a co-resident launch (R370). -/
def State.savedQuad (s : State) (ctx e : Nat) : List Nat :=
  let v := s.saved ctx e
  ((Tbl.get s.ctxRegs ctx).saved.filter fun n => n.2.used && n.2.launch == v.launch && n.2.index / 4 == v.index / 4 &&
    n.2.task.isNone).map (·.1)

/-- The atolls on which a quad may be placed, ascending: the one where it waits, or those that its bound members and its launch
allow (R63, R225, R371). -/
def State.quadAtolls (s : State) (ctx : Nat) (quad : List Nat) : List Nat :=
  let waits := (s.restores.find? fun r => r.ctx == ctx && quad.contains r.entry && r.core.isSome).bind (·.core)
  (match waits with
   | some c => [atollOf c]
   | none => List.range Config.atolls).filter fun a => quad.all fun e =>
    let v := s.saved ctx e
    let c := coreAt a (v.index % 4)
    (v.core == 0xFF || v.core == c) && s.mayUse (s.launch v.launch) c &&
      (s.ctxState ctx == 3 || !s.higherWaits v.launch c)

/-- Whether every member of a quad finds what it needs on its core of an atoll. -/
def State.quadFits (s : State) (ctx : Nat) (quad : List Nat) (gives : Nat → Nat → Option Nat) (a : Nat) : Bool :=
  quad.all fun e => (gives e (coreAt a ((s.saved ctx e).index % 4))).isSome

/-- A quad waits on the cores of an atoll, or on none, as each of its members would (R63). -/
def State.waitQuad (s : State) (ctx : Nat) (quad : List Nat) (a : Option Nat) (reserved : Bool) : State :=
  quad.foldl (fun s e =>
    let n := s.savedNeeds (s.saved ctx e)
    s.waitRestore {
      ctx := ctx, entry := e, core := a.map fun a => coreAt a ((s.saved ctx e).index % 4), reserved := reserved, needs := n.1
      slots := n.2.1, tiles := n.2.2 }) s

/-- A quad placed on the cores of an atoll in one step, with its partners (R225, R370). -/
def State.placeQuad (s : State) (ctx : Nat) (quad : List Nat) (a : Nat) : State :=
  let r := quad.foldl (fun (acc : Option (State × List (Nat × Nat))) n => acc.bind fun acc =>
    let v := acc.1.saved ctx n
    let c := coreAt a (v.index % 4)
    (acc.1.coreGivesAll ctx n c).map fun off =>
      let p := acc.1.placeSaved ctx n c off
      (p.1, acc.2 ++ [(c, p.2)])) (some (s, []))
  match r with
  | some r => r.2.foldl (fun s p => s.rejoin p.1 p.2) r.1
  | none => s

/-- The partner quad of a co-resident launch restored in one step (R370): on the first atoll that can give everything at once;
until then its members wait as R63 makes a single restore wait, with the cores of one atoll in place of one core
(notes/assumptions/26.md). -/
def State.restoreQuad (s : State) (ctx e : Nat) : State :=
  let quad := s.savedQuad ctx e
  let bound := quad.any fun n => (s.saved ctx n).core != 0xFF
  let as := s.quadAtolls ctx quad
  match as.find? (s.quadFits ctx quad (s.coreGivesAll ctx)) with
  | some a => s.placeQuad ctx quad a
  | none =>
    if bound then (match as with
      | a :: _ => s.waitQuad ctx quad (some a) false
      | [] => s)
    else match as.find? (s.quadFits ctx quad (s.coreGives ctx)) with
      | some a => s.waitQuad ctx quad (some a) true
      | none => if s.ctxState ctx = 3 then s.waitQuad ctx quad none false else s

/-- Lower entries of a context that is restored have been placed or have begun to wait (R374). -/
def State.restoreTurn (s : State) (ctx e : Nat) : Bool :=
  s.ctxState ctx != 3 || (Tbl.get s.ctxRegs ctx).saved.all fun n =>
    !n.2.used || decide (e ≤ n.1) || s.restores.any fun r => r.ctx == ctx && r.entry == n.1

/-- WORKGROUP_RESTORE (R63, R369, R371, R374). -/
def execWorkgroupRestore (ctx entry : Nat) (s : State) : Result :=
  let v := s.saved ctx entry
  .next (if !v.used || !(s.ctxState ctx == 0 || s.ctxState ctx == 3) || (s.launch v.launch).status != 0 || !s.restoreTurn ctx entry ||
      s.msgs.any (fun m => m.2.used && m.2.data.waiter.isSaved ctx entry) then s
    else if !s.areaOk v then s.faultEnd v.launch 0 v.core 0 0
    else if (s.launch v.launch).lr.coresident && v.task.isNone then
      (match (s.savedQuad ctx entry).find? fun n => !s.areaOk (s.saved ctx n) with
       | some n => s.faultEnd v.launch 0 (s.saved ctx n).core 0 0
       | none => s.restoreQuad ctx entry)
    else s.restoreOne ctx entry)

end Sys2Proof.Machine
end

