-- ==== Sys2Proof/Machine/Context.lean ====
section
/-! DEFINITION. The commands on contexts (R363 to R366, R373, R374, R378). -/

namespace Sys2Proof.Machine

/-- A context's state word written (R364). -/
def State.setCtxState (s : State) (ctx v : Nat) : State := s.placeNat (s.ctxAddr ctx + 0x50) 4 v

/-- Whether a command on a context is accepted (R363). -/
def State.ctxAccepts (s : State) (op ctx : Nat) : Bool :=
  !s.service.recovery && !s.cmd.busy && decide (ctx < s.ctxCount) &&
    (op == 5 || (op == 2 && s.ctxState ctx == 4) || (s.ctxEnabled ctx && s.ctxState ctx != 4))

/-- The device looks at a descriptor that a command, a restore or a pending launch names: the number of one that breaks the
layout is posted (R364). -/
def State.lookContext (s : State) (ctx : Nat) : State :=
  if ctx < s.ctxCount ∧ !s.ctxLayout ctx then s.postContext ctx else s

/-- A command in the status word (R363). -/
def State.noteCmd (s : State) (op ctx : Nat) (busy : Bool) : State :=
  { s with cmd := { s.cmd with busy := busy, op := op, ctx := ctx } }

/-- A command that has come to its end. -/
def State.endCmd (s : State) (op ctx : Nat) : State :=
  if s.cmd.busy && s.cmd.op == op && s.cmd.ctx == ctx then { s with cmd := { s.cmd with busy := false } } else s

/-- A context's queues lose their slots (R366, R373). -/
def State.dropSlots (s : State) (ctx : Nat) : State :=
  { s with hwSlots := s.hwSlots.filter fun h => !(h.2.queue != 0 && s.queueCtx (h.2.queue - 1) == ctx) }

/-- Placed workgroups and tasks of a context. -/
def State.wgsOfCtx (s : State) (ctx : Nat) : List (Nat × Nat) :=
  s.placedWgs.filter fun p => (s.launch (s.wg p.1 p.2).launch).ctx == ctx

/-! ### Swap-out -/

/-- The swap-out of a context begins (R373). -/
def State.swapOut (s : State) (ctx : Nat) : State :=
  let s := (s.noteCmd 1 ctx true).setCtxState ctx 1
  let s := { s.dropSlots ctx with restores := s.restores.filter fun r => r.ctx != ctx }
  if s.power.stopped then s else (s.wgsOfCtx ctx).foldl (fun s p => s.evict p.1 p.2 false) s

/-- SWAP_OUT (R373). -/
def execSwapOut (ctx : Nat) (s : State) : Result :=
  .next (if s.ctxAccepts 1 ctx then s.swapOut ctx else s.lookContext ctx)

/-- A context's translations and L1 lines dropped (R373). -/
def State.dropCaches (s : State) (ctx : Nat) : State :=
  let s := (Tbl.keys s.cores).foldl (fun s c => s.modCore c fun x => { x with
    tlb := x.tlb.filter fun t => t.ctx != ctx, l1 := x.l1.filter fun l => l.2.ctx != ctx }) s
  (Tbl.keys s.atolls).foldl (fun s a => s.modAtoll a fun x => { x with tlb := x.tlb.filter fun t => t.ctx != ctx }) s

/-- SWAP_OUT_COMPLETE (R373): every placed workgroup and task has been saved, flushed or retired. -/
def execSwapOutComplete (ctx : Nat) (s : State) : Result :=
  .next (if s.ctxState ctx ≠ 1 ∨ !(s.wgsOfCtx ctx).isEmpty then s
    else ((s.dropCaches ctx).setCtxState ctx 2).endCmd 1 ctx)

/-! ### Restore -/

/-- A decided watch asks for a swapped context (R283, R318). -/
def State.asked (s : State) (ctx : Nat) : Bool :=
  s.ctxState ctx == 2 && (Tbl.get s.ctxRegs ctx).saved.any fun e => e.2.used && e.2.decided

/-- A destroyed context whose descriptor is good is resident again; the number of one that is not is posted anew (R364, R366). -/
def State.revive (s : State) (ctx : Nat) : State :=
  let s := s.modCtx ctx fun r => { r with posted := false }
  if s.ctxEnabled ctx then s.setCtxState ctx 0 else s.lookContext ctx

/-- A restore command (R366, R374). -/
def State.restoreCtx (s : State) (ctx : Nat) : State :=
  if s.ctxState ctx = 4 then (s.noteCmd 2 ctx false).revive ctx else (s.noteCmd 2 ctx true).setCtxState ctx 3

/-- CONTEXT_RESTORE (R374): by a decided watch of the swapped context, or by command. -/
def execContextRestore (ctx : Nat) (s : State) : Result :=
  .next (if s.asked ctx then s.setCtxState ctx 3
    else if s.ctxAccepts 2 ctx then s.restoreCtx ctx else s.lookContext ctx)

/-- Queues of a context that are ready join the waiting order afresh (R316, R374). -/
def State.rejoinQueues (s : State) (ctx : Nat) : State :=
  (Tbl.keys s.queues).foldl (fun s q =>
    if (s.queue q).ready != 0 && s.queueCtx q == ctx then s.modQueue q fun r => { r with ready := s.cyc.toNat + 1 } else s) s

/-- CONTEXT_RESTORE_COMPLETE (R374): every valid entry of the directory is placed. -/
def execContextRestoreComplete (ctx : Nat) (s : State) : Result :=
  .next (if s.ctxState ctx ≠ 3 ∨ (Tbl.get s.ctxRegs ctx).saved.any (fun e => e.2.used) then s
    else ((s.setCtxState ctx 0).rejoinQueues ctx).endCmd 2 ctx)

/-! ### Ending launches and destroying -/

/-- A launch ended by the control node (R332, R366). -/
def State.cutLaunch (s : State) (l : Nat) : State :=
  (s.modLaunch l fun L => { L with status := if L.status = 0 then 4 else L.status, restarts := [] }).stopLaunch l

/-- The launches of a context, ended with status 0x04, with their saved workgroups, tasks and waiting records (R366). -/
def State.cutLaunches (s : State) (ctx : Nat) : State :=
  let ls := (s.launches.filter fun e => e.2.used && e.2.ctx == ctx).map (·.1)
  let s := ls.foldl (fun s l => s.cutLaunch l) s
  let es := Tbl.keys (Tbl.get s.ctxRegs ctx).saved
  let s := es.foldl (fun s e => s.dropSaved ctx e) s
  (Tbl.keys s.cores).foldl (fun s c => s.modCore c fun x => { x with pend := x.pend.filter fun p => p.ctx != ctx }) s

/-- END_LAUNCHES (R366). -/
def execEndLaunches (ctx : Nat) (s : State) : Result :=
  .next (if s.ctxAccepts 4 ctx then (s.cutLaunches ctx).noteCmd 4 ctx false else s.lookContext ctx)

/-- A context destroyed (R366). -/
def State.destroy (s : State) (ctx : Nat) : State :=
  let s := (s.cutLaunches ctx).dropSlots ctx
  let s := { s with watches := s.watches.filter fun w => w.2.ctx != ctx, msgs := s.msgs.filter fun m => m.2.data.ctx != ctx }
  (s.setCtxState ctx 4).noteCmd 3 ctx false

/-- CONTEXT_DESTROY (R366). -/
def execContextDestroy (ctx : Nat) (s : State) : Result := .next (if s.ctxAccepts 3 ctx then s.destroy ctx else s.lookContext ctx)

/-! ### Invalidation -/

/-- The leaves below a table: virtual address, size and physical address (R375, R376). -/
def leavesOf (m : Memory) : Nat → Nat → Nat → List (Nat × Nat × Nat)
  | 0, table, va => (List.range 32).filterMap fun i => leaf m 0 (table + 8 * i) (va + i * 2 ^ levelShift 0)
  | n + 1, table, va => (List.range 512).flatMap fun i =>
    let e := Memory.nat m (table + 8 * i) 8
    let here := va + i * 2 ^ levelShift (n + 1)
    if e.testBit 0 && !e.testBit 1 && bitsOf e 7 4 == 0 && e / 2 ^ 52 == 0 && bitsOf e 51 8 * 256 % tableAlign (n + 1) == 0 &&
        decide (bitsOf e 51 8 * 256 < Config.deviceBytes) then leavesOf m n (bitsOf e 51 8 * 256) here
    else (leaf m (n + 1) (table + 8 * i) here).toList
where
  /-- one entry read as a leaf -/
  leaf (m : Memory) (level at_ va : Nat) : Option (Nat × Nat × Nat) :=
    let e := Memory.nat m at_ 8
    let size := 2 ^ levelShift level
    let pa := bitsOf e 51 8 * 256
    if e.testBit 0 && e.testBit 1 && level != 3 && bitsOf e 7 4 == 0 && e / 2 ^ 52 == 0 && pa % size == 0 &&
        decide (pa < Config.deviceBytes) then some (va, size, pa)
    else none

/-- Two virtual ranges meet; a range of 0 pages is the whole context (R363). -/
def inRange (va pages a size : Nat) : Bool :=
  pages == 0 || (decide (a < va + pages * 65536) && decide (va < a + size))

/-- The physical pages that an invalidation affects: those that the context's tables map in the range, and those of the
entries it removes (R378, notes/assumptions/27.md). -/
def State.pagesOf (s : State) (ctx va pages : Nat) : List (Nat × Nat) :=
  let root := bitsOf (s.ctxNat ctx 0 8) 47 12 * 4096
  let cached := (s.cores.flatMap fun e => e.2.tlb) ++ s.atolls.flatMap fun e => e.2.tlb
  ((leavesOf s.dev 3 root 0).filter fun l => inRange va pages l.1 l.2.1).map (fun l => (l.2.2, l.2.1)) ++
    (cached.filter fun t => t.ctx == ctx && inRange va pages t.va t.size).map fun t => (t.pa, t.size)

/-- The context whose tables an access in flight has translated through: its own for device memory, that of its pod number for one to
the device's own peer number (R243, R375, R384). -/
def State.tablesOf (s : State) (o : MemOp) : Option Nat :=
  if o.own then s.podContext (s.ctxNat o.ctx 0x0C 4 % 2 ^ 16) else if o.place = .device then some o.ctx else none

/-- Accesses in flight that have translated through a range of a context: core and number (R378). -/
def State.opsThrough (s : State) (ctx va pages : Nat) : List (Nat × Nat) :=
  s.cores.flatMap fun e => (e.2.flight.filter fun o =>
    s.tablesOf o == some ctx && o.vas.any fun v => inRange va pages v.1 v.2).map fun o => (e.1, o.id)

/-- Translations of a range removed (R378, step 1). -/
def State.dropRange (s : State) (ctx va pages : Nat) : State :=
  let keep (t : TlbEntry) : Bool := !(t.ctx == ctx && inRange va pages t.va t.size)
  let s := (Tbl.keys s.cores).foldl (fun s c => s.modCore c fun x => { x with tlb := x.tlb.filter keep }) s
  (Tbl.keys s.atolls).foldl (fun s a => s.modAtoll a fun x => { x with tlb := x.tlb.filter keep }) s

/-- An invalidation begins (R378). -/
def State.invalidate (s : State) (ctx : Nat) : State :=
  let i : Inval := { pages := s.pagesOf ctx s.cmd.va s.cmd.pages, ops := s.opsThrough ctx s.cmd.va s.cmd.pages }
  let s := (s.dropRange ctx s.cmd.va s.cmd.pages).noteCmd 5 ctx true
  { s with cmd := { s.cmd with inval := some i } }

/-- INVALIDATE (R378). -/
def execInvalidate (ctx : Nat) (s : State) : Result := .next (if s.ctxAccepts 5 ctx then s.invalidate ctx else s)

/-- Watches on physical pages (R284, R378). -/
def State.watchesOn (s : State) (pages : List (Nat × Nat)) : List Nat :=
  (s.watches.filter fun w => w.2.used && rangesMeet [(w.2.addr, w.2.bytes)] pages).map (·.1)

/-- A watch decided by an invalidation: satisfied where a write that the spill walker has still to test satisfies it (R153, R282,
R284). -/
def State.retranslateWatch (s : State) (n : Nat) : State :=
  let w := Tbl.get s.watches n
  let met := match w.held with
    | .spilled _ => (Tbl.get s.slices w.slice).walks.any fun k => k.decides w
    | _ => false
  s.endWatch n (if met then .satisfied else .retranslate)

/-- INVALIDATE_COMPLETE (R284, R378): the accesses are placed; watches are decided with the retranslate status. -/
def execInvalidateComplete (s : State) : Result :=
  .next (match s.cmd.inval with
    | none => s
    | some i =>
      if i.ops.any fun o => (s.core o.1).flight.any fun y => y.id == o.2 then s else
      let s := (s.watchesOn i.pages).foldl State.retranslateWatch s
      { s with cmd := { s.cmd with busy := false, inval := none } })

/-- A write of the command word (R363). -/
def State.ctxCommand (s : State) (op ctx : Nat) : State :=
  if !s.ctxAccepts op ctx then (if 1 ≤ op ∧ op ≤ 5 ∧ !s.cmd.busy then s.lookContext ctx else s) else
  match op with
  | 1 => s.swapOut ctx
  | 2 => s.restoreCtx ctx
  | 3 => s.destroy ctx
  | 4 => (s.cutLaunches ctx).noteCmd 4 ctx false
  | 5 => s.invalidate ctx
  | _ => s

end Sys2Proof.Machine
end

