-- ==== Sys2Proof/Machine/Strip.lean ====
section
/-! DEFINITION. The strip scheduler's own steps: binning (R288 to R294), the close of a frame's bins and its dispatch (R294,
R348), rasterisation and the bin workgroup (R295 to R298, R351, R352), and upscale jobs (R345, R386). -/

namespace Sys2Proof.Machine

/-! ### Mesh slots -/

/-- A vertex as the binner converts it (R291): x, y and key. -/
abbrev Vertex := Int × Int × Nat

/-- A mesh slot as it stands (R288). -/
structure MeshSlot where
  bytes : List Byte

/-- A field of a mesh slot. -/
def MeshSlot.word (m : MeshSlot) (off : Nat) : Nat := fieldAt m.bytes off 4
/-- Vertices. -/
def MeshSlot.nv (m : MeshSlot) : Nat := m.word 0
/-- Primitives. -/
def MeshSlot.np (m : MeshSlot) : Nat := m.word 4
/-- Vertex index q of primitive j. -/
def MeshSlot.index (m : MeshSlot) (j q : Nat) : Nat := m.word (0x4040 + 4 * j) / 2 ^ (10 * q) % 2 ^ 10
/-- Word w of vertex i. -/
def MeshSlot.vword (m : MeshSlot) (i w : Nat) : Nat := m.word (0x40 + 16 * i + 4 * w)

/-- The binner refuses a whole slot (R290). -/
def MeshSlot.refused (m : MeshSlot) : Bool :=
  decide (1024 < m.nv) || decide (2048 < m.np) || m.word 8 == 0 || decide (4095 < m.word 8) || decide (2 ^ 20 ≤ m.word 12) ||
    decide (3 < m.word 16) || ((m.bytes.drop 0x14).take 44).any (· != 0) || (m.bytes.drop 0x6040).any (· != 0) ||
    (List.range m.nv).any (fun i => m.vword i 3 != 0) ||
    (List.range m.np).any fun j => decide (2 ^ 30 ≤ m.word (0x4040 + 4 * j)) ||
      (List.range 3).any fun q => decide (m.nv ≤ m.index j q)

/-- An integer nearest to a number, ties to even (R291). -/
def rneInt (r : Rat) : Int :=
  let m : Int := roundInt .rne (decide (r < 0)) (if r < 0 then -r else r)
  if r < 0 then -m else m

/-- A vertex converted, none where R290 drops its primitives (R290, R291). -/
def MeshSlot.vertex (m : MeshSlot) (i : Nat) : Option Vertex :=
  let x := fmt32.decode (m.vword i 0)
  let y := fmt32.decode (m.vword i 1)
  let z := fmt32.decode (m.vword i 2)
  let inside (v : FVal) (lo hi : Rat) : Bool := v.finite && decide (lo ≤ v.toRat) && decide (v.toRat ≤ hi)
  if inside x (-32768) 32767 && inside y (-32768) 32767 && inside z 0 1 then
    some (rneInt (x.toRat * 256), rneInt (y.toRat * 256), min (ratFloor (z.toRat * (2 ^ 32 : Nat))) (2 ^ 32 - 1))
  else none

/-- The edge function of two points at a third (R292, R297). -/
def edgeAt (a b p : Int × Int) : Int := (b.1 - a.1) * (p.2 - a.2) - (b.2 - a.2) * (p.1 - a.1)

/-- The place of a vertex. -/
def Vertex.at_ (v : Vertex) : Int × Int := (v.1, v.2.1)

/-- A primitive classified: kept with its vertices in order, or dropped (R290, R292). -/
def MeshSlot.primitive (m : MeshSlot) (thr j : Nat) : Option BinEntry :=
  match m.vertex (m.index j 0), m.vertex (m.index j 1), m.vertex (m.index j 2) with
  | some a, some b, some c =>
    let cross := edgeAt (Vertex.at_ a) (Vertex.at_ b) (Vertex.at_ c)
    let flags := m.word 16
    let culled := flags.testBit 0 && (if flags.testBit 1 then decide (0 < cross) else decide (cross < 0))
    if cross = 0 ∨ culled then none else
    let area := cross.natAbs / 512
    some { v := if cross < 0 then [a, c, b] else [a, b, c], id := m.word 8 * 2 ^ 20 + (m.word 12 + j) % 2 ^ 20, area := area
           soft := decide (area < thr), spilled := false }
  | _, _, _ => none

/-- Bins along one axis that a closed range of coordinates meets, of `n` bins of `len` pixels (R293, notes/assumptions/28.md). -/
def binSpan (lo hi : Int) (len n : Nat) : List Nat :=
  (List.range n).filter fun i =>
    decide (lo < (256 * len * (i + 1) : Nat)) && decide (((256 * len * i : Nat) : Int) ≤ hi)

/-- The bins of a chain's frame that a primitive's bounding box meets, ascending (R293). -/
def Chain.binsOf (x : Chain) (e : BinEntry) : List Nat :=
  let xs := e.v.map fun v => v.1
  let ys := e.v.map fun v => v.2.1
  let lo (l : List Int) : Int := l.foldl min (l.headD 0)
  let hi (l : List Int) : Int := l.foldl max (l.headD 0)
  (binSpan (lo ys) (hi ys) x.H x.K).flatMap fun k => (binSpan (lo xs) (hi xs) 64 x.B).map fun b => k * x.B + b

/-! ### Space of the bins -/

/-- Entries of a chain's bins that lie in the bin area, or in the spill area. -/
def Chain.binUse (x : Chain) (spilled : Bool) : Nat :=
  x.frames.foldl (fun n f => f.bins.foldl (fun n b => n + (b.2.entries.filter fun e => e.spilled == spilled).length) n) 0

/-- Entries that the bin area holds (R294). -/
def Chain.binRoom (x : Chain) : Nat := x.field 0x1A 2 * Config.unitBytes / 64
/-- Entries that the spill area holds (R294). -/
def Chain.spillRoom (x : Chain) : Nat := x.field 0x70 8 / 64

/-- A frame whose bins are all rendered: every bin workgroup has retired, or its shading launch is over; in a chain that stops,
a frame that is never dispatched (R294, R362, notes/assumptions/25.md). -/
def State.rendered (s : State) (x : Chain) (f : Frame) : Bool :=
  f.retired == x.K * x.B || (f.shade != 0 && !(s.launch (f.shade - 1)).used) || (f.shade == 0 && f.closed)

/-- The frame being binned is the oldest one with unrendered strips (R294). -/
def State.oldestFrame (s : State) (x : Chain) (f : Frame) : Bool := x.frames.all fun g => decide (f.num ≤ g.num) || s.rendered x g

/-- A chain without the bins of a frame. -/
def Chain.putBin (x : Chain) (f k : Nat) (g : Bin → Bin) : Chain := x.modFrame f fun r => { r with bins := Tbl.mod r.bins k g }

/-- The lowest free place of a chain's spill area. -/
def Chain.spillPlace (x : Chain) : Nat :=
  let used := x.frames.flatMap fun f => f.bins.flatMap fun b => (b.2.entries.filter (·.spilled)).map (·.place)
  (firstFrom (fun n => !used.contains n) 0 (used.length + 1)).getD 0

/-- An entry written to the spill area in device memory, in the device's own layout (R294, notes/assumptions/43.md). DESIGN
CHOICE (notes/assumptions/43.md): where the context does not map the page for writing, the entry stands and no byte is written. -/
def State.spillEntry (s : State) (x : Chain) (n : Nat) : State :=
  (s.devWrite x.ctx (x.field 0x68 8 + 64 * n) ((upFrom 0 16).flatMap fun i => leBytes (Config.spillWord s.tick i).toNat 4)).getD s

/-- One entry appended to one bin: in the bin area, spilled, or dropped where the binner may not wait; none where it waits
(R294). -/
def State.appendBin (s : State) (c f : Nat) (oldest : Bool) (e : BinEntry) (k : Nat) : Option State :=
  let x := s.chain c
  let put (s : State) (e : BinEntry) : State := s.modChain c fun x => x.putBin f k fun b => { b with entries := b.entries ++ [e] }
  if x.binUse false < x.binRoom then some (put s { e with spilled := false })
  else if x.binUse true < x.spillRoom then some (put (s.spillEntry x x.spillPlace) { e with spilled := true, place := x.spillPlace })
  else if oldest then
    some ((s.modChain c fun x => x.putBin f k fun b => { b with drops := min (b.drops + 1) 0xFFFF }).sample 0x07 (some c) 1)
  else none

/-- One primitive of a slot binned (R290 to R293). -/
def State.binPrimitive (s : State) (c f : Nat) (oldest : Bool) (m : MeshSlot) (thr j : Nat) : Option State :=
  match m.primitive thr j with
  | none => some (s.sample 0x07 (some c) 1)
  | some e => ((s.chain c).binsOf e).foldl (fun a k => a.bind fun s => s.appendBin c f oldest e k) (some s)

/-- `rastthr` for the slot of a workgroup, read once at the start of the slot (R292). -/
def State.slotThr (s : State) (c f n : Nat) : Nat :=
  match (s.chain c).begun with
  | some b => if b.1 = f ∧ b.2.1 = n then b.2.2 else (Tbl.get s.ctxRegs (s.chain c).ctx).rastthr.toNat
  | none => (Tbl.get s.ctxRegs (s.chain c).ctx).rastthr.toNat

/-- A slot binned whole; none while the binner waits for space (R289 to R294). -/
def State.binSlot (s : State) (c f u thr : Nat) (oldest : Bool) : Option State :=
  let m : MeshSlot := { bytes := Memory.read s.narrows (u * Config.unitBytes) Config.unitBytes }
  if m.refused then some (s.sample 0x07 (some c) 1) else
  (List.range m.np).foldl (fun a j => a.bind fun s => s.binPrimitive c f oldest m thr j) (some s)

/-- The binner passes a workgroup of the frame. -/
def State.passMesh (s : State) (c f : Nat) : State :=
  s.modChain c fun x => x.modFrame f fun r => { r with taken := r.taken + 1, empty := r.empty.filter (· != r.taken) }

/-- MESH_SLOT_BINNING (R289): the next workgroup of the frame being binned, once its slot is full or it holds nothing. -/
def State.meshStep (s : State) (c : Nat) : State :=
  let x := s.chain c
  if !x.active || s.power.stopped then s else
  match x.frames.find? fun f => !f.closed with
  | none => s
  | some f =>
    let n := f.taken
    if f.total ≤ n ∨ (x.frames.any fun g => g.num + 2 == f.num && !s.rendered x g) then s
    else if f.empty.contains n then s.passMesh c f.num
    else
      let u := s.stageSlot { chain := c, role := 0, frame := f.num, bin := n }
      let e := s.slotEntry u
      if e.mesh = some (f.num, n) ∧ e.state = .full then
        let thr := s.slotThr c f.num n
        match s.binSlot c f.num u thr (s.oldestFrame x f) with
        | none => s.modChain c fun y => { y with begun := some (f.num, n, thr) }
        | some t => ((t.modChain c fun y => { y with begun := none }).freeCount u).passMesh c f.num
      else s

/-- MESH_SLOT_BINNING (R289). -/
def execMeshSlotBinning (chain : Nat) (s : State) : Result := .next (s.walkersTake (s.meshStep chain))

/-! ### The close of a frame's bins -/

/-- A stage launch dispatched for a frame, of the record that the chain's start has read, in the chain's context and class strip
(R339, R340, R348). -/
def State.stageLaunch (s : State) (c f role ptr : Nat) : State × Nat :=
  let x := s.chain c
  let b := if role = 1 then x.shadeRec else x.upRec
  let L : Launch := { lr := LaunchRec.ofBytes b, addr := ptr, bytes := b, ctx := x.ctx, cls := 3, ready := s.cyc.toNat, chain := c + 1
                      role := role, frame := f }
  let (s, l) := s.newLaunch L
  (s.checkLaunch l b, l)

/-- FRAME_DISPATCH (R348): the shading and upscale launches of a frame; after the last frame of a counted chain it stops by
itself (R362). -/
def State.dispatchFrame (s : State) (c f : Nat) : State :=
  let x := s.chain c
  let (s, a) := s.stageLaunch c f 1 (x.field 0 8)
  let (s, b) := if x.up then (let r := s.stageLaunch c f 2 (x.field 8 8); (r.1, r.2 + 1)) else (s, 0)
  s.modChain c fun y =>
    let y := { y.modFrame f (fun r => { r with shade := a + 1, upscale := b }) with dispatched := y.dispatched + 1 }
    if y.field 0xB0 4 ≠ 0 ∧ y.dispatched = y.field 0xB0 4 then { y with state := 3 } else y

/-- BINS_CLOSE (R294): the mesh launch has completed and every slot of it has been taken. -/
def execBinsClose (chain : Nat) (s : State) : Result :=
  let x := s.chain chain
  .next (match x.frames.find? fun f => !f.closed with
    | none => s
    | some f =>
      if !x.active || !f.meshDone || f.taken < f.total then s else
      let s := s.modChain chain fun y => y.modFrame f.num fun r => { r with closed := true }
      if x.state = 1 then s.dispatchFrame chain f.num
      else s.modChain chain fun y => y.modFrame f.num fun r => { r with bins := [] })

/-! ### Rasterisation -/

/-- A covered edge (R297). -/
def edgeCovers (a b p : Int × Int) : Bool :=
  let e := edgeAt a b p
  let d := (b.1 - a.1, b.2 - a.2)
  decide (0 < e) || (e == 0 && (decide (d.2 < 0) || (d.2 == 0 && decide (0 < d.1))))

/-- The visibility word of a primitive at a sample, none where it does not cover it (R297, R298). -/
def BinEntry.wordAt (e : BinEntry) (p : Int × Int) : Option Nat :=
  let v (i : Nat) : Vertex := e.v.getD i (0, 0, 0)
  let q (i : Nat) : Int × Int := Vertex.at_ (v i)
  if edgeCovers (q 0) (q 1) p && edgeCovers (q 1) (q 2) p && edgeCovers (q 2) (q 0) p then
    let cross := edgeAt (q 0) (q 1) (q 2)
    let sum := edgeAt (q 1) (q 2) p * (v 0).2.2 + edgeAt (q 2) (q 0) p * (v 1).2.2 + edgeAt (q 0) (q 1) p * (v 2).2.2
    some ((sum / cross).toNat * 2 ^ 32 + e.id)
  else none

/-- The sample points of a pixel, in 1/256 pixel from its corner (R285). -/
def samplePoints (four : Bool) : List (Int × Int) :=
  if four then [(96, 32), (224, 96), (32, 160), (160, 224)] else [(128, 128)]

/-- The equivalent of `VISW` on a word of an allocation's scratchpad (R135, R298). -/
def Core.visMax (x : Core) (gen : Gen) (a w : Nat) : Core :=
  x.sramWrite gen a (leBytes (max (leNat (x.sramRead gen a 8)) w) 8)

/-- Offset of a sample's word in the visibility buffer (R295). -/
def Chain.visOff (x : Chain) (px py q : Nat) : Nat := 8 * (x.samples * (64 * py + px) + q)

/-- One entry rasterised into the visibility buffer of a bin (R298). -/
def Chain.raster (x : Chain) (gen : Gen) (off k b : Nat) (core : Core) (e : BinEntry) : Core :=
  let pts := (samplePoints (x.samples == 4)).zipIdx
  (List.range x.H).foldl (fun core py => (List.range 64).foldl (fun core px =>
    if x.field 0x24 2 ≤ 64 * b + px ∨ x.field 0x26 2 ≤ k * x.H + py then core else
    pts.foldl (fun core q =>
      match e.wordAt (((64 * b + px : Nat) : Int) * 256 + q.1.1, ((k * x.H + py : Nat) : Int) * 256 + q.1.2) with
      | some w => core.visMax gen (off + x.visOff px py q.2) w
      | none => core) core) core) core

/-- The 64 bytes of a bin entry (R293). -/
def BinEntry.bytes (e : BinEntry) : List Byte :=
  let word (i : Int) : List Byte := leBytes (i % 2 ^ 32).toNat 4
  (e.v.flatMap fun v => word v.1 ++ word v.2.1 ++ leBytes v.2.2 4) ++ leBytes e.id 4 ++ leBytes e.area 4 ++
    leBytes (if e.soft then 1 else 0) 4 ++ List.replicate 16 0

/-- What the device puts into the scratchpad of a bin workgroup before its first word (R295, R296). -/
def State.fillBin (s : State) (c f k b core w rate : Nat) : State :=
  let x := s.chain c
  let W := s.wg core w
  let bin := match x.frame f with
    | some r => Tbl.get r.bins (k * x.B + b)
    | none => {}
  let V := 512 * x.H * x.samples
  let room := (W.scrLen - V - 64) / 64
  let soft := bin.entries.filter (·.soft)
  let kept := soft.take room
  let drawn := bin.entries.filter (fun e => !e.soft) ++ soft.drop room
  let hcode := x.field 0x28 1 % 4
  let header := leBytes k 4 ++ leBytes b 2 ++ leBytes (rate + (if x.samples = 4 then 8 else 0) + 16 * hcode) 1 ++ leBytes 0 1 ++
    leBytes kept.length 4 ++ leBytes drawn.length 4 ++ leBytes (soft.length - kept.length) 4 ++ leBytes bin.drops 2 ++ leBytes 0 2 ++
    leBytes (x.slotOf false (f * x.K + k)) 4 ++ leBytes 0 4 ++ leBytes (s.deadlineFor x f k % 2 ^ 64).toNat 8 ++ List.replicate 24 0
  s.modCore core fun y =>
    let y := drawn.foldl (x.raster W.gen W.scrOff k b) y
    y.sramWrite W.gen (W.scrOff + V) (header ++ kept.flatMap BinEntry.bytes)

/-! ### The shading-rate rule -/

/-- The projection Q of a chain (R351). -/
def State.projection (s : State) (x : Chain) : Int :=
  let o := Tbl.get s.obs (bitsOf (x.field 0x88 4) 13 8)
  let m := o.recent.length
  let w := 2 ^ (x.field 0x88 4 % 32)
  let bin (v : Int) : Nat := min (v.toNat / w) 31
  let upTo (j : Nat) : Nat := (o.recent.filter fun v => decide (bin v ≤ j)).length
  if m = 0 then 0 else
  match (List.range 31).find? fun j => decide (95 * m ≤ 100 * upTo j) with
  | some j => ((j + 1) * w : Nat)
  | none => o.recent.foldl max 0

/-- SHADING_RATE_STEP (R352): the test at the placement of a bin workgroup of strip k. -/
def State.rateStep (s : State) (c f k : Nat) : State :=
  let x := s.chain c
  let t := x.strip f k
  let late := decide ((t.first : Int) + s.projection x > s.deadlineFor x f k - (s.period x / 20 : Nat))
  if late && !t.stepped then
    s.modChain c fun y => { y.modFrame f fun r => { r with strips := Tbl.mod r.strips k fun t => { t with stepped := true } } with
      rate := min (y.rate + 1) 4, calm := 0 }
  else s

/-! ### Placements -/

/-- A strip is opened with its first bin placement: its deadline is converted once (R335, R347). -/
def State.openStrip (s : State) (c f k : Nat) : State :=
  let x := s.chain c
  if (x.strip f k).deadline.isSome then s else
  s.modChain c fun y => y.modFrame f fun r => { r with strips := Tbl.mod r.strips k fun t =>
    { t with deadline := some (s.deadlineFor x f k), first := s.cyc.toNat } }

/-- The rate of a bin: the current one, kept for its restarts (R352). -/
def State.binRate (s : State) (c f n : Nat) : State × Nat :=
  let x := s.chain c
  let had := match x.frame f with
    | some r => (Tbl.get r.bins n).rate
    | none => 0
  if had = 0 then (s.modChain c fun y => y.putBin f n fun b => { b with rate := x.rate + 1 }, x.rate) else (s, had - 1)

/-- The stage of a restart, as its first placement left it (R344). -/
def Launch.restartStage (L : Launch) (n : Nat) : Option StageInfo := (L.restarts.find? fun r => r.index == n).bind (·.stage)

/-- BIN_WORKGROUP_PLACEMENT (R286, R295, R348 to R352). -/
def State.placeBin (s : State) (c : Nat) : State :=
  let x := s.chain c
  match s.nextBin x with
  | none => s
  | some (f, l, n) =>
    let core := x.binCore n
    let L := s.launch l
    if !x.active || s.ctxState x.ctx != 0 || !s.binDue x f n || s.savedFirst x.ctx core then s else
    let s := s.reclaim core l L.lr.needs 64
    match s.canTake core l L.lr.needs with
    | none => s
    | some off =>
      let k := n / x.B
      let s := (s.openStrip c f k).rateStep c f k
      let (s, rate) := s.binRate c f n
      let st : StageInfo := (L.restartStage n).getD { chain := c, role := 1, frame := f, strip := k, bin := n % x.B }
      let (s, w) := s.placeIndex l core off n 0 (some st)
      s.fillBin c f k (n % x.B) core w rate

/-- BIN_WORKGROUP_PLACEMENT (R348). -/
def execBinWorkgroupPlacement (chain : Nat) (s : State) : Result := .next (s.placeBin chain)

/-- The source strips that a job's handles mirror: handle and strip (R345). -/
def Chain.jobMirrors (x : Chain) (f k : Nat) : List (Nat × Nat) :=
  let g := f * x.K + k
  (if k = 0 then [] else [(60, g - 1)]) ++ [(61, g)] ++ (if k + 1 < x.K then [(62, g + 1)] else [])

/-- A core whose handles for a job are free (notes/assumptions/29.md). -/
def State.jobHandles (s : State) (x : Chain) (f k core : Nat) : Bool :=
  (x.jobMirrors f k).all fun h => (s.handle core h.1).owner == 0 && (s.handle core h.1).state == .free

/-- `s7` of an upscale job (R386). -/
def Chain.jobWord (x : Chain) (f k : Nat) : Nat :=
  let g := f * x.K + k
  g % (x.ring false).2.1 % 16 + g % (x.ring true).2.1 % 16 * 2 ^ 4 + (if k = 0 then 2 ^ 8 else 0) +
    (if k + 1 = x.K then 2 ^ 9 else 0) + f % 2 ^ 16 * 2 ^ 16

/-- The core of an upscale job and the state after its reclaim: the first reserved core that can take it at once, else the first
that a reclaim makes able to (R349, R350). -/
def State.jobCore (s : State) (x : Chain) (l f k : Nat) : Option (State × Nat × Nat) :=
  let n := (s.launch l).lr.needs
  let cs := x.cores.filter fun c => s.jobHandles x f k c && !s.savedFirst x.ctx c
  match cs.findSome? fun c => (s.canTake c l n).map fun off => (c, off) with
  | some (c, off) => some (s, c, off)
  | none => cs.findSome? fun c =>
    let t := s.reclaim c l n 64
    (t.canTake c l n).map fun off => (t, c, off)

/-- UPSCALE_JOB_PLACEMENT (R345, R349, R386). -/
def State.placeJob (s : State) (c : Nat) : State :=
  let x := s.chain c
  match s.nextJob x with
  | none => s
  | some (f, l, k) =>
    if !x.active || s.ctxState x.ctx != 0 || !x.jobDue f k then s else
    match s.jobCore x l f k with
    | none => s
    | some (s, core, off) =>
      let st : StageInfo := ((s.launch l).restartStage k).getD { chain := c, role := 2, frame := f, strip := k }
      let (s, w) := s.placeIndex l core off k (x.jobWord f k) (some st)
      let W := s.wg core w
      (x.jobMirrors f k).foldl (fun s h =>
        let u := x.slotOf false h.2
        let H : Handle := { narrows := true, off := u, len := (s.slotEntry u).units * Config.unitBytes, owner := w + 1, gen := W.gen, fixed := 1 }
        s.modHandle core h.1 fun _ => H.mirror (s.slotEntry u)) s

/-- UPSCALE_JOB_PLACEMENT (R345). -/
def execUpscaleJobPlacement (chain : Nat) (s : State) : Result := .next (s.placeJob chain)

end Sys2Proof.Machine
end

