-- ==== Sys2Proof/Machine/ChainCtl.lean ====
section
/-! DEFINITION. The chain control blocks (R338 to R343, R358, R361, R362, R365): admission, start, stop and release. -/

namespace Sys2Proof.Machine

/-! ### Fields of the record -/

/-- Source pixel format (R338). -/
def Chain.srcFormat (x : Chain) : Nat := bitsOf (x.field 0x29 1) 3 2
/-- Output pixel format (R338). -/
def Chain.outFormat (x : Chain) : Nat := if x.up then bitsOf (x.field 0x29 1) 5 4 else x.srcFormat
/-- Consumer kind: 0 A-PHY, 1 encoder, 2 compute, 3 DisplayPort. -/
def Chain.kind (x : Chain) : Nat := x.field 0x2A 1
/-- Consumer index. -/
def Chain.index (x : Chain) : Nat := x.field 0x2B 1
/-- Line period in units of 2^-32 ns. -/
def Chain.lineTime (x : Chain) : Nat := x.field 0x58 8
/-- Reserved atolls. -/
def Chain.atolls (x : Chain) : Nat := ((List.range 48).filter fun a => (x.field 0x30 8).testBit a).length

/-- Bytes of a pixel of a format (R343). -/
def pixelBytes (f : Nat) : Nat := if f = 0 then 4 else 2

/-- Pitch of a slot's lines (R343). -/
def pitchOf (w f : Nat) : Nat := alignUp (w * pixelBytes f) 256

/-- Bytes of a strip slot of h lines of w pixels (R343). -/
def slotBytes (h w f : Nat) : Nat := if f = 2 then h * pitchOf w f * 3 / 2 else h * pitchOf w f

/-- The runs of units that a record asks for: mesh ring, bin area, source ring, output ring (R340). -/
def Chain.ranges (x : Chain) : List (Nat × Nat) :=
  let source := (x.field 0x1C 2, x.field 0x1E 1 * x.field 0x1F 1)
  [(x.field 0x14 2, x.field 0x16 2), (x.field 0x18 2, x.field 0x1A 2), source] ++
    (if x.up then [(x.field 0x20 2, x.field 0x22 1 * x.field 0x23 1)] else [])

/-! ### Admission -/

/-- Reserved bytes and bits are zero and every code and range is one of R338 (test 0x01). -/
def Chain.fieldsOk (x : Chain) : Bool :=
  let f := x.field
  let within (v lo hi : Nat) : Bool := decide (lo ≤ v) && decide (v ≤ hi)
  let kind := x.kind
  f 0x12 2 == 0 && f 0x4C 4 == 0 && f 0x30 8 / 2 ^ 48 == 0 && f 0x28 1 / 2 ^ 6 == 0 && f 0x29 1 / 2 ^ 6 == 0 && f 0x2C 4 / 2 ^ 9 == 0 &&
    f 0x80 4 / 2 ^ 5 == 0 && f 0x84 4 / 2 ^ 24 == 0 && f 0x88 4 / 2 ^ 14 == 0 && bitsOf (f 0x88 4) 7 5 == 0 && f 0x8C 4 == 0 &&
    f 0xB4 4 / 2 ^ 3 == 0 && f 0xB8 4 / 2 ^ 26 == 0 && f 0xC4 4 == 0 && (x.bytes.drop 0xC8).all (· == 0) &&
    decide (f 0x28 1 % 4 ≤ 2) && decide (bitsOf (f 0x28 1) 5 3 ≤ 4) && decide (f 0x29 1 % 4 ≤ 1) && decide (x.srcFormat ≤ 2) &&
    decide (bitsOf (f 0x29 1) 5 4 ≤ 2) && decide (kind ≤ 3) && decide (f 0xB8 4 % 4 ≤ 2) &&
    within (f 0x16 2) 4 256 && within (f 0x1E 1) 2 16 && within (f 0x24 2) 1 8192 && within (f 0x26 2) 1 8192 &&
    within (f 0x2C 4) 1 256 && within (f 0x88 4 % 32) 8 24 && decide (f 0x80 4 ≤ 16) && within (f 0xB4 4) 1 7 &&
    decide (x.index < (if kind = 0 then 8 else if kind = 1 then 16 else if kind = 2 then 1 else 2)) && f 0x70 8 % 4096 == 0 &&
    (kind != 1 || (decide (65536 ≤ f 0xA0 8) && 2 ^ Nat.log2 (f 0xA0 8) == f 0xA0 8)) &&
    (if x.up then f 8 8 != 0 && within (f 0x22 1) 2 16 && f 0x23 1 != 0
     else f 8 8 == 0 && f 0x20 2 == 0 && f 0x22 1 == 0 && f 0x23 1 == 0 && bitsOf (f 0x29 1) 5 4 == 0) &&
    (f 0x90 8 != 0) == (kind == 2)

/-- Pointers meet their space and alignment (test 0x02). -/
def Chain.pointersOk (x : Chain) : Bool :=
  x.record % 256 == 0 && ptrOk [0] 128 (x.field 0 8) && ptrOk [0] 128 (x.field 8 8) && ptrOk [0] 4096 (x.field 0x68 8) &&
    ptrOk [0] 32 (x.field 0x78 8) && ptrOk [0] 128 (x.field 0x90 8) &&
    (x.kind != 1 || (ptrOk [0] 4096 (x.field 0x98 8) && ptrOk [0] 8 (x.field 0xA8 8)))

/-- Other chains that hold their grants. -/
def State.otherChains (s : State) (c : Nat) : List Chain := (s.chains.filter fun e => e.1 != c && e.2.active).map (·.2)

/-- No two of some runs of units overlap. -/
def apart : List (Nat × Nat) → Bool
  | [] => true
  | r :: t => !rangesMeet [r] t && apart t

/-- Rings and areas fit the Narrows and lie apart, and slots are large enough (test 0x03). -/
def State.unitsOk (s : State) (c : Nat) (x : Chain) : Bool :=
  let enough (per bytes : Nat) : Bool := decide ((bytes + 32767) / 32768 ≤ per)
  x.ranges.all (fun r => decide (r.1 + r.2 ≤ Config.narrowsUnits)) && apart x.ranges &&
    (s.otherChains c).all (fun y => !rangesMeet x.ranges y.ranges) &&
    enough (x.field 0x1F 1) (slotBytes x.H (x.field 0x24 2) x.srcFormat) &&
    (!x.up || enough (x.field 0x23 1) (slotBytes x.Ho x.Wo x.outFormat))

/-- The atoll mask (test 0x04). -/
def State.atollsOk (s : State) (c : Nat) (x : Chain) : Bool :=
  x.field 0x30 8 != 0 && (s.otherChains c).all fun y => x.field 0x30 8 &&& y.field 0x30 8 == 0

/-- Rate of an A-PHY gear in Gb/s (R358). -/
def gearRate (g : Nat) : Nat := [0, 2, 4, 8, 12, 16].getD g 0

/-- Payload of a DisplayPort lane: hundredths of a Gb/s as a numerator and denominator (R361). -/
def lanePayload (rate : Nat) : Nat × Nat :=
  if rate ≤ 4 then ([0, 162, 270, 540, 810].getD rate 0 * 8, 10) else ([1000, 1350, 2000].getD (rate - 5) 0 * 128, 132)

/-- An A-PHY port can carry the chain (R358). -/
def Chain.portFits (x : Chain) (p : PortCfg) : Bool :=
  let b := if x.outFormat = 0 then 3 else 2
  p.en && decide (x.outFormat ≤ 1) && decide ((x.Wo * b + 16) * 128 * 2 ^ 32 ≤ 15 * gearRate p.gear * x.lineTime)

/-- A DisplayPort output can carry the chain (R361). -/
def Chain.outputFits (x : Chain) (o : OutCfg) : Bool :=
  let q := lanePayload o.rate
  o.en && x.outFormat == 0 && decide ((x.Wo + o.hb) * 24 * 2 ^ 32 * 100 * q.2 ≤ 2 ^ o.lanes * q.1 * x.lineTime)

/-- The consumer (test 0x05). -/
def State.consumerOk (s : State) (c : Nat) (x : Chain) : Bool :=
  (x.kind == 2 || (s.otherChains c).all fun y => !(y.kind == x.kind && y.index == x.index)) &&
    (match x.kind with
     | 0 => x.portFits (Tbl.get s.ports x.index)
     | 1 => x.outFormat == 2 && x.Ho == 64
     | 3 => x.outputFits (Tbl.get s.outputs x.index)
     | _ => true)

/-- The line and frame times (test 0x06). -/
def State.timesOk (s : State) (x : Chain) : Bool :=
  x.lineTime != 0 && decide ((x.field 0x60 2 + x.K * x.Ho) * x.lineTime ≤ x.field 0x50 8) && decide (x.field 0x64 4 < s.period x)

/-- The cost of a strip (test 0x07). -/
def State.costOk (s : State) (x : Chain) : Bool :=
  decide (x.field 0x38 8 * 256 ≤ x.field 0x2C 4 * 4 * x.atolls * (s.period x - x.field 0x64 4))

/-- A stage's launch record: restartable, its workgroup levels and its scratchpad (test 0x08). -/
def State.stageOk (s : State) (x : Chain) (ptr : Nat) (extents : List Nat) (scratch : Nat) : Bool :=
  match s.devRead x.ctx ptr 128 with
  | none => false
  | some b =>
    let r := LaunchRec.ofBytes b
    r.restartable && r.workLevels.map (fun l => l.2.2) == extents && decide (scratch ≤ r.scratch)

/-- The refusal reason of a chain, 0 for none (R340). -/
def State.chainReason (s : State) (c : Nat) (x : Chain) : Nat :=
  if !x.fieldsOk then 1
  else if !x.pointersOk then 2
  else if !s.unitsOk c x then 3
  else if !s.atollsOk c x then 4
  else if !s.consumerOk c x then 5
  else if !s.timesOk x then 6
  else if !s.costOk x then 7
  else if !s.stageOk x (x.field 0 8) [x.B, x.K] (512 * x.H * x.samples + 128) || (x.up && !s.stageOk x (x.field 8 8) [x.K] 0) then 8
  else if x.up && (decide (x.field 0x1E 1 < 3) || decide (32 < x.H)) then 9
  else 0

/-! ### Start -/

/-- The tenant of a context (R364). -/
def State.tenantOf (s : State) (ctx : Nat) : Nat := s.ctxNat ctx 8 4 % 2 ^ 16

/-- Units of runs. -/
def unitsIn (rs : List (Nat × Nat)) : List Nat := rs.flatMap fun r => upFrom r.1 r.2

/-- A unit that still holds another tenant's data (R365). -/
def State.foreign (s : State) (x : Chain) (u : Nat) : Bool :=
  let d := Tbl.get s.dirty u
  d != 0 && d != s.tenantOf x.ctx + 1

/-- The slot entries of a chain (R341, R342). -/
def State.grant (s : State) (c : Nat) (x : Chain) : State :=
  let put (s : State) (n u : Nat) : State := s.modSlot u fun e =>
    { (default : SlotEntry) with units := n, granted := true, chain := c, strip := e.strip }
  let s := (upFrom (x.field 0x14 2) (x.field 0x16 2)).foldl (fun s u => put s 1 u) s
  let s := (ringSlots (x.ring false)).foldl (fun s u => put s (x.ring false).2.2 u) s
  if x.up then (ringSlots (x.ring true)).foldl (fun s u => put s (x.ring true).2.2 u) s else s

/-- The chain's observation unit as its scheduler sets it (R397). -/
def State.chainUnit (s : State) (c : Nat) (x : Chain) : State :=
  { s with obs := Tbl.mod s.obs (bitsOf (x.field 0x88 4) 13 8) fun o => ({ o with
      source := 1, filter := c, e := x.field 0x88 4 % 32, win := true, en := true, recent := [] } : Obs).window }

/-- The encoder's indices as they stand in memory (R387). -/
def State.ringIndex (s : State) (x : Chain) (off : Nat) : Nat := ((s.devRead x.ctx (x.field 0xA8 8 + off) 8).map leNat).getD 0

/-- A chain that has passed its tests starts (R340, R351). -/
def State.startChain (s : State) (c : Nat) (x : Chain) : State :=
  let enc := x.kind == 1
  let new : Chain := {
    record := x.record, state := 1, bytes := x.bytes, ctx := x.ctx, shadeRec := (s.devRead x.ctx (x.field 0 8) 128).getD []
    upRec := if x.up then (s.devRead x.ctx (x.field 8 8) 128).getD [] else [], rate := bitsOf (x.field 0x28 1) 5 3
    write := if enc then s.ringIndex x 0 else 0, read := if enc then s.ringIndex x 8 else 0 }
  let s := { s with dirty := s.dirty.filter fun d => !(unitsIn x.ranges).contains d.1 }
  ((s.modChain c fun _ => new).grant c x).chainUnit c x

/-- The record is read and tested; a chain whose units hold another tenant's data waits for their zeroing (R340, R365). -/
def State.tryStart (s : State) (c : Nat) : State :=
  let y := s.chain c
  let bytes := Memory.read s.dev y.record 256
  let x : Chain := { y with bytes := bytes, ctx := s.queueCtx (fieldAt bytes 0x10 2) }
  let r := s.chainReason c x
  if r ≠ 0 then s.modChain c fun y => { y with state := 2, reason := r, pending := false }
  else if (unitsIn x.ranges).any (s.foreign x) then s.modChain c fun y => { y with pending := true }
  else s.startChain c x

/-- CHAIN_START (R340). -/
def execChainStart (chain : Nat) (s : State) : Result :=
  .next (s.answers (if (s.chain chain).active || decide (16 ≤ chain) then s else s.tryStart chain))

/-- NARROWS_ZEROING (R365): a released unit is zeroed; chains that wait for it try again. -/
def execNarrowsZeroing (unit : Nat) (s : State) : Result :=
  .next (if Tbl.get s.dirty unit = 0 then s else
    let lo := unit * Config.unitBytes
    let s := { s with narrows := s.narrows.filter fun b => !(decide (lo ≤ b.1) && decide (b.1 < lo + Config.unitBytes))
                      dirty := Tbl.erase s.dirty unit }
    (Tbl.keys s.chains).foldl (fun s c => if (s.chain c).pending then s.tryStart c else s) s)

/-! ### Stop and release -/

/-- CHAIN_STOP (R362). -/
def execChainStop (chain : Nat) (s : State) : Result :=
  .next (if (s.chain chain).state = 1 then s.modChain chain fun x => { x with state := 3 } else s)

/-- The slots of a chain. -/
def Chain.slots (x : Chain) : List Nat :=
  upFrom (x.field 0x14 2) (x.field 0x16 2) ++ ringSlots (x.ring false) ++ (if x.up then ringSlots (x.ring true) else [])

/-- A stopping chain has nothing left to do (R362). -/
def State.chainIdle (s : State) (c : Nat) : Bool :=
  let x := s.chain c
  x.state == 3 && x.slots.all (fun u => (s.slotEntry u).state == .free) && x.cur.isNone && x.taken == 0 &&
    !s.launches.any fun e => e.2.used && e.2.chain == c + 1

/-- CHAIN_RELEASE (R362, R365). -/
def execChainRelease (chain : Nat) (s : State) : Result :=
  .next (if !s.chainIdle chain then s else
    let x := s.chain chain
    let owner := s.tenantOf x.ctx + 1
    let s := { s with
      slotTable := x.slots.foldl (fun t u => Tbl.mod t u fun e => { (default : SlotEntry) with strip := e.strip, chain := e.chain }) s.slotTable
      dirty := (unitsIn x.ranges).foldl (fun t u => Tbl.set t u owner) s.dirty }
    s.modChain chain fun x => { x with state := 0, frames := [], missed := [], waiting := false, begun := none })

end Sys2Proof.Machine
end

