-- ==== Sys2Proof/Machine/Consumer.lean ====
section
/-! DEFINITION. The consumers of output strips (R354 to R362, R387): the instants of the strips, lines and fill, miss and late
records, and the encoders' bitstream rings. -/

namespace Sys2Proof.Machine

/-! ### Strips that can never become full -/

/-- The launch that fills the output strips of a frame is over (R362). -/
def State.producerOver (s : State) (c f : Nat) : Bool :=
  let x := s.chain c
  decide (f < x.dispatched) && !s.launches.any fun e =>
    e.2.used && e.2.chain == c + 1 && e.2.frame == f && e.2.role == (if x.up then 2 else 1)

/-- The output slot of strip g holds it, full or draining. -/
def State.outputFull (s : State) (x : Chain) (g : Nat) : Bool :=
  let e := s.slotEntry (x.slotOf true g)
  e.strip == g && (e.state == .full || e.state == .draining)

/-- Strip g is filling or was never opened, and nothing is left that could finish it (R362). -/
def State.lost (s : State) (c g : Nat) : Bool := s.producerOver c (g / (s.chain c).K) && !s.outputFull (s.chain c) g

/-- The slot of a lost strip is freed unread (R362). -/
def State.freeLost (s : State) (c g : Nat) : State :=
  let u := (s.chain c).slotOf true g
  let e := s.slotEntry u
  if e.strip == g && e.state == .filling then s.freeCount u else s

/-- Strips met late that are lost, and the slots of a compute chain's lost strips, are freed (R354, R362). -/
def State.freeMissed (s : State) (c : Nat) : State :=
  let x := s.chain c
  let open_ := if x.kind = 2 then ((ringSlots (x.ring true)).filter fun u => (s.slotEntry u).state == .filling).map fun u =>
    (s.slotEntry u).strip else []
  (x.missed ++ open_).foldl (fun s g => if s.lost c g then
    (s.freeLost c g).modChain c fun y => { y with missed := y.missed.filter (· != g) } else s) s

/-! ### Records -/

/-- Kind of a miss or late record (R355). -/
def Chain.missKind (x : Chain) : Nat :=
  match x.kind with
  | 0 => 1 | 1 => 3 | 2 => 4 | _ => 2

/-- A miss or late record of strip g (R355). -/
def State.postMiss (s : State) (c g : Nat) : State :=
  let x := s.chain c
  let f := g / x.K
  let k := g % x.K
  let bytes := leBytes (c + 16 * x.missKind) 4 ++ leBytes f 4 ++ leBytes k 4 ++ leBytes 0 4 ++
    leBytes (s.deadlineFor x f k % 2 ^ 64).toNat 8 ++ leBytes (x.instant f k 0 / 2 ^ 32) 8
  let t := (s.devWrite x.ctx (x.field 0x78 8 + 32 * (x.posted % 2 ^ x.field 0x80 4)) bytes).getD s
  t.modChain c fun y => { y with posted := y.posted + 1, misses := y.misses + 1 }

/-! ### The instant of a strip -/

/-- Strip g is one of those that the chain still consumes (R338, R362). -/
def Chain.consumes (x : Chain) (g : Nat) : Bool :=
  let f := g / x.K
  (x.field 0xB0 4 == 0 || decide (f < x.field 0xB0 4)) && (x.state == 1 || decide (f < x.dispatched))

/-- A line consumer meets the instant of strip g: it takes a full slot, or sends fill (R354, R362). -/
def State.startLines (s : State) (c g : Nat) : State :=
  let x := s.chain c
  let u := x.slotOf true g
  let begin (fill : Bool) (s : State) : State :=
    s.modChain c fun y => { y with cur := some g, fill := fill, line := 0, next := g + 1 }
  if s.outputFull x g then
    if (s.slotEntry u).fault then begin true (s.freeCount u)
    else begin false (s.putSlot u fun e => { e with state := .draining })
  else
    let s := begin true (s.postMiss c g)
    if s.lost c g then s.freeLost c g else s.modChain c fun y => { y with missed := g :: y.missed }

/-- The compute consumer or encoder meets the instant of strip g: a late record where the strip is not full (R354). -/
def State.startLate (s : State) (c g : Nat) : State :=
  let x := s.chain c
  let late := if x.kind = 2 then !(x.strip (g / x.K) (g % x.K)).full else !s.outputFull x g
  (if late then s.postMiss c g else s).modChain c fun y => { y with next := g + 1 }

/-- The instant of strip g has come (R335, R347). -/
def State.instantMet (s : State) (x : Chain) (g y : Nat) : Bool := decide (s.toCyc (x.instant (g / x.K) (g % x.K) y) ≤ s.cyc.toNat)

/-- CONSUMER_STRIP_START (R354): the next strip whose instant has come. -/
def execConsumerStripStart (chain : Nat) (s : State) : Result :=
  .next (s.walkersTake (if !(s.chain chain).active then s else
    let s := s.freeMissed chain
    let x := s.chain chain
    let g := x.next
    if !x.consumes g || !s.instantMet x g 0 then s
    else if x.kind = 0 ∨ x.kind = 3 then (if x.cur.isNone then s.startLines chain g else s)
    else s.startLate chain g))

/-! ### Lines -/

/-- Lines of the output strip k that are active (R357). -/
def Chain.linesOf (x : Chain) (k : Nat) : Nat := min x.Ho (x.field 0x26 2 * (x.Ho / x.H) - k * x.Ho)

/-- The bytes of a line as its port or output sends them: RGB888 from `rgba8`, `yuyv8` as it stands (R357, R360). -/
def State.lineBytes (s : State) (x : Chain) (u y : Nat) : List Byte :=
  let raw := Memory.read s.narrows (u * Config.unitBytes + y * pitchOf x.Wo x.outFormat) (x.Wo * pixelBytes x.outFormat)
  if x.outFormat = 0 then (raw.zipIdx.filter fun b => b.2 % 4 != 3).map (·.1) else raw

/-- A byte string cut or filled with zeros to a length. -/
def fixTo (n : Nat) (l : List Byte) : List Byte := (l ++ List.replicate n 0).take n

/-- Code of a packet kind, for the free values that depend on it. -/
def PacketKind.code : PacketKind → Nat
  | .frameStart => 0 | .frameEnd => 1 | .lineStart => 2 | .lineEnd => 3 | .rgb888 => 4 | .yuv422 => 5

/-- A short packet (R357): the frame number modulo 2^16 in a frame start. -/
def shortPacket (k : PacketKind) (f y : Nat) : Packet :=
  let v := if k = .frameStart then f % 2 ^ 16 else Config.packetField k.code f y % 2 ^ 16
  { kind := k, value := v, ecc := Config.headerEcc k.code v }

/-- A long packet with its header error correction and checksum (R357). -/
def longPacket (k : PacketKind) (payload : List Byte) : Packet :=
  { kind := k, value := payload.length, ecc := Config.headerEcc k.code payload.length, payload := payload
    checksum := some (Config.payloadChecksum payload) }

/-- The fill colour for every pixel of a line (R354). -/
def Chain.fillBytes (x : Chain) : List Byte :=
  let v := x.field 0x84 4
  if x.outFormat = 0 then (List.replicate x.Wo (leBytes v 3)).flatten
  else ((List.replicate ((x.Wo + 1) / 2) (fixTo 4 (Config.fillYuv v))).flatten).take (2 * x.Wo)

/-- The packets of a line on an A-PHY port (R357): the frame start before the frame's first active line and the frame end after its last
(notes/assumptions/62.md). -/
def Chain.packets (x : Chain) (f k y : Nat) (payload : List Byte) : List Packet :=
  let first := decide (k = 0 ∧ y = 0)
  let last := decide (k + 1 = x.K ∧ x.linesOf k ≤ y + 1)
  (if first then [shortPacket .frameStart f y] else []) ++
    [shortPacket .lineStart f y, longPacket (if x.outFormat = 0 then .rgb888 else .yuv422) payload, shortPacket .lineEnd f y] ++
    (if last then [shortPacket .frameEnd f y] else [])

/-- The line y of strip k of frame f as it is sent: its pixels or the fill colour, and an A-PHY port's packets (R354, R357, R360). -/
def State.lineSent (s : State) (x : Chain) (u f k y : Nat) : SentLine :=
  let bytes := if x.fill then [] else s.lineBytes x u y
  { frame := f, strip := k, line := y, fill := if x.fill then some (x.field 0x84 4) else none, bytes := bytes
    packets := if x.kind = 0 then x.packets f k y (if x.fill then x.fillBytes else bytes) else [] }

/-- CONSUMER_LINE_SEND (R354, R357): the next line of the strip in hand, at its instant; after the last one the consumer frees
its count. -/
def execConsumerLineSend (chain : Nat) (s : State) : Result :=
  let x := s.chain chain
  .next (match x.cur with
    | none => s
    | some g =>
      let f := g / x.K
      let k := g % x.K
      let u := x.slotOf true g
      if !s.instantMet x g x.line then s else
      let sent := s.lineSent x u f k x.line
      let last := decide (x.linesOf k ≤ x.line + 1)
      let s := s.modChain chain fun y => { y with
        sent := some sent, line := y.line + 1, cur := if last then none else y.cur, done := if last then y.done + 1 else y.done }
      if last && !x.fill then s.freeCount u else s)

/-! ### Encoders -/

/-- The encoder waits for room: a watch on the read index, `ne` against the value last read (R387). -/
def State.watchRing (s : State) (c : Nat) : State :=
  let x := s.chain c
  match s.xlateDev x.ctx (x.field 0xA8 8 + 8) .read with
  | .fault _ => s
  | .ok pa =>
    let n := s.freeWatch
    let w : Watch := { used := true, slice := sliceOf pa, addr := pa, w64 := true, cond := .ne
                       operand := x.read, ctx := deviceCtx, waiter := .ring c, order := .acq, scope := .sys }
    match s.register n w with
    | (s, none) => s.modChain c fun y => { y with waiting := true }
    | (s, some _) => s

/-- Bytes written into a ring from a byte count on, around its end (R359). -/
def State.ringWrite (s : State) (ctx base size at_ : Nat) (bytes : List Byte) : Option State :=
  let off := at_ % size
  let head := bytes.take (size - off)
  (s.devWrite ctx (base + off) head).bind fun t => t.devWrite ctx base (bytes.drop (size - off))

/-- A frame is a key frame (R359): every interval frames, or each one with interval 0 (R338). -/
def Chain.keyFrame (x : Chain) (f : Nat) : Bool :=
  let n := bitsOf (x.field 0xB8 4) 25 10
  n == 0 || f % n == 0

/-- What stands before the first tile group that is written of a frame: the temporal delimiter, a key frame's sequence header, and the frame header (R359). -/
def Chain.frameUnits (x : Chain) (f : Nat) : List Byte :=
  Config.temporalDelimiter ++ (if x.keyFrame f then Config.sequenceHeader x.bytes else []) ++ Config.frameHeader x.bytes f (x.taken - 1)

/-- The tile group of the strip in hand, with its headers ahead of it, at most half the ring (R359, R387). -/
def State.tileGroup (s : State) (c : Nat) : List Byte :=
  let x := s.chain c
  let g := x.done
  let pixels := Memory.read s.narrows (x.slotOf true g * Config.unitBytes) (slotBytes x.Ho x.Wo x.outFormat)
  let control := x.field 0xB8 4
  ((if x.headed ≠ g / x.K + 1 then x.frameUnits (g / x.K) else []) ++
    Config.tileGroup (bitsOf control 1 0, bitsOf control 9 2, x.field 0xBC 4, x.field 0xC0 4) pixels (x.taken - 1)).take
    (x.field 0xA0 8 / 2)

/-- A tile group written into the ring and its byte count stored with release, where there is room; else the wait (R359, R387). -/
def State.writeGroup (s : State) (c : Nat) : State :=
  let x := s.chain c
  let bytes := s.tileGroup c
  let read := s.ringIndex x 8
  let s := s.modChain c fun y => { y with read := read }
  if (x.write + 2 ^ 64 - read + bytes.length) % 2 ^ 64 ≤ x.field 0xA0 8 then
    let n := (x.write + bytes.length) % 2 ^ 64
    let s := (s.ringWrite x.ctx (x.field 0x98 8) (x.field 0xA0 8) x.write bytes).getD s
    let s := (s.devWrite x.ctx (x.field 0xA8 8) (leBytes n 8)).getD s
    (s.freeCount (x.slotOf true x.done)).modChain c fun y => { y with
      write := n, done := y.done + 1, taken := 0, headed := x.done / x.K + 1 }
  else s.watchRing c

/-- ENCODER_TILE_GROUP (R354, R359, R362, R387): the encoder takes its next strip, frees a faulted one unread, or writes the tile
group of the strip in hand. -/
def execEncoderTileGroup (chain : Nat) (s : State) : Result :=
  let x := s.chain chain
  let g := x.done
  let u := x.slotOf true g
  .next (s.walkersTake (if !x.active || x.kind != 1 || s.power.stopped || x.waiting then s
    else if x.taken ≠ 0 then s.writeGroup chain
    else if g < x.next ∧ s.outputFull x g then
      if (s.slotEntry u).fault then (s.freeCount u).modChain chain fun y => { y with done := y.done + 1 }
      else (s.putSlot u fun e => { e with state := .draining }).modChain chain fun y => { y with taken := s.tick + 1 }
    else if s.lost chain g && x.consumes g then (s.freeLost chain g).modChain chain fun y => { y with done := y.done + 1 }
    else s))

end Sys2Proof.Machine
end

