-- ==== Sys2Proof/Machine/Time.lean ====
section
/-! DEFINITION. The time receiver and its servo (R335 to R337, notes/assumptions/31.md). -/

namespace Sys2Proof.Machine

/-- A message of the servo's domain from the source it follows (R336). -/
def State.follows (s : State) (domain source : Nat) : Bool := domain == s.servo.domain && s.servo.source == some source

/-- PTP_ANNOUNCE (R336): the first Announce source of the domain is followed. -/
def execPtpAnnounce (domain source : Nat) (s : State) : Result :=
  .next (s.answers (if domain = s.servo.domain ∧ s.servo.source = none then
    { s with servo := { s.servo with source := some source } } else s))

/-- PTP_SYNC (R336): a two-step Sync is timestamped; a one-step Sync is ignored. -/
def execPtpSync (domain source seq : Nat) (twoStep : Bool) (s : State) : Result :=
  .next (if twoStep && s.follows domain source then { s with servo := { s.servo with sync := some (seq, s.ptime) } } else s)

/-- The sample pair taken anew: `ptime` as it stands at this `cyc` (R335). -/
def State.pair (s : State) : Servo := { s.servo with c0 := s.cyc.toNat, p0 := s.ptime }

/-- A rate of `ptime` above its free-running one, in units of 10^-9: rho = 1.9 / (1 + a · 10^-9) (R337). -/
def Servo.setRate (v : Servo) (a : Int) : Servo := { v with adj := a, num := 19 * 10 ^ 9, den := (10 * (10 ^ 9 + a)).toNat }

/-- The rate that the servo chooses, within ±200 ppm (R337). -/
def slewRate (tick : Nat) : Int := max (-200000) (min 200000 (Config.slew tick))

/-- An offset measured: one step to the source's time, which the timestamps in hand follow, then slewing only; the state (R337). -/
def State.applyOffset (s : State) (offset : Int) : State :=
  let v := s.pair
  let calm := if offset.natAbs < 100 then v.calm + 1 else 0
  let back (t : Nat) : Nat := ((t : Int) - offset * 2 ^ 32).toNat
  let v := if v.state = 0 then { v with p0 := back v.p0, sync := v.sync.map fun m => (m.1, back m.2) } else v.setRate (slewRate s.tick)
  { s with servo := { v with offset := offset, calm := calm, state := if 16 ≤ calm then 2 else 1 } }

/-- PTP_FOLLOW_UP (R336, R337): a Delay_Req goes out; the offset, the receipt of the Sync less its sending and the path delay, is
complete where that delay has been measured. -/
def execPtpFollowUp (domain source seq t1 : Nat) (s : State) : Result :=
  .next (match s.servo.sync with
    | none => s
    | some (n, t2) =>
      if n ≠ seq ∨ !s.follows domain source then s else
      let t21 : Int := (t2 / 2 ^ 32 : Nat) - (t1 : Int)
      let t := if s.servo.measured then s.applyOffset (t21 - s.servo.delay) else s
      { t with servo := { t.servo with
          sync := none, t21 := t21, delayReq := some (seq, t.ptime + Config.delayReqLag t.tick * 2 ^ 32) } })

/-- PTP_DELAY_RESP (R336, R337): the path delay is half of the two one-way differences; the first one of a source completes the offset
of its Sync. -/
def execPtpDelayResp (domain source seq t4 : Nat) (s : State) : Result :=
  .next (match s.servo.delayReq with
    | none => s
    | some (n, t3) =>
      if n ≠ seq ∨ !s.follows domain source then s else
      let delay := (s.servo.t21 + ((t4 : Int) - (t3 / 2 ^ 32 : Nat))) / 2
      let t := { s with servo := { s.servo with delayReq := none, delay := delay, measured := true } }
      if s.servo.measured then t else t.applyOffset (s.servo.t21 - delay))

/-- PTP_IGNORED_MESSAGE (R336). -/
def execPtpIgnoredMessage (s : State) : Result := .next s

/-- The domain written (R337): another domain, another source. -/
def State.setDomain (s : State) (d : Nat) : State :=
  if d = s.servo.domain then s
  else { s with servo := { s.servo with domain := d, source := none, sync := none, delayReq := none, measured := false } }

/-- The adjustment word: (1.9 / rho − 1) · 2^32 toward zero (R337). -/
def Servo.adjWord (v : Servo) : Int := ((19 * v.den - 10 * v.num : Int) * 2 ^ 32).tdiv (10 * v.num : Int)

end Sys2Proof.Machine
end

