-- ==== Sys2Proof/Machine/Link.lean ====
section
/-! DEFINITION. Causeway and Strait (R381 to R385, R395): host accesses, remote accesses and their failure, links and lanes. -/

namespace Sys2Proof.Machine

/-! ### The host -/

/-- HOST_WRITE (R247, R381): placed line by line at the home slices, which take it once their walkers have room (R282); bytes that device memory does not have are a fault. In
recovery Causeway does not answer (R401). -/
def execHostWrite (addr : Nat) (data : List Byte) (s : State) : Result :=
  if s.service.recovery then .next s
  else if Config.deviceBytes < addr + data.length then .fault (.noSuchMemory addr)
  else if s.walkFull [(addr, data.length)] then .next s
  else .next (s.placePieces (lineRuns addr data.length) data)

/-- HOST_READ (R381). -/
def execHostRead (addr len : Nat) (s : State) : Result :=
  if s.service.recovery then .next s
  else if Config.deviceBytes < addr + len then .fault (.noSuchMemory addr)
  else if s.walkFull [(addr, len)] then .next s
  else .next { s with answer := Memory.read s.dev addr len }

/-! ### Remote accesses -/

/-- REMOTE_ACCESS (R384): it arrives over a port whose link is up, at slices that take it (R282). -/
def execRemoteAccess (source port pod va : Nat) (req : RemoteReq) (s : State) : Result :=
  let r : Remote := { source := source, port := port, pod := pod, va := va, req := req }
  .next (if (Tbl.get s.links port).up && !s.remoteHeld r then s.remote r else s)

/-- An access that may fail now: one to the device itself without an acceptable context, on a port held down, or past its
limit; one that another peer refuses, for want of a context or by its resolver, or that the host refuses (R381, R385). -/
def State.mayFail (s : State) (o : MemOp) : Bool :=
  match o.place with
  | .peer n => n != s.peerNum || o.dead || o.ports.any (fun p => (Tbl.get s.links p).held) || decide (o.since + remoteLimit ≤ s.cyc.toNat)
  | .host => true
  | _ => false

/-- The copy of a core whose command has a number and whose remote access may fail now (R385). -/
def State.failingCopy (s : State) (c op : Nat) : Option Nat :=
  (s.copies.find? fun e => e.2.core == c && e.2.mark == op && s.copyMayFail e.2 && s.copyTurn e.1).map (·.1)

/-- A remote write's launch ends (R385). -/
def State.failWrite (s : State) (c slot launch ea : Nat) : State :=
  if (s.launch launch).used then s.faultEnd launch 0x0A c (s.grp c slot).index ea else s

/-- An access fails: one that returns a value, and any that the host refuses, which is an unresolvable translation fault, raises the
trap at its word; a remote write ends its launch, and so does a refused one whose group has ended (R129, R381, R385,
notes/assumptions/32.md). -/
def State.failOp (s : State) (c : Nat) (o : MemOp) : State :=
  let t := s.modCore c fun x => Core.settle { x with flight := x.flight.filter fun y => y.id != o.id && !y.sibling o }
  let gone := !(t.grp c o.slot).used || t.genOf c o.slot != o.gen
  if !o.reads && (o.place != .host || gone) then t.failWrite c o.slot o.launch o.ea
  else if gone then t
  else
    let l := (maskList o.lanes 64).headD 0
    (t.uncount c o).takeTrap c o.slot o.lanes o.pc o.uni { cause := 0x0A, tval := o.ea, lane := if o.uni then 0 else l }

/-- REMOTE_ACCESS_TIMEOUT (R381, R385): a host access that has been performed is not refused any more. -/
def execRemoteAccessTimeout (core op : Nat) (s : State) : Result :=
  .next (match (s.core core).flight.find? fun o => o.id == op && s.mayFail o with
    | some o => s.failOp core o
    | none => match (s.core core).unacked.find? fun u => u.id == op && u.origin.isNone && !u.host &&
        decide (u.since + remoteLimit ≤ s.cyc.toNat) with
      | some u => (s.acked core op).failWrite core u.slot u.launch u.ea
      | none => match s.failingCopy core op with
        | some n => s.failCopy n
        | none => s)

/-! ### Links and lanes -/

/-- A port changed. -/
def State.modLink (s : State) (p : Nat) (f : Port → Port) : State := { s with links := Tbl.mod s.links p f }

/-- STRAIT_LINK_TRAINING (R383): an assigned device's port trains, or is held down on a duplicate number. -/
def execStraitLinkTraining (port : Nat) (duplicate : Bool) (s : State) : Result :=
  .next (if s.peerNum = 0x1FF ∨ 24 ≤ port then s
    else if duplicate then (s.modLink port fun p => { p with up := false, held := true }).postLog 0x08 0 port s.peerNum
    else s.modLink port fun p => { p with up := true, held := false })

/-- A flit of a lane retried (R395). -/
def State.flitRetry (s : State) (port lane : Nat) : State :=
  s.modLink port fun p => { p with flits := Tbl.mod p.flits lane fun l => (s.cyc.toNat :: l).take 16 }

/-- Ticks of `cyc` in 1 ms. -/
def millisecond : Nat := 1900000

/-- A lane has had 16 flit retries within 1 ms (R395). -/
def Port.flaky (p : Port) (lane : Nat) : Bool :=
  let l := Tbl.get p.flits lane
  decide (16 ≤ l.length) && decide (l.headD 0 ≤ l.getD 15 0 + millisecond)

/-- LANE_RETRAIN (R395): a lane with 16 flit retries within 1 ms is retrained once. -/
def execLaneRetrain (port lane : Nat) (s : State) : Result :=
  let p := Tbl.get s.links port
  .next (if 25 ≤ port ∨ !p.flaky lane ∨ p.retrained.contains lane then s
    else s.modLink port fun p => { p with retrained := lane :: p.retrained, flits := Tbl.erase p.flits lane })

/-- A lane's fault is lasting: it is retired to the port's spare, or the port runs without it (R395, R396). -/
def State.retireLane (s : State) (port lane : Nat) : State :=
  let cls := if port = 24 then 0xA else 0x9
  let free := (Tbl.get s.links port).spare == 0
  ((s.countLasting cls port 0).modLink port fun p => { p with
      retrained := p.retrained.filter (· != lane), flits := Tbl.erase p.flits lane, spare := if free then 1 else 2 }).postLog
    (if free then 0x02 else 0x03) cls port 0

/-- LANE_RETIREMENT (R395): 16 more retries within 1 ms on a retrained lane. -/
def execLaneRetirement (port lane : Nat) (s : State) : Result :=
  let p := Tbl.get s.links port
  .next (if 25 ≤ port ∨ !p.flaky lane ∨ !p.retrained.contains lane then s else s.retireLane port lane)

end Sys2Proof.Machine
end

