-- ==== Sys2Proof/Machine/Errors.lean ====
section
/-! DEFINITION. Errors and wear (R392 to R396), power and temperature (R399). -/

namespace Sys2Proof.Machine

/-! ### Lasting actions -/

/-- A row marked for repair at the next reset; an array's row has its retirement record (R392, R395). -/
def State.markRepair (s : State) (cls unit addr : Nat) : State :=
  let t := { s with repairs := s.repairs ++ [(cls, unit, addr)] }
  if cls = 0 then t else t.postLog 0x02 cls unit addr

/-- Bytes that a lasting error has zeroed are kept in mind (R210, R392). -/
def State.noteZeroed (s : State) (pl : Place) (lo n : Nat) : State := { s with zeroed := (pl, lo, n) :: s.zeroed }

/-- The slot entry that holds a unit of the Narrows. -/
def State.slotHolding (s : State) (u : Nat) : Option Nat :=
  (s.slotTable.find? fun e => e.2.granted && decide (e.1 ≤ u) && decide (u < e.1 + e.2.units)).map (·.1)

/-- The physical slice behind a number: a retired one leads to its spare (R396). -/
def physSlice (s : State) (p : Nat) : Nat → Nat
  | 0 => p
  | fuel + 1 => match s.retiredSlices.findIdx? (· == p) with
    | some i => physSlice s (96 + i) fuel
    | none => p

/-- A way of an L2 slice fails; the fourth retires the slice (R395). -/
def State.failWay (s : State) (slice addr : Nat) : State :=
  let w := Config.failWay addr % 12
  let ways := (Tbl.get s.slices slice).badWays
  if ways.contains w then s else
  let s := { s with slices := Tbl.mod s.slices slice fun x => { x with badWays := w :: ways } }
  if ways.length ≠ 3 then s
  else if s.retiredSlices.length < 4 then
    { s with retiredSlices := s.retiredSlices ++ [physSlice s slice 5] }.postLog 0x02 0x1 slice 0
  else s.postLog 0x03 0x1 slice 0

/-- The byte of device memory behind the L2. -/
def lentByte (s : State) (a : Nat) : Byte :=
  match s.lent.find? fun (e : Nat × Byte) => e.1 == a with
  | some e => e.2
  | none => Memory.byte s.dev a

/-- The lasting action of a class on its unit (R392). -/
def State.lastingAction (s : State) (cls unit addr : Nat) : State :=
  match cls with
  | 0 => { s with dev := Memory.write s.dev (addr / 32 * 32) (List.replicate 32 0), lent := keepLent s.lent (addr / 32 * 32) 32 }.noteZeroed .device (addr / 32 * 32) 32
  | 1 =>
    -- a dirty line is written back as zero, a clean one returns the failing word as zero until it is fetched anew
    let n := if s.choose 0 then 64 else 8
    let lo := addr / n * n
    let rest := keepLent s.lent lo n
    ({ s with
      dev := Memory.write s.dev lo (List.replicate n 0)
      lent := if n = 64 then rest else (upFrom lo n).map (fun a => (a, lentByte s a)) ++ rest
      }.noteZeroed .device lo n).failWay unit addr
  | 2 => ((s.watches.filter fun w => w.2.used && w.2.held == .table && w.2.slice == unit && w.2.addr / 64 == addr / 64).map (·.1)).foldl
      (fun s n => s.endWatch n .retranslate) s
  | 3 =>
    let s := { s with narrows := Memory.write s.narrows (addr / 8 * 8) (List.replicate 8 0) }.noteZeroed .narrows (addr / 8 * 8) 8
    (match s.slotHolding (addr / Config.unitBytes) with
     | some u => s.putSlot u fun e => { e with fault := true }
     | none => s)
  | 4 => (s.modCore unit fun x => { x with sram := Memory.write x.sram (addr / 8 * 8) (List.replicate 8 0) }).noteZeroed
      (.sram unit) (addr / 8 * 8) 8
  | 5 => s.modCore unit fun x => { x with rows := Tbl.mod x.rows (addr / 64) fun r => { r with lanes := Tbl.erase r.lanes (addr % 64) } }
  | 6 => s.modCore unit fun x => { x with slots := Tbl.mod x.slots (addr / 2048 % 32) fun u => { u with bad := (addr % 2048) :: u.bad } }
  | 7 =>
    -- the code covers 64 bits, two elements (R270)
    let w := addr % 16384 / 2 * 2
    s.modCore unit fun x => { x with tiles := Tbl.mod x.tiles (addr / 16384 % 8) fun u => { u with bad := w :: (w + 1) :: u.bad } }
  | _ => s

/-- A lasting error: counted and recorded, with its action; rows are marked for repair, and a core is fenced (R392, R395,
notes/assumptions/33.md). -/
def State.lasting (s : State) (cls unit addr : Nat) : State :=
  if 9 ≤ cls then s.retireLane (if cls = 0xA then 24 else unit) addr else
  let s := ((s.countLasting cls unit addr).lastingAction cls unit addr).markRepair cls unit addr
  if 4 ≤ cls ∧ cls ≤ 7 then s.fenceCore cls unit else s

/-- An error in the part of the SRAM array that is L1: lines are dropped and refetched, which counts as corrected (R392). -/
def State.dropL1 (s : State) (core addr : Nat) : State :=
  let step := addr / Config.sramStep
  (s.modCore core fun x => { x with l1 := x.l1.filter fun e => Config.l1Step e.1 % Config.sramSteps != step }).modCounters 4 fun k =>
    { k with corrected := satUp k.corrected }

/-- An error that a retry of the operation corrects, or the code alone (R270, R392, R393); a lane's retry is kept with its instant
(R395). -/
def State.corrected (s : State) (cls unit addr : Nat) : State :=
  if cls ≤ 7 ∧ s.choose 0 then s.countCorrected cls
  else if cls ≤ 7 then s.countRetried cls
  else (s.countRetried cls).flitRetry (if cls = 0xA then 24 else unit) addr

/-- A unit and address of a class that exist. -/
def errorUnit (cls unit addr : Nat) : Bool :=
  match cls with
  | 0 => decide (addr < Config.deviceBytes)
  | 1 | 2 => decide (unit < Config.slices) && decide (addr < Config.deviceBytes)
  | 3 => decide (addr < Config.narrowsUnits * Config.unitBytes)
  | 4 => decide (unit < Config.cores) && decide (addr < Config.sramSteps * Config.sramStep)
  | 5 => decide (unit < Config.cores) && decide (addr / 64 < 128 * Config.groupSlots)
  | 6 => decide (unit < Config.cores) && decide (addr < 32 * 2048)
  | 7 => decide (unit < Config.cores) && decide (addr < 8 * 16384)
  | 9 => decide (unit < 24)
  | 0xA => true
  | _ => false

/-- ERROR_RETRY (R392): a retry that succeeds is counted; one that fails has its lasting action. Class 0x8 has no retry of its
own (R409). -/
def execErrorRetry (cls unit addr : Nat) (retryOk : Bool) (s : State) : Result :=
  .next (if !errorUnit cls unit addr then s
    else if retryOk then s.corrected cls unit addr
    else if cls = 4 ∧ (s.core unit).cur * Config.sramStep ≤ addr then s.dropL1 unit addr
    else s.lasting cls unit addr)

/-! ### Power and temperature -/

/-- The last samples, and since when the die is below 95 °C (R399). -/
def State.measure (s : State) (power temp : Int) : State :=
  let cool := if 380 ≤ temp then 0 else if s.power.cool = 0 then s.cyc.toNat + 1 else s.power.cool
  { s with power := { s.power with watts := power, temp := temp, cool := cool } }

/-- The lowest core clock in MHz (R399). -/
def lowestClock : Nat := min Config.lowestClock 1900

/-- CLOCK_STEP (R399): every 2 µs one step of 50 MHz, down beyond 1,600 W or 105 °C, else up. -/
def execClockStep (power temp : Int) (s : State) : Result :=
  .next (if s.cyc.toNat < s.power.stepped + 3800 ∨ s.power.stopped then s else
    let s := s.measure power temp
    let clock := if 1600 < power ∨ 420 < temp then max lowestClock (s.power.clock - 50) else min 1900 (s.power.clock + 50)
    { s with power := { s.power with clock := clock, stepped := s.cyc.toNat } })

/-- THERMAL_STOP (R399): at 115 °C all issue stops. -/
def execThermalStop (temp : Int) (s : State) : Result :=
  .next (if temp < 460 ∨ s.power.stopped then s else
    let s := s.measure s.power.watts temp
    { s with power := { s.power with stopped := true } }.postLog 0x09 0 0 temp.toNat)

/-- THERMAL_RESUME (R399): the die has stayed below 95 °C for 1 ms; issue resumes at the lowest clock. -/
def execThermalResume (temp : Int) (s : State) : Result :=
  let t := s.measure s.power.watts temp
  .next (if !s.power.stopped then s
    else if t.power.cool = 0 ∨ t.cyc.toNat + 1 < t.power.cool + 1900000 then t
    else ({ t with power := { t.power with stopped := false, clock := lowestClock, stepped := t.cyc.toNat } }.postLog 0x0A 0 0 0))

end Sys2Proof.Machine
end

