-- ==== Sys2Proof/Machine/Observe.lean ====
section
/-! DEFINITION. Words of the configuration space that act: observation units (R397, R398), quotas (R262), the peer number (R383),
ports and outputs (R358, R361), fault injection (R407), and the debugger's access (R64, R403, R404). -/

namespace Sys2Proof.Machine

/-! ### Observation units -/

/-- A running chain owns a unit (R397). -/
def State.unitOwned (s : State) (u : Nat) : Bool := s.chains.any fun e => e.2.active && bitsOf (e.2.field 0x88 4) 13 8 == u

/-- The control word of a unit written; `clr` zeroes what it has gathered, and in window mode the rest covers the last 64 samples from
then on (R397). -/
def Obs.control (o : Obs) (v : Nat) : Obs :=
  let o := if v.testBit 30 then { o with lo := 0, hi := 0, count := 0, bins := [], recent := [] } else o
  let o := { o with
    en := v.testBit 31, frz := v.testBit 25, win := v.testBit 24, e := bitsOf v 20 16, filter := bitsOf v 15 8, source := bitsOf v 7 0 }
  if o.win then o.window else o

/-- A write of a unit's control word (R397). -/
def State.writeObs (s : State) (u v : Nat) : State :=
  if 64 ≤ u ∨ s.unitOwned u then s else { s with obs := Tbl.mod s.obs u fun o => o.control v }

/-- OBSERVATION_CONTROL_WRITE (R397). -/
def execObservationControlWrite (unit : Nat) (value : BitVec 32) (s : State) : Result := .next (s.answers (s.writeObs unit value.toNat))

/-- Ready queues without a hardware slot (R398). -/
def State.queueDepth (s : State) : Nat :=
  (s.queues.filter fun q => q.2.ready != 0 && !(s.hwSlots.any fun h => h.2.queue == q.1 + 1)).length

/-- Watch entries in use in a slice (R278, R398). -/
def State.occupancy (s : State) (slice : Nat) : Nat :=
  (s.watches.filter fun w => w.2.used && w.2.held == .table && w.2.slice == slice).length

/-- PERIODIC_SAMPLE (R398): every 65,536 `cyc`. -/
def execPeriodicSample (power temp : Int) (s : State) : Result :=
  .next (if s.cyc.toNat < s.power.sampled + 65536 then s else
    let s := s.measure power temp
    let s := { s with power := { s.power with sampled := s.cyc.toNat } }
    let s := s.sample 0x04 none s.queueDepth
    let s := (List.range Config.slices).foldl (fun s n => s.sample 0x05 (some n) (s.occupancy n)) s
    (s.sample 0x08 none temp).sample 0x09 none power)

/-! ### Quotas -/

/-- Most and least ways of a class (R262). -/
def State.quota (s : State) (cls : Nat) : Nat × Nat :=
  let q := Tbl.get s.quotas cls
  if q.written then (q.most, q.least) else (0xC, [2, 2, 0, 4].getD cls 0)

/-- Most ways of a set that a class may hold in a slice: at most 11 where a way is disabled (R395). -/
def State.actingMost (s : State) (slice cls : Nat) : Nat :=
  let most := (s.quota cls).1
  if (Tbl.get s.slices slice).badWays.length < 4 then most else min most 11

/-- A write of a quota word (R262). -/
def State.writeQuota (s : State) (cls v : Nat) : State :=
  let most := bitsOf v 11 8
  let least := bitsOf v 3 0
  let others := ((List.range 4).filter (· != cls)).foldl (fun n c => n + (s.quota c).2) 0
  if 4 ≤ cls ∨ most < least ∨ most = 0 ∨ 13 ≤ most ∨ v / 2 ^ 12 ≠ 0 ∨ bitsOf v 7 4 ≠ 0 ∨ 12 < others + least then s
  else { s with quotas := Tbl.set s.quotas cls { written := true, most := most, least := least } }

/-- L2_QUOTA_WRITE (R262). -/
def execL2QuotaWrite (cls : Nat) (value : BitVec 32) (s : State) : Result := .next (s.answers (s.writeQuota cls value.toNat))

/-! ### The peer number -/

/-- A context with its remote bit set (R364, R383). -/
def State.remoteOpen (s : State) : Bool :=
  (firstFrom (fun k => (s.ctxNat k 0x0C 4).testBit 31) 0 s.ctxCount).isSome

/-- A write of the peer number (R383). -/
def State.writePeer (s : State) (v : Nat) : State :=
  let n := v % 512
  if s.remoteOpen || (List.range 24).any (fun p => (Tbl.get s.links p).up) || (decide (288 ≤ n) && n != 0x1FF) then s
  else { s with peerNum := n }

/-- PEER_NUMBER_WRITE (R383). -/
def execPeerNumberWrite (value : BitVec 32) (s : State) : Result := .next (s.answers (s.writePeer value.toNat))

/-! ### Ports and outputs -/

/-- A running chain uses a consumer (R358, R361). -/
def State.consumerUsed (s : State) (kind index : Nat) : Bool := s.chains.any fun e => e.2.active && e.2.kind == kind && e.2.index == index

/-- A write of an A-PHY port's word (R358). -/
def State.writePort (s : State) (p v : Nat) : State :=
  let gear := bitsOf v 2 0
  if 8 ≤ p ∨ s.consumerUsed 0 p ∨ gear = 0 ∨ 6 ≤ gear then s
  else { s with ports := Tbl.set s.ports p { en := v.testBit 8, gear := gear } }

/-- PORT_CONFIG_WRITE (R358). -/
def execPortConfigWrite (port : Nat) (value : BitVec 32) (s : State) : Result := .next (s.answers (s.writePort port value.toNat))

/-- A word of an output's block that a write may name: a rate and lane code that exist and go together (R361). -/
def outputWordOk (word v : Nat) : Bool :=
  let rate := bitsOf v 3 0
  let lanes := bitsOf v 5 4
  word != 0 || !(rate == 0 || decide (8 ≤ rate) || lanes == 3 || (decide (5 ≤ rate) && lanes != 2))

/-- A write of a word of a DisplayPort output's block (R361). -/
def State.writeOutput (s : State) (d word v : Nat) : State :=
  if 2 ≤ d ∨ s.consumerUsed 3 d ∨ !outputWordOk word v then s else
  match word with
  | 0 => { s with outputs := Tbl.mod s.outputs d fun o => { o with en := v.testBit 6, lanes := bitsOf v 5 4, rate := bitsOf v 3 0 } }
  | 1 => { s with outputs := Tbl.mod s.outputs d fun o => { o with flat := v % 2 ^ 24 } }
  | 2 => { s with outputs := Tbl.mod s.outputs d fun o => { o with hb := v % 2 ^ 16 } }
  | _ => s

/-- DISPLAYPORT_CONFIG_WRITE (R361). -/
def execDisplayportConfigWrite (out word : Nat) (value : BitVec 32) (s : State) : Result := .next (s.answers (s.writeOutput out word value.toNat))

/-- Pixels of an active line and of blanking, active lines and blanking lines, frames per second, and one colour: red, green, blue
(R361). -/
structure FlatVideo where
  width : Nat
  blank : Nat
  height : Nat
  blankLines : Nat
  perSecond : Nat
  colour : Nat × Nat × Nat
  deriving DecidableEq, Repr

/-- The video that an enabled output which serves no chain sends: a flat field (R360, R361). -/
def State.flatVideo (s : State) (d : Nat) : Option FlatVideo :=
  let o := Tbl.get s.outputs d
  if 2 ≤ d ∨ !o.en ∨ s.consumerUsed 3 d then none
  else some { width := 1920, blank := o.hb, height := 1080, blankLines := 45, perSecond := 60
              colour := (bitsOf o.flat 7 0, bitsOf o.flat 15 8, bitsOf o.flat 23 16) }

/-- An enabled port that serves no chain sends no frame and keeps its link trained (R358). -/
def State.portTrained (s : State) (p : Nat) : Bool := decide (p < 8) && (Tbl.get s.ports p).en

/-! ### Fault injection -/

/-- The fields of an injection entry that exist (R407). -/
def injMask : Nat := 0xC0FFFFFF00FF0000

/-- A write of an injection entry (R407). -/
def State.writeInjection (s : State) (n v : Nat) : State :=
  if 4 ≤ n ∨ (injArm v ∧ (131 < injRow v ∨ 191 < injCore v ∨ (injCount v = 0 ∧ !injSticky v))) then s
  else { s with injections := Tbl.set s.injections n (BitVec.ofNat 64 (v &&& injMask)), injected := Tbl.set s.injected n s.tick }

/-- INJECTION_ENTRY_WRITE (R407). -/
def execInjectionEntryWrite (entry : Nat) (value : BitVec 64) (s : State) : Result := .next (s.answers (s.writeInjection entry value.toNat))

/-! ### The debugger: claims and stops -/

/-- DEBUG_CLAIM (R403). -/
def execDebugClaim (claim : BitVec 32) (tag : BitVec 64) (s : State) : Result :=
  .next (s.answers { s with dbg := { s.dbg with claim := claim &&& 0x8000FFFF, tag := tag.toNat } })

/-- The entry that a core and slot name: the one of the group that is stopped there, else any (R403). -/
def State.stopEntry (s : State) (c g : Nat) : Option Nat :=
  let here := (s.dbg.stops.filter fun e => e.2.2.2.2 && e.2.1 == c && e.2.2.1 == g).map (·.1)
  match here.find? fun n => (s.grp c g).parkedBy (· == .dbg (n + 1)) with
  | some n => some n
  | none => here.head?

/-- A stopped group goes on at the word of its entry, which becomes free (R403). -/
def State.resumeStop (s : State) (c g : Nat) : State :=
  match s.stopEntry c g with
  | none => s
  | some n =>
    let s := { s with dbg := { s.dbg with stops := Tbl.erase s.dbg.stops n } }
    let here (q : Park) : Bool := q == .dbg (n + 1)
    let s := if (s.grp c g).used && (s.grp c g).parkedBy here then s.resumeAfter c g here 1 else s
    s.listStops

/-- DEBUG_RESUME (R403). -/
def execDebugResume (core slot : Nat) (s : State) : Result := .next (s.answers (s.resumeStop core slot))

/-! ### The debugger: the window -/

/-- The unit that the window names: core, class and index (R404). -/
def Debug.at_ (d : Debug) : Nat × Nat × Nat := (bitsOf d.unit 7 0, bitsOf d.unit 11 8, bitsOf d.unit 39 16)

/-- Units of a class on a core, and the bytes of one; granules are indexed by their byte offset in the array (R50, R404). -/
def Core.unitCount (x : Core) : Nat → Nat × Nat
  | 0 => (128 * Config.groupSlots, 256)
  | 1 => (x.cur * Config.sramStep, 32)
  | 2 => (32, 16384)
  | _ => (8, 65536)

/-- A command of the window is refused (R404). -/
def State.windowRefuses (s : State) : Bool :=
  let a := s.dbg.at_
  let n := (s.core a.1).unitCount a.2.1
  decide (191 < a.1) || decide (3 < a.2.1) || decide (n.1 ≤ a.2.2) || s.dbg.offset % 8 != 0 || decide (n.2 ≤ s.dbg.offset)

/-- The tag of a unit (R50). -/
def Core.unitTag (x : Core) (cls i : Nat) : Gen :=
  match cls with
  | 0 => (Tbl.get x.rows i).tag
  | 1 => Tbl.get x.gtag (i / 32)
  | 2 => (Tbl.get x.slots i).tag
  | _ => (Tbl.get x.tiles i).tag

/-- Two words as 64 bits. -/
def wordPair (t : Tbl Word) (k : Nat) : Nat := (Tbl.get t k).toNat + (Tbl.get t (k + 1)).toNat * 2 ^ 32

/-- 64 bits stored as two words. -/
def putTwo (t : Tbl Word) (k d : Nat) : Tbl Word := Tbl.set (Tbl.set t k (BitVec.ofNat 32 d)) (k + 1) (BitVec.ofNat 32 (d / 2 ^ 32))

/-- The raw data of a unit at a byte offset (R64). -/
def Core.unitData (x : Core) (cls i off : Nat) : Nat :=
  match cls with
  | 0 => wordPair (Tbl.get x.rows i).lanes (off / 4)
  | 1 => Memory.nat x.sram (i / 32 * 32 + off) 8
  | 2 => (Tbl.get (Tbl.get x.slots i).rows (off / 128)).toNat / 2 ^ (off % 128 * 8) % 2 ^ 64
  | _ => wordPair (Tbl.get x.tiles i).acc (off / 4)

/-- Data stored and the tag set (R64). -/
def Core.setUnit (x : Core) (cls i off : Nat) (tag : Gen) (d : Nat) : Core :=
  match cls with
  | 0 => { x with rows := Tbl.mod x.rows i fun r => { tag := tag, lanes := putTwo r.lanes (off / 4) d } }
  | 1 => { x with gtag := Tbl.set x.gtag (i / 32) tag, sram := Memory.putNat x.sram (i / 32 * 32 + off) 8 d }
  | 2 => { x with slots := Tbl.mod x.slots i fun u =>
      let row := (Tbl.get u.rows (off / 128)).toNat
      let sh := off % 128 * 8
      { u with tag := tag, rows := Tbl.set u.rows (off / 128) (BitVec.ofNat 1024 (row - row / 2 ^ sh % 2 ^ 64 * 2 ^ sh + d % 2 ^ 64 * 2 ^ sh)) } }
  | _ => { x with tiles := Tbl.mod x.tiles i fun u => { u with tag := tag, acc := putTwo u.acc (off / 4) d } }

/-- A read of the window: data, tag and whether the unit is stale to the generation named (R64). -/
def State.windowRead (s : State) : State :=
  let a := s.dbg.at_
  if s.windowRefuses then { s with dbg := { s.dbg with refused := true } } else
  let t := (s.core a.1).unitTag a.2.1 a.2.2
  { s with dbg := { s.dbg with
      refused := false, data := (s.core a.1).unitData a.2.1 a.2.2 s.dbg.offset, rtag := t.toNat, stale := t.toNat != s.dbg.gen } }

/-- DEBUG_READ (R64, R404). -/
def execDebugRead (s : State) : Result := .next (s.answers s.windowRead)

/-- A tag that a debugger may write: 0, or one of the core's window (R58, R64). -/
def Core.tagOk (x : Core) (t : Gen) : Bool := t == 0 || decide (genDist x.low t < genDist x.low x.nextGen)

/-- A write of the window: the data stored and the tag set, or nothing (R64, R404). -/
def State.windowWrite (s : State) : State :=
  let a := s.dbg.at_
  let t := BitVec.ofNat 16 s.dbg.gen
  if s.windowRefuses || !(s.core a.1).tagOk t then { s with dbg := { s.dbg with refused := true } } else
  { s.modCore a.1 fun x => x.setUnit a.2.1 a.2.2 s.dbg.offset t s.dbg.data with
    dbg := { s.dbg with refused := false, rtag := t.toNat, stale := t == 0 } }

/-- DEBUG_WRITE (R64, R404). -/
def execDebugWrite (s : State) : Result := .next (s.answers s.windowWrite)

end Sys2Proof.Machine
end

