-- ==== Sys2Proof/Machine/ConfigSpace.lean ====
section
/-! DEFINITION. The device configuration space as the control node reads and writes it (R4, R61, R262, R269, R313, R337, R339, R342,
R358, R361, R363, R383, R393, R394, R396, R397, R402 to R404, R407). -/

namespace Sys2Proof.Machine

/-! ### Reading -/

/-- A slot entry as its 128-bit word (R342). -/
def SlotEntry.word (e : SlotEntry) : Nat :=
  let st := match e.state with
    | .free => 0 | .filling => 1 | .full => 2 | .draining => 3
  e.units + e.parts * 2 ^ 12 + st * 2 ^ 23 + e.retain * 2 ^ 25 + e.cons * 2 ^ 28 + (if e.fault then 2 ^ 31 else 0) +
    e.scope * 2 ^ 32 + (if e.granted then 2 ^ 35 else 0) + e.chain * 2 ^ 36 + e.strip % 2 ^ 32 * 2 ^ 64

/-- 32 bits of a number, from bit 32·n. -/
def half (x n : Nat) : Nat := x / 2 ^ (32 * n) % 2 ^ 32

/-- A two's-complement number in 64 bits. -/
def twos (x : Int) : Nat := (x % 2 ^ 64).toNat

/-- A chain control block (R339). -/
def Chain.cfg (x : Chain) (o : Nat) : Nat :=
  match o / 4 with
  | 0 => half x.record 0 | 1 => half x.record 1
  | 3 => x.reason * 2 ^ 8 + x.state
  | 4 => half x.strips 0 | 5 => half x.strips 1
  | 6 => half x.misses 0 | 7 => half x.misses 1
  | _ => 0

/-- An observation unit's block (R397). -/
def Obs.cfg (o : Obs) (a : Nat) : Nat :=
  let bit (b : Bool) (n : Nat) : Nat := if b then 2 ^ n else 0
  match a / 4 with
  | 0 => bit o.en 31 + bit o.frz 25 + bit o.win 24 + o.e * 2 ^ 16 + o.filter * 2 ^ 8 + o.source
  | 2 => half (twos o.lo) 0 | 3 => half (twos o.lo) 1
  | 4 => half (twos o.hi) 0 | 5 => half (twos o.hi) 1
  | 6 => half o.count 0 | 7 => half o.count 1
  | n => if 8 ≤ n ∧ n < 40 then Tbl.get o.bins (n - 8) else 0

/-- The command words of the contexts (R363). -/
def State.cfgCtx (s : State) (o : Nat) : Nat :=
  match o with
  | 0x0A00 => half s.ctxBase 0 | 0x0A04 => half s.ctxBase 1
  | 0x0A08 => s.ctxCount
  | 0x0A18 => half s.cmd.va 0 | 0x0A1C => half s.cmd.va 1
  | 0x0A20 => s.cmd.pages
  | 0x0A28 => (if s.cmd.busy then 2 ^ 31 else 0) + s.cmd.op * 2 ^ 16 + s.cmd.ctx
  | 0x0A30 => s.delay
  | _ => 0

/-- The spare map (R396). -/
def State.cfgSpares (s : State) (o : Nat) : Nat :=
  let col (n : Nat) : Nat :=
    let b := Tbl.get s.rowShift n
    (if b = 0 then 0xF else b - 1) + (if (List.range 12).any fun r => (s.core (16 * r + n)).fenced then 16 else 0)
  if o < 0x9040 then col ((o - 0x9000) / 4)
  else if o < 0x9340 then (s.core ((o - 0x9040) / 4)).rowSpares
  else if o < 0x9350 then half (listMask s.retiredSlices) ((o - 0x9340) / 4)
  else if 0x9360 ≤ o ∧ o < 0x93C4 then (Tbl.get s.links ((o - 0x9360) / 4)).spare
  else 0

/-- The debugger's words (R403, R404). -/
def State.cfgDebug (s : State) (o : Nat) : Nat :=
  let d := s.dbg
  if 0xC200 ≤ o then
    let e := Tbl.get d.stops ((o - 0xC200) / 8)
    half (e.1 + e.2.1 * 2 ^ 8 + (if e.2.2.2 then 2 ^ 16 else 0) + e.2.2.1 * 2 ^ 18) (o / 4 % 2)
  else match o with
  | 0xC000 => d.claim.toNat
  | 0xC008 => half d.tag 0 | 0xC00C => half d.tag 1
  | 0xC100 => half d.unit 0 | 0xC104 => half d.unit 1
  | 0xC108 => d.offset
  | 0xC110 => d.gen
  | 0xC118 => half d.data 0 | 0xC11C => half d.data 1
  | 0xC128 => d.rtag + (if d.stale then 2 ^ 16 else 0) + (if d.refused then 2 ^ 17 else 0)
  | _ => 0

/-- Bytes of the identity block (R402). -/
def State.cfgService (s : State) (a : Nat) : Nat :=
  let v := s.service
  if a < 0xE020 then (v.nonce.getD (a - 0xE000) 0).toNat
  else if a = 0xE023 then (if v.busy then 0x80 else 0)
  else if 0xE100 ≤ a ∧ a < 0xE200 then (Config.certificate (a - 0xE100)).toNat
  else if 0xE200 ≤ a ∧ a < 0xE400 then (v.report.getD (a - 0xE200) 0).toNat
  else 0

/-- A 32-bit word of the configuration space; an offset that no map names reads zero (R4). -/
def State.cfgRead (s : State) (o : Nat) : Nat :=
  let within (lo n : Nat) : Bool := decide (lo ≤ o) && decide (o < lo + n)
  if within 0x0400 16 then (s.quota ((o - 0x0400) / 4)).1 * 2 ^ 8 + (s.quota ((o - 0x0400) / 4)).2
  else if o = 0x0800 then half s.queueBase 0
  else if o = 0x0804 then half s.queueBase 1
  else if o = 0x0808 then s.queueCount
  else if within 0x0810 12 then (let v := Tbl.get s.timeSlices ((o - 0x0810) / 4); if v = 0 then 0x03E8 else v)
  else if within 0x0A00 0x34 then s.cfgCtx o
  else if o = 0x0B00 then s.peerNum
  else if within 0x0C00 768 then
    (let x := s.core ((o - 0x0C00) / 4)
     (if x.req = x.cur then 0 else 2 ^ 31) + x.req * 2 ^ 8 + x.cur)
  else if within 0x4000 512 then (s.chain ((o - 0x4000) / 32)).cfg ((o - 0x4000) % 32)
  else if o = 0x5000 then s.servo.domain * 2 ^ 8 + s.servo.state
  else if within 0x5008 8 then half (twos s.servo.offset) (o / 4 % 2)
  else if o = 0x5010 then half (twos s.servo.adjWord) 0
  else if within 0x6000 128 then
    (let p := Tbl.get s.ports ((o - 0x6000) / 16)
     if o % 16 = 0 then (if p.en then 2 ^ 8 else 0) + p.gear else 0)
  else if within 0x6100 32 then
    (let p := Tbl.get s.outputs ((o - 0x6100) / 16)
     match o % 16 with
     | 0 => (if p.en then 2 ^ 6 else 0) + p.lanes * 2 ^ 4 + p.rate
     | 4 => p.flat
     | 8 => p.hb
     | _ => 0)
  else if within 0x8000 256 then
    (let k := Tbl.get s.counters ((o - 0x8000) / 16)
     match o % 16 with
     | 0 => k.corrected
     | 4 => k.retried
     | 8 => k.lasting
     | _ => 0)
  else if within 0x8800 8 then half s.logBase (o / 4 % 2)
  else if o = 0x8808 then s.logSize + 4
  else if within 0x8810 8 then half s.logIndex (o / 4 % 2)
  else if within 0x9000 0x3C4 then s.cfgSpares o
  else if within 0xC000 0x400 then s.cfgDebug o
  else if within 0xE000 0x400 then leNat ((upFrom o 4).map fun a => BitVec.ofNat 8 (s.cfgService a))
  else if within 0x10000 (16 * Config.narrowsUnits) then half (s.slotEntry ((o - 0x10000) / 16)).word (o / 4 % 4)
  else if within 0x20000 (64 * Config.cores) then
    half (Tbl.get (s.core ((o - 0x20000) / 64)).mismatch ((o - 0x20000) % 64 / 8)).toNat (o / 4 % 2)
  else if within 0x24000 32 then half (Tbl.get s.injections ((o - 0x24000) / 8)).toNat (o / 4 % 2)
  else if within 0x30000 0x4000 then (Tbl.get s.obs ((o - 0x30000) / 256)).cfg ((o - 0x30000) % 256)
  else 0

/-! ### Writing -/

/-- The error log's base written; a refused image that no log has recorded is recorded now (R394, R401). -/
def State.writeLogBase (s : State) (v : Nat) : State :=
  if v / 2 ^ 48 ≠ 0 ∨ v % 32 ≠ 0 then s else
  let s := { s with logBase := v }
  if v ≠ 0 ∧ s.service.refusedImage then { s.postLog 0x07 0 0 0 with service := { s.service with refusedImage := false } } else s

/-- A chain's command word (R339). -/
def State.chainCommand (s : State) (c v : Nat) : State :=
  if v = 1 then (if (s.chain c).active then s else s.tryStart c)
  else if v = 2 ∧ (s.chain c).state = 1 then s.modChain c fun x => { x with state := 3 }
  else s

/-- A chain's record word, written only while idle or refused (R339). -/
def State.chainRecord (s : State) (c v : Nat) : State :=
  if (s.chain c).active then s else s.modChain c fun x => { x with record := v }

/-- A mismatch entry written: a one in its valid bit clears it (R269). -/
def State.clearMismatch (s : State) (c n v : Nat) : State :=
  if v.testBit 63 then s.modCore c fun x => { x with mismatch := Tbl.erase x.mismatch n } else s

/-- The 64-bit words of the space (R4). -/
def isWide (o : Nat) : Bool :=
  let within (lo n : Nat) : Bool := decide (lo ≤ o) && decide (o < lo + n)
  o == 0x0800 || o == 0x0A00 || o == 0x0A10 || o == 0x0A18 || (within 0x4000 512 && o % 32 == 0) || o == 0x8800 || o == 0xC008 ||
    o == 0xC100 || o == 0xC118 || (within 0x20000 (64 * Config.cores) && o % 8 == 0) || (within 0x24000 32 && o % 8 == 0)

/-- A 64-bit word written. -/
def State.cfgWide (s : State) (o v : Nat) : State :=
  match o with
  | 0x0800 => { s with queueBase := v % 2 ^ 48 / 64 * 64 }
  | 0x0A00 => { s with ctxBase := v % 2 ^ 48 / 128 * 128 }
  | 0x0A10 => s.ctxCommand (bitsOf v 19 16) (v % 2 ^ 16)
  | 0x0A18 => { s with cmd := { s.cmd with va := v % 2 ^ 48 / 2 ^ 16 * 2 ^ 16 } }
  | 0x8800 => s.writeLogBase v
  | 0xC008 => { s with dbg := { s.dbg with tag := v } }
  | 0xC100 => { s with dbg := { s.dbg with unit := v &&& 0xFFFFFF0FFF } }
  | 0xC118 => { s with dbg := { s.dbg with data := v } }
  | _ =>
    if o < 0x8000 then s.chainRecord ((o - 0x4000) / 32) v
    else if o < 0x24000 then s.clearMismatch ((o - 0x20000) / 64) ((o - 0x20000) % 64 / 8) v
    else s.writeInjection ((o - 0x24000) / 8) v

/-- A counter block's word written (R393). -/
def State.writeCounter (s : State) (cls w v : Nat) : State :=
  s.modCounters cls fun k => match w with
    | 0 => { k with corrected := v }
    | 1 => { k with retried := v }
    | 2 => { k with lasting := v }
    | _ => k

/-- The debugger's 32-bit words written (R403, R404). -/
def State.cfgDebugWrite (s : State) (o v : Nat) : State :=
  match o with
  | 0xC000 => { s with dbg := { s.dbg with claim := BitVec.ofNat 32 v &&& 0x8000FFFF } }
  | 0xC010 => s.resumeStop (v % 2 ^ 8) (bitsOf v 15 8)
  | 0xC108 => { s with dbg := { s.dbg with offset := v } }
  | 0xC110 => { s with dbg := { s.dbg with gen := v % 2 ^ 16 } }
  | 0xC120 => if v = 1 then s.windowRead else if v = 2 then s.windowWrite else s
  | _ => s

/-- A nonce word written (R402). -/
def State.writeNonce (s : State) (n v : Nat) : State :=
  let old := fixTo 32 s.service.nonce
  { s with service := { s.service with nonce := old.take (4 * n) ++ leBytes v 4 ++ old.drop (4 * n + 4) } }

/-- An attestation request: the nonce as it stands, unless one is in progress (R402). -/
def State.askReport (s : State) : State :=
  if s.service.busy then s else { s with service := { s.service with busy := true, asked := s.service.nonce } }

/-- ATTESTATION_REQUEST (R402). -/
def execAttestationRequest (s : State) : Result := .next (s.answers s.askReport)

/-- A 32-bit word written; an offset that no map names, or that is read-only, ignores it (R4). -/
def State.cfgWord (s : State) (o v : Nat) : State :=
  let within (lo n : Nat) : Bool := decide (lo ≤ o) && decide (o < lo + n)
  if within 0x0400 16 then (s.writeQuota ((o - 0x0400) / 4) v)
  else if o = 0x0808 then (if v % 2 ^ 17 ≤ 65536 then { s with queueCount := v % 2 ^ 17 } else s)
  else if within 0x0810 12 then
    (if v % 2 ^ 16 = 0 then s else { s with timeSlices := Tbl.set s.timeSlices ((o - 0x0810) / 4) (v % 2 ^ 16) })
  else if o = 0x0A08 then (if v % 2 ^ 17 ≤ 65536 then { s with ctxCount := v % 2 ^ 17 } else s)
  else if o = 0x0A20 then { s with cmd := { s.cmd with pages := v } }
  else if o = 0x0A30 then (if v % 2 ^ 16 = 0 then s else { s with delay := v % 2 ^ 16 })
  else if o = 0x0B00 then (s.writePeer v)
  else if within 0x0C00 768 then (s.writeShare ((o - 0x0C00) / 4) v)
  else if within 0x4000 512 then (if o % 32 = 8 then s.chainCommand ((o - 0x4000) / 32) v else s)
  else if o = 0x5000 then (s.setDomain (bitsOf v 15 8))
  else if within 0x6000 128 then (if o % 16 = 0 then s.writePort ((o - 0x6000) / 16) v else s)
  else if within 0x6100 32 then (s.writeOutput ((o - 0x6100) / 16) (o % 16 / 4) v)
  else if within 0x8000 176 then (s.writeCounter ((o - 0x8000) / 16) (o % 16 / 4) v)
  else if o = 0x8808 then (if 4 ≤ v ∧ v ≤ 12 then { s with logSize := v - 4 } else s)
  else if within 0xC000 0x200 then s.cfgDebugWrite o v
  else if within 0xE000 32 then (s.writeNonce ((o - 0xE000) / 4) v)
  else if o = 0xE020 then (if v = 1 then s.askReport else s)
  else if within 0x30000 0x4000 then (if o % 256 = 0 then s.writeObs ((o - 0x30000) / 256) v else s)
  else s

/-- The half of a 64-bit word that a write of four bytes leaves: as it reads, but zero in a mismatch entry, where a one would clear
(R5, R269, notes/assumptions/34.md). -/
def State.otherHalf (s : State) (o : Nat) : Nat := if 0x20000 ≤ o ∧ o < 0x24000 then 0 else s.cfgRead o

/-- Four bytes written: into one half of a 64-bit word, whose other half stays, or into a word of their own. -/
def State.cfgWrite4 (s : State) (o v : Nat) : State :=
  if isWide o then (s.cfgWide o (v + s.otherHalf (o + 4) * 2 ^ 32))
  else if o % 8 = 4 ∧ isWide (o - 4) then (s.cfgWide (o - 4) (s.otherHalf (o - 4) + v * 2 ^ 32))
  else s.cfgWord o v

/-- Two words of 32 bits written as one: both words of an output's block, or neither (R361). -/
def State.cfgPair (s : State) (o v : Nat) : State :=
  if 0x6100 ≤ o ∧ o < 0x6120 ∧ !outputWordOk (o % 16 / 4) (v % 2 ^ 32) then s
  else (s.cfgWord o (v % 2 ^ 32)).cfgWord (o + 4) (v / 2 ^ 32)

/-- A write of 4 aligned bytes, or of 8, which covers a 64-bit word or two words of 32 bits. -/
def State.cfgWrite (s : State) (offset size v : Nat) : State :=
  if size = 4 ∧ offset % 4 = 0 then s.cfgWrite4 offset (v % 2 ^ 32)
  else if size = 8 ∧ offset % 8 = 0 then
    if isWide offset then s.cfgWide offset v else s.cfgPair offset v
  else s

/-- CONFIG_WRITE (R4): in recovery the configuration space is closed (R401, notes/assumptions/34.md). -/
def execConfigWrite (offset size : Nat) (value : BitVec 64) (s : State) : Result :=
  .next (s.answers (s.cfgWrite offset size value.toNat))

end Sys2Proof.Machine
end

