-- ==== Sys2Proof/Machine/Bringup.lean ====
section
/-! DEFINITION. Attestation (R402), bring-up (R401, R405) and the service ports (R406). -/

namespace Sys2Proof.Machine

/-! ### Attestation -/

/-- The bytes of the spare map, 0x9000 to 0x93C3 (R402). -/
def State.spareBytes (s : State) : List Byte := (upFrom 0 241).flatMap fun n => leBytes (s.cfgSpares (0x9000 + 4 * n)) 4

/-- The report of a request (R402). -/
def State.attest (s : State) : List Byte :=
  let body := fixTo 32 s.service.asked ++ fixTo 32 (Config.sha256 s.service.firmware) ++ fixTo 32 (Config.sha256 s.spareBytes) ++
    fixTo 16 Config.serial ++ List.replicate 16 0
  body ++ fixTo 384 (Config.attestSignature body)

/-- ATTESTATION_REPORT (R402). -/
def execAttestationReport (s : State) : Result :=
  .next (if s.service.busy then { s with service := { s.service with busy := false, report := s.attest } } else s)

/-! ### Bring-up -/

/-- A column's shift after a reset: where its spare is free the core of the column that was fenced first is retired (R395). -/
def State.shiftOf (s : State) (col : Nat) : Nat :=
  let b := Tbl.get s.rowShift col
  if b ≠ 0 then b else match (List.range 12).find? fun r => (s.core (16 * r + col)).fenced && !s.absent (16 * r + col) with
    | some r => r + 1
    | none => 0

/-- What a logical core keeps over a reset: the array rows of the physical core behind it, and its fence where no spare is left
(R268, R395, R396). -/
def State.keptCore (s : State) (c : Nat) : Core :=
  let moved := Tbl.get s.rowShift (c % 16) == 0 && s.shiftOf (c % 16) != 0 && decide (s.shiftOf (c % 16) - 1 ≤ c / 16)
  let x := if moved then (if c / 16 = 11 then {} else s.core (c + 16)) else s.core c
  { (default : Core) with rowMap := x.rowMap, rowSpares := x.rowSpares, rowsRetired := x.rowsRetired, fenced := x.fenced, fencedAt := x.fencedAt }

/-- The machine that comes up at power-on: what the non-volatile store and the model's own schedule keep; everything else at reset
(R396, R405). A slice that found no spare stays fenced (R395). -/
def State.restart (s : State) : State :=
  { State.reset with
    agenda := s.agenda
    tick := s.tick
    choice := s.choice
    host := s.host
    peers := s.peers
    rowShift := (List.range 16).foldl (fun t n => Tbl.set t n (s.shiftOf n)) []
    retiredSlices := s.retiredSlices
    slices := (s.slices.filter fun e => decide (4 ≤ e.2.badWays.length) && !s.retiredSlices.contains (physSlice s e.1 5)).map fun e =>
      (e.1, { (default : Slice) with badWays := e.2.badWays })
    cores := (List.range Config.cores).foldl (fun t c => Tbl.set t c (s.keptCore c)) []
    zeroed := []
    service := { (default : Service) with refusedImage := s.service.refusedImage } }

/-- Self-test failures handled as lasting errors (R405). -/
def State.selfTest (s : State) : State :=
  (Config.selfTest s.tick).foldl (fun s e => if errorUnit e.1 e.2.1 e.2.2 then s.lasting e.1 e.2.1 e.2.2 else s) s

/-- POWER_ON (R401, R405): a refused image leaves the device in recovery. -/
def execPowerOn (image : List Byte) (s : State) : Result :=
  let t := s.restart
  .next (if Config.firmwareOk image then { t with service := { t.service with firmware := image } }.selfTest
    else { t with service := { t.service with recovery := true, refusedImage := true } })

/-! ### Service ports -/

/-- What an I3C read returns (R406). -/
def State.i3c (s : State) : I3cWhat → List Byte
  | .temperature => leBytes (twos s.power.temp) 4
  | .power => leBytes (twos s.power.watts) 4
  | .counter cls =>
    let k := Tbl.get s.counters cls
    leBytes k.corrected 4 ++ leBytes k.retried 4 ++ leBytes k.lasting 4
  | .spare off => leBytes (s.cfgSpares (0x9000 + off / 4 * 4)) 4
  | .recovery => [if s.service.recovery then 1 else 0]

/-- I3C_READ (R406). -/
def execI3cRead (what : I3cWhat) (s : State) : Result := .next { s with answer := s.i3c what }

/-- The test port is limited to BYPASS and IDCODE (R406). -/
def State.portLimited (s : State) : Bool := !s.service.recovery && !Config.jtagOpen

/-- The test port's instruction and data register. -/
def State.jtag (s : State) (ir dr : Nat) : State := { s with service := { s.service with jtag := ir, dr := dr } }

/-- JTAG_BYPASS (R406). -/
def execJtagBypass (s : State) : Result := .next (s.jtag 0 0)

/-- JTAG_IDCODE (R406). -/
def execJtagIdcode (s : State) : Result := .next (s.jtag 1 0x0B8801F3)

/-- JTAG_SAMPLE_PRELOAD (R406): the pins as sampled, unless the port is limited. -/
def execJtagSamplePreload (s : State) : Result := .next (if s.portLimited then s else s.jtag 2 (Config.pinState s.tick))

/-- JTAG_EXTEST (R406): the register drives the pins, unless the port is limited. -/
def execJtagExtest (s : State) : Result := .next (if s.portLimited then s else s.jtag 3 s.service.dr)

end Sys2Proof.Machine
end

