-- ==== Sys2Proof/Machine/CrossLane.lean ====
section
/-! DEFINITION. Cross-lane instructions (R120 to R123). The contributing set of a group is the set of its executing
lanes in the instance; every other lane supplies zero or takes no part. -/

namespace Sys2Proof.Machine

/-- The source lane of `SHFL`, none outside 0 to 63 (R121). -/
def shflLane (mode : ShflMode) (l b : Nat) : Option Nat :=
  let i : Int := match mode with
    | .idx => b
    | .up => (l : Int) - b
    | .down => (l : Int) + b
    | .xor => ((l ^^^ b : Nat) : Int)
  if 0 ≤ i ∧ i < 64 then some i.toNat else none

/-- `SHFL` (R121). -/
def execShfl (c : LaneCtl) (mode : ShflMode) (vd va : VReg) (b : ShflSrc) (s : State) : Result :=
  let bs : List Nat := match b with
    | .reg r => [r.val]
    | .imm _ => []
  runLane c.sw c.g.val s fun s p =>
    match s.laneChecks p ([(true, vd.val, 1), (true, va.val, 1)] ++ bs.map (true, ·, 1)) (va.val :: bs) with
    | some t => .trap t
    | none => .ok (p.lanesL.foldl (fun a l =>
        let n := match b with
          | .reg r => (s.rdV p.core p.slot r l).toNat
          | .imm i => i.val
        let v : Word := match shflLane mode l n with
          | none => s.rdV p.core p.slot va l
          | some k => if p.exec.testBit k then s.rdV p.core p.slot va k else 0
        a.wrV p.core p.slot vd l v) s)

/-- `VOTE` (R122). -/
def execVote (c : LaneCtl) (mode : VoteMode) (vd : VReg) (pd : PReg) (neg : Bool) (ps : PReg) (s : State) : Result :=
  runLane c.sw c.g.val s fun s p =>
    match s.laneChecks p [(true, vd.val, if mode = .ballot then 2 else 1)] [] with
    | some t => .trap t
    | none =>
      let x (l : Nat) : Bool := (s.thr p.core p.slot l).pred ps != neg
      let trues := p.lanesL.filter x
      if mode = .ballot then
        .ok (p.lanesL.foldl (fun a l => (putPair vd (listMask trues)).foldl (fun a w => a.wrV p.core p.slot w.1 l w.2) a) s)
      else
        let r : Bool := match mode with
          | .all => trues.length == p.lanesL.length
          | .any => !trues.isEmpty
          | _ => trues.isEmpty || trues.length == p.lanesL.length
        .ok (p.lanesL.foldl (fun a l =>
          (a.wrV p.core p.slot vd l (if r then 1 else 0)).modThr p.core p.slot l fun t => t.setPred pd r) s)

/-- Identity of a reduction (R123). -/
def reduxIdentity : ReduxOp → Word
  | .min => 0x7FFFFFFF | .max => 0x80000000 | .umin => 0xFFFFFFFF | .and => 0xFFFFFFFF
  | .fmin => 0x7F800000 | .fmax => 0xFF800000
  | _ => 0

/-- Combination of two lane values (R123); `.fadd` is not combined pairwise. -/
def reduxPair (op : ReduxOp) (a b : Word) : Word :=
  match op with
  | .add => a + b | .min => sMin a b | .max => sMax a b | .umin => uMin a b | .umax => uMax a b
  | .and => a &&& b | .or => a ||| b | .xor => a ^^^ b
  | .fmin => BitVec.ofNat 32 (fminmax false a.toNat b.toNat)
  | .fmax => BitVec.ofNat 32 (fminmax true a.toNat b.toNat)
  | .fadd => a

/-- The reduction of a list of lane values; the identity only where there is none (R123). -/
def reduxList (op : ReduxOp) : List Word → Word
  | [] => reduxIdentity op
  | w :: ws =>
    match op with
    | .fadd => BitVec.ofNat 32 (fmt32.encode (fmt32.narrow .rne (exactSum .rne ((w :: ws).map fun x => fmt32.decode x.toNat))))
    | .fmin | .fmax => ws.foldl (reduxPair op) (BitVec.ofNat 32 (fminmax false w.toNat w.toNat))
    | _ => ws.foldl (reduxPair op) w

/-- `REDUX` (R123). -/
def execRedux (c : LaneCtl) (op : ReduxOp) (kind : ReduxKind) (vd va : VReg) (s : State) : Result :=
  runLane c.sw c.g.val s fun s p =>
    match s.laneChecks p [(true, vd.val, 1), (true, va.val, 1)] [va.val] with
    | some t => .trap t
    | none => .ok (p.lanesL.foldl (fun a l =>
        let set := p.lanesL.filter fun k => match kind with
          | .reduce => true
          | .iscan => decide (k ≤ l)
          | .xscan => decide (k < l)
        a.wrV p.core p.slot vd l (reduxList op (set.map fun k => s.rdV p.core p.slot va k))) s)

end Sys2Proof.Machine
end

