-- ==== Sys2Proof/Machine/LaneInt.lean ====
section
/-! DEFINITION. Lane integer instructions (R96 to R104). -/

namespace Sys2Proof.Machine

/-- A two-operand integer word on single registers (R96). -/
def int2 (c : LaneCtl) (vd va vb : VReg) (f : Word → Word → Word) (s : State) : Result :=
  laneFn c s [(vd, 1), (va, 1), (vb, 1)] [va, vb] fun rd => [(vd, f (rd va) (rd vb))]

/-- `IADD` (R96). -/
def execIadd (c : LaneCtl) (vd va vb : VReg) (s : State) : Result := int2 c vd va vb (· + ·) s
/-- `ISUB` (R96). -/
def execIsub (c : LaneCtl) (vd va vb : VReg) (s : State) : Result := int2 c vd va vb (· - ·) s
/-- `IADDI` (R97). -/
def execIaddi (c : LaneCtl) (vd va : VReg) (imm : BitVec 7) (s : State) : Result :=
  laneFn c s [(vd, 1), (va, 1)] [va] fun rd => [(vd, rd va + imm.signExtend 32)]
/-- `IADD64` (R96). -/
def execIadd64 (c : LaneCtl) (vd va vb : VReg) (s : State) : Result :=
  laneFn c s [(vd, 2), (va, 2), (vb, 2)] [va, va.val + 1, vb, vb.val + 1] fun rd => putPair vd (pairOf rd va + pairOf rd vb)
/-- `IMUL` (R96). -/
def execImul (c : LaneCtl) (vd va vb : VReg) (s : State) : Result := int2 c vd va vb (· * ·) s
/-- `IMULH` (R96). -/
def execImulh (c : LaneCtl) (vd va vb : VReg) (s : State) : Result := int2 c vd va vb mulHighS s
/-- `IMAD` (R98). -/
def execImad (c : LaneCtl) (fn : ImadFn) (vd va vb vc : VReg) (s : State) : Result :=
  match fn with
  | .lo => laneFn c s [(vd, 1), (va, 1), (vb, 1), (vc, 1)] [va, vb, vc] fun rd => [(vd, rd va * rd vb + rd vc)]
  | .hiS => laneFn c s [(vd, 1), (va, 1), (vb, 1), (vc, 1)] [va, vb, vc] fun rd =>
      [(vd, mulHighS (rd va) (rd vb) + rd vc)]
  | .hiU => laneFn c s [(vd, 1), (va, 1), (vb, 1), (vc, 1)] [va, vb, vc] fun rd =>
      [(vd, mulHighU (rd va) (rd vb) + rd vc)]
  | .wideS => laneFn c s [(vd, 2), (va, 1), (vb, 1), (vc, 2)] [va, vb, vc, vc.val + 1] fun rd =>
      putPair vd (BitVec.ofInt 64 ((rd va).toInt * (rd vb).toInt + pairOf rd vc)).toNat
  | .wideU => laneFn c s [(vd, 2), (va, 1), (vb, 1), (vc, 2)] [va, vb, vc, vc.val + 1] fun rd =>
      putPair vd ((rd va).toNat * (rd vb).toNat + pairOf rd vc)
/-- `LEA` (R99). -/
def execLea (c : LaneCtl) (sgn : Bool) (vd va vb : VReg) (sh : Fin 8) (off : BitVec 18) (s : State) : Result :=
  laneFn c s [(vd, 2), (va, 2), (vb, 1)] [va, va.val + 1, vb] fun rd =>
    let idx : DWord := if sgn then (rd vb).signExtend 64 else (rd vb).setWidth 64
    putPair vd (BitVec.ofNat 64 (pairOf rd va) + (idx <<< sh.val) + off.signExtend 64).toNat
/-- `IMIN` (R96). -/
def execImin (c : LaneCtl) (vd va vb : VReg) (s : State) : Result := int2 c vd va vb sMin s
/-- `IMAX` (R96). -/
def execImax (c : LaneCtl) (vd va vb : VReg) (s : State) : Result := int2 c vd va vb sMax s
/-- `UMIN` (R96). -/
def execUmin (c : LaneCtl) (vd va vb : VReg) (s : State) : Result := int2 c vd va vb uMin s
/-- `UMAX` (R96). -/
def execUmax (c : LaneCtl) (vd va vb : VReg) (s : State) : Result := int2 c vd va vb uMax s
/-- `AND` (R96). -/
def execAnd (c : LaneCtl) (vd va vb : VReg) (s : State) : Result := int2 c vd va vb (· &&& ·) s
/-- `OR` (R96). -/
def execOr (c : LaneCtl) (vd va vb : VReg) (s : State) : Result := int2 c vd va vb (· ||| ·) s
/-- `XOR` (R96). -/
def execXor (c : LaneCtl) (vd va vb : VReg) (s : State) : Result := int2 c vd va vb (· ^^^ ·) s
/-- `ANDN` (R96). -/
def execAndn (c : LaneCtl) (vd va vb : VReg) (s : State) : Result := int2 c vd va vb (fun a b => a &&& ~~~b) s
/-- `SHL` (R96). -/
def execShl (c : LaneCtl) (vd va vb : VReg) (s : State) : Result := int2 c vd va vb shiftL s
/-- `SHR` (R96). -/
def execShr (c : LaneCtl) (vd va vb : VReg) (s : State) : Result := int2 c vd va vb shiftR s
/-- `SAR` (R96). -/
def execSar (c : LaneCtl) (vd va vb : VReg) (s : State) : Result := int2 c vd va vb shiftA s
/-- `MOV` (R100). -/
def execMov (c : LaneCtl) (vd va : VReg) (s : State) : Result :=
  laneFn c s [(vd, 1), (va, 1)] [va] fun rd => [(vd, rd va)]
/-- `IUN` (R100). -/
def execIun (c : LaneCtl) (fn : IUn) (vd va : VReg) (s : State) : Result :=
  laneFn c s [(vd, if fn.isPair then 2 else 1), (va, 1)] [va] fun rd =>
    let x := iunVal fn (rd va)
    if fn.isPair then putPair vd x.toNat else [(vd, x.setWidth 32)]
/-- `BFX` (R101). -/
def execBfx (c : LaneCtl) (sgn : Bool) (vd va : VReg) (f : FieldPos) (s : State) : Result :=
  laneFn c s ([(vd.val, 1), (va.val, 1)] ++ (fieldRegs f).map (·, 1)) (va.val :: fieldRegs f) fun rd =>
    [(vd, bfxVal sgn (rd va) (fieldPos f rd))]
/-- `BFI` (R101). -/
def execBfi (c : LaneCtl) (vd va vb : VReg) (f : FieldPos) (s : State) : Result :=
  laneFn c s ([(vd.val, 1), (va.val, 1), (vb.val, 1)] ++ (fieldRegs f).map (·, 1)) (va.val :: vb.val :: fieldRegs f)
    fun rd => [(vd, bfiVal (rd va) (rd vb) (fieldPos f rd))]
/-- `ICMP` (R102). -/
def execIcmp (c : LaneCtl) (cond : Cond) (pd : PReg) (va vb : VReg) (s : State) : Result :=
  lanePred c s pd [va, vb] fun rd => Cond.holds cond 32 (rd va).toNat (rd vb).toNat
/-- `SEL`: every present thread executes, its own predicate selects (R103). -/
def execSel (sw : Bool) (n : PReg) (vd va vb : VReg) (s : State) : Result :=
  runLane sw 7 s fun s p =>
    match s.laneChecks p [(true, vd, 1), (true, va, 1), (true, vb, 1)] [va, vb] with
    | some t => .trap t
    | none => .ok (p.lanesL.foldl (fun a l => a.wrV p.core p.slot vd l
        (s.rdV p.core p.slot (if (s.thr p.core p.slot l).pred n then va else vb) l)) s)
/-- `MOVI` with a 13-bit immediate (R104). -/
def execMovi (c : LaneCtl) (vd : VReg) (imm : BitVec 13) (s : State) : Result :=
  laneFn c s [(vd, 1)] [] fun _ => [(vd, imm.signExtend 32)]
/-- `MOVI` with its immediate in the trailer (R104). -/
def execMoviImm32 (c : LaneCtl) (vd : VReg) (imm : BitVec 32) (s : State) : Result :=
  laneFn c s [(vd, 1)] [] fun _ => [(vd, imm)]
/-- `MOVS`: each thread writes its own group's uniform register (R104). -/
def execMovs (c : LaneCtl) (vd : VReg) (sa : SReg) (s : State) : Result :=
  runLane c.sw c.g.val s fun s p =>
    match s.laneChecks p [(true, vd, 1), (false, sa, 1)] [] with
    | some t => .trap t
    | none => .ok (p.lanesL.foldl (fun a l => a.wrV p.core p.slot vd l ((s.grp p.core p.slot).sreg sa)) s)

end Sys2Proof.Machine
end

