-- ==== Sys2Proof/Machine/Replay.lean ====
section
/-! DEFINITION. The answers to translation faults (R129, R148, R210, R380, R384, R385): the access that a fault stopped is
replayed as it was issued, and its thread or group goes on after the word; or it fails. -/

namespace Sys2Proof.Machine

/-! ### What a replayed access leaves -/

/-- The part of its word that a stalled thread or group is. -/
def Stall.part (t : Stall) (c : Nat) : Part :=
  { core := c, slot := t.slot, lanes := t.lanes, exec := t.lanes,
    inst := { core := c, pc := t.pc, num := 0, parts := [(t.slot, t.lanes)], handler := t.handler, words := t.words } }

/-- The park of a stalled uniform word. -/
def Stall.park (t : Stall) (q : Park) : Bool := q == .fault t.handler

/-- A stall is over. -/
def State.dropStall (s : State) (c : Nat) (t : Stall) : State := s.modCore c fun x => { x with stalls := x.stalls.erase t }

/-- The lane of a stalled thread. -/
def Stall.lane (t : Stall) : Nat := (maskList t.lanes 64).headD 0

/-- The thread goes on after its word, its count one higher where the access counts, and its switch bit acts (R71, R129). -/
def State.laneOn (s : State) (c : Nat) (t : Stall) (counted : Bool) : State :=
  let s := s.modThr c t.slot t.lane fun u =>
    let n := if counted then u.count + 1 else u.count
    { u with wait := .none, pc := t.pc + 4 * t.words, count := n, sw := u.sw || (t.sw && n != 0) }
  s.release c t.slot t.lanes

/-- The group goes on after its word in the same way. -/
def State.groupOn (s : State) (c : Nat) (t : Stall) (counted : Bool) : State :=
  let s := s.modGrp c t.slot fun g =>
    let n := if counted then g.ucount + 1 else g.ucount
    { g with ucount := n, usw := g.usw || (t.sw && n != 0) }
  s.resumeAfter c t.slot t.park t.words

/-- A stalled thread or group goes on after its word. -/
def State.stallOn (s : State) (c : Nat) (t : Stall) (counted : Bool) : State :=
  if t.uni then s.groupOn c t counted else s.laneOn c t counted

/-- The outcome of a uniform word that is taken up again; none where it has to wait. -/
def State.uniOn (s : State) (c : Nat) (t : Stall) : UniOut → Option State
  | .ok s _ => some (s.groupOn c t false)
  | .park s q => some (if q == .fault t.handler then s else s.modGrp c t.slot fun g =>
      { g.rePark t.park q with usw := g.usw || (t.sw && q.once && g.ucount != 0) })
  | .trap u => some (s.trapParked c t.slot t.park u)
  | .wait | .full => none

/-- Whether an access takes a place in an outstanding count (R70). -/
def MemAct.counted : MemAct → Bool
  | .load _ _ | .cas _ _ _ _ | .result _ => true
  | .atom _ _ _ _ r => r
  | _ => false

/-- A registration that a fault had stopped (R152, R177): decided, entered with its thread or group parked on the watch, held
back, or faulting again. -/
def State.registeredOn (_s : State) (c : Nat) (t : Stall) (pd : Nat) (again : State → Nat → State) : Registered → Option State
  | .decided s b =>
    some ((if t.uni then s.modGrp c t.slot fun g => g.setQ pd b
      else s.modThr c t.slot t.lane fun u => u.setPred pd b).stallOn c t false)
  | .entered s n =>
    some (if t.uni then s.modGrp c t.slot fun g => { g.rePark t.park (.watch n) with usw := g.usw || (t.sw && g.ucount != 0) }
      else s.modThr c t.slot t.lane fun u =>
        { u with wait := .watch n, pc := t.pc + 4 * t.words, sw := u.sw || (t.sw && u.count != 0) })
  | .fault s k => some (again s k)
  | .held => none

/-- The stopped access replayed; none where an earlier access still holds it back (R129). -/
def State.replay (s : State) (c : Nat) (t : Stall) : Option State :=
  let p := t.part c
  let stall (s : State) (ptr k : Nat) : State :=
    if t.uni then s.groupFault p ptr k t.sw t.act else s.parkFault p t.lane ptr k t.sw t.act
  let s := s.dropStall c t
  match t.act with
  | .access r act order scope => some (match s.issueAccess p t.lanes t.uni r act order scope with
    | (s, some f) => stall s f.2 f.1
    | (s, none) => s.stallOn c t act.counted)
  | .watch r cond w64 operand timeout pd order scope =>
    s.registeredOn c t pd (fun s k => stall s r.ea k)
      (s.registerOn p t.lanes (if t.uni then .group c t.slot else .thread c t.slot t.lane) cond w64 operand timeout pd order scope r)
  | .texture req vd =>
    match s.texWords c (s.launchOf c t.slot).ctx req with
    | .ok ws reads => if s.unitMeets c t.slot t.lanes reads then none else
      some (((s.afterUnit c t.slot t.lanes reads).issueUnit p t.lane (.result (putWords vd ws))).laneOn c t true)
    | .fault ptr k => some (s.parkFault p t.lane ptr k t.sw t.act)
    | .trap a => some ((s.clearWaits c t.slot [t.lane]).takeTrap c t.slot t.lanes t.pc false { spaceTrap a with lane := t.lane })
  | .ray op => match (s.core c).flight.find? fun o => o.id == op with
    | some o => some ((s.modThr c t.slot t.lane fun u => { u with wait := .unit o.inst }).rayStep c o)
    | none => some s
  | .record w ptr => s.uniOn c t (match w with
    | .launch qd => s.launchGo p t.sw qd ptr
    | .launchw => s.launchwGo p t.sw ptr
    | .taskq qd => s.taskqGo p t.sw qd ptr)

/-! ### Answers -/

/-- The stall of a thread, or of a group's uniform word. -/
def Core.stallOf (x : Core) (g : Nat) (uni handler : Bool) (lanes : Nat) : Option Stall :=
  x.stalls.find? fun t => t.slot == g && t.uni == uni && t.handler == handler && (uni || t.lanes == lanes)

/-- Lanes of a mask that wait for an answer. -/
def State.faulted (s : State) (c g m : Nat) : List Nat := (maskList m 64).filter fun l => (s.thr c g l).wait == .fault

/-- Threads whose fetch faulted are ready at their word again; a handler fetches its word anew (R148). -/
def State.retryFetch (s : State) (c g m : Nat) (handler : Bool) : State :=
  if handler then s.wakeGrp c g (· == .fault true)
  else
    let ls := s.faulted c g m
    (s.clearWaits c g ls).release c g (listMask ls)

/-- Copies through the device's own peer number that wait on a pointer. -/
def State.stuckCopies (s : State) (ptr : Nat) : List Nat := (s.copies.filter fun e => e.2.used && e.2.stuck == some ptr).map (·.1)

/-- Accesses of the device to its own peer number that wait on a pointer (R243, R384). -/
def State.retryOwn (s : State) (ptr : Nat) : State :=
  let s := (s.stuckCopies ptr).foldl (fun s n => s.modCopy n fun k => { k with stuck := none }) s
  s.cores.foldl (fun s e => e.2.flight.foldl (fun s o =>
    if !o.stuck || o.ea != ptr then s else
    let put (s : State) (f : MemOp → MemOp) : State := s.modCore e.1 fun x =>
      Core.settle { x with flight := x.flight.map fun y => if y.id = o.id then f y else y }
    match s.ownRemote o.ctx o.act.need o.vas with
    | none => put s fun y => { y with stuck := false, dead := true }
    | some (.inr l) => put s fun y => { y with stuck := false, pieces := l, own := true }
    | some (.inl (ctx, k)) => s.postFault ctx o.ea k (.strait s.peerNum)) s) s

/-- The resolver's fail makes them fail (R385). -/
def State.failOwn (s : State) (ptr : Nat) : State :=
  let s := (s.stuckCopies ptr).foldl State.failCopy s
  { s with cores := s.cores.map fun e => (e.1, { e.2 with flight := e.2.flight.map fun o =>
      if o.stuck && o.ea == ptr then { o with stuck := false, dead := true } else o }) }

/-- Retry: the agent goes on and walks the tables again (R380); none where its replay has to wait. -/
def State.retryFault (s : State) (f : FaultRec) : Option State :=
  let replay (c g : Nat) (uni h : Bool) (lanes : Nat) : Option State :=
    match (s.core c).stallOf g uni h lanes with
    | some t => s.replay c t
    | none => some s
  match f.agent with
  | .thread c g l | .traversal c g l => replay c g false false (2 ^ l)
  | .group c g m h => replay c g true h m
  | .fetch c g m h => some (s.retryFetch c g m h)
  | .strait n =>
    if n = s.peerNum then some (s.retryOwn f.ptr)
    else if (s.remotesAt n f.ptr).take 1 |>.any s.remoteHeld then none
    else some (s.retryRemote n f.ptr)
  | .ferry _ | .spill _ => some s

/-- The trap of a stalled thread (R129): its access is dropped, and the other threads of a traversal go on. -/
def State.failLane (s : State) (c g l : Nat) (t : Trap) : State :=
  if (s.thr c g l).wait != .fault then s else
  let s0 := s.undoIssue c g [l] []
  let (s2, inst) : State × Option Nat := match (s.core c).stallOf g false false (2 ^ l) with
    | some t => match t.act with
      | .ray op =>
        (((s.undoIssue c g [l] [l]).dropStall c t).modCore c fun x => { x with flight := x.flight.filter fun o => o.id != op },
          ((s.core c).flight.find? fun o => o.id == op).map (·.inst))
      | _ => (s0.dropStall c t, none)
    | none => (s0, none)
  let s3 := s2.takeTrap c g (2 ^ l) (s.thr c g l).pc false t
  match inst with
  | some i => if (s3.grp c g).used then s3.rayFinish c g i else s3
  | none => s3

/-- Fail: the trap of an unresolvable translation, or the launch's end; a stopped copy; a refused remote access (R129,
R148, R210, R385). -/
def State.failFault (s : State) (f : FaultRec) : State :=
  let trap (lane : Nat) : Trap := { cause := 0x0A, tval := f.ptr, lane := lane }
  match f.agent with
  | .thread c g l | .traversal c g l => s.failLane c g l (trap l)
  | .fetch c g m h =>
    if h then s.trapParked c g (· == .fault true) (trap 0) else
    (match s.faulted c g m with
     | [] => s
     | l :: ls => (s.clearWaits c g (l :: ls)).takeTrap c g (listMask (l :: ls)) (s.thr c g l).pc false (trap l))
  | .group c g m h =>
    let s := match (s.core c).stallOf g true h m with
      | some t => s.dropStall c t
      | none => s
    if (s.grp c g).parkedBy (· == .fault h) then s.trapParked c g (· == .fault h) (trap 0) else s
  | .ferry n => s.modCopy n fun k => { k with status := k.status ||| 16 }
  | .spill _ => s
  | .strait n => if n = s.peerNum then s.failOwn f.ptr else { s.dropRemote n f.ptr with answer := [] }

/-- Waiting agents of a context take the places that have become free in its fault queue, in order (R379). -/
def State.postWaiting (s : State) (ctx : Nat) : State :=
  match s.faults.find? (fun f => f.ctx == ctx && f.index.isNone) with
  | some f =>
    if s.unanswered ctx < s.faultSlots ctx then
      let i := s.ctxNat ctx 0x58 8
      let rest := s.faults.filter fun x => x != f
      { s.writeFault f with faults := rest ++ [{ f with index := some i }] }
    else s
  | none => s

/-- The thread or group of a workgroup that halts for its save (R368). -/
def State.agentHalts (s : State) : FaultAgent → Bool
  | .thread c g _ | .traversal c g _ | .group c g _ _ | .fetch c g _ _ => (s.grp c g).halted
  | _ => false

/-- An answer to a workgroup that halts for its save: the access is not performed, and its thread or group stands at the word, to execute
it again after the restore (R368). -/
def State.giveUp (s : State) : FaultAgent → State
  | .thread c g l | .traversal c g l => match (s.core c).stallOf g false false (2 ^ l) with
    | none => s
    | some t => match t.act with
      | .ray op =>
        let inst := ((s.core c).flight.find? fun o => o.id == op).map (·.inst)
        let s := (((s.undoIssue c g [l] [l]).dropStall c t).modCore c fun x => { x with flight := x.flight.filter fun o => o.id != op })
        (match inst with
         | some i => s.rayFinish c g i
         | none => s)
      | _ => (s.undoIssue c g [l] []).dropStall c t
  | .group c g m h => match (s.core c).stallOf g true h m with
    | none => s
    | some t => (s.dropStall c t).wakeGrp c g t.park
  | .fetch c g m h => s.retryFetch c g m h
  | _ => s

/-- The oldest record of a context without an answer. -/
def State.nextFault (s : State) (ctx : Nat) : Option FaultRec :=
  (s.faults.filter fun f => f.ctx == ctx).foldl (fun best f => match best, f.index with
    | none, some _ => some f
    | some b, some i => if i < b.index.getD 0 then some f else some b
    | b, none => b) none

/-- The answer to a record taken: 1 retries, any other fails (R380); an agent that is gone takes none. -/
def State.answerFault (s : State) (f : FaultRec) (r : Nat) : Option State :=
  let s := { s with faults := s.faults.filter fun x => x != f }
  if f.gen != s.agentGen f.agent then some s
  else if s.agentHalts f.agent then some (s.giveUp f.agent)
  else if r = 1 then s.retryFault f else some (s.failFault f)

/-- FAULT_RESPONSE (R380): the oldest record that the new response index covers takes its answer, once its replay need not
wait. -/
def execFaultResponse (ctx : Nat) (s : State) : Result :=
  .next (match s.nextFault ctx with
    | none => s
    | some f =>
      let i := f.index.getD 0
      if s.ctxNat ctx 0x60 8 ≤ i then s else
      match s.answerFault f (Memory.nat s.dev (s.ctxNat ctx 0x40 8 + 32 * (i % s.faultSlots ctx) + 0x18) 4) with
      | some t => t.postWaiting ctx
      | none => s)

end Sys2Proof.Machine
end

