-- ==== Sys2Proof/Machine/TileWords.lean ====
section
/-! DEFINITION. The tile words (R190 to R205): claims, releases and the words that put an operation into the sequencer's
queue. -/

namespace Sys2Proof.Machine

/-- Physical slot bound to a tile name (R31). -/
def Group.slotOf (g : Group) (t : TName) : Option Nat :=
  let n := Tbl.get g.tn t
  if n = 0 then none else some (n - 1)

/-- Physical accumulator tile bound to an accumulator name (R31). -/
def Group.tileOf (g : Group) (a : AName) : Option Nat :=
  let n := Tbl.get g.an a
  if n = 0 then none else some (n - 1)

/-- Units that waiting restores hold on a core: slots or tiles (R63). -/
def State.heldUnits (s : State) (c : Nat) (acc : Bool) : Nat :=
  s.restores.foldl (fun n r => if r.core = some c then n + (if acc then r.tiles else r.slots) else n) 0

/-- The lowest free physical unit that no waiting restore needs (R63, R194). -/
def State.freeUnitOf (s : State) (c : Nat) (acc : Bool) : Option Nat :=
  let x := s.core c
  let free := if acc then (List.range 8).filter fun n => (Tbl.get x.tiles n).owner == 0 && !(Tbl.get x.tiles n).retired
    else (List.range 32).filter fun n => (Tbl.get x.slots n).owner == 0 && !(Tbl.get x.slots n).retired
  if free.length ≤ s.heldUnits c acc then none else free.head?

/-- `TCLAIM` (R194). -/
def execTclaim (sw : Bool) (qd : QReg) (n : NameKind) (s : State) : Result :=
  runUniform sw s fun s p =>
    let g := s.grp p.core p.slot
    let bound := match n with
      | .tile t => (g.slotOf t).isSome
      | .acc a => (g.tileOf a).isSome
    let acc := match n with
      | .tile _ => false
      | .acc _ => true
    if bound then .trap p.inst.illegalOperand else
    match s.freeUnitOf p.core acc with
    | none => .ok (s.modGrp p.core p.slot fun x => x.setQ qd false) p.inst.after
    | some u =>
      let s := s.modCore p.core fun x =>
        if acc then { x with tiles := Tbl.mod x.tiles u fun y => { y with owner := p.slot + 1 } }
        else { x with slots := Tbl.mod x.slots u fun y => { y with owner := p.slot + 1 } }
      .ok (s.modGrp p.core p.slot fun x =>
        let x := match n with
          | .tile t => { x with tn := Tbl.set x.tn t (u + 1) }
          | .acc a => { x with an := Tbl.set x.an a (u + 1) }
        x.setQ qd true) p.inst.after

/-- Entries of the queue in use, and whether one is free (R263). -/
def Core.seqFull (x : Core) : Bool := decide (Config.seqEntries ≤ x.seq.length)

/-- An operation put into the queue for a group, with its class, generation and mode captured at issue (R53, R201, R263). -/
def State.enqueue (s : State) (p : Part) (act : TileAct) : State :=
  let L := s.launchOf p.core p.slot
  let op (x : Core) : TileOp := {
    id := x.nextOp, slot := p.slot, gen := s.genOf p.core p.slot, wg := (s.grp p.core p.slot).wg, lanes := p.lanes,
    cls := L.cls, act := act, redundant := L.lr.redundant, staleTrap := L.lr.staleTrap, since := s.power.ticks }
  let s := s.modCore p.core fun x => { x with seq := x.seq ++ [op x], nextOp := x.nextOp + 1 }
  if act.counted then s.countUpU p.core p.slot else s

/-- `TRELEASE`: the name is unbound at once, the unit freed in its turn (R195). -/
def execTrelease (sw : Bool) (n : NameKind) (s : State) : Result :=
  runUniform sw s fun s p =>
    let g := s.grp p.core p.slot
    let unit : Option (Bool × Nat) := match n with
      | .tile t => (g.slotOf t).map fun u => (false, u)
      | .acc a => (g.tileOf a).map fun u => (true, u)
    match unit with
    | none => .trap p.inst.illegalOperand
    | some u =>
      if (s.core p.core).seqFull then .park s .sequencer else
      let s := s.modGrp p.core p.slot fun x => match n with
        | .tile t => { x with tn := Tbl.set x.tn t 0 }
        | .acc a => { x with an := Tbl.set x.an a 0 }
      .ok ((s.enqueue p (.free u.1 u.2)).startPorts p.core) p.inst.after

/-- What a tile word asks for, once its names are bound: its checks and its operation. -/
structure TileWord where
  /-- uniform registers read: first and count -/
  regs : List (Nat × Nat) := []
  /-- vector registers written: first and count -/
  vecs : List (Nat × Nat) := []
  /-- scratchpad offset, stride and the offset of the byte after the last one touched -/
  span : Option (Nat × Nat × Nat) := none
  /-- stale checks in the order of their classes: slots and tiles by physical unit and name (R53) -/
  slots : List (Nat × Nat) := []
  tiles : List (Nat × Nat) := []
  /-- acquire and release flags (R193) -/
  acq : Bool := false
  rel : Bool := false
  act : TileAct
  deriving Inhabited

/-- The scratchpad checks of R193. -/
def spanTrap (scrLen : Nat) : Option (Nat × Nat × Nat) → Option Trap
  | none => none
  | some (off, stride, last) =>
    let ptr := 2 * 2 ^ 60 + off
    if scrLen < last then some (spaceTrap ptr)
    else if off % 32 ≠ 0 ∨ stride % 32 ≠ 0 then some { cause := 0x07, tval := ptr } else none

/-- The stale-read trap of a tile word: the lowest-numbered stale unit, slots first (R52, R53). -/
def State.staleUnit (s : State) (p : Part) (w : TileWord) : Option Trap :=
  let gen := s.genOf p.core p.slot
  let x := s.core p.core
  if !(s.launchOf p.core p.slot).lr.staleTrap then none else
  let bad (cls : Nat) (tag : Nat → Gen) (l : List (Nat × Nat)) : Option Trap :=
    match l.filter fun u => tag u.1 != gen with
    | [] => none
    | u :: t =>
      let m := t.foldl (fun a b => if b.2 < a.2 then b else a) u
      some { cause := 0x06, tval := cls * 2 ^ 56 + (tag m.1).toNat * 2 ^ 40 + m.2 }
  match bad 2 (fun n => (Tbl.get x.slots n).tag) w.slots with
  | some t => some t
  | none => bad 3 (fun n => (Tbl.get x.tiles n).tag) w.tiles

/-- All the checks of a tile word in the ranking of R44. -/
def State.tileTrap (s : State) (p : Part) (w : TileWord) : Option Trap :=
  match (s.grp p.core p.slot).bounds (w.vecs.map (fun r => (true, r.1, r.2)) ++ w.regs.map fun r => (false, r.1, r.2)) with
  | some t => some t
  | none => match spanTrap (s.wgOf p.core p.slot).scrLen w.span with
    | some t => some t
    | none => s.staleUnit p w

/-- The release fence that `.rel` leaves behind the drain just queued, for the uniform accesses of its threads too (R165,
R193). -/
def State.drainFence (s : State) (p : Part) (id : Nat) : State :=
  s.issueOp p.core {
    id := 0, inst := s.tick, slot := p.slot, lanes := p.lanes, uni := true, gen := s.genOf p.core p.slot,
    ctx := (s.launchOf p.core p.slot).ctx, place := .device, pieces := [], vas := [], ea := id + 1,
    ogen := 0, l1 := false, act := .fence, order := .rel, scope := .atoll, cover := none, pc := p.inst.pc,
    launch := (s.wgOf p.core p.slot).launch }

/-- A copy in flight of the threads is still to write scratchpad bytes of a tile operation, or to read bytes that a drain writes: the
operation comes after it (R193, R257). -/
def FerryHold.holdsTile (f : FerryHold) (core slot : Nat) (gen : Gen) (lanes : Nat) (a : TileAct) : Bool :=
  f.slot == slot && f.gen == gen && f.lanes &&& lanes != 0 &&
    ((f.writes.home == .sram core && rangesMeet f.writes.bytes a.bytes) || (f.reads.home == .sram core && rangesMeet f.reads.bytes a.drains))

/-- What a tile word waits for: the earlier scratchpad accesses of its threads where it names scratchpad, a copy's among them, and with
`.acq` all their earlier accesses (R193, R257). -/
def State.tileHeld (s : State) (p : Part) (w : TileWord) : Bool :=
  let x := s.core p.core
  let gen := s.genOf p.core p.slot
  (w.span.isSome && x.flight.any fun y => y.slot == p.slot && y.gen == gen && y.lanes &&& p.lanes != 0 && !y.bound &&
    match y.place with
    | .sram _ => true
    | _ => false) ||
  (x.ferried.any fun f => f.holdsTile p.core p.slot gen p.lanes w.act) ||
  (w.acq && x.pendingAt p.slot gen p.lanes .atoll)

/-- A tile word that puts an operation into the queue (R190 to R193, R204, R263): `f` gives the operation, none where a
name is unbound. In redundant mode a word that reads a check record parks until the sequencer reaches it. -/
def tileWord (sw : Bool) (s : State) (checks : Bool) (f : State → Part → Group → Option TileWord) : Result :=
  runUniform sw s fun s p =>
    let g := s.grp p.core p.slot
    match f s p g with
    | none => .trap p.inst.illegalOperand
    | some w =>
      match s.tileTrap p w with
      | some t => .trap t
      | none =>
        if (s.core p.core).seqFull then .park s .sequencer
        else if w.act.counted && g.ucount == 63 then .full
        else if s.tileHeld p w then .wait
        else
          let ctx := (s.launchOf p.core p.slot).ctx
          let s := if w.acq then s.modCore p.core fun x => x.invalidate ctx none else s
          let id := (s.core p.core).nextOp
          let s := s.enqueue p w.act
          let s := if w.rel then s.drainFence p id else s
          if checks && (s.launchOf p.core p.slot).lr.redundant then .park s (.check id)
          else .ok (s.startPorts p.core) p.inst.after

/-- Offset and stride of `TFILL` and `ADRAIN`, the offset in the array, and the end of the last row (R193). -/
def spanOf (g : Group) (sa : SReg) (rowBytes : Nat) : Nat × Nat × Nat :=
  let off := (g.sreg sa).toNat
  let stride := (g.sreg (sa.val + 1)).toNat
  (off, stride, off + 127 * stride + rowBytes)

/-- `TFILL` (R196). -/
def execTfill (sw : Bool) (fmt : Fmt) (acq : Bool) (t : TName) (sa : SReg) (s : State) : Result :=
  tileWord sw s false fun s p g => (g.slotOf t).map fun u =>
    let sp := spanOf g sa (fillRowBytes fmt)
    { regs := [(sa.val, 2)], span := some sp, acq := acq,
      act := .fill u fmt ((s.wgOf p.core p.slot).scrOff + sp.1) sp.2.1 }

/-- `TZERO` (R197). -/
def execTzero (sw : Bool) (t : TName) (s : State) : Result :=
  tileWord sw s false fun _ _ g => (g.slotOf t).map fun u => { act := .zero u }

/-- `MMA` (R198 to R201). -/
def execMma (sw : Bool) (fa fb : Fmt) (ctra ctrb : Bool) (part : Option (Fin 8)) (a : AName) (ta : TName) (oa : Fin 8)
    (tb : TName) (ob : Fin 8) (s : State) : Result :=
  tileWord sw s false fun _ _ g =>
    match g.tileOf a, g.slotOf ta, g.slotOf tb with
    | some c, some x, some y => some {
        slots := [(x, ta.val), (y, tb.val)], tiles := if part.isSome then [] else [(c, a.val)],
        act := .mma c x y fa fb ctra ctrb (part.map (·.val)) oa ob }
    | _, _, _ => none

/-- `ACLR` (R197). -/
def execAclr (sw : Bool) (a : AName) (s : State) : Result :=
  tileWord sw s false fun _ _ g => (g.tileOf a).map fun u => { act := .clear u }

/-- `ASCALE` (R202). -/
def execAscale (sw s32 acq : Bool) (dst src : AName) (sa : SReg) (s : State) : Result :=
  tileWord sw s false fun s p g =>
    let off := (g.sreg sa).toNat
    match g.tileOf dst, g.tileOf src with
    | some d, some r => some {
        regs := [(sa.val, 1)], span := some (off, 0, off + 512), acq := acq, tiles := [(d, dst.val), (r, src.val)],
        act := .scale d r ((s.wgOf p.core p.slot).scrOff + off) s32 }
    | _, _ => none

/-- `ADRAIN` (R203, R204). -/
def execAdrain (sw : Bool) (fmt : Fmt) (mode : Mode) (s32 rel : Bool) (clamp : Option SReg) (a : AName) (sa : SReg)
    (s : State) : Result :=
  tileWord sw s true fun s p g => (g.tileOf a).map fun u =>
    let sp := spanOf g sa (drainRowBytes fmt)
    { regs := (sa.val, 2) :: (clamp.toList.map fun r => (r.val, 1)), span := some sp, rel := rel, tiles := [(u, a.val)],
      act := .drain u fmt mode (clamp.map fun r => g.sreg r.val) s32 rel ((s.wgOf p.core p.slot).scrOff + sp.1) sp.2.1 }

/-- `AREAD` (R204, R205). -/
def execAread (sw : Bool) (vd : VReg) (a : AName) (sa : SReg) (log2n : Fin 4) (s : State) : Result :=
  tileWord sw s true fun _ _ g => (g.tileOf a).map fun u =>
    let n := 2 ^ log2n.val
    { regs := [(sa.val, 1)], vecs := [(vd.val, 2 * n)], tiles := [(u, a.val)],
      act := .read u (g.sreg sa).toNat n vd }

end Sys2Proof.Machine
end

