-- ==== Sys2Proof/Machine/Dispatch.lean ====
section
/-! DEFINITION. The dispatch: one arm for each constructor of `Instr`. -/

namespace Sys2Proof.Machine

/-- The meaning of an instruction or a step of the device. -/
def exec (i : Instr) (s : State) : Host.Outcome State Fault Refusal :=
  match i with
  | .iadd c vd va vb => Sys2Proof.Machine.execIadd c vd va vb s
  | .isub c vd va vb => Sys2Proof.Machine.execIsub c vd va vb s
  | .iaddi c vd va imm => Sys2Proof.Machine.execIaddi c vd va imm s
  | .iadd64 c vd va vb => Sys2Proof.Machine.execIadd64 c vd va vb s
  | .imul c vd va vb => Sys2Proof.Machine.execImul c vd va vb s
  | .imulh c vd va vb => Sys2Proof.Machine.execImulh c vd va vb s
  | .imad c fn vd va vb vc => Sys2Proof.Machine.execImad c fn vd va vb vc s
  | .lea c sgn vd va vb sh off => Sys2Proof.Machine.execLea c sgn vd va vb sh off s
  | .imin c vd va vb => Sys2Proof.Machine.execImin c vd va vb s
  | .imax c vd va vb => Sys2Proof.Machine.execImax c vd va vb s
  | .umin c vd va vb => Sys2Proof.Machine.execUmin c vd va vb s
  | .umax c vd va vb => Sys2Proof.Machine.execUmax c vd va vb s
  | .and c vd va vb => Sys2Proof.Machine.execAnd c vd va vb s
  | .or c vd va vb => Sys2Proof.Machine.execOr c vd va vb s
  | .xor c vd va vb => Sys2Proof.Machine.execXor c vd va vb s
  | .andn c vd va vb => Sys2Proof.Machine.execAndn c vd va vb s
  | .shl c vd va vb => Sys2Proof.Machine.execShl c vd va vb s
  | .shr c vd va vb => Sys2Proof.Machine.execShr c vd va vb s
  | .sar c vd va vb => Sys2Proof.Machine.execSar c vd va vb s
  | .mov c vd va => Sys2Proof.Machine.execMov c vd va s
  | .iun c fn vd va => Sys2Proof.Machine.execIun c fn vd va s
  | .bfx c sgn vd va f => Sys2Proof.Machine.execBfx c sgn vd va f s
  | .bfi c vd va vb f => Sys2Proof.Machine.execBfi c vd va vb f s
  | .icmp c cond pd va vb => Sys2Proof.Machine.execIcmp c cond pd va vb s
  | .sel sw n vd va vb => Sys2Proof.Machine.execSel sw n vd va vb s
  | .movi c vd imm => Sys2Proof.Machine.execMovi c vd imm s
  | .moviImm32 c vd imm => Sys2Proof.Machine.execMoviImm32 c vd imm s
  | .movs c vd sa => Sys2Proof.Machine.execMovs c vd sa s
  | .fadd c vd va vb => Sys2Proof.Machine.execFadd c vd va vb s
  | .fsub c vd va vb => Sys2Proof.Machine.execFsub c vd va vb s
  | .fmul c vd va vb => Sys2Proof.Machine.execFmul c vd va vb s
  | .ffma c vd va vb => Sys2Proof.Machine.execFfma c vd va vb s
  | .ffmax c op ty mode ftz vd va vb vc => Sys2Proof.Machine.execFfmax c op ty mode ftz vd va vb vc s
  | .fdiv c f64 mode ftz vd va vb => Sys2Proof.Machine.execFdiv c f64 mode ftz vd va vb s
  | .fmin c vd va vb => Sys2Proof.Machine.execFmin c vd va vb s
  | .fmax c vd va vb => Sys2Proof.Machine.execFmax c vd va vb s
  | .fcmp c cond pd va vb => Sys2Proof.Machine.execFcmp c cond pd va vb s
  | .funf c fn ftz vd va => Sys2Proof.Machine.execFunf c fn ftz vd va s
  | .hpadd c vd va vb => Sys2Proof.Machine.execHpadd c vd va vb s
  | .hpmul c vd va vb => Sys2Proof.Machine.execHpmul c vd va vb s
  | .hpfma c vd va vb => Sys2Proof.Machine.execHpfma c vd va vb s
  | .cvt c dst src mode ftz clamp vd di va si => Sys2Proof.Machine.execCvt c dst src mode ftz clamp vd di va si s
  | .dadd c vd va vb => Sys2Proof.Machine.execDadd c vd va vb s
  | .dmul c vd va vb => Sys2Proof.Machine.execDmul c vd va vb s
  | .dfma c vd va vb => Sys2Proof.Machine.execDfma c vd va vb s
  | .fdot8 c aE5 bE5 mode vd va vb vc => Sys2Proof.Machine.execFdot8 c aE5 bE5 mode vd va vb vc s
  | .idot4 c aSigned bSigned vd va vb vc => Sys2Proof.Machine.execIdot4 c aSigned bSigned vd va vb vc s
  | .shfl c mode vd va b => Sys2Proof.Machine.execShfl c mode vd va b s
  | .vote c mode vd pd neg ps => Sys2Proof.Machine.execVote c mode vd pd neg ps s
  | .redux c op kind vd va => Sys2Proof.Machine.execRedux c op kind vd va s
  | .ld c form order scope vd va off => Sys2Proof.Machine.execLd c form order scope vd va off s
  | .pref c level va off => Sys2Proof.Machine.execPref c level va off s
  | .st c w order scope va off vb => Sys2Proof.Machine.execSt c w order scope va off vb s
  | .atom c op w64 order scope vd va off vb => Sys2Proof.Machine.execAtom c op w64 order scope vd va off vb s
  | .red c op w64 order scope va off vb => Sys2Proof.Machine.execRed c op w64 order scope va off vb s
  | .acas c w64 order scope vd va off vb vc => Sys2Proof.Machine.execAcas c w64 order scope vd va off vb vc s
  | .visw c order scope va off vb => Sys2Proof.Machine.execVisw c order scope va off vb s
  | .tex c lod vd va vb vc => Sys2Proof.Machine.execTex c lod vd va vb vc s
  | .tld c vd va vb vc => Sys2Proof.Machine.execTld c vd va vb vc s
  | .rayq c anyHit cull vd va vb => Sys2Proof.Machine.execRayq c anyHit cull vd va vb s
  | .rayn c cull vd va vb => Sys2Proof.Machine.execRayn c cull vd va vb s
  | .bra c off => Sys2Proof.Machine.execBra c off s
  | .call c vd off => Sys2Proof.Machine.execCall c vd off s
  | .ret c va => Sys2Proof.Machine.execRet c va s
  | .exit c => Sys2Proof.Machine.execExit c s
  | .yield c => Sys2Proof.Machine.execYield c s
  | .brx c va => Sys2Proof.Machine.execBrx c va s
  | .fence c order scope => Sys2Proof.Machine.execFence c order scope s
  | .kset c k neg pp => Sys2Proof.Machine.execKset c k neg pp s
  | .karr c k => Sys2Proof.Machine.execKarr c k s
  | .kwait c k => Sys2Proof.Machine.execKwait c k s
  | .kleave c k => Sys2Proof.Machine.execKleave c k s
  | .waitu c cond w64 order scope pd va vb vc => Sys2Proof.Machine.execWaitu c cond w64 order scope pd va vb vc s
  | .bar c b remote cnt => Sys2Proof.Machine.execBar c b remote cnt s
  | .bara c b remote cnt => Sys2Proof.Machine.execBara c b remote cnt s
  | .barw c b remote cnt => Sys2Proof.Machine.execBarw c b remote cnt s
  | .sadd sw sd sa sb => Sys2Proof.Machine.execSadd sw sd sa sb s
  | .ssub sw sd sa sb => Sys2Proof.Machine.execSsub sw sd sa sb s
  | .smul sw sd sa sb => Sys2Proof.Machine.execSmul sw sd sa sb s
  | .sand sw sd sa sb => Sys2Proof.Machine.execSand sw sd sa sb s
  | .sor sw sd sa sb => Sys2Proof.Machine.execSor sw sd sa sb s
  | .sxor sw sd sa sb => Sys2Proof.Machine.execSxor sw sd sa sb s
  | .sshl sw sd sa sb => Sys2Proof.Machine.execSshl sw sd sa sb s
  | .sshr sw sd sa sb => Sys2Proof.Machine.execSshr sw sd sa sb s
  | .ssar sw sd sa sb => Sys2Proof.Machine.execSsar sw sd sa sb s
  | .smin sw sd sa sb => Sys2Proof.Machine.execSmin sw sd sa sb s
  | .smax sw sd sa sb => Sys2Proof.Machine.execSmax sw sd sa sb s
  | .sumin sw sd sa sb => Sys2Proof.Machine.execSumin sw sd sa sb s
  | .sumax sw sd sa sb => Sys2Proof.Machine.execSumax sw sd sa sb s
  | .smov sw sd sa => Sys2Proof.Machine.execSmov sw sd sa s
  | .smovi sw sd imm => Sys2Proof.Machine.execSmovi sw sd imm s
  | .smovx sw w64 sd imm => Sys2Proof.Machine.execSmovx sw w64 sd imm s
  | .sadd64 sw sd sa sb => Sys2Proof.Machine.execSadd64 sw sd sa sb s
  | .scmp sw cond w64 qd sa sb => Sys2Proof.Machine.execScmp sw cond w64 qd sa sb s
  | .ssel sw q sd sa sb => Sys2Proof.Machine.execSsel sw q sd sa sb s
  | .sun sw fn sd sa => Sys2Proof.Machine.execSun sw fn sd sa s
  | .sbra sw neg q off => Sys2Proof.Machine.execSbra sw neg q off s
  | .sld sw w order scope sd sa off => Sys2Proof.Machine.execSld sw w order scope sd sa off s
  | .sst sw w order scope sa off sb => Sys2Proof.Machine.execSst sw w order scope sa off sb s
  | .satom sw op w64 nr order scope sd sa off sb => Sys2Proof.Machine.execSatom sw op w64 nr order scope sd sa off sb s
  | .csrr sw r width word sd sx => Sys2Proof.Machine.execCsrr sw r width word sd sx s
  | .csrw sw r width word sx sa => Sys2Proof.Machine.execCsrw sw r width word sx sa s
  | .time sw sel sd => Sys2Proof.Machine.execTime sw sel sd s
  | .sleep sw absolute sa => Sys2Proof.Machine.execSleep sw absolute sa s
  | .waits sw cond w64 order scope qd sa sb st => Sys2Proof.Machine.execWaits sw cond w64 order scope qd sa sb st s
  | .attach sw e sa n => Sys2Proof.Machine.execAttach sw e sa n s
  | .detach sw e => Sys2Proof.Machine.execDetach sw e s
  | .replay sw off => Sys2Proof.Machine.execReplay sw off s
  | .launch sw qd sa => Sys2Proof.Machine.execLaunch sw qd sa s
  | .launchw sw sa => Sys2Proof.Machine.execLaunchw sw sa s
  | .taskq sw qd sa => Sys2Proof.Machine.execTaskq sw qd sa s
  | .trap sw imm => Sys2Proof.Machine.execTrap sw imm s
  | .tret sw => Sys2Proof.Machine.execTret sw s
  | .genr sw cls sd sa => Sys2Proof.Machine.execGenr sw cls sd sa s
  | .brk sw imm => Sys2Proof.Machine.execBrk sw imm s
  | .tclaim sw qd n => Sys2Proof.Machine.execTclaim sw qd n s
  | .trelease sw n => Sys2Proof.Machine.execTrelease sw n s
  | .tfill sw fmt acq t sa => Sys2Proof.Machine.execTfill sw fmt acq t sa s
  | .tzero sw t => Sys2Proof.Machine.execTzero sw t s
  | .mma sw fa fb ctra ctrb part a ta oa tb ob => Sys2Proof.Machine.execMma sw fa fb ctra ctrb part a ta oa tb ob s
  | .aclr sw a => Sys2Proof.Machine.execAclr sw a s
  | .ascale sw s32 acq dst src sa => Sys2Proof.Machine.execAscale sw s32 acq dst src sa s
  | .adrain sw fmt mode s32 rel clamp a sa => Sys2Proof.Machine.execAdrain sw fmt mode s32 rel clamp a sa s
  | .aread sw vd a sa log2n => Sys2Proof.Machine.execAread sw vd a sa log2n s
  | .cpy sw sd sa => Sys2Proof.Machine.execCpy sw sd sa s
  | .cpyw sw sd sa h => Sys2Proof.Machine.execCpyw sw sd sa h s
  | .hclaim sw h sa => Sys2Proof.Machine.execHclaim sw h sa s
  | .hfull sw scope h => Sys2Proof.Machine.execHfull sw scope h s
  | .hdrain sw h => Sys2Proof.Machine.execHdrain sw h s
  | .hfree sw h => Sys2Proof.Machine.execHfree sw h s
  | .hret sw h => Sys2Proof.Machine.execHret sw h s
  | .hrel sw h => Sys2Proof.Machine.execHrel sw h s
  | .hwait sw free sd h => Sys2Proof.Machine.execHwait sw free sd h s
  | .variableLatencyCompletion core op => Sys2Proof.Machine.execVariableLatencyCompletion core op s
  | .workgroupPlacement launch => Sys2Proof.Machine.execWorkgroupPlacement launch s
  | .cohortEntryAgeing core entry => Sys2Proof.Machine.execCohortEntryAgeing core entry s
  | .workgroupRetirement core wg => Sys2Proof.Machine.execWorkgroupRetirement core wg s
  | .sleepWake core slot => Sys2Proof.Machine.execSleepWake core slot s
  | .scrubberSweep core => Sys2Proof.Machine.execScrubberSweep core s
  | .scratchpadShareWrite core value => Sys2Proof.Machine.execScratchpadShareWrite core value s
  | .scratchpadStepMove core => Sys2Proof.Machine.execScratchpadStepMove core s
  | .storePlacement core op => Sys2Proof.Machine.execStorePlacement core op s
  | .watchExpiry watch => Sys2Proof.Machine.execWatchExpiry watch s
  | .watchOutcomeArrival msg => Sys2Proof.Machine.execWatchOutcomeArrival msg s
  | .deferredRegistration watch => Sys2Proof.Machine.execDeferredRegistration watch s
  | .spillWalk slice => Sys2Proof.Machine.execSpillWalk slice s
  | .faultResponse ctx => Sys2Proof.Machine.execFaultResponse ctx s
  | .tileChunkCompletion core port => Sys2Proof.Machine.execTileChunkCompletion core port s
  | .copyAcceptance copy => Sys2Proof.Machine.execCopyAcceptance copy s
  | .ferryDestinationDelivery copy dest => Sys2Proof.Machine.execFerryDestinationDelivery copy dest s
  | .copyCompletion copy dest => Sys2Proof.Machine.execCopyCompletion copy dest s
  | .launchwEntryTaken core => Sys2Proof.Machine.execLaunchwEntryTaken core s
  | .pendingLaunchDispatch core => Sys2Proof.Machine.execPendingLaunchDispatch core s
  | .queueReady q => Sys2Proof.Machine.execQueueReady q s
  | .queueSlotBind slot => Sys2Proof.Machine.execQueueSlotBind slot s
  | .slotTimeSliceExpiry slot => Sys2Proof.Machine.execSlotTimeSliceExpiry slot s
  | .queueDispatch slot => Sys2Proof.Machine.execQueueDispatch slot s
  | .launchEnd launch => Sys2Proof.Machine.execLaunchEnd launch s
  | .taskStart atoll => Sys2Proof.Machine.execTaskStart atoll s
  | .successorDecrement n => Sys2Proof.Machine.execSuccessorDecrement n s
  | .preemption launch => Sys2Proof.Machine.execPreemption launch s
  | .workgroupSave core wg => Sys2Proof.Machine.execWorkgroupSave core wg s
  | .workgroupRestore ctx entry => Sys2Proof.Machine.execWorkgroupRestore ctx entry s
  | .swapOut ctx => Sys2Proof.Machine.execSwapOut ctx s
  | .swapOutComplete ctx => Sys2Proof.Machine.execSwapOutComplete ctx s
  | .contextRestore ctx => Sys2Proof.Machine.execContextRestore ctx s
  | .contextRestoreComplete ctx => Sys2Proof.Machine.execContextRestoreComplete ctx s
  | .contextDestroy ctx => Sys2Proof.Machine.execContextDestroy ctx s
  | .endLaunches ctx => Sys2Proof.Machine.execEndLaunches ctx s
  | .invalidate ctx => Sys2Proof.Machine.execInvalidate ctx s
  | .invalidateComplete => Sys2Proof.Machine.execInvalidateComplete s
  | .meshSlotBinning chain => Sys2Proof.Machine.execMeshSlotBinning chain s
  | .binsClose chain => Sys2Proof.Machine.execBinsClose chain s
  | .binWorkgroupPlacement chain => Sys2Proof.Machine.execBinWorkgroupPlacement chain s
  | .upscaleJobPlacement chain => Sys2Proof.Machine.execUpscaleJobPlacement chain s
  | .consumerStripStart chain => Sys2Proof.Machine.execConsumerStripStart chain s
  | .consumerLineSend chain => Sys2Proof.Machine.execConsumerLineSend chain s
  | .encoderTileGroup chain => Sys2Proof.Machine.execEncoderTileGroup chain s
  | .narrowsZeroing unit => Sys2Proof.Machine.execNarrowsZeroing unit s
  | .chainStart chain => Sys2Proof.Machine.execChainStart chain s
  | .chainStop chain => Sys2Proof.Machine.execChainStop chain s
  | .chainRelease chain => Sys2Proof.Machine.execChainRelease chain s
  | .ptpSync domain source seq twoStep => Sys2Proof.Machine.execPtpSync domain source seq twoStep s
  | .ptpFollowUp domain source seq t1 => Sys2Proof.Machine.execPtpFollowUp domain source seq t1 s
  | .ptpDelayResp domain source seq t4 => Sys2Proof.Machine.execPtpDelayResp domain source seq t4 s
  | .ptpAnnounce domain source => Sys2Proof.Machine.execPtpAnnounce domain source s
  | .ptpIgnoredMessage => Sys2Proof.Machine.execPtpIgnoredMessage s
  | .hostWrite addr data => Sys2Proof.Machine.execHostWrite addr data s
  | .hostRead addr len => Sys2Proof.Machine.execHostRead addr len s
  | .remoteAccess source port pod va req => Sys2Proof.Machine.execRemoteAccess source port pod va req s
  | .remoteAccessTimeout core op => Sys2Proof.Machine.execRemoteAccessTimeout core op s
  | .straitLinkTraining port duplicate => Sys2Proof.Machine.execStraitLinkTraining port duplicate s
  | .laneRetrain port lane => Sys2Proof.Machine.execLaneRetrain port lane s
  | .laneRetirement port lane => Sys2Proof.Machine.execLaneRetirement port lane s
  | .errorRetry cls unit addr retryOk => Sys2Proof.Machine.execErrorRetry cls unit addr retryOk s
  | .clockStep power temp => Sys2Proof.Machine.execClockStep power temp s
  | .thermalStop temp => Sys2Proof.Machine.execThermalStop temp s
  | .thermalResume temp => Sys2Proof.Machine.execThermalResume temp s
  | .periodicSample power temp => Sys2Proof.Machine.execPeriodicSample power temp s
  | .observationControlWrite unit value => Sys2Proof.Machine.execObservationControlWrite unit value s
  | .l2QuotaWrite cls value => Sys2Proof.Machine.execL2QuotaWrite cls value s
  | .peerNumberWrite value => Sys2Proof.Machine.execPeerNumberWrite value s
  | .portConfigWrite port value => Sys2Proof.Machine.execPortConfigWrite port value s
  | .displayportConfigWrite out word value => Sys2Proof.Machine.execDisplayportConfigWrite out word value s
  | .injectionEntryWrite entry value => Sys2Proof.Machine.execInjectionEntryWrite entry value s
  | .attestationRequest => Sys2Proof.Machine.execAttestationRequest s
  | .attestationReport => Sys2Proof.Machine.execAttestationReport s
  | .debugClaim claim tag => Sys2Proof.Machine.execDebugClaim claim tag s
  | .debugResume core slot => Sys2Proof.Machine.execDebugResume core slot s
  | .debugRead => Sys2Proof.Machine.execDebugRead s
  | .debugWrite => Sys2Proof.Machine.execDebugWrite s
  | .configWrite offset size value => Sys2Proof.Machine.execConfigWrite offset size value s
  | .powerOn image => Sys2Proof.Machine.execPowerOn image s
  | .i3cRead what => Sys2Proof.Machine.execI3cRead what s
  | .jtagBypass => Sys2Proof.Machine.execJtagBypass s
  | .jtagIdcode => Sys2Proof.Machine.execJtagIdcode s
  | .jtagSamplePreload => Sys2Proof.Machine.execJtagSamplePreload s
  | .jtagExtest => Sys2Proof.Machine.execJtagExtest s
  | .cpywPromiseReached core slot => Sys2Proof.Machine.execCpywPromiseReached core slot s
  | .illegalInstructionWord w => Sys2Proof.Machine.execIllegalInstructionWord w s
  | .remoteWriteAcknowledged core op => Sys2Proof.Machine.execRemoteWriteAcknowledged core op s

end Sys2Proof.Machine
end

