-- ==== Sys2Proof/Machine/Turn.lean ====
section
/-! DEFINITION. The order of acts within one cycle (R64, R157, R217, R247, R329, R356), the start of a turn, and what it runs. -/

namespace Sys2Proof.Machine

/-! ### The places of acts -/

/-- The orders that the manual gives acts of one cycle: those at coherence points and on handles, those of arrivals at barriers, and
the accesses of the debugger. -/
inductive OrderKind where
  | memory | barrier | debugger
  deriving DecidableEq, Repr, Inhabited

/-- The number under which `State.phase` keeps an order. -/
def OrderKind.key : OrderKind → Nat
  | .memory => 0 | .barrier => 1 | .debugger => 2

/-- A place in one of the orders of a cycle. -/
abbrev CyclePlace := OrderKind × Nat

/-- The place of an access of a core in a cycle: at a home slice and in its own array by core number, over its own Strait port, in
a bank of the Narrows after the ferries, in another core's array after that core's ferry port (R247). -/
def State.opPlace (s : State) (c id : Nat) : Option CyclePlace :=
  match (s.core c).flight.find? fun o => o.id == id with
  | none => none
  | some o => match o.place with
    | .device => some (.memory, 1000 + c)
    | .sram k => some (.memory, if k = c then 1000 + c else 5000 + c)
    | .narrows => some (.memory, 4000 + c)
    | .peer _ => if o.own then o.ports.head?.map fun p => (.memory, 3040 + p) else none
    | .host => none

/-- The place of a chain's consumer: ports, encoders, outputs, compute (R356). -/
def State.consumerPlace (s : State) (c : Nat) : CyclePlace :=
  let x := s.chain c
  (.memory, 6000 + (match x.field 0x2A 1 with
    | 0 => 0 | 1 => 100 | 3 => 200 | _ => 300) + x.field 0x2B 1 % 100)

/-- The place of actions of the slot table other than a consumer's: after the ferries, before words on handles (R217). -/
def slotTablePlace : CyclePlace := (.memory, 6500)

/-- The place of arrivals at barriers: those of a barrier's own core first, by group slot, then by core and slot (R157). An instance
of which some threads arrive at their own core's barrier and others elsewhere has no single place. -/
def State.arrivalPlace (s : State) (i : Inst) (guard : Nat) (remote : Option VReg) : Option CyclePlace :=
  let slot := (i.parts.headD (0, 0)).1
  let own (p : Nat × Nat) (l : Nat) : Bool := match remote with
    | none => true
    | some va => (s.rdV i.core p.1 va l).toNat == atollCore i.core
  let arrivals := i.parts.flatMap fun p => (maskList ((s.grp i.core p.1).guarded guard p.2) 64).map (own p)
  if arrivals.all id then some (.barrier, slot)
  else if arrivals.all (!·) then some (.barrier, 1000 + Config.groupSlots * i.core + slot)
  else none

/-- Handle words and `CPYW` (R205, R213, R216). -/
def isHandleWord (w : Nat) : Bool := w.testBit 31 && decide (0x31 ≤ w / 2 ^ 24 % 64) && decide (w / 2 ^ 24 % 64 ≤ 0x39)

/-- The place of an instance at its issue: arrivals at barriers (R157), words that read or register at a home slice as they issue
(R247), and words on handles, which come last, in ascending group slot (R217). -/
def State.instPlace (s : State) (i : Inst) : Option CyclePlace :=
  if isHandleWord i.word then some (.memory, 7000 + (i.parts.headD (0, 0)).1) else
  match decodeWords i.word i.trailer with
  | .ok (.bar k _ remote _) | .ok (.bara k _ remote _) => s.arrivalPlace i k.g.val remote
  | .ok (.tex ..) | .ok (.tld ..) | .ok (.waitu ..) | .ok (.waits ..) | .ok (.launch ..) | .ok (.launchw ..) | .ok (.taskq ..) =>
    some (.memory, 1000 + i.core)
  | _ => none

/-- The place of an instance once its word is fetched; none where the fetch faults. -/
def State.issuePlace (s : State) (core pc : Nat) (parts : List (Nat × Nat)) (f : Except (Nat × Nat) (Nat × Nat × Nat)) :
    Option CyclePlace :=
  match f with
  | .ok (w, t, n) => s.instPlace { core := core, pc := pc, num := 0, parts := parts, word := w, trailer := t, words := n }
  | .error _ => none

/-- The place of an event of the device: at its coherence point by core, ferry or port (R247, R329), among a handle's events (R217),
or after all else that touches a unit (R64). -/
def State.eventPlace (s : State) : Instr → Option CyclePlace
  | .variableLatencyCompletion c id | .storePlacement c id => s.opPlace c id
  | .launchwEntryTaken c => some (.memory, 1000 + c)
  | .deferredRegistration n => match (Tbl.get s.watches n).waiter with
    | .thread c _ _ | .group c _ => some (.memory, 1000 + c)
    | _ => none
  | .successorDecrement n => s.decrements[n]?.map fun d => (.memory, 1000 + d.core)
  | .tileChunkCompletion c _ => some (.memory, 2000 + c)
  | .copyAcceptance n =>
    let k := s.copy n
    some (.memory, 3000 + s.ferryOf k (k.refused (s.handle k.core k.h)))
  | .ferryDestinationDelivery n _ | .copyCompletion n _ => some (.memory, 3000 + (s.copy n).ferry)
  | .remoteAccess _ port _ _ _ => some (.memory, 3040 + port)
  | .hostWrite _ _ | .hostRead _ _ => some (.memory, 3070)
  | .spillWalk _ => some (.memory, 3080)
  | .consumerStripStart c | .consumerLineSend c | .encoderTileGroup c => some (s.consumerPlace c)
  | .meshSlotBinning _ => some slotTablePlace
  | .launchEnd l => if (s.launch l).chain = 0 then none else some slotTablePlace
  | .workgroupRetirement c w => (s.wg c w).stage.map fun _ => slotTablePlace
  | .cpywPromiseReached _ g => some (.memory, 7000 + g)
  | .debugRead | .debugWrite => some (.debugger, 1)
  | .configWrite off _ _ => if off = 0xC120 then some (.debugger, 1) else none
  | _ => none

/-- The place of an act among those of one cycle, none where no rule gives one (notes/assumptions/1.md). -/
def State.rank (s : State) : Act → Option CyclePlace
  | .issue c pipe => (s.pickEntry c pipe).bind fun e =>
      s.issuePlace c e.pc e.parts (s.fetchInst c ((s.core c).launchNumbered e.num) e.pc)
  | .handler c g => (s.grp c g).handler.bind fun h => s.issuePlace c h.pc [(g, h.set)] (s.fetchInst c (s.wgOf c g).launch h.pc)
  | .event i => s.eventPlace i

/-- An act comes too late for this cycle: its place has gone by, or the debugger has already had its turn (R64). -/
def State.tooLate (s : State) (r : Option CyclePlace) : Bool :=
  r.any (fun e => decide (e.2 < Tbl.get s.phase e.1.key)) ||
    (Tbl.get s.phase OrderKind.debugger.key != 0 && !(r.any fun e => e.1 == OrderKind.debugger))

/-! ### Turns -/

/-- Clean L2 lines with a failing word are fetched anew from device memory, when the hardware chooses (R392,
notes/assumptions/33.md). -/
def State.refetch (s : State) : State :=
  if s.lent.isEmpty || !s.choose 90 then s else
  { s with
    dev := s.lent.foldl (fun m e => Memory.put m e.1 e.2) s.dev
    lent := []
    zeroed := s.zeroed.filter fun z => !(z.1 == .device && s.lent.any fun e => decide (z.2.1 ≤ e.1) && decide (e.1 < z.2.1 + z.2.2)) }

/-- A line of device memory fills its slice after a miss, of any access: whether one does in this turn, in which slice, and how
long ago it missed are choices of the turn (R398, notes/assumptions/50.md). -/
def State.filled (s : State) : State :=
  if s.choose 72 then s.sample 0x03 (some (s.choice / 2 ^ 73 % Config.slices)) (s.choice / 2 ^ 91 % (s.cyc.toNat + 1) : Nat) else s

/-- The machine at the start of a turn: time has passed, the choices of the turn stand, nothing is in execution. An act whose
place in the cycle has gone by falls into the next cycle. -/
def State.begin (s : State) : State :=
  let t := s.turn
  let b := State.refetch { s with agenda := s.agenda.tail, tick := s.tick + 1, choice := t.choice, inst := none }
  let r := b.rank t.act
  let dt := if t.dt = 0 && s.tooLate r then 1 else t.dt
  let before := if dt = 0 then s.phase else []
  State.filled { b with
    cyc := s.cyc + BitVec.ofNat 64 dt
    phase := match r with
      | some e => Tbl.set before e.1.key e.2
      | none => before
    power := { s.power with ticks := s.power.ticks + dt * s.power.clock } }

/-- A turn up to the instruction or the step of the device that it runs. -/
def State.prepare (s : State) : State × Option Instr :=
  let b := s.begin
  match s.turn.act with
  | .event i => (b, some i)
  | .issue c p => b.issue c p
  | .handler c g => b.handlerIssue c g

end Sys2Proof.Machine
end

