-- ==== Sys2Proof/Machine/Step.lean ====
section
/-! DEFINITION. One step of the machine: one turn. -/

namespace Sys2Proof.Machine

/-- One turn: an instruction of an instance, a handler's word or a step of the device. -/
def step (s : State) : Host.Outcome State Fault Refusal :=
  match s.prepare with
  | (t, none) => .next t
  | (t, some i) => exec i t

/-- The state whose very next step fetches and runs the instruction numbered as the opcode table numbers it: bits above
`nbits` are zero (notes/assumptions/4.md). -/
def State.withFetchWord (s : State) (nbits w : Nat) : State := s.placeWord (w % 2 ^ nbits)

end Sys2Proof.Machine
end

