-- ==== Sys2Proof/Safety.lean ====
section
/-! DEFINITION. The terms in which claims about the machine are made: which state an instruction finds and leaves, what a
word may change, and the invariants of the memories. -/

namespace Sys2Proof.Machine

/-! ### What stays -/

/-- Nothing but the cores differs between two states. -/
def SameBesideCores (s t : State) : Prop := { t with cores := s.cores } = s

/-- Two cores differ at most in the issue-group table, its queue and the order of creation (R226, R227). -/
def SameBesideTable (x y : Core) : Prop := { y with table := x.table, queue := x.queue, order := x.order } = x

/-- Two threads differ at most in the program counter and the switch bit (R71, R144). -/
def SameBesidePc (u v : Thread) : Prop := { v with pc := u.pc, sw := u.sw } = u

/-- Two threads differ at most in the program counter, the switch bit and one predicate; `p7` is nowhere held (R31). -/
def SameBesidePred (pd : Nat) (u v : Thread) : Prop :=
  { v with pc := u.pc, sw := u.sw, preds := u.preds } = u ∧ ∀ k, k ≠ pd → v.preds.getLsbD k = u.preds.getLsbD k

/-- Every memory: what lies in device memory, the host's, the Narrows and the peers', and in the scratchpad array of each core with
its granule tags. -/
def SameMemory (s t : State) : Prop :=
  t.dev = s.dev ∧ t.host = s.host ∧ t.narrows = s.narrows ∧ t.peers = s.peers ∧
    ∀ c, (t.core c).sram = (s.core c).sram ∧ (t.core c).gtag = (s.core c).gtag

/-! ### Accesses in flight -/

/-- An access in flight beside the identity that its core gives it, its place in the coalescing queue and who has read it there. -/
def MemOp.plain (o : MemOp) : MemOp := { o with id := 0, ent := none, readers := [] }

/-- Fences in flight. -/
def MemOp.isFence (o : MemOp) : Bool :=
  match o.act with
  | .fence => true
  | _ => false

/-- The accesses of one group in flight on its core, in the order of their issue. -/
def Core.opsOf (x : Core) (g : Nat) : List MemOp := (x.flight.filter fun o => o.slot == g && !o.isFence).map MemOp.plain

/-! ### What a word finds -/

/-- An issue instance is in execution: its groups are distinct and placed (R162, R228). -/
def State.running (s : State) (i : Inst) : Prop :=
  s.inst = some i ∧ (i.parts.map (·.1)).Nodup ∧ ∀ p ∈ i.parts, (s.grp i.core p.1).used = true ∧ (s.grp i.core p.1).vregs ≤ 128

/-- The operand registers of a lane word lie in the allocation of a group, and its source rows may be read: they are
current, or the launch did not choose the stale-read trap (R68 step 5, R52). -/
def State.laneReady (s : State) (i : Inst) (g : Nat) (regs : List (Nat × Nat)) (srcs : List Nat) : Prop :=
  (∀ r ∈ regs, r.1 + r.2 ≤ (s.grp i.core g).vregs) ∧
    ((s.launchOf i.core g).lr.staleTrap = false ∨ ∀ r ∈ srcs, ((s.core i.core).row g r).tag = s.genOf i.core g)

/-- A lane of a part is present and its guard holds (R73, R94). -/
def State.executes (s : State) (i : Inst) (p : Nat × Nat) (guard l : Nat) : Bool :=
  decide (l < 64) && p.2.testBit l && (s.thr i.core p.1 l).pred guard

/-- What a lane word may change that writes registers and one predicate, 7 for none: rows of its destinations in the groups
of the instance, the predicate, the program counters and switch bits of their threads, and the issue-group table. -/
structure LaneFrame (s t : State) (i : Inst) (dsts : List Nat) (pd : Nat) : Prop where
  beside : SameBesideCores s t
  others : ∀ c, c ≠ i.core → t.core c = s.core c
  core : SameBesideTable { s.core i.core with rows := [], grps := [] } { t.core i.core with rows := [], grps := [] }
  outside : ∀ g, g ∉ i.parts.map (·.1) → t.grp i.core g = s.grp i.core g
  groups : ∀ g, { t.grp i.core g with thr := (s.grp i.core g).thr } = s.grp i.core g
  threads : ∀ g l, SameBesidePred pd (s.thr i.core g l) (t.thr i.core g l)
  rows : ∀ g r, g ∉ i.parts.map (·.1) ∨ r ∉ dsts → r < 128 → (t.core i.core).row g r = (s.core i.core).row g r

/-- What a lane word leaves that writes registers: its frame, the next word for every thread present, and in the lanes
that execute the words given for their registers; a lane that does not execute keeps all its registers. -/
structure LaneResult (s t : State) (i : Inst) (guard : Nat) (dsts : List Nat) (val : Nat × Nat → Nat → List (Nat × Word)) : Prop where
  frame : LaneFrame s t i dsts 7
  pcs : ∀ p ∈ i.parts, ∀ l, l < 64 → p.2.testBit l = true → (t.thr i.core p.1 l).pc = i.after
  wrote : ∀ p ∈ i.parts, ∀ l, s.executes i p guard l → ∀ w ∈ val p l, t.rdV i.core p.1 w.1 l = w.2
  kept : ∀ p ∈ i.parts, ∀ l r, ¬ s.executes i p guard l → r < 128 → t.rdV i.core p.1 r l = s.rdV i.core p.1 r l

/-- What a lane word leaves that writes one predicate: its frame, the next word for every thread present, and in the
lanes that execute the value given, where the predicate is not `p7`, which reads as true and discards (R31). -/
structure PredResult (s t : State) (i : Inst) (guard pd : Nat) (val : Nat × Nat → Nat → Bool) : Prop where
  frame : LaneFrame s t i [] pd
  pcs : ∀ p ∈ i.parts, ∀ l, l < 64 → p.2.testBit l = true → (t.thr i.core p.1 l).pc = i.after
  wrote : ∀ p ∈ i.parts, ∀ l, s.executes i p guard l → (t.thr i.core p.1 l).pred pd = (pd == 7 || val p l)
  kept : ∀ p ∈ i.parts, ∀ l, ¬ s.executes i p guard l → (t.thr i.core p.1 l).preds = (s.thr i.core p.1 l).preds

/-- What `CVT` may change: rows of its destinations, stochastic states, program counters and switch bits of its threads,
`mxstat` of its groups with the flags set in this cycle (R25) and the issue-group table. -/
structure CvtFrame (s t : State) (i : Inst) (dsts : List Nat) : Prop where
  beside : SameBesideCores s t
  others : ∀ c, c ≠ i.core → t.core c = s.core c
  core : SameBesideTable { s.core i.core with rows := [], grps := [] } { t.core i.core with rows := [], grps := [] }
  outside : ∀ g, g ∉ i.parts.map (·.1) → t.grp i.core g = s.grp i.core g
  groups : ∀ g, { t.grp i.core g with
    thr := (s.grp i.core g).thr, mxstat := (s.grp i.core g).mxstat, setAt := (s.grp i.core g).setAt,
    setNow := (s.grp i.core g).setNow } = s.grp i.core g
  threads : ∀ g l, { t.thr i.core g l with pc := (s.thr i.core g l).pc, sw := (s.thr i.core g l).sw, seed := (s.thr i.core g l).seed } =
    s.thr i.core g l
  rows : ∀ g r, g ∉ i.parts.map (·.1) ∨ r ∉ dsts → r < 128 → (t.core i.core).row g r = (s.core i.core).row g r

/-- The operand registers of a uniform word lie in the allocation of a group (R68 step 5). -/
def State.scalarReady (s : State) (i : Inst) (g : Nat) (regs : List (Nat × Nat)) : Prop :=
  ∀ r ∈ regs, r.1 + r.2 ≤ (s.grp i.core g).sregs

/-- What a uniform word may change that writes uniform registers and one uniform predicate, 7 for none: these in the groups
of the instance, their program counters or their handler's, the group's switch and the issue-group table. -/
structure ScalarFrame (s t : State) (i : Inst) (dsts : List Nat) (qd : Nat) : Prop where
  beside : SameBesideCores s t
  others : ∀ c, c ≠ i.core → t.core c = s.core c
  core : SameBesideTable { s.core i.core with grps := [] } { t.core i.core with grps := [] }
  outside : ∀ g, g ∉ i.parts.map (·.1) → t.grp i.core g = s.grp i.core g
  groups : ∀ g, { t.grp i.core g with
    s := (s.grp i.core g).s, q := (s.grp i.core g).q, thr := (s.grp i.core g).thr, usw := (s.grp i.core g).usw,
    handler := (s.grp i.core g).handler } = s.grp i.core g
  threads : ∀ g l, { t.thr i.core g l with pc := (s.thr i.core g l).pc } = s.thr i.core g l
  sregs : ∀ g r, r ∉ dsts → (t.grp i.core g).sreg r = (s.grp i.core g).sreg r
  qpreds : ∀ g k, k ≠ qd → (t.grp i.core g).q.getLsbD k = (s.grp i.core g).q.getLsbD k

/-- Where a uniform word leaves the threads of a part: the present threads at a word, or the handler there (R163, R186). -/
def State.movedTo (s t : State) (i : Inst) (p : Nat × Nat) (pc : Nat) : Prop :=
  if i.handler then (t.grp i.core p.1).handler = (s.grp i.core p.1).handler.map fun h => { h with pc := pc }
  else (t.grp i.core p.1).handler = (s.grp i.core p.1).handler ∧
    ∀ l, l < 64 → p.2.testBit l = true → (t.thr i.core p.1 l).pc = pc

/-- What a scalar word leaves: its frame, the next word, and the words given for its registers. -/
structure ScalarResult (s t : State) (i : Inst) (dsts : List Nat) (val : Group → List (Nat × Word)) : Prop where
  frame : ScalarFrame s t i dsts 7
  pcs : ∀ p ∈ i.parts, s.movedTo t i p i.after
  wrote : ∀ p ∈ i.parts, ∀ w ∈ val (s.grp i.core p.1), (t.grp i.core p.1).sreg w.1 = w.2

/-! ### Words that access memory -/

/-- The part of one group that a lane word finds. -/
def Inst.part (i : Inst) (s : State) (guard : Nat) (p : Nat × Nat) : Part :=
  { core := i.core, slot := p.1, lanes := p.2, exec := (s.grp i.core p.1).guarded guard p.2, inst := i }

/-- The part of one group that a uniform word finds. -/
def Inst.upart (i : Inst) (p : Nat × Nat) : Part := { core := i.core, slot := p.1, lanes := p.2, exec := p.2, inst := i }

/-- Byte runs found through the core's own TLB, each with the permission needed. -/
def State.hits (s : State) (c ctx : Nat) (need : Need) : List (Nat × Nat) → Option (List (Nat × Nat))
  | [] => some []
  | (va, n) :: t =>
    match findTlb (s.core c).tlb ctx va with
    | none => none
    | some e => match e.use va need, s.hits c ctx need t with
      | .ok pa, some l => some ((pa, n) :: l)
      | _, _ => none

/-- The physical bytes of an access: through the TLB, by the peer number of this device, or as they stand. -/
def State.found (s : State) (c ctx : Nat) (need : Need) (r : Reach) : Option (List (Nat × Nat)) :=
  if r.paged then s.hits c ctx need r.vas
  else if r.place = .peer s.peerNum then
    match s.ownRemote ctx need r.vas with
    | some (.inr l) => some l
    | _ => none
  else some r.vas

/-- An access as it joins the flight of its core. -/
def State.accessOp (s : State) (i : Inst) (p : Nat × Nat) (lanes : Nat) (uni : Bool) (r : Reach) (pieces : List (Nat × Nat))
    (act : MemAct) (order : Order) (scope : Scope) : MemOp :=
  let W := s.wgOf i.core p.1
  let L := s.launchOf i.core p.1
  { id := 0, inst := s.tick, slot := p.1, lanes := lanes, uni := uni, gen := W.gen, ctx := L.ctx, place := r.place,
    pieces := pieces, vas := r.vas, ea := r.ea, ogen := r.ogen, l1 := r.l1, act := act, order := order, scope := scope,
    cover := if order = .rlx then none else coverOf L r, since := s.cyc.toNat, pc := i.pc, launch := W.launch,
    own := !r.paged && r.place == .peer s.peerNum }

/-- A fence of a thread as it joins the flight of its core, under a number (R154). -/
def State.fenceOp (s : State) (i : Inst) (p : Nat × Nat) (l : Nat) (order : Order) (scope : Scope) (id : Nat) : MemOp :=
  { (default : MemOp) with
    id := id, inst := s.tick, slot := p.1, lanes := 2 ^ l, uni := false, gen := s.genOf i.core p.1, ctx := (s.launchOf i.core p.1).ctx,
    place := .device, act := .fence, order := order, scope := scope, cover := none, since := s.cyc.toNat }

/-- A fence waits on its core for an access in flight with a lower number: one of its thread that is not yet visible at its scope or
performed, or a queued write that its thread has read; for a write not yet acknowledged, or for a copy (R154, R254, R255, R257). -/
def Core.fenceHeld (x : Core) (o : MemOp) : Bool :=
  x.flight.any (fun y => decide (y.id < o.id) && (o.fenceWaits y || o.readWaits y)) || x.unacked.any (fun u => u.holds o) ||
    x.ferried.any fun f => f.holds o

/-- What a lane memory word may change at its issue: the accesses in flight with their counters and the L1 lines of the core,
the outstanding counts, program counters and switch bits of its threads, and the issue-group table. No byte of any
memory and no register changes. -/
structure LaneMemFrame (s t : State) (i : Inst) : Prop where
  beside : SameBesideCores s t
  others : ∀ c, c ≠ i.core → t.core c = s.core c
  core : { t.core i.core with
    table := (s.core i.core).table, queue := (s.core i.core).queue, order := (s.core i.core).order, grps := (s.core i.core).grps,
    flight := (s.core i.core).flight, nextOp := (s.core i.core).nextOp, nextEnt := (s.core i.core).nextEnt,
    l1 := (s.core i.core).l1 } = s.core i.core
  outside : ∀ g, g ∉ i.parts.map (·.1) → t.grp i.core g = s.grp i.core g
  groups : ∀ g, { t.grp i.core g with thr := (s.grp i.core g).thr } = s.grp i.core g
  threads : ∀ g l, { t.thr i.core g l with pc := (s.thr i.core g l).pc, sw := (s.thr i.core g l).sw, count := (s.thr i.core g l).count } =
    s.thr i.core g l

/-- An executing thread's access can issue: its count has room, its address passes the checks of R125, and its bytes are
found without a walk. -/
structure State.accessReady (s : State) (i : Inst) (p : Nat × Nat) (guard : Nat) (counted reads : Bool) (k : AccKind) (size : Nat)
    (plane : Option Nat) (ea l : Nat) (r : Reach) (pieces : List (Nat × Nat)) : Prop where
  room : counted = true → (s.thr i.core p.1 l).count ≠ 63
  reach : s.reach (i.part s guard p) k reads l ea size plane = .ok r
  found : s.found i.core (s.launchOf i.core p.1).ctx (if k = .load then .read else .write) r = some pieces

/-- What a lane memory word leaves at its issue: its frame, the next word, and one access in flight for each executing
thread, in ascending lanes (R128), a 128-bit one in four parts (R130), with the count of those threads raised where the word takes a
place in it (R34). -/
structure LaneMemResult (s t : State) (i : Inst) (guard : Nat) (counted : Bool) (op : Nat × Nat → Nat → MemOp) : Prop where
  frame : LaneMemFrame s t i
  pcs : ∀ p ∈ i.parts, ∀ l, l < 64 → p.2.testBit l = true → (t.thr i.core p.1 l).pc = i.after
  ops : ∀ p ∈ i.parts, (t.core i.core).opsOf p.1 = (s.core i.core).opsOf p.1 ++
    ((List.range 64).filter (s.executes i p guard)).flatMap fun l => (op p l).quarters
  counts : ∀ p ∈ i.parts, ∀ l, (t.thr i.core p.1 l).count =
    if s.executes i p guard l && counted then (s.thr i.core p.1 l).count + 1 else (s.thr i.core p.1 l).count

/-- On ready operands, with every address good and every page in the TLB, a lane memory word answers a next state with
its accesses in flight (R124 to R129). -/
def LaneAccesses (e : Instr) (guard : Nat) (regs : List (Nat × Nat)) (srcs : List Nat) (counted reads : Bool) (k : AccKind)
    (size : Nat) (plane : Option Nat) (order : Order) (scope : Scope) (ea : (Nat → Word) → Nat) (act : (Nat → Word) → MemAct) : Prop :=
  ∀ (s : State) (i : Inst) (r : Nat × Nat → Nat → Reach) (pieces : Nat × Nat → Nat → List (Nat × Nat)),
    s.running i → i.handler = false → s.choose 2 = false → (∀ p ∈ i.parts, s.laneReady i p.1 regs srcs) →
    (∀ p ∈ i.parts, ∀ l, s.executes i p guard l →
      s.accessReady i p guard counted reads k size plane (ea fun n => s.rdV i.core p.1 n l) l (r p l) (pieces p l)) →
    ∃ t, exec e s = .next t ∧ LaneMemResult s t i guard counted fun p l =>
      s.accessOp i p (2 ^ l) false (r p l) (pieces p l) (act fun n => s.rdV i.core p.1 n l) order scope

/-- What a uniform memory word may change at its issue: the accesses in flight with their counters and the L1 lines of the
core, the outstanding counts, switches, program counters and handlers of its groups, and the issue-group table. -/
structure UniMemFrame (s t : State) (i : Inst) : Prop where
  beside : SameBesideCores s t
  others : ∀ c, c ≠ i.core → t.core c = s.core c
  core : { t.core i.core with
    table := (s.core i.core).table, queue := (s.core i.core).queue, order := (s.core i.core).order, grps := (s.core i.core).grps,
    flight := (s.core i.core).flight, nextOp := (s.core i.core).nextOp, nextEnt := (s.core i.core).nextEnt,
    l1 := (s.core i.core).l1 } = s.core i.core
  outside : ∀ g, g ∉ i.parts.map (·.1) → t.grp i.core g = s.grp i.core g
  groups : ∀ g, { t.grp i.core g with
    thr := (s.grp i.core g).thr, ucount := (s.grp i.core g).ucount, usw := (s.grp i.core g).usw,
    handler := (s.grp i.core g).handler } = s.grp i.core g
  threads : ∀ g l, { t.thr i.core g l with pc := (s.thr i.core g l).pc } = s.thr i.core g l

/-- On registers of the allocation, with room in the count, a good address and its pages in the TLB, a uniform memory word
answers a next state with one access in flight for the threads present (R165, R172, R173). -/
def UniformAccesses (e : Instr) (regs : List (Nat × Nat)) (counted reads : Bool) (k : AccKind) (size : Nat) (order : Order)
    (scope : Scope) (ea : Group → Nat) (act : Group → MemAct) : Prop :=
  ∀ (s : State) (i : Inst) (r : Nat × Nat → Reach) (pieces : Nat × Nat → List (Nat × Nat)), s.running i → s.choose 2 = false →
    (∀ p ∈ i.parts, s.scalarReady i p.1 regs ∧ (counted = true → (s.grp i.core p.1).ucount ≠ 63) ∧
      s.reach (i.upart p) k reads 64 (ea (s.grp i.core p.1)) size none = .ok (r p) ∧
      s.found i.core (s.launchOf i.core p.1).ctx (if k = .load then .read else .write) (r p) = some (pieces p)) →
    ∃ t, exec e s = .next t ∧ UniMemFrame s t i ∧ (∀ p ∈ i.parts, s.movedTo t i p i.after) ∧
      (∀ p ∈ i.parts, (t.core i.core).opsOf p.1 = (s.core i.core).opsOf p.1 ++
        (s.accessOp i p p.2 true (r p) (pieces p) (act (s.grp i.core p.1)) order scope).quarters) ∧
      ∀ p ∈ i.parts, (t.grp i.core p.1).ucount = (s.grp i.core p.1).ucount + if counted then 1 else 0

/-! ### Operands of the cross-lane words -/

/-- The lanes of a part that execute, ascending. -/
def State.executing (s : State) (i : Inst) (p : Nat × Nat) (guard : Nat) : List Nat :=
  (List.range 64).filter (s.executes i p guard)

/-- The word of `SHFL` from its source lane: the thread's own where the source lies outside 0 to 63, zero where it does
not execute (R121). -/
def State.shflVal (s : State) (i : Inst) (p : Nat × Nat) (guard va : Nat) (l : Nat) (k : Option Nat) : Word :=
  match k with
  | none => s.rdV i.core p.1 va l
  | some k => if s.executes i p guard k then s.rdV i.core p.1 va k else 0

/-- The second operand of `SHFL`: a register's word or the immediate. -/
def shflValue (b : ShflSrc) (rd : Nat → Word) : Nat :=
  match b with
  | .reg r => (rd r).toNat
  | .imm i => i.val

/-- The registers of it. -/
def shflRegs : ShflSrc → List Nat
  | .reg r => [r.val]
  | .imm _ => []

/-- Which of the executing lanes take part in a lane's reduction (R123). -/
def reduxTakes (kind : ReduxKind) (l k : Nat) : Bool :=
  match kind with
  | .reduce => true
  | .iscan => decide (k ≤ l)
  | .xscan => decide (k < l)

/-- The vote of a lane: its predicate, or its negation (R122). -/
def State.votes (s : State) (i : Inst) (p : Nat × Nat) (ps : PReg) (neg : Bool) (l : Nat) : Bool :=
  (s.thr i.core p.1 l).pred ps != neg

/-- The outcome of `VOTE` other than a ballot over the lanes of a part that execute (R122). -/
def State.voteVal (s : State) (i : Inst) (p : Nat × Nat) (guard : Nat) (mode : VoteMode) (ps : PReg) (neg : Bool) : Bool :=
  let ls := s.executing i p guard
  match mode with
  | .all => ls.all (s.votes i p ps neg)
  | .any => ls.any (s.votes i p ps neg)
  | _ => ls.all (s.votes i p ps neg) || !ls.any (s.votes i p ps neg)

/-- The conversion of one lane of `CVT` (R117, R118). -/
def State.cvtOf (s : State) (i : Inst) (p : Nat × Nat) (dst src : Fmt) (mode : Mode) (ftz : Bool) (clamp : Option VReg) (va : VReg)
    (si : Fin 16) (l : Nat) : Nat × Conv :=
  let rd := fun r => s.rdV i.core p.1 r l
  let whole := if src.width = 64 then pairOf rd va else (rd va).toNat
  cvtElement dst src mode ftz (clamp.map fun b => rd b.val) (s.thr i.core p.1 l).seed (whole / 2 ^ (src.width * si.val) % 2 ^ src.width)

/-- The registers that `CVT` writes. -/
def cvtDsts (dst : Fmt) (vd : VReg) : List Nat := if dst.width = 64 then [vd.val, vd.val + 1] else [vd.val]

/-- The words that a lane of `CVT` writes: a pair, a register, or one element of a register whose other bits stay (R117). -/
def cvtWords (dst : Fmt) (vd : VReg) (di : Fin 16) (old : Word) (code : Nat) : List (Nat × Word) :=
  if dst.width = 64 then putPair vd code
  else if dst.width = 32 then [(vd.val, BitVec.ofNat 32 code)]
  else [(vd.val, BitVec.ofNat 32 (putField old.toNat dst.width di.val code))]

/-- The sources of `CVT`, with the destination where it keeps bits of it. -/
def cvtSrcs (dst src : Fmt) (clamp : Option VReg) (vd va : VReg) : List Nat :=
  (List.range (if src.width = 64 then 2 else 1)).map (va.val + ·) ++ clamp.toList.map (·.val) ++
    (if dst.width < 32 then [vd.val] else [])

/-- The operand registers of `CVT`. -/
def cvtRegs (dst src : Fmt) (clamp : Option VReg) (vd va : VReg) : List (Nat × Nat) :=
  [(vd.val, if dst.width = 64 then 2 else 1), (va.val, if src.width = 64 then 2 else 1)] ++ (clamp.toList.map (·.val)).map (·, 1)

/-! ### How a word ends for a group -/

/-- The threads of a part stand at the next word. -/
def State.ahead (a : State) (i : Inst) (p : Nat × Nat) : State := a.setPcs i.core p.1 (maskList p.2 64) i.after

/-- A lane word done for its one group: its switch bit (R71), and the threads go on (R227). -/
def State.laneEnd (b : State) (i : Inst) (p : Nat × Nat) (sw : Bool) : State :=
  (if sw then b.switchLanes i.core p.1 (maskList p.2 64) else b).goOn i

/-- A uniform word done for a group that goes on at a word: its switch bit parks the group (R71). -/
def State.uniEnd (b : State) (i : Inst) (p : Nat × Nat) (sw : Bool) (pc : Nat) : State :=
  if sw && ((b.advance i p pc).grp i.core p.1).ucount != 0 then
    ((b.advance i p pc).modGrp i.core p.1 fun x => { x with usw := true }).leaveAll i.core p.1
  else b.advance i p pc

/-- A uniform word done for its one group. -/
def State.uniDone (b : State) (i : Inst) (p : Nat × Nat) (sw : Bool) : State := (b.uniEnd i p sw i.after).goOn i

/-- A uniform word that parks its one group at the word (R164). -/
def State.parked (b : State) (i : Inst) (p : Nat × Nat) (sw : Bool) (q : Park) : State :=
  (if sw && q.once then (b.parkGrp i.core p.1 q i.pc p.2).modGrp i.core p.1 fun x => { x with usw := x.ucount != 0 }
   else b.parkGrp i.core p.1 q i.pc p.2).goOn i

/-- An instance of one group in execution: what R162 and R128 do to each of several groups in turn. -/
def State.alone (s : State) (i : Inst) (p : Nat × Nat) : Prop := s.running i ∧ i.parts = [p]

/-- One group in execution by a lane word outside a handler. -/
def State.aloneLane (s : State) (i : Inst) (p : Nat × Nat) : Prop := s.alone i p ∧ i.handler = false

/-- A lane of a group enters the issue-group table as a word ends: it is present or an event of the word has woken it, and it is
ready in an open group (R227, R231). -/
def State.enters (b t : State) (i : Inst) (p : Nat × Nat) (l : Nat) : Bool :=
  !i.handler && (p.2.testBit l || b.wokenNow.any fun w => w.any fun e => e.1 == p.1 && e.2.testBit l) && (t.grp i.core p.1).open_ &&
    (t.thr i.core p.1 l).ready

/-- What the issue-group table holds of a group after the end of a word: the lanes it held and those that enter (R227). -/
def State.tableAfter (b t : State) (i : Inst) (p : Nat × Nat) : Prop :=
  ∀ l, l < 64 →
    (((b.core i.core).tabled p.1).testBit l = false → b.enters t i p l = true → ((t.core i.core).tabled p.1).testBit l = true) ∧
    (((t.core i.core).tabled p.1).testBit l = true → ((b.core i.core).tabled p.1).testBit l = true ∨ b.enters t i p l = true)

/-- No lane of a group stands in the issue-group table or its queue (R230). -/
def State.untabled (t : State) (i : Inst) (p : Nat × Nat) : Prop := ∀ l, l < 64 → ((t.core i.core).tabled p.1).testBit l = false

/-! ### Rounded magnitudes -/

/-- The magnitudes that a format holds, with no upper exponent bound (R10, R18). -/
def FloatFmt.holds (f : FloatFmt) (v : Rat) : Prop :=
  ∃ (e : Int) (k : Nat), 1 - (f.bias : Int) ≤ e ∧ k < 2 ^ (f.mbits + 1) ∧ v = k * pow2 (e - f.mbits)

/-- Those whose code is even: the last bit of the mantissa is 0. -/
def FloatFmt.holdsEven (f : FloatFmt) (v : Rat) : Prop :=
  ∃ (e : Int) (k : Nat), 1 - (f.bias : Int) ≤ e ∧ k < 2 ^ (f.mbits + 1) ∧ (k < 2 ^ f.mbits → e = 1 - (f.bias : Int)) ∧ k % 2 = 0 ∧
    v = k * pow2 (e - f.mbits)

/-- The order of two values: neither is a NaN and the first is the smaller number; the zeros are one number (R108, R110). -/
def FVal.below : FVal → FVal → Prop
  | .inf a, .inf b => a = true ∧ b = false
  | .inf a, .fin _ _ => a = true
  | .fin _ _, .inf b => b = false
  | .fin s m, .fin t n => FVal.toRat (.fin s m) < FVal.toRat (.fin t n)
  | _, _ => False

/-! ### Accesses performed -/

/-- The bytes that an access writes when it is performed on bytes that hold a number, none where it writes nothing
(R132 to R135). -/
def MemOp.writes (o : MemOp) (old : Nat) : Option (List Byte) :=
  match o.act with
  | .atom op w64 v _ _ => some (wideBytes w64 (atomNew op w64 old v))
  | .cas w64 e n _ => if old = e then some (wideBytes w64 n) else none
  | .store d => some d
  | .visw v => some (leBytes (max old v) 8)
  | _ => none

/-- The words that an access returns, performed on some bytes (R130, R131, R133, R134, R137). -/
def MemOp.returned (o : MemOp) (bytes : List Byte) : List Word :=
  match o.act with
  | .load form _ => loadWords form bytes o.ea
  | .atom _ w64 _ _ _ | .cas w64 _ _ _ => wideWords w64 (leNat bytes)
  | .result l => l.map (·.2)
  | _ => []

/-- One access of a core, neither a fence nor a traversal, can be performed now and is asked to complete by itself. -/
structure State.completes (s : State) (c : Nat) (o : MemOp) : Prop where
  one : s.choose 6 = false
  found : (s.core c).flight.find? (fun y => y.id == o.id) = some o
  real : o.isFence = false
  done : (s.core c).flight.find? (fun y => y.id == o.id && y.traversal.isSome) = none
  may : (s.core c).mayPerform o = true
  linked : s.linked o = true

/-- The step of the device that completes an access: with a result for a count, or without (R34, R247). -/
def completion (c : Nat) (o : MemOp) : Instr :=
  if o.counted then .variableLatencyCompletion c o.id else .storePlacement c o.id

/-- An access of a unit for one thread, as it joins the flight. -/
def State.unitOp (s : State) (i : Inst) (g l : Nat) (act : MemAct) : MemOp :=
  { id := 0, inst := s.tick, slot := g, lanes := 2 ^ l, uni := false, gen := s.genOf i.core g,
    ctx := (s.launchOf i.core g).ctx, place := .device, pieces := [], vas := [], ea := 0, ogen := 0, l1 := false,
    act := act, order := .rlx, scope := .dev, cover := none, since := s.cyc.toNat, pc := i.pc, launch := (s.wgOf i.core g).launch }

/-- A thread's request to a unit can be served: its count has room and the unit follows no earlier access (R34, R128). -/
def State.unitReady (s : State) (i : Inst) (g l : Nat) : Prop :=
  (s.thr i.core g l).count ≠ 63 ∧ (s.core i.core).unitHeld g l (s.genOf i.core g) = false

/-- The writes of a core that wait for their acknowledgement, beside who has read them and beside those of other cores that its
threads have read. -/
def Core.ownUnacked (x : Core) : List Unacked := (x.unacked.filter fun u => u.origin.isNone).map fun u => { u with readers := [] }

/-- What a texture word may change at its issue: what a lane memory word may, and what the core keeps of who has read the writes not
yet acknowledged (R254). -/
structure UnitFrame (s t : State) (i : Inst) : Prop where
  beside : SameBesideCores s t
  others : ∀ c, c ≠ i.core → t.core c = s.core c
  core : { t.core i.core with
    table := (s.core i.core).table, queue := (s.core i.core).queue, order := (s.core i.core).order, grps := (s.core i.core).grps,
    flight := (s.core i.core).flight, nextOp := (s.core i.core).nextOp, nextEnt := (s.core i.core).nextEnt,
    l1 := (s.core i.core).l1, unacked := (s.core i.core).unacked } = s.core i.core
  unacked : (t.core i.core).ownUnacked = (s.core i.core).ownUnacked
  outside : ∀ g, g ∉ i.parts.map (·.1) → t.grp i.core g = s.grp i.core g
  groups : ∀ g, { t.grp i.core g with thr := (s.grp i.core g).thr } = s.grp i.core g
  threads : ∀ g l, { t.thr i.core g l with pc := (s.thr i.core g l).pc, sw := (s.thr i.core g l).sw, count := (s.thr i.core g l).count } =
    s.thr i.core g l

/-- On ready operands, with a unit that serves each request and whose reads follow no access in flight to their bytes, a texture word of
one group answers a next state with each executing thread's words on their way and a place in its count (R34, R128, R137). -/
def LaneSamples (e : Instr) (guard : Nat) (regs : List (Nat × Nat)) (vd : Nat) (f : State → Part → Nat → TexReq) : Prop :=
  ∀ (s : State) (i : Inst) (p : Nat × Nat) (ws : Nat → List Word) (rs : Nat → List MemOp), s.aloneLane i p → s.laneReady i p.1 regs [] →
    (∀ l, s.executes i p guard l → s.unitReady i p.1 l ∧
      (s.ahead i p).texWords i.core (s.launchOf i.core p.1).ctx (f (s.ahead i p) (i.part s guard p) l) = .ok (ws l) (rs l) ∧
      (s.ahead i p).unitMeets i.core p.1 (2 ^ l) (rs l) = false) →
    ∃ t, exec e s = .next t ∧ UnitFrame s t i ∧
      (∀ l, l < 64 → p.2.testBit l = true → (t.thr i.core p.1 l).pc = i.after) ∧
      (t.core i.core).opsOf p.1 = (s.core i.core).opsOf p.1 ++ ((List.range 64).filter (s.executes i p guard)).map (fun l =>
        s.unitOp i p.1 l (.result (putWords vd (ws l)))) ∧
      ∀ l, (t.thr i.core p.1 l).count = (s.thr i.core p.1 l).count + if s.executes i p guard l then 1 else 0

/-- What a traversal word may change at its issue: the accesses in flight with their counters and the L1 lines of the core, the
outstanding counts, program counters and switch bits of its threads and where they wait, and the issue-group table. -/
structure RayFrame (s t : State) (i : Inst) : Prop where
  beside : SameBesideCores s t
  others : ∀ c, c ≠ i.core → t.core c = s.core c
  core : { t.core i.core with
    table := (s.core i.core).table, queue := (s.core i.core).queue, order := (s.core i.core).order, grps := (s.core i.core).grps,
    flight := (s.core i.core).flight, nextOp := (s.core i.core).nextOp, nextEnt := (s.core i.core).nextEnt,
    l1 := (s.core i.core).l1 } = s.core i.core
  outside : ∀ g, g ∉ i.parts.map (·.1) → t.grp i.core g = s.grp i.core g
  groups : ∀ g, { t.grp i.core g with thr := (s.grp i.core g).thr } = s.grp i.core g
  threads : ∀ g l, { t.thr i.core g l with
    pc := (s.thr i.core g l).pc, sw := (s.thr i.core g l).sw, wait := (s.thr i.core g l).wait, count := (s.thr i.core g l).count } =
    s.thr i.core g l

/-- The traversal that a thread's operands ask for (R140). -/
def travOf (rd : Nat → Word) (va vb : Nat) (one anyHit cull : Bool) (key : Nat) : Trav :=
  { ray := rayOf rd vb, one := one, anyHit := anyHit, cull := cull, pending := [pairOf rd va], key := key }

/-- On ready operands, with good root pointers, a traversal word of one group answers a next state: each executing thread's traversal
is in flight and has a place in its count (R34, R70, R140), and the present threads stay at the word until the traversals of their
instance are over (DEDUCED, notes/assumptions/65.md); with no executing thread they go on (R73). -/
def LaneTraverses (e : Instr) (c : LaneCtl) (vd va vb : VReg) (one anyHit cull : Bool) : Prop :=
  ∀ (s : State) (i : Inst) (p : Nat × Nat), s.aloneLane i p → s.laneReady i p.1 [(vd.val, 8), (va.val, 2), (vb.val, 8)] [] →
    (∀ l, s.executes i p c.g l → s.unitReady i p.1 l ∧ inDevice (pairOf (fun r => s.rdV i.core p.1 r l) va) = true) →
    ∃ t, exec e s = .next t ∧ RayFrame s t i ∧
      (t.core i.core).opsOf p.1 = (s.core i.core).opsOf p.1 ++ ((List.range 64).filter (s.executes i p c.g)).map (fun l =>
        s.unitOp i p.1 l (.ray (travOf (fun r => s.rdV i.core p.1 r l) va vb one anyHit cull ((s.tick * 64 + l) * 2 ^ 44)) vd)) ∧
      (∀ l, (t.thr i.core p.1 l).count = (s.thr i.core p.1 l).count + if s.executes i p c.g l then 1 else 0) ∧
      ∀ l, l < 64 → p.2.testBit l = true →
        if (List.range 64).any (s.executes i p c.g) then (t.thr i.core p.1 l).wait = .unit s.tick ∧ (t.thr i.core p.1 l).pc = i.pc
        else (t.thr i.core p.1 l).wait = (s.thr i.core p.1 l).wait ∧ (t.thr i.core p.1 l).pc = i.after

/-! ### Tile words and handle words -/

/-- A tile word can be put into the queue: its checks pass, the queue has an entry, its count has room, and nothing that it
waits for is in flight (R35, R193, R263). -/
structure State.tileReady (s : State) (i : Inst) (p : Nat × Nat) (w : TileWord) : Prop where
  checks : s.tileTrap (i.upart p) w = none
  entry : (s.core i.core).seq.length < Config.seqEntries
  room : w.act.counted = true → (s.grp i.core p.1).ucount ≠ 63
  ordered : s.tileHeld (i.upart p) w = false

/-- A tile word put into the queue, with its acquire before it and its release behind it (R193, R263). -/
def State.tileQueued (s : State) (part : Part) (w : TileWord) : State :=
  let a := if w.acq then s.modCore part.core fun x => x.invalidate (s.launchOf part.core part.slot).ctx none else s
  let b := a.enqueue part w.act
  if w.rel then b.drainFence part (s.core part.core).nextOp else b

/-- A tile word of one group answers a next state with its operation in the queue, in the launch's mode. -/
def TileIssues (e : Bool → Instr) (checks : Bool) (f : State → Part → Group → Option TileWord) : Prop :=
  ∀ (sw : Bool) (s : State) (i : Inst) (p : Nat × Nat) (w : TileWord), s.alone i p →
    f s (i.upart p) (s.grp i.core p.1) = some w → s.tileReady i p w →
    exec (e sw) s = .next (
      if checks && (s.launchOf i.core p.1).lr.redundant then
        (s.tileQueued (i.upart p) w).parked i p sw (.check (s.core i.core).nextOp)
      else ((s.tileQueued (i.upart p) w).startPorts i.core).uniDone i p sw)

/-- The value of a word of an accumulator, read as a number of either kind (R202, R203). -/
def tileValue (s32 : Bool) (w : Word) : FVal := if s32 then .ofInt w.toInt else fmt32.decode w.toNat

/-- The four flags of `mxstat` as its bits (R45). -/
def mxBits (nv of iov me : Bool) : BitVec 4 :=
  (if nv then 1 else 0) ||| (if of then 2 else 0) ||| (if iov then 4 else 0) ||| (if me then 8 else 0)

/-! ### Groups that go on -/

/-- A parked group goes on: it is parked no more, and its parked lanes, or its handler, stand at a word; no other group and no
memory changes (R164, R186). -/
structure State.resumed (s t : State) (c g pc : Nat) : Prop where
  park : (t.grp c g).park = .none
  lanes : (s.grp c g).handler = none → ∀ l, l < 64 →
    (t.thr c g l).pc = if (s.grp c g).pset.testBit l then pc else (s.thr c g l).pc
  handler : (t.grp c g).handler = (s.grp c g).handler.map fun h => { h with pc := pc }
  others : ∀ d h, d ≠ c ∨ h ≠ g → t.grp d h = s.grp d h
  memory : SameMemory s t

/-! ### Words that compute -/

/-- On ready operands a lane word answers a next state in which each executing thread has written the words that a
function of its own lane of the sources gives, and nothing beside its frame has changed (R94). -/
def LaneComputes (e : Instr) (guard : Nat) (regs : List (Nat × Nat)) (srcs dsts : List Nat)
    (f : (Nat → Word) → List (Nat × Word)) : Prop :=
  ∀ (s : State) (i : Inst), s.running i → i.handler = false → (∀ p ∈ i.parts, s.laneReady i p.1 regs srcs) →
    ∃ t, exec e s = .next t ∧ LaneResult s t i guard dsts fun p l => f fun r => s.rdV i.core p.1 r l

/-- A two-operand lane word on single registers. -/
def LaneComputes2 (e : LaneCtl → VReg → VReg → VReg → Instr) (f : Word → Word → Word) : Prop :=
  ∀ (c : LaneCtl) (vd va vb : VReg), LaneComputes (e c vd va vb) c.g [(vd, 1), (va, 1), (vb, 1)] [va, vb] [vd]
    fun rd => [(vd, f (rd va) (rd vb))]

/-- A two-operand lane word on pairs, low word in the even register (R31); numbers are reduced modulo 2^64. -/
def LaneComputesPairs (e : LaneCtl → VReg → VReg → VReg → Instr) (f : Nat → Nat → Nat) : Prop :=
  ∀ (c : LaneCtl) (vd va vb : VReg), LaneComputes (e c vd va vb) c.g [(vd, 2), (va, 2), (vb, 2)]
    [va, va.val + 1, vb, vb.val + 1] [vd, vd.val + 1] fun rd => putPair vd (f (pairOf rd va) (pairOf rd vb))

/-- On ready operands a lane word answers a next state in which each executing thread has written one predicate. -/
def LaneDecides (e : Instr) (guard : Nat) (pd : PReg) (srcs : List Nat) (f : (Nat → Word) → Bool) : Prop :=
  ∀ (s : State) (i : Inst), s.running i → i.handler = false →
    (∀ p ∈ i.parts, s.laneReady i p.1 (srcs.map fun r => (r, 1)) srcs) →
    ∃ t, exec e s = .next t ∧ PredResult s t i guard pd fun p l => f fun r => s.rdV i.core p.1 r l

/-- On registers of the allocation a scalar word answers a next state in which each group of the instance holds the words
that a function of it gives (R162, R166). -/
def ScalarComputes (e : Instr) (regs : List (Nat × Nat)) (dsts : List Nat) (f : Group → List (Nat × Word)) : Prop :=
  ∀ (s : State) (i : Inst), s.running i → (∀ p ∈ i.parts, s.scalarReady i p.1 regs) →
    ∃ t, exec e s = .next t ∧ ScalarResult s t i dsts f

/-- A two-operand scalar word. -/
def ScalarComputes2 (e : Bool → SReg → SReg → SReg → Instr) (f : Word → Word → Word) : Prop :=
  ∀ (sw : Bool) (sd sa sb : SReg), ScalarComputes (e sw sd sa sb) [(sd, 1), (sa, 1), (sb, 1)] [sd]
    fun g => [(sd, f (g.sreg sa) (g.sreg sb))]

/-! ### Acts of the device -/

/-- No spill walker has a write queued, so that an act of the device that writes takes effect at once (R282). -/
def State.walkersIdle (s : State) : Prop := ∀ n, (Tbl.get s.slices n).walks = []

/-- How far a core lies behind the one at which a launch's search for its next workgroup begins (R323). -/
def Launch.searchDistance (L : Launch) (c : Nat) : Nat := (c + Config.cores - L.lastCore) % Config.cores

/-! ### Invariants -/

/-- The generations of a core: its next one lies inside the window, and its live allocations have generations of their own, all in the
window before the next one (R51, R58, R59). -/
def Core.gensWf (x : Core) : Prop :=
  genDist x.low x.nextGen ≤ 32768 ∧ (∀ e ∈ x.wgs, e.2.used = true → genDist x.low e.2.gen < genDist x.low x.nextGen) ∧
    ((x.wgs.filter fun e => e.2.used).map fun e => e.2.gen).Nodup

/-- The tables of a core list each unit once: its workgroups, groups, vector rows and scratchpad granules. -/
def Core.keysWf (x : Core) : Prop :=
  (x.wgs.map (·.1)).Nodup ∧ (x.grps.map (·.1)).Nodup ∧ (x.rows.map (·.1)).Nodup ∧ (x.gtag.map (·.1)).Nodup

/-- On every core the live allocations have generations of their own, and every unit is listed once. -/
def State.coresWf (s : State) : Prop := ∀ c, (s.core c).gensWf ∧ (s.core c).keysWf

/-- The memories of the machine are in canonical form. -/
def State.memWf (s : State) : Prop :=
  Memory.wf s.dev = true ∧ Memory.wf s.host = true ∧ Memory.wf s.narrows = true

end Sys2Proof.Machine
end

