-- ==== Sys2Proof/Certificates/Slice0/Obligations.lean ====
section
/-! DEFINITION. The statements for the provers. -/

open Sys2Proof Sys2Proof.Machine

/-! ### Lane words -/

/-- R96, R94: the two-operand integer words. -/
def Obligations.IntegerWords : Prop :=
  LaneComputes2 .iadd (fun a b => BitVec.ofNat 32 (a.toNat + b.toNat)) ∧
  LaneComputes2 .isub (fun a b => BitVec.ofInt 32 (a.toNat - b.toNat)) ∧
  LaneComputes2 .imul (fun a b => BitVec.ofNat 32 (a.toNat * b.toNat)) ∧
  LaneComputes2 .imulh (fun a b => BitVec.ofInt 32 (a.toInt * b.toInt / 2 ^ 32)) ∧
  LaneComputes2 .imin (fun a b => BitVec.ofInt 32 (min a.toInt b.toInt)) ∧
  LaneComputes2 .imax (fun a b => BitVec.ofInt 32 (max a.toInt b.toInt)) ∧
  LaneComputes2 .umin (fun a b => BitVec.ofNat 32 (min a.toNat b.toNat)) ∧
  LaneComputes2 .umax (fun a b => BitVec.ofNat 32 (max a.toNat b.toNat)) ∧
  LaneComputes2 .and (fun a b => a &&& b) ∧
  LaneComputes2 .or (fun a b => a ||| b) ∧
  LaneComputes2 .xor (fun a b => a ^^^ b) ∧
  LaneComputes2 .andn (fun a b => a &&& ~~~b) ∧
  LaneComputes2 .shl (fun a c => BitVec.ofNat 32 (if c.toNat < 32 then a.toNat * 2 ^ c.toNat else 0)) ∧
  LaneComputes2 .shr (fun a c => BitVec.ofNat 32 (if c.toNat < 32 then a.toNat / 2 ^ c.toNat else 0)) ∧
  LaneComputes2 .sar (fun a c => BitVec.ofInt 32 (a.toInt / 2 ^ min c.toNat 31)) ∧
  LaneComputesPairs .iadd64 (fun a b => (a + b) % 2 ^ 64)

/-- R97, R98, R99: the words with an immediate, the multiply-add functions and the address computation. -/
def Obligations.IntegerFunctionWords : Prop :=
  ∀ (c : LaneCtl) (vd va vb vc : VReg),
  (∀ imm : BitVec 7, LaneComputes (.iaddi c vd va imm) c.g [(vd, 1), (va, 1)] [va] [vd]
      (fun rd => [(vd, BitVec.ofInt 32 ((rd va).toNat + imm.toInt))]) ∧
    encode (.iaddi c vd va imm) =
      [bit c.sw 30 + 0x02 * 2 ^ 24 + c.g.val * 2 ^ 21 + vd.val * 2 ^ 14 + va.val * 2 ^ 7 + (imm.toInt % 2 ^ 7).toNat]) ∧
  LaneComputes (.imad c .lo vd va vb vc) c.g [(vd, 1), (va, 1), (vb, 1), (vc, 1)] [va, vb, vc] [vd]
    (fun rd => [(vd, BitVec.ofNat 32 ((rd va).toNat * (rd vb).toNat + (rd vc).toNat))]) ∧
  LaneComputes (.imad c .hiS vd va vb vc) c.g [(vd, 1), (va, 1), (vb, 1), (vc, 1)] [va, vb, vc] [vd]
    (fun rd => [(vd, BitVec.ofInt 32 ((rd va).toInt * (rd vb).toInt / 2 ^ 32 + (rd vc).toNat))]) ∧
  LaneComputes (.imad c .hiU vd va vb vc) c.g [(vd, 1), (va, 1), (vb, 1), (vc, 1)] [va, vb, vc] [vd]
    (fun rd => [(vd, BitVec.ofNat 32 ((rd va).toNat * (rd vb).toNat / 2 ^ 32 + (rd vc).toNat))]) ∧
  LaneComputes (.imad c .wideS vd va vb vc) c.g [(vd, 2), (va, 1), (vb, 1), (vc, 2)] [va, vb, vc, vc.val + 1] [vd, vd.val + 1]
    (fun rd => putPair vd (((rd va).toInt * (rd vb).toInt + pairOf rd vc) % 2 ^ 64).toNat) ∧
  LaneComputes (.imad c .wideU vd va vb vc) c.g [(vd, 2), (va, 1), (vb, 1), (vc, 2)] [va, vb, vc, vc.val + 1] [vd, vd.val + 1]
    (fun rd => putPair vd (((rd va).toNat * (rd vb).toNat + pairOf rd vc) % 2 ^ 64)) ∧
  ∀ (sgn : Bool) (sh : Fin 8) (off : BitVec 18),
    LaneComputes (.lea c sgn vd va vb sh off) c.g [(vd, 2), (va, 2), (vb, 1)] [va, va.val + 1, vb] [vd, vd.val + 1]
      fun rd => putPair vd ((pairOf rd va + (if sgn then (rd vb).toInt else (rd vb).toNat) * 2 ^ sh.val + off.toInt) % 2 ^ 64).toNat

/-- R100, R103, R104: the moves, the selection and the unary words. -/
def Obligations.MoveWords : Prop :=
  (∀ (c : LaneCtl) (vd va : VReg), LaneComputes (.mov c vd va) c.g [(vd, 1), (va, 1)] [va] [vd] fun rd => [(vd, rd va)]) ∧
  (∀ (c : LaneCtl) (vd : VReg) (imm : BitVec 13),
    LaneComputes (.movi c vd imm) c.g [(vd, 1)] [] [vd] fun _ => [(vd, BitVec.ofInt 32 imm.toInt)]) ∧
  (∀ (c : LaneCtl) (vd : VReg) (imm : BitVec 32), LaneComputes (.moviImm32 c vd imm) c.g [(vd, 1)] [] [vd] fun _ => [(vd, imm)]) ∧
  (∀ (sw : Bool) (n : PReg) (vd va vb : VReg) (s : State) (i : Inst), s.running i → i.handler = false →
    (∀ p ∈ i.parts, s.laneReady i p.1 [(vd, 1), (va, 1), (vb, 1)] [va, vb]) →
    ∃ t, exec (.sel sw n vd va vb) s = .next t ∧ LaneResult s t i 7 [vd] fun p l =>
      [(vd, s.rdV i.core p.1 (if (s.thr i.core p.1 l).pred n then va else vb) l)]) ∧
  (∀ (sw : Bool) (n : PReg) (vd va vb : VReg), encode (.sel sw n vd va vb) =
    [bit sw 30 + 0x17 * 2 ^ 24 + n.val * 2 ^ 21 + vd.val * 2 ^ 14 + va.val * 2 ^ 7 + vb.val]) ∧
  (∀ t : Thread, t.pred 7 = true) ∧
  ∀ (c : LaneCtl) (vd : VReg) (sa : SReg) (s : State) (i : Inst), s.running i → i.handler = false →
    (∀ p ∈ i.parts, vd.val < (s.grp i.core p.1).vregs ∧ sa.val < (s.grp i.core p.1).sregs) →
    ∃ t, exec (.movs c vd sa) s = .next t ∧ LaneResult s t i c.g.val [vd] fun p _ => [(vd, (s.grp i.core p.1).sreg sa)]

/-- R100, R101: the unary functions and the bit fields. -/
def Obligations.FieldWords : Prop :=
  (∀ (c : LaneCtl) (fn : IUn) (vd va : VReg),
    LaneComputes (.iun c fn vd va) c.g [(vd, if fn.isPair then 2 else 1), (va, 1)] [va]
      (if fn.isPair then [vd.val, vd.val + 1] else [vd.val]) fun rd =>
        if fn.isPair then putPair vd (iunVal fn (rd va)).toNat else [(vd.val, (iunVal fn (rd va)).setWidth 32)]) ∧
  (∀ (c : LaneCtl) (sgn : Bool) (vd va : VReg) (f : FieldPos),
    LaneComputes (.bfx c sgn vd va f) c.g ([(vd.val, 1), (va.val, 1)] ++ (fieldRegs f).map (·, 1)) (va.val :: fieldRegs f) [vd]
      fun rd => [(vd, bfxVal sgn (rd va) (fieldPos f rd))]) ∧
  ∀ (c : LaneCtl) (vd va vb : VReg) (f : FieldPos),
    LaneComputes (.bfi c vd va vb f) c.g ([(vd.val, 1), (va.val, 1), (vb.val, 1)] ++ (fieldRegs f).map (·, 1))
      (va.val :: vb.val :: fieldRegs f) [vd] fun rd => [(vd, bfiVal (rd va) (rd vb) (fieldPos f rd))]

/-- R79, R100, R101, R123, R16, R29, R200: the value of each unary function, of the bit fields, of each integer condition and of each
integer reduction; the element that a plane format reads, and the block sums of integers. -/
def Obligations.IntegerValues : Prop :=
  (∀ a : Word,
    (iunVal .not a).toNat = 2 ^ 32 - 1 - a.toNat ∧
    (iunVal .neg a).toNat = (2 ^ 32 - a.toNat) % 2 ^ 32 ∧
    (iunVal .abs a).toNat = a.toInt.natAbs ∧
    (iunVal .popc a).toNat = (List.range 32).countP (fun i => a.getLsbD i) ∧
    (a = 0 → (iunVal .clz a).toNat = 32 ∧ (iunVal .ctz a).toNat = 32) ∧
    (a ≠ 0 → 2 ^ 31 ≤ a.toNat * 2 ^ (iunVal .clz a).toNat ∧ a.toNat * 2 ^ (iunVal .clz a).toNat < 2 ^ 32) ∧
    (a ≠ 0 → a.toNat % 2 ^ (iunVal .ctz a).toNat = 0 ∧ a.getLsbD (iunVal .ctz a).toNat = true) ∧
    (∀ i, i < 32 → (iunVal .brev a).getLsbD i = a.getLsbD (31 - i)) ∧
    ((iunVal .sext8 a).setWidth 32).toInt = (a.setWidth 8).toInt ∧
    ((iunVal .sext16 a).setWidth 32).toInt = (a.setWidth 16).toInt ∧
    (iunVal .zext8 a).toNat = a.toNat % 2 ^ 8 ∧
    (iunVal .zext16 a).toNat = a.toNat % 2 ^ 16 ∧
    (iunVal .sext64 a).toInt = a.toInt ∧
    (iunVal .zext64 a).toNat = a.toNat) ∧
  (∀ (a b : Word) (pos len i : Nat), i < 32 →
    ((fieldOf pos len).2 = if pos < 32 then min len (32 - pos) else 0) ∧
    (bfxVal false a (fieldOf pos len)).getLsbD i = (decide (i < (fieldOf pos len).2) && a.getLsbD (pos + i)) ∧
    (bfxVal true a (fieldOf pos len)).getLsbD i = (if (fieldOf pos len).2 = 0 then false
      else a.getLsbD (pos + min i ((fieldOf pos len).2 - 1))) ∧
    (bfiVal a b (fieldOf pos len)).getLsbD i = (if pos ≤ i ∧ i < pos + (fieldOf pos len).2 then b.getLsbD (i - pos) else a.getLsbD i)) ∧
  (∀ a b : Word,
    let h := fun c => Cond.holds c 32 a.toNat b.toNat
    h .eq = decide (a = b) ∧ h .ne = decide (a ≠ b) ∧
    h .lt = decide (a.toInt < b.toInt) ∧ h .le = decide (a.toInt ≤ b.toInt) ∧
    h .gt = decide (a.toInt > b.toInt) ∧ h .ge = decide (a.toInt ≥ b.toInt) ∧
    h .ltu = decide (a.toNat < b.toNat) ∧ h .leu = decide (a.toNat ≤ b.toNat) ∧
    h .gtu = decide (a.toNat > b.toNat) ∧ h .geu = decide (a.toNat ≥ b.toNat) ∧
    h .bset = decide (a &&& b ≠ 0) ∧ h .bclr = decide (a &&& b = 0)) ∧
  ([ReduxOp.add, .min, .max, .umin, .umax, .and, .or, .xor, .fadd, .fmin, .fmax].map fun op => (reduxList op []).toNat) =
    [0, 0x7FFFFFFF, 0x80000000, 0xFFFFFFFF, 0, 0xFFFFFFFF, 0, 0, 0, 0x7F800000, 0xFF800000] ∧
  (∀ (w : Word) (ws : List Word),
    let l := w :: ws
    let r := fun op => reduxList op l
    (r .add).toNat = (l.map BitVec.toNat).sum % 2 ^ 32 ∧
    (r .min ∈ l ∧ ∀ x ∈ l, (r .min).toInt ≤ x.toInt) ∧ (r .max ∈ l ∧ ∀ x ∈ l, x.toInt ≤ (r .max).toInt) ∧
    (r .umin ∈ l ∧ ∀ x ∈ l, (r .umin).toNat ≤ x.toNat) ∧ (r .umax ∈ l ∧ ∀ x ∈ l, x.toNat ≤ (r .umax).toNat) ∧
    ∀ i, (r .and).getLsbD i = l.all (·.getLsbD i) ∧ (r .or).getLsbD i = l.any (·.getLsbD i) ∧
      (r .xor).getLsbD i = decide (l.countP (·.getLsbD i) % 2 = 1)) ∧
  (∀ (u : Slot) (gen : Gen) (f : Fmt) (centre : Bool) (i e x : Nat), f.isPlane = true → u.tag = gen → u.bad = [] → x < 256 →
    (centre = true → f.planes < 8) → (∀ q, q < 8 → (u.row gen i).testBit (128 * q + e) = x.testBit (7 - q)) →
    let v : Int := if f.planeSigned = true ∧ 128 ≤ x then (x : Int) - 256 else x
    let step : Int := 2 ^ (8 - f.planes)
    u.value gen f centre i e = (.ofInt (v / step * step + if centre then 2 ^ (7 - f.planes) else 0), false)) ∧
  ∀ (part : Bool) (acc : List Word) (A B : List (List Int)), acc.length = A.length * B.length →
    let sum := fun i j => (if part then 0 else (acc.getD (B.length * i + j) 0).toInt) +
      (List.zipWith (· * ·) (A.getD i []) (B.getD j [])).sum
    let out := foldBlock true part acc (A.map (·.map FVal.ofInt)) (B.map (·.map FVal.ofInt))
    (∀ i j, i < A.length → j < B.length → out.1.getD (B.length * i + j) 0 = BitVec.ofInt 32 (sum i j)) ∧
    (out.2 = true ↔ ∃ i j, i < A.length ∧ j < B.length ∧ (sum i j < -2 ^ 31 ∨ 2 ^ 31 ≤ sum i j))

/-- R102, R110: the comparisons write one predicate in the threads that execute; what each condition decides stands in
`IntegerValues` and `FloatValues`. -/
def Obligations.CompareWords : Prop :=
  (∀ (c : LaneCtl) (cond : Cond) (pd : PReg) (va vb : VReg),
    LaneDecides (.icmp c cond pd va vb) c.g pd [va, vb] fun rd => Cond.holds cond 32 (rd va).toNat (rd vb).toNat) ∧
  ∀ (c : LaneCtl) (cond : FCond) (pd : PReg) (va vb : VReg),
    LaneDecides (.fcmp c cond pd va vb) c.g pd [va, vb] fun rd => fcondTest cond (rd va).toNat (rd vb).toNat

/-- R106, R108, R111: the `f32` words; what `fminmax` and `funApply` give stands in `FloatValues`. -/
def Obligations.FloatWords : Prop :=
  let f32 := fun (f : Nat → Nat → Nat) (a b : Word) => BitVec.ofNat 32 (f a.toNat b.toNat)
  LaneComputes2 .fadd (f32 (fmt32.addC .rne)) ∧
  LaneComputes2 .fsub (f32 (fmt32.subC .rne)) ∧
  LaneComputes2 .fmul (f32 (fmt32.mulC .rne)) ∧
  LaneComputes2 .fmin (f32 (fminmax false)) ∧
  LaneComputes2 .fmax (f32 (fminmax true)) ∧
  (∀ (c : LaneCtl) (vd va vb : VReg),
    LaneComputes (.ffma c vd va vb) c.g [(vd, 1), (va, 1), (vb, 1)] [vd, va, vb] [vd] fun rd =>
      [(vd, BitVec.ofNat 32 (fmt32.fmaC .rne (rd va).toNat (rd vb).toNat (rd vd).toNat))]) ∧
  ∀ (c : LaneCtl) (fn : FunFn) (ftz : Bool) (vd va : VReg),
    LaneComputes (.funf c fn ftz vd va) c.g [(vd, 1), (va, 1)] [va] [vd] fun rd =>
      [(vd, BitVec.ofNat 32 (funApply fn ftz (rd va).toNat))]

/-- R107, R109: the general and the dividing words, in each type they take. -/
def Obligations.GeneralFloatWords : Prop :=
  (∀ (c : LaneCtl) (op : FmaOp) (mode : Mode) (ftz : Bool) (vd va vb vc : VReg),
    let vcs : List Nat := if op = .fma then [vc.val] else []
    LaneComputes (.ffmax c op .f32 mode ftz vd va vb vc) c.g ([(vd.val, 1), (va.val, 1), (vb.val, 1)] ++ vcs.map (·, 1))
      (va.val :: vb.val :: vcs) [vd] (fun rd =>
        [(vd, BitVec.ofNat 32 (fmaApply op fmt32 mode ftz (rd va).toNat (rd vb).toNat (rd vc).toNat))]) ∧
    LaneComputes (.ffmax c op .f16 mode ftz vd va vb vc) c.g ([(vd.val, 1), (va.val, 1), (vb.val, 1)] ++ vcs.map (·, 1))
      (va.val :: vb.val :: vcs) [vd] (fun rd => [(vd, halves (fmaApply op fmt16 mode false) (rd va) (rd vb) (rd vc))]) ∧
    LaneComputes (.ffmax c op .f64 mode ftz vd va vb vc) c.g ([(vd.val, 2), (va.val, 2), (vb.val, 2)] ++ vcs.map (·, 2))
      ([va.val, va.val + 1, vb.val, vb.val + 1] ++ vcs.flatMap fun r => [r, r + 1]) [vd, vd.val + 1] (fun rd =>
        putPair vd (fmaApply op fmt64 mode false (pairOf rd va) (pairOf rd vb) (pairOf rd vc)))) ∧
  ∀ (c : LaneCtl) (mode : Mode) (ftz : Bool) (vd va vb : VReg),
    let quot := fun (f : FloatFmt) (a b : Nat) =>
      f.encode (flush ftz (f.narrow mode (FVal.div (flush ftz (f.decode a)) (flush ftz (f.decode b)))))
    LaneComputes (.fdiv c false mode ftz vd va vb) c.g [(vd, 1), (va, 1), (vb, 1)] [va, vb] [vd] (fun rd =>
      [(vd, BitVec.ofNat 32 (quot fmt32 (rd va).toNat (rd vb).toNat))]) ∧
    LaneComputes (.fdiv c true mode ftz vd va vb) c.g [(vd, 2), (va, 2), (vb, 2)] [va, va.val + 1, vb, vb.val + 1]
      [vd, vd.val + 1] (fun rd => putPair vd (quot fmt64 (pairOf rd va) (pairOf rd vb)))

/-- R112 to R115: the packed halves, the `f64` pairs and the dot products of bytes. -/
def Obligations.PackedWords : Prop :=
  LaneComputes2 .hpadd (fun a b => halves (fun x y _ => fmt16.addC .rne x y) a b 0) ∧
  LaneComputes2 .hpmul (fun a b => halves (fun x y _ => fmt16.mulC .rne x y) a b 0) ∧
  LaneComputesPairs .dadd (fmt64.addC .rne) ∧
  LaneComputesPairs .dmul (fmt64.mulC .rne) ∧
  (∀ (c : LaneCtl) (vd va vb : VReg),
    LaneComputes (.hpfma c vd va vb) c.g [(vd, 1), (va, 1), (vb, 1)] [vd, va, vb] [vd] (fun rd =>
      [(vd, halves (fmt16.fmaC .rne) (rd va) (rd vb) (rd vd))]) ∧
    LaneComputes (.dfma c vd va vb) c.g [(vd, 2), (va, 2), (vb, 2)] [vd, vd.val + 1, va, va.val + 1, vb, vb.val + 1]
      [vd, vd.val + 1] (fun rd => putPair vd (fmt64.fmaC .rne (pairOf rd va) (pairOf rd vb) (pairOf rd vd)))) ∧
  ∀ (c : LaneCtl) (x y : Bool) (mode : Mode) (vd va vb vc : VReg),
    LaneComputes (.fdot8 c x y mode vd va vb vc) c.g [(vd, 1), (va, 1), (vb, 1), (vc, 1)] [va, vb, vc] [vd] (fun rd =>
      [(vd, BitVec.ofNat 32 (fdot8Val (if x then .e5m2 else .e4m3) (if y then .e5m2 else .e4m3) mode (rd va) (rd vb) (rd vc)))]) ∧
    LaneComputes (.idot4 c x y vd va vb vc) c.g [(vd, 1), (va, 1), (vb, 1), (vc, 1)] [va, vb, vc] [vd] (fun rd =>
      [(vd, BitVec.ofInt 32 ((rd vc).toNat + ((List.range 4).map fun i =>
        (if x then sextNat (byteAt (rd va) i) 8 else (byteAt (rd va) i : Int)) *
          (if y then sextNat (byteAt (rd vb) i) 8 else (byteAt (rd vb) i : Int))).sum))])

/-- R10, R11, R105: in `f16`, `f32` and `f64` encoding the value of a code gives the code back, and every NaN code gives the
canonical NaN; in `f32` a NaN operand and an undefined sum or product give the canonical NaN, and a sum that cancels exactly is
the positive zero, the negative one under `rd`. R108, R110, R111, R123, R24, R26, R27: what `FMIN`, `FMAX`, the conditions of `FCMP`, the
functions of `FUN`, the `f32` reductions and the block sums of the matrix path give. That `exp2`, `log2`, `sin` and `cos` are correctly
rounded at every operand rests on notes/assumptions/12.md and is not stated. -/
def Obligations.FloatValues : Prop :=
  (∀ f ∈ [fmt16, fmt32, fmt64], ∀ c, c < 2 ^ (1 + f.ebits + f.mbits) →
    f.encode (f.decode c) = if (f.decode c).isNan then f.canon else c) ∧
  (∀ (mode : Mode) (a b c : Nat),
    (((fmt32.decode a).isNan ∨ (fmt32.decode b).isNan) →
      fmt32.addC mode a b = 0x7FC00000 ∧ fmt32.subC mode a b = 0x7FC00000 ∧ fmt32.mulC mode a b = 0x7FC00000 ∧
      fmt32.fmaC mode a b c = 0x7FC00000 ∧ fmt32.fmaC mode c a b = 0x7FC00000) ∧
    (∀ s, fmt32.decode a = .inf s → fmt32.decode b = .inf (!s) → fmt32.addC mode a b = 0x7FC00000) ∧
    (∀ s, fmt32.decode a = .inf s → (fmt32.decode b).isZero → fmt32.mulC mode a b = 0x7FC00000) ∧
    (∀ s m, fmt32.decode a = .fin s m → fmt32.decode b = .fin (!s) m →
      fmt32.addC mode a b = if mode = .rd then 0x80000000 else 0) ∧
    (∀ s m, fmt32.decode a = .fin s m → fmt32.decode b = .fin s m →
      fmt32.subC mode a b = if mode = .rd then 0x80000000 else 0)) ∧
  (∀ a b : Nat,
    let x := fmt32.decode a
    let y := fmt32.decode b
    let h := fun c => fcondTest c a b = true
    (x.isNan = true ∨ y.isNan = true →
      (∀ most, fminmax most a b = if x.isNan = false then a else if y.isNan = false then b else 0x7FC00000) ∧
      ∀ c, h c ↔ c ∈ [FCond.ne, .uno, .ueq, .ult, .ule, .ugt, .uge]) ∧
    (x.isNan = false → y.isNan = false →
      (x.below y → fminmax false a b = a ∧ fminmax true a b = b) ∧
      (y.below x → fminmax false a b = b ∧ fminmax true a b = a) ∧
      (¬ x.below y → ¬ y.below x → a < 2 ^ 32 → b < 2 ^ 32 →
        fminmax false a b = (if a = b then a else 0x80000000) ∧ fminmax true a b = if a = b then a else 0) ∧
      h .ord ∧ ¬ h .uno ∧ (h .lt ↔ x.below y) ∧ (h .gt ↔ y.below x) ∧ (h .le ↔ ¬ y.below x) ∧ (h .ge ↔ ¬ x.below y) ∧
      (h .eq ↔ ¬ x.below y ∧ ¬ y.below x) ∧ (h .ne ↔ x.below y ∨ y.below x) ∧ (h .lg ↔ h .ne) ∧ (h .ueq ↔ h .eq) ∧
      (h .ult ↔ h .lt) ∧ (h .ule ↔ h .le) ∧ (h .ugt ↔ h .gt) ∧ (h .uge ↔ h .ge))) ∧
  ([(FunFn.rcp, 0, 0x7F800000), (.rcp, 0x80000000, 0xFF800000), (.rcp, 0x7F800000, 0), (.rcp, 0xFF800000, 0x80000000),
    (.rsq, 0, 0x7F800000), (.rsq, 0x80000000, 0xFF800000), (.rsq, 0x7F800000, 0), (.rsq, 0xFF800000, 0x7FC00000),
    (.sqrt, 0, 0), (.sqrt, 0x80000000, 0x80000000), (.sqrt, 0x7F800000, 0x7F800000), (.sqrt, 0xFF800000, 0x7FC00000),
    (.exp2, 0x7F800000, 0x7F800000), (.exp2, 0xFF800000, 0),
    (.log2, 0, 0xFF800000), (.log2, 0x80000000, 0xFF800000), (.log2, 0x7F800000, 0x7F800000), (.log2, 0xFF800000, 0x7FC00000),
    (.log2, 0x3F800000, 0), (.sin, 0, 0), (.sin, 0x80000000, 0x80000000), (.sin, 0x7F800000, 0x7FC00000),
    (.sin, 0xFF800000, 0x7FC00000), (.cos, 0x7F800000, 0x7FC00000), (.cos, 0xFF800000, 0x7FC00000), (.ceil, 0xBF000000, 0x80000000),
    (.fract, 0, 0), (.fract, 0x80000000, 0), (.fract, 0x7F800000, 0x7FC00000), (.fract, 0xFF800000, 0x7FC00000),
    (.fract, 0xB0800000, 0x3F7FFFFF)].all fun e => funApply e.1 false e.2.1 == e.2.2) = true ∧
  (∀ (fn : FunFn) (a : Nat),
    ((fmt32.decode a).isNan = true → ∀ ftz, funApply fn ftz a = 0x7FC00000) ∧
    funApply fn true a = fmt32.encode (flush true (fmt32.decode (funApply fn false (fmt32.encode (flush true (fmt32.decode a)))))) ∧
    ∀ s m, (flush true (.fin s m) = if m < 1 / 2 ^ 126 then .fin s 0 else .fin s m)) ∧
  (∀ (a : Nat) (s : Bool) (m : Rat), fmt32.decode a = .fin s m →
    let r := fun fn => fmt32.decode (funApply fn false a)
    let v : Rat := if s then -m else m
    let nearest := fun (y sq : Rat) => fmt32.holds y ∧ ∀ u, fmt32.holds u → (u < y → (u + y) ^ 2 ≤ 4 * sq) ∧ (y < u → 4 * sq ≤ (u + y) ^ 2)
    r .abs = .fin false m ∧ r .neg = .fin (!s) m ∧
    (m ≠ 0 → s = true → funApply .rsq false a = 0x7FC00000 ∧ funApply .sqrt false a = 0x7FC00000 ∧ funApply .log2 false a = 0x7FC00000) ∧
    (m ≠ 0 → r .rcp = fmt32.narrow .rne (.fin s (1 / m))) ∧
    (m ≠ 0 → s = false → (∃ y, r .sqrt = .fin false y ∧ nearest y m) ∧ ∃ y, r .rsq = .fin false y ∧ nearest y (1 / m)) ∧
    (∀ n : Int, v = n → funApply .exp2 false a =
      if n < -149 then 0 else if 127 < n then 0x7F800000 else fmt32.encode (.fin false (pow2 n))) ∧
    (∀ n : Int, v = pow2 n → r .log2 = .ofInt n) ∧
    r .floor = .fin s (⌊v⌋.natAbs : Rat) ∧ r .ceil = .fin s (⌈v⌉.natAbs : Rat) ∧
    r .trunc = .fin (s && (m == 0 || decide (1 ≤ m))) (⌊m⌋ : Rat) ∧
    (∃ k : Nat, r .rint = .fin (s && (m == 0 || k != 0)) (k : Rat) ∧ |m - k| ≤ 1 / 2 ∧ (|m - k| = 1 / 2 → k % 2 = 0)) ∧
    ∃ y, r .fract = .fin false y ∧ fmt32.holds y ∧ y ≤ v - ⌊v⌋ ∧ ∀ u, fmt32.holds u → u ≤ v - ⌊v⌋ → u ≤ y) ∧
  (∀ (w : Word) (ws : List Word),
    let l := w :: ws
    let d := fun x : Word => fmt32.decode x.toNat
    let sum := (l.map fun x => (d x).toRat).sum
    let r := (reduxList .fadd l).toNat
    ((∃ x ∈ l, (d x).isNan = true) ∨ ((∃ x ∈ l, d x = .inf false) ∧ ∃ x ∈ l, d x = .inf true) → r = 0x7FC00000) ∧
    (∀ s, (∃ x ∈ l, d x = .inf s) → (∀ x ∈ l, (d x).isNan = false ∧ d x ≠ .inf (!s)) → r = if s then 0xFF800000 else 0x7F800000) ∧
    ((∀ x ∈ l, ∃ s m, d x = .fin s m) →
      (sum ≠ 0 → r = fmt32.encode (fmt32.narrow .rne (.fin (decide (sum < 0)) |sum|))) ∧
      (sum = 0 → r = if ∀ x ∈ l, x = 0x80000000 then 0x80000000 else 0)) ∧
    ((∀ x ∈ l, (d x).isNan = true) → reduxList .fmin l = 0x7FC00000 ∧ reduxList .fmax l = 0x7FC00000) ∧
    ((∃ x ∈ l, (d x).isNan = false) →
      let lo := reduxList .fmin l
      let hi := reduxList .fmax l
      (lo ∈ l ∧ (d lo).isNan = false ∧ ∀ x ∈ l, ¬ (d x).below (d lo) ∧ (x = 0x80000000 → lo ≠ 0)) ∧
      (hi ∈ l ∧ (d hi).isNan = false ∧ ∀ x ∈ l, ¬ (d hi).below (d x) ∧ (x = 0 → hi ≠ 0x80000000)))) ∧
  (∀ (u : Slot) (gen : Gen) (f : Fmt) (centre : Bool) (b i k : Nat), i < 128 → k < 32 → f.isPlane = false → u.tag = gen → u.bad = [] →
    ((u.block gen f centre b).getD i [])[k]? =
      some (fmtValue f (u.row gen i / 2 ^ (f.width * (32 * b + k)) % 2 ^ f.width), false)) ∧
  (∀ (part : Bool) (acc : List Word) (a b : List (List FVal)), acc.length = a.length * b.length →
    (foldBlock false part acc a b).2 = false ∧ ∀ i j, i < a.length → j < b.length →
      let products := List.zipWith FVal.mul (a.getD i []) (b.getD j [])
      let terms := if part then products else fmt32.decode (acc.getD (b.length * i + j) 0).toNat :: products
      let sum := (terms.map FVal.toRat).sum
      let r := ((foldBlock false part acc a b).1.getD (b.length * i + j) 0).toNat
      ((∃ x ∈ terms, x.isNan = true) ∨ (.inf false ∈ terms ∧ .inf true ∈ terms) → r = 0x7FC00000) ∧
      (∀ s, .inf s ∈ terms → (∀ x ∈ terms, x.isNan = false ∧ x ≠ .inf (!s)) → r = if s then 0xFF800000 else 0x7F800000) ∧
      ((∀ x ∈ terms, ∃ s m, x = .fin s m) →
        let y := fmt32.roundMag .rne (decide (sum < 0)) |sum| 0
        r = if y = 0 then 0 else fmt32.encode (fmt32.narrow .rne (.fin (decide (sum < 0)) |sum|)))) ∧
  ∀ a b : FVal, FVal.mul a b = match a, b with
    | .nan, _ | _, .nan => .nan
    | .inf s, .inf t => .inf (s != t)
    | .inf s, .fin t m | .fin s m, .inf t => if m = 0 then .nan else .inf (s != t)
    | .fin s m, .fin t n => .fin (s != t) (m * n)

/-- R18, R20: a rounding gives a magnitude of the format, with no upper exponent bound, and the magnitude itself where the format
holds it; `rz` takes the greatest one not above it, the directed modes that or the least one not below it, by the sign; `rne` takes
the nearest, at a tie the one of even code, and `rs` the upper one where the lane's state lies below the 32-bit fraction. R20 to R23: what a
conversion gives, with its flags and the lane's state, into a float format, into a scale and into an integer format. -/
def Obligations.RoundingNearest : Prop :=
  (∀ (fmt : Fmt) (f : FloatFmt), floatFmt fmt = some f → ∀ (m : Rat) (neg : Bool) (rs : Word), 0 ≤ m →
    let y := fun mode => f.roundMag mode neg m rs
    let down := f.roundMag .rz false m 0
    let up := f.roundMag .ru false m 0
    (∀ mode, f.holds (y mode) ∧ (f.holds m → y mode = m)) ∧
    (f.holds down ∧ down ≤ m ∧ ∀ v, f.holds v → v ≤ m → v ≤ down) ∧
    (f.holds up ∧ m ≤ up ∧ ∀ v, f.holds v → m ≤ v → up ≤ v) ∧
    y .rz = down ∧ y .rd = (if neg then up else down) ∧ y .ru = (if neg then down else up) ∧
    (∀ v, f.holds v → |m - y .rne| ≤ |m - v| ∧ (|m - y .rne| = |m - v| → v ≠ y .rne → f.holdsEven (y .rne))) ∧
    (¬ f.holds m → y .rs = if (rs.toNat : Int) < ⌊(m - down) / (up - down) * 2 ^ 32⌋ then up else down) ∧
    ∀ c s v, f.decode c = .fin s v → f.holds v) ∧
  ([Fmt.f64, .f32, .f16, .bf16, .e4m3, .e5m2, .e3m2, .e2m3, .e2m1].map fun fmt => (floatFmt fmt).map FloatFmt.maxFinite) =
    [some ((2 ^ 53 - 1) * 2 ^ 971), some ((2 ^ 24 - 1) * 2 ^ 104), some 65504, some ((2 ^ 8 - 1) * 2 ^ 120), some 448, some 57344,
      some 28, some (15 / 2), some 6] ∧
  (∀ (fmt : Fmt) (f : FloatFmt), floatFmt fmt = some f → ∀ (mode : Mode) (seed : Word) (bound : Option FVal),
    let conv := fun x => fmtConvert fmt x mode bound seed
    let most := f.maxFinite
    let state := if mode = .rs then xorshift seed else seed
    (conv .nan = if fmt ∈ [Fmt.e3m2, .e2m3, .e2m1] then { val := .fin false 0, nv := true, rs := seed } else { val := .nan, rs := seed }) ∧
    (bound = none ∨ bound = some .nan →
      (∀ s, conv (.inf s) = if fmt ∈ [Fmt.e4m3, .e3m2, .e2m3, .e2m1] then { val := .fin s most, of := true, rs := seed }
        else { val := .inf s, rs := seed }) ∧
      ∀ s m, let y := f.roundMag mode s m state
        (y ≤ most → conv (.fin s m) = { val := .fin s y, rs := state }) ∧
        (most < y → conv (.fin s m) = { of := true, rs := state, val :=
          if fmt ∈ [Fmt.e4m3, .e3m2, .e2m3, .e2m1] then .fin s most else match mode with
            | .rne | .rs => .inf s
            | .rz => .fin s most
            | .rd => if s then .inf true else .fin false most
            | .ru => if s then .fin true most else .inf false })) ∧
    ∀ b, bound = some b → (b = .inf false ∨ ∃ r, 0 ≤ r ∧ b = .fin false r) → ∃ bb,
      (b = .inf false → bb = most) ∧
      (∀ r, b = .fin false r → f.holds bb ∧ bb ≤ r ∧ bb ≤ most ∧ ∀ v, f.holds v → v ≤ r → v ≤ most → v ≤ bb) ∧
      (∀ s, conv (.inf s) = { val := .fin s bb, of := true, rs := seed }) ∧
      ∀ s m, let y := f.roundMag mode s m state
        conv (.fin s m) = if bb < y then { val := .fin s bb, of := true, rs := state } else { val := .fin s y, rs := state }) ∧
  (∀ (mode : Mode) (seed : Word), mode ≠ .rs →
    let conv := fun x => fmtConvert .e8m2s x mode none seed
    let scale := fun k : Nat => pow2 ((k / 4 : Nat) - 129 : Int) * ((4 + k % 4 : Nat) : Rat)
    conv .nan = { val := .nan, rs := seed } ∧ fmtCode .e8m2s .nan = 0x3FF ∧
    conv (.inf true) = { val := .fin false 0, of := true, rs := seed } ∧
    (conv (.inf false)).of = true ∧ fmtCode .e8m2s (conv (.inf false)).val = 0x3FE ∧
    (∀ k, 0 < k → k < 0x3FF → fmtValue .e8m2s k = .fin false (scale k) ∧ fmtCode .e8m2s (.fin false (scale k)) = k ∧
      conv (.fin false (scale k)) = { val := .fin false (scale k), rs := seed }) ∧
    (∀ s, conv (.fin s 0) = { val := .fin false 0, rs := seed }) ∧
    (∀ m, 0 < m → conv (.fin true m) = { val := .fin false 0, of := true, rs := seed }) ∧
    (∀ m, scale 0x3FE < m → (conv (.fin false m)).val = .fin false (scale 0x3FE)) ∧
    (∀ m k, 0 < k → k < 0x3FE → scale k < m → m < scale (k + 1) → ∃ j, (j = k ∨ j = k + 1) ∧
      conv (.fin false m) = { val := .fin false (scale j), rs := seed } ∧ (mode = .rz ∨ mode = .rd → j = k) ∧ (mode = .ru → j = k + 1) ∧
      (mode = .rne → (m - scale k < scale (k + 1) - m → j = k) ∧ (scale (k + 1) - m < m - scale k → j = k + 1) ∧
        (m - scale k = scale (k + 1) - m → j % 2 = 0))) ∧
    ∀ m, 0 < m → m < scale 1 → ∃ j, (j = 0 ∨ j = scale 1) ∧ conv (.fin false m) = { val := .fin false j, rs := seed } ∧
      (mode = .rz ∨ mode = .rd → j = 0) ∧ (mode = .ru → j = scale 1) ∧ (mode = .rne → j = if scale 1 < 2 * m then scale 1 else 0)) ∧
  ([Fmt.s8, .s16, .s32, .s64, .u8, .u16, .u32, .u64].map intRange) =
    [(-2 ^ 7, 2 ^ 7 - 1), (-2 ^ 15, 2 ^ 15 - 1), (-2 ^ 31, 2 ^ 31 - 1), (-2 ^ 63, 2 ^ 63 - 1), (0, 2 ^ 8 - 1), (0, 2 ^ 16 - 1),
      (0, 2 ^ 32 - 1), (0, 2 ^ 64 - 1)] ∧
  ∀ (f : Fmt) (mode : Mode) (seed : Word) (bound : Option FVal) (lo hi : Int), floatFmt f = none → f ≠ .e8m2s → mode ≠ .rs →
    ((bound = none ∨ bound = some .nan ∨ bound = some (.inf false)) ∧ (lo, hi) = intRange f ∨
      ∃ b : Rat, 0 ≤ b ∧ bound = some (.fin false b) ∧ lo = max (intRange f).1 (-⌊b⌋) ∧ hi = min (intRange f).2 ⌊b⌋) →
    let conv := fun x => fmtConvert f x mode bound seed
    conv .nan = { val := .fin false 0, nv := true, rs := seed } ∧
    (∀ s, conv (.inf s) = { val := .ofInt (if s then lo else hi), of := true, rs := seed }) ∧
    ∀ s m, 0 ≤ m → ∃ n : Int,
      let v : Rat := if s then -m else m
      (mode = .rz → n = if s then ⌈v⌉ else ⌊v⌋) ∧ (mode = .rd → n = ⌊v⌋) ∧ (mode = .ru → n = ⌈v⌉) ∧
      (mode = .rne → |v - n| ≤ 1 / 2 ∧ (|v - n| = 1 / 2 → n % 2 = 0)) ∧
      conv (.fin s m) = { val := .ofInt (max lo (min hi n)), of := decide (max lo (min hi n) ≠ n), rs := seed }

/-- R116 to R118: the conversion of one element in each thread that executes, with the stochastic state of the thread and
the sticky flags of its group; what `fmtConvert` gives stands in `RoundingNearest`. -/
def Obligations.ConvertWord : Prop :=
  (∀ (dst src : Fmt) (mode : Mode) (ftz : Bool) (bound : Option Word) (rs : Word) (code : Nat),
    let value := fmtValue src code
    let x := match ftz && src == .f32, value with
      | true, .fin s m => if m < 1 / 2 ^ 126 then .fin s 0 else .fin s m
      | _, _ => value
    let y := fmtConvert dst x mode (bound.map fun b => (fmt32.decode b.toNat).abs) rs
    (cvtElement dst src mode ftz bound rs code).2 = y ∧
    (cvtElement dst src mode ftz bound rs code).1 = fmtCode dst (match ftz && dst == .f32, y.val with
      | true, .fin s m => if m < 1 / 2 ^ 126 then .fin s 0 else .fin s m
      | _, _ => y.val)) ∧
  ∀ (c : LaneCtl) (dst src : Fmt) (mode : Mode) (ftz : Bool) (clamp : Option VReg) (vd : VReg) (di : Fin 16) (va : VReg)
    (si : Fin 16) (s : State) (i : Inst), s.running i → i.handler = false →
    (∀ p ∈ i.parts, s.laneReady i p.1 (cvtRegs dst src clamp vd va) (cvtSrcs dst src clamp vd va)) →
    (mode = .rs → ∀ p ∈ i.parts, (s.core i.core).drainsRs p.1 (s.genOf i.core p.1) = false) →
    ∃ t, exec (.cvt c dst src mode ftz clamp vd di va si) s = .next t ∧ CvtFrame s t i (cvtDsts dst vd) ∧
      (∀ p ∈ i.parts, ∀ l, l < 64 → p.2.testBit l = true → (t.thr i.core p.1 l).pc = i.after) ∧
      (∀ p ∈ i.parts, ∀ l, s.executes i p c.g l →
        (∀ w ∈ cvtWords dst vd di (s.rdV i.core p.1 vd l) (s.cvtOf i p dst src mode ftz clamp va si l).1,
          t.rdV i.core p.1 w.1 l = w.2) ∧
        (t.thr i.core p.1 l).seed = (s.cvtOf i p dst src mode ftz clamp va si l).2.rs) ∧
      (∀ p ∈ i.parts, ∀ l, ¬ s.executes i p c.g l →
        (∀ r, r < 128 → t.rdV i.core p.1 r l = s.rdV i.core p.1 r l) ∧ (t.thr i.core p.1 l).seed = (s.thr i.core p.1 l).seed) ∧
      ∀ p ∈ i.parts, ∀ n, (t.grp i.core p.1).mxstat.getLsbD n = ((s.grp i.core p.1).mxstat.getLsbD n ||
        (n == 0 && (s.executing i p c.g).any fun l => (s.cvtOf i p dst src mode ftz clamp va si l).2.nv) ||
        (n == 1 && (s.executing i p c.g).any fun l => (s.cvtOf i p dst src mode ftz clamp va si l).2.of))

/-- R120 to R123: the cross-lane words take part with the lanes that execute; what `reduxList` gives stands in `IntegerValues` and
`FloatValues`. -/
def Obligations.CrossLaneWords : Prop :=
  (∀ (c : LaneCtl) (mode : ShflMode) (vd va : VReg) (b : ShflSrc) (s : State) (i : Inst), s.running i → i.handler = false →
    (∀ p ∈ i.parts, s.laneReady i p.1 ([(vd.val, 1), (va.val, 1)] ++ (shflRegs b).map (·, 1)) (va.val :: shflRegs b)) →
    ∃ t, exec (.shfl c mode vd va b) s = .next t ∧ LaneResult s t i c.g.val [vd] fun p l =>
      [(vd, s.shflVal i p c.g va l (shflLane mode l (shflValue b fun r => s.rdV i.core p.1 r l)))]) ∧
  (∀ (c : LaneCtl) (vd : VReg) (pd : PReg) (neg : Bool) (ps : PReg) (s : State) (i : Inst), s.running i → i.handler = false →
    (∀ p ∈ i.parts, s.laneReady i p.1 [(vd, 2)] []) →
    ∃ t, exec (.vote c .ballot vd pd neg ps) s = .next t ∧ LaneResult s t i c.g.val [vd, vd.val + 1] fun p _ =>
      putPair vd (listMask ((s.executing i p c.g).filter (s.votes i p ps neg)))) ∧
  (∀ (c : LaneCtl) (mode : VoteMode) (vd : VReg) (pd : PReg) (neg : Bool) (ps : PReg) (s : State) (i : Inst), mode ≠ .ballot →
    s.running i → i.handler = false → (∀ p ∈ i.parts, s.laneReady i p.1 [(vd, 1)] []) →
    ∃ t, exec (.vote c mode vd pd neg ps) s = .next t ∧ LaneFrame s t i [vd] pd ∧
      (∀ p ∈ i.parts, ∀ l, l < 64 → p.2.testBit l = true → (t.thr i.core p.1 l).pc = i.after) ∧
      (∀ p ∈ i.parts, ∀ l, s.executes i p c.g l →
        t.rdV i.core p.1 vd l = (if s.voteVal i p c.g mode ps neg then 1 else 0) ∧
        (t.thr i.core p.1 l).pred pd = (pd.val == 7 || s.voteVal i p c.g mode ps neg)) ∧
      ∀ p ∈ i.parts, ∀ l, ¬ s.executes i p c.g l → t.rdV i.core p.1 vd l = s.rdV i.core p.1 vd l ∧
        (t.thr i.core p.1 l).preds = (s.thr i.core p.1 l).preds) ∧
  ∀ (c : LaneCtl) (op : ReduxOp) (kind : ReduxKind) (vd va : VReg) (s : State) (i : Inst), s.running i → i.handler = false →
    (∀ p ∈ i.parts, s.laneReady i p.1 [(vd, 1), (va, 1)] [va]) →
    ∃ t, exec (.redux c op kind vd va) s = .next t ∧ LaneResult s t i c.g.val [vd] fun p l =>
      [(vd, reduxList op (((s.executing i p c.g).filter (reduxTakes kind l)).map fun k => s.rdV i.core p.1 va k))]

/-! ### Lane memory -/

/-- R124 to R135: every executing thread's access is in flight once the word has issued, with its address from the pair
and the signed offset. -/
def Obligations.MemoryWords : Prop :=
  (∀ (c : LaneCtl) (form : LdForm) (order : Order) (scope : Scope) (vd va : VReg) (off : BitVec 13),
    LaneAccesses (.ld c form order scope vd va off) c.g [(vd, loadRegs form), (va, 2)] (regsFrom va 2) true true .load
      (loadSize form) (loadPlanes form) order scope (laneEa va off) fun _ => .load form vd) ∧
  (∀ (c : LaneCtl) (w : StWidth) (order : Order) (scope : Scope) (va : VReg) (off : BitVec 13) (vb : VReg),
    LaneAccesses (.st c w order scope va off vb) c.g [(va, 2), (vb, storeRegs w)] (regsFrom va 2 ++ regsFrom vb (storeRegs w))
      false false .store (storeSize w) none order scope (laneEa va off)
      fun rd => .store (leBytes (wideOf rd vb (storeRegs w)) (storeSize w))) ∧
  (∀ (c : LaneCtl) (op : AtomOp) (w64 : Bool) (order : Order) (scope : Scope) (vd va : VReg) (off : BitVec 13) (vb : VReg),
    LaneAccesses (.atom c op w64 order scope vd va off vb) c.g [(vd, atomRegs w64), (va, 2), (vb, atomRegs w64)]
      (regsFrom va 2 ++ regsFrom vb (atomRegs w64)) true true (.atomic (op == .fadd)) (4 * atomRegs w64) none order scope
      (laneEa va off) fun rd => .atom op w64 (wideOf rd vb (atomRegs w64)) vd true) ∧
  (∀ (c : LaneCtl) (op : AtomOp) (w64 : Bool) (order : Order) (scope : Scope) (va : VReg) (off : BitVec 13) (vb : VReg),
    LaneAccesses (.red c op w64 order scope va off vb) c.g [(va, 2), (vb, atomRegs w64)] [] false false (.atomic (op == .fadd)) (4 * atomRegs w64) none order scope
      (laneEa va off) fun rd => .atom op w64 (wideOf rd vb (atomRegs w64)) 0 false) ∧
  (∀ (c : LaneCtl) (w64 : Bool) (order : Order) (scope : Scope) (vd va : VReg) (off : BitVec 13) (vb vc : VReg),
    let n := atomRegs w64
    LaneAccesses (.acas c w64 order scope vd va off vb vc) c.g [(vd, n), (va, 2), (vb, n), (vc, n)]
      (regsFrom va 2 ++ regsFrom vb n ++ regsFrom vc n) true true (.atomic false) (4 * n) none order scope (laneEa va off)
      fun rd => .cas w64 (wideOf rd vb n) (wideOf rd vc n) vd) ∧
  ∀ (c : LaneCtl) (order : Order) (scope : Scope) (va : VReg) (off : BitVec 13) (vb : VReg),
    LaneAccesses (.visw c order scope va off vb) c.g [(va, 2), (vb, 2)] [] false false .visw 8 none order
      scope (laneEa va off) fun rd => .visw (wideOf rd vb 2)

/-! ### Lane control -/

/-- R144, R145, R147: branches, calls, returns and yields move the threads that execute; every other thread present goes
on at the next word. -/
def Obligations.BranchWords : Prop :=
  (∀ (c : LaneCtl) (off : BitVec 21) (s : State) (i : Inst), s.running i → i.handler = false →
    ∃ t, exec (.bra c off) s = .next t ∧ LaneFrame s t i [] 7 ∧ ∀ p ∈ i.parts, ∀ l, l < 64 → p.2.testBit l = true →
      (t.thr i.core p.1 l).pc = if s.executes i p c.g l then jump i.pc off.toInt else i.after) ∧
  (∀ (c : LaneCtl) (vd : VReg) (off : BitVec 32) (s : State) (i : Inst), s.running i → i.handler = false →
    (∀ p ∈ i.parts, s.laneReady i p.1 [(vd, 2)] []) →
    ∃ t, exec (.call c vd off) s = .next t ∧ LaneFrame s t i [vd, vd.val + 1] 7 ∧
      (∀ p ∈ i.parts, ∀ l, l < 64 → p.2.testBit l = true →
        (t.thr i.core p.1 l).pc = if s.executes i p c.g l then jump i.pc off.toInt else i.after) ∧
      (∀ p ∈ i.parts, ∀ l, s.executes i p c.g l → ∀ w ∈ putPair vd i.after, t.rdV i.core p.1 w.1 l = w.2) ∧
      ∀ p ∈ i.parts, ∀ l r, ¬ s.executes i p c.g l → r < 128 → t.rdV i.core p.1 r l = s.rdV i.core p.1 r l) ∧
  (∀ (c : LaneCtl) (va : VReg) (e : Instr), e = .ret c va ∨ e = .brx c va → ∀ (s : State) (i : Inst), s.running i →
    i.handler = false → (∀ p ∈ i.parts, s.laneReady i p.1 [(va, 2)] []) →
    (∀ p ∈ i.parts, ∀ l, s.executes i p c.g l → pairOf (fun r => s.rdV i.core p.1 r l) va < 2 ^ 48 ∧
      pairOf (fun r => s.rdV i.core p.1 r l) va % 4 = 0) →
    ∃ t, exec e s = .next t ∧ LaneFrame s t i [] 7 ∧ ∀ p ∈ i.parts, ∀ l, l < 64 → p.2.testBit l = true →
      (t.thr i.core p.1 l).pc = if s.executes i p c.g l then pairOf (fun r => s.rdV i.core p.1 r l) va else i.after) ∧
  ∀ (c : LaneCtl) (s : State) (i : Inst), s.running i → i.handler = false →
    ∃ t, exec (.yield c) s = .next t ∧ LaneFrame s t i [] 7 ∧ ∀ p ∈ i.parts, ∀ l, l < 64 → p.2.testBit l = true →
      (t.thr i.core p.1 l).pc = i.after

/-- R146, R149, R154: the fence issues without a wait of its own, and each of its halves, a release and an acquire, joins the flight
of each executing thread behind the earlier accesses with its scope, covering all memory, or is over because none of them holds it;
`EXIT` and the mask words do to one group what the shared operations on its lanes and masks do. -/
def Obligations.MaskWords : Prop :=
  (∀ (c : LaneCtl) (order : Order) (scope : Scope) (s : State) (i : Inst), s.running i → i.handler = false →
    ∃ t, exec (.fence c order scope) s = .next t ∧ LaneMemFrame s t i ∧
      (∀ p ∈ i.parts, (t.core i.core).opsOf p.1 = (s.core i.core).opsOf p.1) ∧
      (∀ p ∈ i.parts, ∀ l, s.executes i p c.g l → ∀ o ∈ (if order = .ar then [.rel, .acq] else [order]),
        (∃ k, (s.core i.core).nextOp ≤ k ∧ s.fenceOp i p l o scope k ∈ (t.core i.core).flight) ∨
        (t.core i.core).fenceHeld (s.fenceOp i p l o scope (s.core i.core).nextOp) = false) ∧
      ∀ p ∈ i.parts, ∀ l, (t.thr i.core p.1 l).count = (s.thr i.core p.1 l).count ∧
        (l < 64 → p.2.testBit l = true → (t.thr i.core p.1 l).pc = i.after)) ∧
  ∀ (c : LaneCtl) (s : State) (i : Inst) (p : Nat × Nat), s.aloneLane i p →
    let x := (i.part s c.g p).exec
    exec (.exit c) s = .next (((s.ahead i p).exitLanes i.core p.1 x).laneEnd i p c.sw) ∧
    ∀ k : KReg,
      (∀ neg pp, exec (.kset c k neg pp) s = .next ((if x = 0 then s.ahead i p else (s.ahead i p).modMask i.core p.1 k fun _ =>
        { m := BitVec.ofNat 64 (listMask ((s.executing i p c.g).filter fun l => (s.thr i.core p.1 l).pred pp != neg)), a := 0 }).laneEnd
          i p c.sw)) ∧
      exec (.kleave c k) s = .next (((s.ahead i p).modMask i.core p.1 k fun K =>
        { m := K.m &&& ~~~BitVec.ofNat 64 x, a := K.a &&& ~~~BitVec.ofNat 64 x }).laneEnd i p c.sw) ∧
      ((s.core i.core).pendingAt p.1 (s.genOf i.core p.1) x .wg = false →
        exec (.karr c k) s = .next (((s.ahead i p).modMask i.core p.1 k fun K => { K with a := K.a ||| BitVec.ofNat 64 x }).laneEnd
          i p c.sw) ∧
        exec (.kwait c k) s = .next ((((s.ahead i p).parkLanes i.core p.1 (s.executing i p c.g) (.mask k)).modMask i.core p.1 k
          fun K => { K with a := K.a ||| BitVec.ofNat 64 x }).laneEnd i p c.sw))

/-- R146, R149, R150, R234: a mask takes its new value; where every member has arrived no live thread stays parked on it, and
otherwise no thread changes; the lanes that exit end and leave every mask, and no other thread ends. -/
def Obligations.MasksAndEnds : Prop :=
  (∀ (s : State) (c g k : Nat) (f : Mask → Mask),
    let K := f (Tbl.get (s.grp c g).k k)
    let t := s.modMask c g k f
    Tbl.get (t.grp c g).k k = K ∧ (∀ j, j ≠ k → Tbl.get (t.grp c g).k j = Tbl.get (s.grp c g).k j) ∧
    (K.m &&& ~~~K.a = 0 → ∀ l, l < 64 → (t.thr c g l).live = true → (t.thr c g l).wait ≠ .mask k) ∧
    (K.m &&& ~~~K.a ≠ 0 → ∀ l, t.thr c g l = s.thr c g l) ∧
    (∀ l, (s.thr c g l).wait ≠ .mask k → t.thr c g l = s.thr c g l) ∧
    SameMemory s t ∧ ∀ h, h ≠ g → t.grp c h = s.grp c h) ∧
  ∀ (s : State) (c g m : Nat),
    let t := s.exitLanes c g m
    (∀ l, (t.thr c g l).live = ((s.thr c g l).live && !(decide (l < 64) && m.testBit l))) ∧
    (∀ d h l, d ≠ c ∨ h ≠ g → (t.thr d h l).live = (s.thr d h l).live) ∧
    (∀ k, k < 12 → (Tbl.get (t.grp c g).k k).m = (Tbl.get (s.grp c g).k k).m &&& ~~~BitVec.ofNat 64 m ∧
      (Tbl.get (t.grp c g).k k).a = (Tbl.get (s.grp c g).k k).a &&& ~~~BitVec.ofNat 64 m) ∧
    SameMemory s t ∧ (∀ d h r l, t.rdV d h r l = s.rdV d h r l) ∧ ∀ d h, (t.grp d h).s = (s.grp d h).s

/-- R156 to R159: the barrier words of one group: each thread that executes arrives, parks, or both, in ascending lanes; an arrival
raises the count, the first of a phase sets the target, and the one that completes a phase flips it, clears the count, and leaves
no live thread of the device parked on the phase that ended. -/
def Obligations.BarrierWords : Prop :=
  (∀ (c : LaneCtl) (b : BarNum) (remote : Option VReg) (cnt : Fin 17) (s : State) (i : Inst) (p : Nat × Nat)
    (o : Nat → Nat × Nat), s.aloneLane i p →
    let regs : List Nat := remote.toList.map (·.val)
    let one := fun (arrives waits : Bool) => ((s.executing i p c.g).foldl
      (fun a l => a.barLane (i.part s c.g p) arrives waits remote.isSome b cnt l (o l)) (s.ahead i p)).laneEnd i p c.sw
    s.laneReady i p.1 (regs.map (·, 1)) [] → (remote.isSome → (s.launchOf i.core p.1).lr.coresident = true) →
    (∀ l ∈ s.executing i p c.g, s.barOwner (i.part s c.g p) remote l = .ok (o l)) →
    exec (.barw c b remote cnt) s = .next (one false true) ∧
    ((s.core i.core).pendingAt p.1 (s.genOf i.core p.1) (i.part s c.g p).exec (if remote.isSome then .atoll else .wg) = false →
      exec (.bar c b remote cnt) s = .next (one true true) ∧ exec (.bara c b remote cnt) s = .next (one true false))) ∧
  ∀ (s : State) (c w b cnt : Nat),
    let v := Tbl.get (s.wg c w).bars b
    let target := if barTarget v = 0 then (if cnt = 0 then (s.wg c w).slots.length else cnt) else barTarget v
    let t := s.arrive c w b cnt
    (∀ k, ((s.core k).grps.map (·.1)).Nodup) → 0 < target → target < 32 → barArrived v + 1 < 2 ^ 11 →
    (barArrived v + 1 + s.ended c w < 64 * target →
      Tbl.get (t.wg c w).bars b = barPhase v * 2 ^ 16 + target * 2 ^ 11 + (barArrived v + 1) ∧ ∀ k g l, t.thr k g l = s.thr k g l) ∧
    (64 * target ≤ barArrived v + 1 + s.ended c w →
      Tbl.get (t.wg c w).bars b = (1 - barPhase v) * 2 ^ 16 ∧
      (∀ k g l, l < 64 → (t.thr k g l).live = true → waitsBar c w b (barPhase v) (t.thr k g l).wait = false) ∧
      ∀ k g l, waitsBar c w b (barPhase v) (s.thr k g l).wait = false → t.thr k g l = s.thr k g l) ∧
    SameMemory s t

/-- R151 to R153: a registration that nothing earlier holds back is decided at once where the word satisfies its condition or its
timeout is zero, and otherwise enters as a watch; `WAITU` of one thread writes the outcome, or parks on its watch. -/
def Obligations.WaitWord : Prop :=
  (∀ (s : State) (p : Part) (lanes : Nat) (waiter : Waiter) (cond : Cond) (w64 : Bool) (operand timeout pd : Nat) (order : Order)
    (scope : Scope) (r : Reach) (pa n : Nat) (rest : List (Nat × Nat)), s.choose 2 = false →
    s.hits p.core (s.launchOf p.core p.slot).ctx .read r.vas = some ((pa, n) :: rest) →
    (s.core p.core).mayPerform (s.watchOp p lanes waiter.isGroup r ((pa, n) :: rest) order scope) = true →
    s.walkFull ((pa, n) :: rest) = false →
    let size := if w64 then 8 else 4
    let holds := cond ≠ .any ∧ Cond.holds cond (8 * size) (Memory.nat s.dev pa size) operand = true
    let cover := if order = .rlx then none else coverOf (s.launchOf p.core p.slot) r
    let done := (s.acquireAt p.core (s.launchOf p.core p.slot).ctx order scope cover).seenAt p.core pa
    let out := s.registerOn p lanes waiter cond w64 operand timeout pd order scope r
    (holds → out = .decided done true) ∧
    (¬ holds → timeout = 0 → out = .decided done false) ∧
    (¬ holds → timeout ≠ 0 → ∃ t, out = .entered t s.freeWatch)) ∧
  ∀ (c : LaneCtl) (cond : Cond) (w64 : Bool) (order : Order) (scope : Scope) (pd : PReg) (va vb vc : VReg) (s : State) (i : Inst)
    (p : Nat × Nat) (l : Nat) (r : Reach), s.aloneLane i p → s.executing i p c.g = [l] →
    let n := atomRegs w64
    let vbs : List (Nat × Nat) := if cond = .any then [] else [(vb.val, n)]
    let rd := fun k => s.rdV i.core p.1 k l
    let part := i.part s c.g p
    s.laneReady i p.1 ((va.val, 2) :: vbs ++ [(vc.val, 1)]) [] →
    s.reach part .watch false l (pairOf rd va) (4 * n) none = .ok r →
    let out := (s.ahead i p).registerOn part (2 ^ l) (.thread i.core p.1 l) cond w64 (wideOf rd vb n) (rd vc).toNat pd order scope r
    (∀ a b, out = .decided a b → exec (.waitu c cond w64 order scope pd va vb vc) s =
      .next ((a.modThr i.core p.1 l fun t => t.setPred pd b).laneEnd i p c.sw)) ∧
    ∀ a w, out = .entered a w → exec (.waitu c cond w64 order scope pd va vb vc) s =
      .next ((a.parkLanes i.core p.1 [l] (.watch w)).laneEnd i p c.sw)

/-- R71, R164, R227, R230: what the end of a word does for its group: the threads' program counters, the switch bit with its
threads or its group, the group's park, and the issue-group table, which the ready lanes enter and a group that switches or parks
leaves; nothing else of the device. -/
def Obligations.WordEnds : Prop :=
  ∀ (b : State) (i : Inst) (p : Nat × Nat) (sw : Bool) (q : Park), i.parts = [p] →
    (let t := b.laneEnd i p sw
     SameBesideCores b t ∧ (∀ c, c ≠ i.core → t.core c = b.core c) ∧
     SameBesideTable { b.core i.core with grps := [] } { t.core i.core with grps := [] } ∧
     (∀ g, g ≠ p.1 → t.grp i.core g = b.grp i.core g) ∧ { t.grp i.core p.1 with thr := (b.grp i.core p.1).thr } = b.grp i.core p.1 ∧
     (∀ l, t.thr i.core p.1 l = { b.thr i.core p.1 l with sw := (b.thr i.core p.1 l).sw ||
       (sw && decide (l < 64) && p.2.testBit l && (b.thr i.core p.1 l).live && (b.thr i.core p.1 l).count != 0) }) ∧
     b.tableAfter t i p) ∧
    (let t := b.uniDone i p sw
     SameBesideCores b t ∧ (∀ c, c ≠ i.core → t.core c = b.core c) ∧
     SameBesideTable { b.core i.core with grps := [] } { t.core i.core with grps := [] } ∧
     (∀ g, g ≠ p.1 → t.grp i.core g = b.grp i.core g) ∧
     { t.grp i.core p.1 with thr := (b.grp i.core p.1).thr, usw := (b.grp i.core p.1).usw, handler := (b.grp i.core p.1).handler } =
       b.grp i.core p.1 ∧
     (t.grp i.core p.1).usw = ((b.grp i.core p.1).usw || (sw && (b.grp i.core p.1).ucount != 0)) ∧
     (∀ l, { t.thr i.core p.1 l with pc := (b.thr i.core p.1 l).pc } = b.thr i.core p.1 l) ∧ b.movedTo t i p i.after ∧
     (if sw && (b.grp i.core p.1).ucount != 0 then t.untabled i p else b.tableAfter t i p)) ∧
    (let t := b.parked i p sw q
     SameBesideCores b t ∧ (∀ c, c ≠ i.core → t.core c = b.core c) ∧
     SameBesideTable { b.core i.core with grps := [] } { t.core i.core with grps := [] } ∧
     (∀ g, g ≠ p.1 → t.grp i.core g = b.grp i.core g) ∧
     t.grp i.core p.1 = { b.grp i.core p.1 with
       park := q, ppc := i.pc, pset := p.2
       usw := if sw && q.once then (b.grp i.core p.1).ucount != 0 else (b.grp i.core p.1).usw } ∧
     (q ≠ .none → t.untabled i p))

/-! ### Uniform words -/

/-- R166, R167, R168, R170: the scalar words. -/
def Obligations.ScalarWords : Prop :=
  ScalarComputes2 .sadd (fun a b => BitVec.ofNat 32 (a.toNat + b.toNat)) ∧
  ScalarComputes2 .ssub (fun a b => BitVec.ofInt 32 (a.toNat - b.toNat)) ∧
  ScalarComputes2 .smul (fun a b => BitVec.ofNat 32 (a.toNat * b.toNat)) ∧
  ScalarComputes2 .sand (fun a b => a &&& b) ∧
  ScalarComputes2 .sor (fun a b => a ||| b) ∧
  ScalarComputes2 .sxor (fun a b => a ^^^ b) ∧
  ScalarComputes2 .sshl (fun a c => BitVec.ofNat 32 (if c.toNat < 32 then a.toNat * 2 ^ c.toNat else 0)) ∧
  ScalarComputes2 .sshr (fun a c => BitVec.ofNat 32 (if c.toNat < 32 then a.toNat / 2 ^ c.toNat else 0)) ∧
  ScalarComputes2 .ssar (fun a c => BitVec.ofInt 32 (a.toInt / 2 ^ min c.toNat 31)) ∧
  ScalarComputes2 .smin (fun a b => BitVec.ofInt 32 (min a.toInt b.toInt)) ∧
  ScalarComputes2 .smax (fun a b => BitVec.ofInt 32 (max a.toInt b.toInt)) ∧
  ScalarComputes2 .sumin (fun a b => BitVec.ofNat 32 (min a.toNat b.toNat)) ∧
  ScalarComputes2 .sumax (fun a b => BitVec.ofNat 32 (max a.toNat b.toNat)) ∧
  ∀ (sw : Bool) (sd sa : SReg),
    ScalarComputes (.smov sw sd sa) [(sd.val, 1), (sa.val, 1)] [sd] (fun g => [(sd, g.sreg sa)]) ∧
    (∀ imm : BitVec 16, ScalarComputes (.smovi sw sd imm) [(sd.val, 1)] [sd] fun _ => [(sd, BitVec.ofInt 32 imm.toInt)]) ∧
    (∀ imm : BitVec 32, ScalarComputes (.smovx sw false sd imm) [(sd.val, 1)] [sd] (fun _ => [(sd, imm)]) ∧
      ScalarComputes (.smovx sw true sd imm) [(sd.val, 2)] [sd, sd.val + 1]
        fun _ => putPair sd (BitVec.ofInt 64 imm.toInt).toNat) ∧
    (∀ sb : SReg, ScalarComputes (.sadd64 sw sd sa sb) [(sd.val, 2), (sa.val, 2), (sb.val, 2)] [sd, sd.val + 1]
      fun g => putPair sd ((pairOf g.sreg sa + pairOf g.sreg sb) % 2 ^ 64)) ∧
    (∀ (q : QReg) (sb : SReg), ScalarComputes (.ssel sw q sd sa sb) [(sd.val, 1), (sa.val, 1), (sb.val, 1)] [sd]
        (fun g => [(sd, if g.qpred q then g.sreg sa else g.sreg sb)]) ∧
      encode (.ssel sw q sd sa sb) = [2 ^ 31 + bit sw 30 + 0x12 * 2 ^ 24 + sd.val * 2 ^ 16 + sa.val * 2 ^ 8 + sb.val, q.val]) ∧
    (∀ g : Group, g.qpred 7 = true) ∧
    ∀ fn : IUn, ScalarComputes (.sun sw fn sd sa) [(sd.val, if fn.isPair then 2 else 1), (sa.val, 1)]
      (if fn.isPair then [sd.val, sd.val + 1] else [sd.val]) fun g =>
        if fn.isPair then putPair sd (iunVal fn (g.sreg sa)).toNat else [(sd.val, (iunVal fn (g.sreg sa)).setWidth 32)]

/-- R169, R171: the uniform comparison and branch. -/
def Obligations.ScalarDecisions : Prop :=
  (∀ (sw : Bool) (cond : Cond) (w64 : Bool) (qd : QReg) (sa sb : SReg) (s : State) (i : Inst), s.running i →
    let n := if w64 then 2 else 1
    (∀ p ∈ i.parts, s.scalarReady i p.1 [(sa.val, n), (sb.val, n)]) →
    ∃ t, exec (.scmp sw cond w64 qd sa sb) s = .next t ∧ ScalarFrame s t i [] qd ∧ (∀ p ∈ i.parts, s.movedTo t i p i.after) ∧
      ∀ p ∈ i.parts,
        let g := s.grp i.core p.1
        let value := fun r : SReg => if w64 then pairOf g.sreg r else (g.sreg r).toNat
        (t.grp i.core p.1).qpred qd = (qd.val == 7 || Cond.holds cond (32 * n) (value sa) (value sb))) ∧
  ∀ (sw neg : Bool) (q : QReg) (off : BitVec 20) (s : State) (i : Inst), s.running i →
    ∃ t, exec (.sbra sw neg q off) s = .next t ∧ ScalarFrame s t i [] 7 ∧
      ∀ p ∈ i.parts, s.movedTo t i p (if (s.grp i.core p.1).qpred q != neg then jump i.pc off.toInt else i.after)

/-- R165, R172, R173: the uniform memory words. -/
def Obligations.UniformMemoryWords : Prop :=
  (∀ (sw : Bool) (w : LdWidth) (order : Order) (scope : Scope) (sd sa : SReg) (off : BitVec 16),
    UniformAccesses (.sld sw w order scope sd sa off) [(sd.val, loadRegs (.plain w)), (sa.val, 2)] true true .load
      (loadSize (.plain w)) order scope (fun g => uniformEa g sa off) fun _ => .load (.plain w) sd) ∧
  (∀ (sw : Bool) (w : StWidth) (order : Order) (scope : Scope) (sa : SReg) (off : BitVec 16) (sb : SReg),
    UniformAccesses (.sst sw w order scope sa off sb) [(sa.val, 2), (sb.val, storeRegs w)] false false .store (storeSize w) order
      scope (fun g => uniformEa g sa off) fun g => .store (leBytes (wideOf g.sreg sb (storeRegs w)) (storeSize w))) ∧
  ∀ (sw : Bool) (op : AtomOp) (w64 nr : Bool) (order : Order) (scope : Scope) (sd sa : SReg) (off : BitVec 16) (sb : SReg),
    let n := atomRegs w64
    UniformAccesses (.satom sw op w64 nr order scope sd sa off sb)
      ((if nr then [] else [(sd.val, n)]) ++ [(sa.val, 2), (sb.val, n)]) (!nr) (!nr) (.atomic (op == .fadd)) (4 * n) order scope
      (fun g => uniformEa g sa off) fun g => .atom op w64 (wideOf g.sreg sb n) sd (!nr)

/-! ### System words -/

/-- R36 to R49, R174, R175, R185: reads of system registers, clocks and generation tags, and the words of each register by its field
map. -/
def Obligations.SystemReads : Prop :=
  (∀ (sw : Bool) (r : Csr) (width : CsrWidth) (word : Fin 4) (sd sx : SReg) (s : State) (i : Inst), s.running i →
    (∀ p ∈ i.parts, s.scalarReady i p.1 ((sd.val, csrCount width) :: if r = .srstate then [(sx.val, 1)] else [])) →
    ∃ t, exec (.csrr sw r width word sd sx) s = .next t ∧ ScalarFrame s t i (upFrom sd (csrCount width)) 7 ∧
      (∀ p ∈ i.parts, s.movedTo t i p i.after) ∧
      ∀ p ∈ i.parts, ∀ k w, (((s.csrWords (i.upart p) r (((s.grp i.core p.1).sreg sx).toNat % 64)).drop word).take (csrCount width))[k]? =
        some w → (t.grp i.core p.1).sreg (sd + k) = w) ∧
  (∀ (sw : Bool) (sel : TimeSel) (sd : SReg) (s : State) (i : Inst), s.running i →
    (∀ p ∈ i.parts, s.scalarReady i p.1 [(sd.val, timeCount sel)]) →
    ∃ t, exec (.time sw sel sd) s = .next t ∧ ScalarFrame s t i (upFrom sd (timeCount sel)) 7 ∧
      (∀ p ∈ i.parts, s.movedTo t i p i.after) ∧
      ∀ p ∈ i.parts, ∀ k w, (s.timeWords sel)[k]? = some w → (t.grp i.core p.1).sreg (sd + k) = w) ∧
  (∀ (sw : Bool) (cls : GenClass) (sd sa : SReg) (s : State) (i : Inst), s.running i →
    (∀ p ∈ i.parts, s.scalarReady i p.1 [(sd.val, 1), (sa.val, 1)]) →
    ∃ t, exec (.genr sw cls sd sa) s = .next t ∧ ScalarFrame s t i [sd.val] 7 ∧ (∀ p ∈ i.parts, s.movedTo t i p i.after) ∧
      ∀ p ∈ i.parts, (t.grp i.core p.1).sreg sd = match s.unitTag (i.upart p) cls ((s.grp i.core p.1).sreg sa).toNat with
        | none => 0x80000000
        | some tag => BitVec.ofNat 32 (tag.toNat + if tag = s.genOf i.core p.1 then 0 else 2 ^ 16)) ∧
  ∀ (s : State) (p : Part) (lane : Nat),
    let g := s.grp p.core p.slot
    let W := s.wgOf p.core p.slot
    let L := s.launchOf p.core p.slot
    let x := s.core p.core
    let word := fun r k => ((s.csrWords p r lane)[k]?.map BitVec.toNat).getD 0
    let field := fun r hi lo => word r 0 / 2 ^ lo % 2 ^ (hi + 1 - lo)
    let long := fun r => word r 0 + 2 ^ 32 * word r 1
    (long .cyc = s.cyc.toNat ∧ long .ptime = s.ptime / 2 ^ 32 % 2 ^ 64 ∧ word .ptime 2 = s.ptime % 2 ^ 32 ∧ word .ptime 3 = 0) ∧
    (field .gen 31 16 = x.nextGen.toNat ∧ field .gen 15 0 = W.gen.toNat) ∧
    (x.drops < 2 ^ 16 → field .genlow 31 16 = x.drops ∧ field .genlow 15 0 = x.low.toNat) ∧
    (L.cls < 4 → L.ctx < 2 ^ 16 → field .ctxid 31 20 = 0 ∧ field .ctxid 19 16 = L.cls ∧ field .ctxid 15 0 = L.ctx) ∧
    (W.count < 2 ^ 8 → W.point < 2 ^ 8 → field .rpidx 31 17 = 0 ∧ field .rpidx 16 16 = (if W.rst then 1 else 0) ∧
      field .rpidx 15 8 = W.count ∧ field .rpidx 7 0 = W.point) ∧
    (long .tpc = g.tpc.toNat ∧ word .tcause 0 = g.tcause.toNat ∧ long .tval = g.tval.toNat) ∧
    (field .mxstat 31 4 = 0 ∧ field .mxstat 3 0 = g.mxstat.toNat ∧ word .mxerr 0 = g.mxerr.toNat) ∧
    (field .rastthr 31 24 = 0 ∧ field .rastthr 23 0 = (Tbl.get s.ctxRegs L.ctx).rastthr.toNat) ∧
    (g.isw < 2 ^ 16 → g.ucount < 64 → (∀ l, l < 64 → (Tbl.get g.thr l).count < 64) →
      field .oc 31 16 = g.isw ∧ field .oc 15 14 = 0 ∧ field .oc 7 6 = 0 ∧ field .oc 5 0 = g.ucount ∧
      (∀ l, l < 64 → (Tbl.get g.thr l).count ≤ field .oc 13 8) ∧ ∃ l, l < 64 ∧ (Tbl.get g.thr l).count = field .oc 13 8) ∧
    word .srstate 0 = (Tbl.get g.thr lane).seed.toNat ∧
    (let time := fun sel k => ((s.timeWords sel)[k]?.map BitVec.toNat).getD 0
     time .cyc 0 + 2 ^ 32 * time .cyc 1 = s.cyc.toNat ∧ time .ns 0 + 2 ^ 32 * time .ns 1 = long .ptime ∧
     time .ptime 0 + 2 ^ 32 * time .ptime 1 = long .ptime ∧ time .ptime 2 = word .ptime 2 ∧ time .ptime 3 = 0 ∧
     time .both 0 + 2 ^ 32 * time .both 1 = s.cyc.toNat ∧ time .both 2 + 2 ^ 32 * time .both 3 = long .ptime)

/-- R37 to R49, R174: the write of a system register, where its rights hold; what each register takes of it. -/
def Obligations.SystemWrites : Prop :=
  (∀ (sw : Bool) (r : Csr) (width : CsrWidth) (word : Fin 4) (sx sa : SReg) (s : State) (i : Inst) (p : Nat × Nat), s.alone i p →
    let g := s.grp i.core p.1
    s.scalarReady i p.1 ((if r = .srstate then [(sx.val, 1)] else []) ++ [(sa.val, csrCount width)]) →
    (handlerOnly r = true → i.handler = true) → (r = .rastthr → (s.launchOf i.core p.1).cls = 0 ∨ (s.launchOf i.core p.1).cls = 3) →
    (r = .srstate → (s.core i.core).drainsRs p.1 (s.genOf i.core p.1) = false) →
    exec (.csrw sw r width word sx sa) s = .next ((s.csrPut (i.upart p) r word ((g.sreg sx).toNat % 64)
      ((upFrom sa (csrCount width)).map g.sreg)).uniDone i p sw)) ∧
  ∀ (s : State) (p : Part) (lane : Nat) (w v : Word),
    let g := s.grp p.core p.slot
    let after := fun r word ws => (s.csrPut p r word lane ws).grp p.core p.slot
    after .mxstat 0 [w] = { g with mxstat := g.mxstat &&& (~~~(w.setWidth 4) ||| (if g.setAt = s.cyc.toNat then g.setNow else 0)) } ∧
    after .mxerr 0 [w] = (if w.getLsbD 31 then { g with mxerr := 0 } else g) ∧
    after .oc 0 [w] = { g with isw := w.toNat / 2 ^ 16 } ∧
    after .tcause 0 [w] = { g with tcause := w &&& 0x000FFFFF } ∧
    after .tpc 0 [w, v] = { g with tpc := (v ++ w) &&& 0x0000FFFFFFFFFFFC } ∧ after .tval 0 [w, v] = { g with tval := v ++ w } ∧
    after .tval 0 [w] = { g with tval := (g.tval >>> 32).setWidth 32 ++ w } ∧
    after .tval 1 [w] = { g with tval := w ++ g.tval.setWidth 32 } ∧
    ((s.csrPut p .srstate 0 lane [w]).thr p.core p.slot lane).seed = (if w = 0 then 1 else w) ∧
    (Tbl.get (s.csrPut p .rastthr 0 lane [w]).ctxRegs (s.launchOf p.core p.slot).ctx).rastthr = w.setWidth 24 ∧
    ∀ r word ws, SameMemory s (s.csrPut p r word lane ws) ∧
      ∀ c h n l, (s.csrPut p r word lane ws).rdV c h n l = s.rdV c h n l ∧ ((s.csrPut p r word lane ws).grp c h).s = (s.grp c h).s

/-- R164, R176, R177: `SLEEP` parks its group until the deadline, and goes on where that has passed; `WAITS` writes the
outcome of a registration decided at once, or parks on its watch. -/
def Obligations.WaitingWords : Prop :=
  (∀ (sw absolute : Bool) (sa : SReg) (s : State) (i : Inst) (p : Nat × Nat), s.alone i p →
    let g := s.grp i.core p.1
    let deadline := if absolute then pairOf g.sreg sa else s.cyc.toNat + (g.sreg sa).toNat
    s.scalarReady i p.1 [(sa.val, if absolute then 2 else 1)] →
    exec (.sleep sw absolute sa) s = .next (if deadline ≤ s.cyc.toNat then s.uniDone i p sw else s.parked i p sw (.sleep deadline))) ∧
  ∀ (sw : Bool) (cond : Cond) (w64 : Bool) (order : Order) (scope : Scope) (qd : QReg) (sa sb st : SReg) (s : State) (i : Inst)
    (p : Nat × Nat) (r : Reach), s.alone i p →
    let n := atomRegs w64
    let g := s.grp i.core p.1
    s.scalarReady i p.1 ([(sa.val, 2)] ++ (if cond = .any then [] else [(sb.val, n)]) ++ [(st.val, 1)]) →
    s.reach (i.upart p) .watch false 64 (pairOf g.sreg sa) (4 * n) none = .ok r →
    let out := s.registerOn (i.upart p) p.2 (.group i.core p.1) cond w64 (if w64 then pairOf g.sreg sb else (g.sreg sb).toNat)
      (g.sreg st).toNat qd order scope r
    (∀ a b, out = .decided a b → exec (.waits sw cond w64 order scope qd sa sb st) s =
      .next ((a.modGrp i.core p.1 fun x => x.setQ qd b).uniDone i p sw)) ∧
    ∀ a w, out = .entered a w → exec (.waits sw cond w64 order scope qd sa sb st) s = .next (a.parked i p sw (.watch w))

/-- R178 to R182: attached regions and the arrival at a replay point, in a handler too, whose group is parked until the point is
passed (R164); once every live thread of a workgroup has arrived, its
point is passed: the index rises to at most 255, the restart address is the word after, and no thread still waits there. -/
def Obligations.RegionWords : Prop :=
  (∀ (sw : Bool) (s : State) (i : Inst) (p : Nat × Nat), s.alone i p →
    let g := s.grp i.core p.1
    let l := (s.wgOf i.core p.1).launch
    (∀ (e : ENum) (sa : SReg) (n : Fin 4), s.scalarReady i p.1 [(sa.val, 2 + 4 * (n.val + 1))] →
      let obj := pairOf g.sreg sa
      let regions := (List.range (n.val + 1)).map fun k => (pairOf g.sreg (sa.val + 2 + 4 * k), (g.sreg (sa.val + 4 + 4 * k)).toNat)
      inDevice obj = true → obj % 8 = 0 →
      (∀ r ∈ regions, inDevice r.1 = true ∧ r.1 % 64 = 0 ∧ 0 < r.2 ∧ r.1 % 2 ^ 48 + 64 * r.2 ≤ 2 ^ 48) →
      exec (.attach sw e sa n) s = .next ((s.modLaunch l fun L => { L with
        attached := Tbl.set L.attached e (some { obj := obj, regions := regions.map fun r => (r.1, 64 * r.2) }) }).uniDone i p sw)) ∧
    (∀ e : ENum, exec (.detach sw e) s = .next ((s.modLaunch l fun L => { L with attached := Tbl.set L.attached e none }).uniDone i p sw)) ∧
    ∀ off : Bool, (s.core i.core).pendingAt p.1 (s.genOf i.core p.1) p.2 .wg = false →
      let ls := (maskList p.2 64).filter fun k => (s.thr i.core p.1 k).live
      (i.handler = false →
        exec (.replay sw off) s = .next ((((s.setPcs i.core p.1 ls i.after).parkLanes i.core p.1 ls (.replay off i.after)).replayTest
          i.core g.wg).uniDone i p sw)) ∧
      (i.handler = true →
        let a := (s.parkLanes i.core p.1 ls (.replay off i.after)).replayTest i.core g.wg
        exec (.replay sw off) s = .next (if ls.any fun l => waitsReplay (a.thr i.core p.1 l).wait then a.parked i p sw .replay
          else a.uniDone i p sw))) ∧
  ∀ (s : State) (c w : Nat) (off : Bool) (next : Nat),
    s.liveThreads c w ≠ [] → (∀ t ∈ s.liveThreads c w, t.wait = .replay off next) →
    let W := s.wg c w
    let t := s.replayTest c w
    (t.wg c w).point = min (W.point + 1) 255 ∧ (t.wg c w).restart = next ∧
    (t.wg c w).restartable = (!off && (s.launch W.launch).lr.restartable) ∧
    (∀ g ∈ W.slots, ∀ l, l < 64 → (t.thr c g l).live = true → waitsReplay (t.thr c g l).wait = false) ∧ SameMemory s t

/-- R183, R184: a launch or task record whose pointer passes its checks, once the earlier accesses of the threads are visible: read
whole where an entry is free, with the predicate that says whether one was. -/
def Obligations.LaunchWords : Prop :=
  ∀ (sw : Bool) (qd : QReg) (sa : SReg) (s : State) (i : Inst) (p : Nat × Nat), s.alone i p → s.scalarReady i p.1 [(sa.val, 2)] →
    let ptr := pairOf (s.grp i.core p.1).sreg sa
    let read := fun size => s.unitBytes i.core (s.launchOf i.core p.1).ctx (usesL1 (ptr / 2 ^ 60) (ptr / 2 ^ 57 % 8)) ptr size
    let free := (s.core i.core).pendFree
    let queue := s.taskAtoll (s.wgOf i.core p.1).launch (atollOf i.core)
    let tells := fun (a : State) (b : Bool) => (.next ((a.modGrp i.core p.1 fun x => x.setQ qd b).uniDone i p sw) : Result)
    (s.core i.core).pendingAt p.1 (s.genOf i.core p.1) p.2 .dev = false →
    (inDevice ptr = true → ptr % 128 = 0 →
      (free = false → exec (.launch sw qd sa) s = tells s false ∧
        exec (.launchw sw sa) s = .next (s.parked i p sw (.launchw s.cyc.toNat ptr))) ∧
      ∀ bs ops, free = true → read 128 = .ok bs ops →
        let a := (s.afterUnit i.core p.1 p.2 ops).pendLaunch i.core p.1 ptr bs
        exec (.launch sw qd sa) s = tells a true ∧ exec (.launchw sw sa) s = .next (a.uniDone i p sw)) ∧
    (inDevice ptr = true → ptr % 64 = 0 →
      ((∀ a, queue = some a → Config.taskEntries ≤ (s.atoll a).taken) → exec (.taskq sw qd sa) s = tells s false) ∧
      ∀ a bs ops, queue = some a → (s.atoll a).taken < Config.taskEntries → read 64 = .ok bs ops →
        exec (.taskq sw qd sa) s =
          tells ((s.afterUnit i.core p.1 p.2 ops).pushTask a { bytes := bs, launch := (s.wgOf i.core p.1).launch }) true)

/-! ### Decoding and the turn -/

/-- R65 to R90: the bytes of a well-formed instruction decode to it, every operand at every value that its encoding admits,
and leave the bytes after it. -/
def Obligations.RoundTrip : Prop :=
  ∀ (i : Instr) (rest : List Byte), i.wf = true → i.isDeviceStep = false → decode (encodeBytes i ++ rest) = .ok (i, rest)

/-- R65 to R91: bytes that decode are those of one well-formed instruction, so that no two instructions share a word and
no reserved bit is dropped. -/
def Obligations.DecodedWellFormed : Prop :=
  ∀ (bs rest : List Byte) (i : Instr), decode bs = .ok (i, rest) →
    i.wf = true ∧ i.isDeviceStep = false ∧ bs = encodeBytes i ++ rest

/-- The manual's own encodings of single instructions. -/
def Obligations.SpecWords : Prop :=
  let c : LaneCtl := { sw := false, g := 7 }
  let sw : LaneCtl := { sw := true, g := 7 }
  decodeWords 0x14E14100 0x0180011C = .ok (.bfx c true 5 2 (.imm 28 8)) ∧
  decodeWords 0x06E28103 0x18080000 = .ok (.imad c .wideU 10 2 3 12) ∧
  decodeWords 0x27E18187 0x01008020 = .ok (.cvt c .e4m3 .f32 .rne false (some 7) 6 2 3 0) ∧
  decodeWords 0x70E18402 0x00F1800C = .ok (.ld sw (.plane 4 false true) .rlx .dev 6 8 12) ∧
  decodeWords 0x72E0C402 0x0025E000 = .ok (.atom sw .inc false .ar .dev 3 8 0 2) ∧
  decodeWords 0x39E50000 0x00000080 = .ok (.call c 20 0x80) ∧
  decodeWords 0x3AEF0004 0 = .ok (.fence c .ar .dev) ∧
  decodeWords 0x3BE1C000 0 = .ok (.kset c 0 false 7) ∧
  decodeWords 0x3DE6C283 0 = .ok (.bara c 3 (some 5) 3) ∧
  decodeWords 0x98080000 1 = .ok (.csrr false .cyc .w64 0 8 0) ∧
  decodeWords 0x99000912 0 = .ok (.csrw false .mxstat .w32 0 0 9) ∧
  decodeWords 0x9D002803 0 = .ok (.attach false 3 40 0) ∧
  decodeWords 0xA300002A 0 = .ok (.trap false 0x2A) ∧
  decodeWords 0xAC608000 0x320A0000 = .ok (.mma false .e3m2 .e2m1 false false (some 2) 3 0 0 1 0) ∧
  decodeWords 0xF1082000 0 = .ok (.cpy true 8 32) ∧
  decodeWords 0xB20A0802 0 = .ok (.cpyw false 10 8 2)

/-- R228, R66, R69: a turn in which a pipe issues runs the instruction that the bytes at the program counter of the entry it
takes decode to; a handler's turn runs that at the handler's; a turn of the device runs its step. -/
def Obligations.StepRuns : Prop :=
  ∀ s : State,
    let b := s.begin
    (∀ i, s.turn.act = .event i → step s = exec i b) ∧
    ∀ (c l pc pa : Nat) (ins : Instr) (rest : List Byte), b.unseen l 8 = 0 → b.unseen l 40 = 0 →
      (b.xlate c (b.launch l).ctx pc .fetch).2 = .ok pa → (b.xlate c (b.launch l).ctx (pc + 4) .fetch).2 = .ok (pa + 4) →
      decode (Memory.read b.dev pa 8) = .ok (ins, rest) →
      let words := (8 - rest.length) / 4
      let trailer := if words = 2 then Memory.nat b.dev (pa + 4) 4 else 0
      (∀ pipe e, s.turn.act = .issue c pipe → b.power.stopped = false → b.pickEntry c pipe = some e → e.pc = pc →
        (b.core c).launchNumbered e.num = l →
        step s = exec ins { b.takeEntry c e with inst := some {
          core := c, pc := pc, num := e.num, parts := e.parts, word := Memory.nat b.dev pa 4, trailer := trailer, words := words } }) ∧
      ∀ (g : Nat) (h : Handler), s.turn.act = .handler c g → b.power.stopped = false → (b.grp c g).handler = some h →
        (b.grp c g).used = true → (b.grp c g).park = .none → (b.grp c g).usw = false → (b.grp c g).halted = false → h.pc = pc →
        (b.wgOf c g).launch = l →
        step s = exec ins { b with inst := some {
          core := c, pc := pc, num := (b.core c).numOf l, parts := [(g, h.set)], handler := true, word := Memory.nat b.dev pa 4,
          trailer := trailer, words := words } }

/-- R228, R399: a pipe takes an entry that is eligible and that it serves, and none such is older; nothing issues in the
thermal stop. -/
def Obligations.OldestFirst : Prop :=
  (∀ (s : State) (c : Nat) (pipe : Pipe) (e : Entry), s.pickEntry c pipe = some e →
    (e ∈ (s.core c).table ∧ (s.core c).eligibleEntry e = true ∧ s.serves c pipe e = true) ∧
    ∀ f ∈ (s.core c).table, (s.core c).eligibleEntry f = true → s.serves c pipe f = true → f.older e = false) ∧
  ∀ (s : State) (c g : Nat) (pipe : Pipe), s.begin.power.stopped = true →
    s.turn.act = .issue c pipe ∨ s.turn.act = .handler c g → step s = .next s.begin

/-- R68, R86: a word that does not decode traps each group of its instance, with the word, or the word and trailer, as the
trap's value; the word of an unassigned major does the same. -/
def Obligations.DecodeTraps : Prop :=
  ∀ (s : State) (i : Inst),
    (∀ e, decodeWords i.word i.trailer = .error e → e ≠ .illegalOperand →
      s.decoded i = (s.decodeTrap i { cause := 0x01, tval := i.word }, none)) ∧
    (decodeWords i.word i.trailer = .error .illegalOperand →
      s.decoded i = (s.decodeTrap i (if i.handler && !i.word.testBit 31 then { cause := 0x01, tval := i.word }
        else { cause := 0x02, tval := i.word + i.trailer * 2 ^ 32 }), none)) ∧
    (∀ (w : BitVec 32) (rest : List Byte), w.toNat / 2 ^ 24 % 2 ^ 6 ∈
        (if w.msb then [0x27, 0x3A, 0x3B, 0x3C, 0x3D, 0x3E, 0x3F] else [0x37, 0x3E, 0x3F]) →
      decode (wordBytes w.toNat ++ rest) = .ok (.illegalInstructionWord w, rest)) ∧
    (∀ w : BitVec 32, s.inst = some i → i.word = w.toNat →
      exec (.illegalInstructionWord w) s = .next (s.decodeTrap i { cause := 0x01, tval := w.toNat })) ∧
    ∀ p t, i.parts = [p] → s.decodeTrap i t = if (s.grp i.core p.1).used
      then s.takeTrap i.core p.1 p.2 i.pc (i.word.testBit 31) { t with lane := (maskList p.2 64).headD 0 } else s

/-! ### Reset and the memories -/

/-- The values that the manual states for reset: `cyc`, the generation counters, the shares of the scratchpad, the peer
number, the pre-emption delay, the raster thresholds, the quotas, the outputs, the clock and the service ports; and the invariants of
`MemoriesKeepForm` and `PlacementValues` hold there. -/
def Obligations.ResetValues : Prop :=
  let s := State.reset
  s.cyc = 0 ∧ s.peerNum = 0x1FF ∧ s.delay = 0x64 ∧ s.power.clock = 1900 ∧ s.power.stopped = false ∧
  (∀ c, (s.core c).nextGen = 1 ∧ (s.core c).low = 1 ∧ (s.core c).req = 8 ∧ (s.core c).cur = 8 ∧ (s.core c).drops = 0) ∧
  (∀ x, (Tbl.get s.ctxRegs x).rastthr = 0x000800) ∧ s.quota 0 = (0xC, 2) ∧ s.quota 1 = (0xC, 2) ∧ s.quota 2 = (0xC, 0) ∧ s.quota 3 = (0xC, 4) ∧
  (∀ o, (Tbl.get s.outputs o).lanes = 2 ∧ (Tbl.get s.outputs o).rate = 7 ∧ (Tbl.get s.outputs o).hb = 0xA0) ∧
  s.memWf ∧ s.coresWf

/-- The three memories keep their canonical form in every step, whatever is in execution: no byte is listed twice and none
that reads as zero. -/
def Obligations.MemoriesKeepForm : Prop := ∀ s t : State, s.memWf → step s = .next t → t.memWf

/-! ### Traps -/

/-- R43, R186, R332, R334: taking a trap writes `tpc`, `tcause` and `tval` and starts the handler with the trapping set; without a
handler, or within one, it ends the launch, which counts the event, keeps the first one and has no workgroup left on any core; an
event after that changes nothing. -/
def Obligations.TrapEntry : Prop :=
  (∀ (s : State) (c g lanes pc : Nat) (uni : Bool) (x : Trap),
    let G := s.grp c g
    let L := s.launchOf c g
    let t := s.takeTrap c g lanes pc uni x
    (L.lr.handler = 0 ∨ G.handler.isSome = true → t = s.faultEnd (s.wgOf c g).launch x.cause c G.index x.tval) ∧
    (L.lr.handler ≠ 0 → G.handler = none →
      SameBesideCores s t ∧ (∀ k, k ≠ c → t.core k = s.core k) ∧
      SameBesideTable { s.core c with grps := [] } { t.core c with grps := [] } ∧ (∀ h, h ≠ g → t.grp c h = s.grp c h) ∧
      t.grp c g = { G with
        tpc := BitVec.ofNat 64 ((if x.cause = 0x0B ∨ x.cause = 0x0C then pc + 4 else pc) / 4 % 2 ^ 46 * 4)
        tcause := BitVec.ofNat 32 (G.index * 2 ^ 16 + (if recOf x.cause then 2 ^ 15 else 0) +
          (if uni then 2 ^ 14 else x.lane * 2 ^ 8) + x.cause)
        tval := BitVec.ofNat 64 x.tval
        park := .none
        handler := some {
          set := lanes, pc := L.lr.handler % 2 ^ 48, back := pc, held := G.park, hpc := G.ppc, hset := G.pset } }) ∧
    recOf 0x08 = true ∧ recOf 0x09 = false ∧ recOf 0x0B = false ∧ recOf 0x0C = false) ∧
  ∀ (s : State) (l cause core index tval : Nat),
    let L := s.launch l
    let t := s.faultEnd l cause core index tval
    (L.used = false ∨ L.status ≠ 0 → t = s) ∧
    (L.used = true → L.status = 0 →
      (t.launch l).faults = min (L.faults + 1) (2 ^ 32 - 1) ∧ (t.launch l).first = some (L.first.getD (cause, core, index, tval)) ∧
      (t.launch l).status = 2 ∧ (∀ m, m ≠ l → t.launch m = s.launch m) ∧
      (∀ c w, (t.wg c w).used = true → (t.wg c w).launch ≠ l) ∧ SameMemory s t)

/-- R187, R188, R403: `TRAP` and `BRK` raise their causes, `BRK` stops the group for a debugger that has claimed the launch,
and `TRET` returns from a handler; outside a handler it is a rights trap. -/
def Obligations.TrapWords : Prop :=
  (∀ (sw : Bool) (imm : BitVec 16) (s : State) (i : Inst) (p : Nat × Nat), s.alone i p →
    let raised := fun (a : State) (x : Trap) => (a.takeTrap i.core p.1 p.2 i.pc true x).laneEnd i p false
    let switched := if sw && (s.grp i.core p.1).ucount != 0 then s.modGrp i.core p.1 fun x => { x with usw := true } else s
    let claimed := s.claimed (s.launchOf i.core p.1)
    let after := s.modGrp i.core p.1 fun x => { x with tpc := BitVec.ofNat 64 ((i.pc + 4) / 4 % 2 ^ 46 * 4) }
    exec (.trap sw imm) s = .next (raised switched { cause := 0x0C, tval := imm.toNat }) ∧
    (claimed = false → exec (.brk sw imm) s = .next (raised switched { cause := 0x0B, tval := imm.toNat })) ∧
    (claimed = true → ∀ n, s.freeStop = some n →
      exec (.brk sw imm) s = .next ((after.takeStop i.core p.1 n i.pc).parked i p sw (.dbg (n + 1)))) ∧
    (claimed = true → s.freeStop = none → exec (.brk sw imm) s = .next (after.parked i p sw (.dbg 0))) ∧
    (i.handler = true → exec (.tret sw) s = .next ((s.returnTrap i.core p.1).uniDone i p sw)) ∧
    (i.handler = false → exec (.tret sw) s = .next (raised s { cause := 0x05, tval := i.word }))) ∧
  ∀ (s : State) (c g : Nat) (h : Handler), (s.grp c g).handler = some h →
    let t := s.returnTrap c g
    (t.grp c g).handler = none ∧ (t.grp c g).park = h.held ∧ (t.grp c g).ppc = h.hpc ∧
    (∀ l, (t.grp c g).pset.testBit l = (h.hset.testBit l && !h.set.testBit l)) ∧
    (∀ l, t.thr c g l = if l < 64 ∧ h.set.testBit l = true
      then { s.thr c g l with pc := (s.grp c g).tpc.toNat / 4 % 2 ^ 46 * 4 } else s.thr c g l) ∧
    (t.grp c g).s = (s.grp c g).s ∧ SameMemory s t ∧ ∀ d k r l, t.rdV d k r l = s.rdV d k r l

/-! ### Accesses performed -/

/-- R54, R127, R132 to R135, R240, R243, R247: an access that completes writes its bytes at its place and nothing else, and leaves
the flight of its core; a place in a live scratchpad takes them under its generation, its other bytes read as before, and the
granules written carry the tag. -/
def Obligations.AccessPerformed : Prop :=
  (∀ (s : State) (c : Nat) (o : MemOp), s.completes c o →
    ∃ t, exec (completion c o) s = .next t ∧ (∀ y ∈ (t.core c).flight, y.id ≠ o.id) ∧
      match o.writes (leNat (s.opBytes c o)) with
      | some d => SameMemory (s.opStore o d) t
      | none => SameMemory s t) ∧
  (∀ (s : State) (o : MemOp) (d : List Byte),
    let put := fun (m : Memory) => (splitData o.pieces d).foldl (fun m e => Memory.write m e.1 e.2) m
    let t := s.opStore o d
    (o.place = .device → t.dev = put s.dev ∧ t.host = s.host ∧ t.narrows = s.narrows ∧ t.peers = s.peers ∧ t.cores = s.cores) ∧
    (o.place = .host → t = { s with host := put s.host }) ∧ (o.place = .narrows → t = { s with narrows := put s.narrows }) ∧
    (∀ n, o.place = .peer n → o.own = true → t.dev = put s.dev ∧ t.host = s.host ∧ t.narrows = s.narrows ∧ t.peers = s.peers ∧
      t.cores = s.cores) ∧
    (∀ n, o.place = .peer n → o.own = false → Tbl.get t.peers n = put (Tbl.get s.peers n) ∧
      (∀ m, m ≠ n → Tbl.get t.peers m = Tbl.get s.peers m) ∧ { t with peers := s.peers } = s) ∧
    (∀ k, o.place = .sram k → (s.core k).isLive o.ogen = false → SameMemory s t) ∧
    ∀ k, o.place = .sram k → (s.core k).isLive o.ogen = true →
      t.core k = (splitData o.pieces d).foldl (fun x e => x.sramWrite o.ogen e.1 e.2) (s.core k) ∧
      (∀ c, c ≠ k → t.core c = s.core c) ∧ SameBesideCores s t) ∧
  (∀ (x : Core) (gen : Gen) (a b : Nat) (d : List Byte),
    let y := x.sramWrite gen a d
    y.sramByte gen b = (if a ≤ b ∧ b < a + d.length then d.getD (b - a) 0 else x.sramByte gen b) ∧
    Tbl.get y.gtag (b / 32) = (if ∃ k, k < d.length ∧ (a + k) / 32 = b / 32 then gen else Tbl.get x.gtag (b / 32)) ∧
    { y with sram := x.sram, gtag := x.gtag } = x) ∧
  ∀ (s : State) (c op : Nat), ∃ t, exec (.remoteWriteAcknowledged c op) s = .next t ∧ SameMemory s t ∧
    (∀ k, (t.core k).unacked = (s.core k).unacked.filter fun u =>
      !((k == c && u.origin.isNone && u.id == op) || u.origin == some (c, op))) ∧ ∀ k g, t.grp k g = s.grp k g

/-- R34, R54, R71, R130, R173, R236: an access that completes gives its words to the thread or group that issued it and gives
back its place in the count, the last of the four parts of a 128-bit one for all; at zero the owner's switch ends. -/
def Obligations.AccessReturns : Prop :=
  ∀ (s : State) (c d : Nat) (o : MemOp), s.completes c o → o.dest = some d → (s.grp c o.slot).used = true →
    s.genOf c o.slot = o.gen →
    let ws := o.returned (s.opBytes c o)
    let last := !(s.core c).flight.any fun y => y.id != o.id && y.sibling o
    (∀ l, o.uni = false → o.lanes = 2 ^ l → l < 64 → (s.thr c o.slot l).live = true → d + ws.length ≤ 128 →
      ∃ t, exec (completion c o) s = .next t ∧ (∀ k w, ws[k]? = some w → t.rdV c o.slot (d + k) l = w) ∧
        (∀ g r m, r < 128 → g ≠ o.slot ∨ m ≠ l ∨ r < d ∨ d + ws.length ≤ r → t.rdV c g r m = s.rdV c g r m) ∧
        t.thr c o.slot l = { s.thr c o.slot l with
          count := (s.thr c o.slot l).count - if last then 1 else 0
          sw := (s.thr c o.slot l).sw && (!last || (s.thr c o.slot l).count != 1) } ∧
        ∀ g m, g ≠ o.slot ∨ m ≠ l → t.thr c g m = s.thr c g m) ∧
    (o.uni = true → ∃ t, exec (completion c o) s = .next t ∧
      ((s.grp c o.slot).thr.any (fun e => e.2.live) = true → ∀ k w, ws[k]? = some w → (t.grp c o.slot).sreg (d + k) = w) ∧
      ((s.grp c o.slot).thr.any (fun e => e.2.live) = false → (t.grp c o.slot).s = (s.grp c o.slot).s) ∧
      (∀ r, r < d ∨ d + ws.length ≤ r → (t.grp c o.slot).sreg r = (s.grp c o.slot).sreg r) ∧
      (t.grp c o.slot).ucount = (s.grp c o.slot).ucount - (if last then 1 else 0) ∧
      (t.grp c o.slot).usw = ((s.grp c o.slot).usw && (!last || (s.grp c o.slot).ucount != 1)) ∧ ∀ g m, t.thr c g m = s.thr c g m)

/-- R128, R154, R245, R255: what an access waits for: an earlier fence, acquire or overlapping access of its thread, and a
release for every earlier access of its thread not yet visible at its scope; until then its completion does nothing. -/
def Obligations.AccessOrder : Prop :=
  (∀ (x : Core) (o y : MemOp), y ∈ x.flight.takeWhile (fun z => z.id != o.id) → y.sameThread o = true →
    (y.isFence = true → o.uni = false ∨ y.uni = true → orderAcquires y.order = true ∨ o.isLoad = false → x.mayPerform o = false) ∧
    (y.bound = false → y.sibling o = false → orderAcquires y.order = true → x.mayPerform o = false) ∧
    (y.bound = false → y.meets o = true → y.queues = false ∨ y.ent = none → x.mayPerform o = false) ∧
    (y.sibling o = false → orderReleases o.order = true → inCover o.cover y = true → y.hidden o.scope = true → x.mayPerform o = false)) ∧
  ∀ (s : State) (c : Nat) (o : MemOp), s.choose 6 = false → o.isFence = false →
    (s.core c).flight.find? (fun y => y.id == o.id) = some o →
    (s.core c).flight.find? (fun y => y.id == o.id && y.traversal.isSome) = none → (s.core c).mayPerform o = false ∨ s.linked o = false →
    exec (completion c o) s = .next s

/-- R34, R70, R136 to R143: a prefetch changes no register, count or byte; a texture word sends its unit's words and takes a place in each
thread's count, as a ray word does, which starts a traversal for each thread. That a traversal makes one read a step and a sample all its
reads in the step that issues it is the model's reading (DEDUCED, notes/assumptions/7.md), and so is that the threads stay at the ray word
until its traversals are over, for the traps of a node are precise (DEDUCED, notes/assumptions/65.md). -/
def Obligations.UnitWords : Prop :=
  (∀ (c : LaneCtl) (level : PrefLevel) (va : VReg) (off : BitVec 13) (s : State) (i : Inst), s.running i → i.handler = false →
    (∀ p ∈ i.parts, s.laneReady i p.1 [(va, 2)] []) →
    ∃ t, exec (.pref c level va off) s = .next t ∧ LaneMemFrame s t i ∧ (t.core i.core).flight = (s.core i.core).flight ∧
      ∀ p ∈ i.parts, ∀ l, (t.thr i.core p.1 l).count = (s.thr i.core p.1 l).count ∧
        (l < 64 → p.2.testBit l = true → (t.thr i.core p.1 l).pc = i.after)) ∧
  (∀ (c : LaneCtl) (lod : TexLod) (vd va vb vc : VReg),
    let e : List Nat := if lod = .lvl then [vc.val] else []
    LaneSamples (.tex c lod vd va vb vc) c.g ([(vd.val, 4), (va.val, 2), (vb.val, 2)] ++ e.map (·, 1)) vd fun s p l =>
      let rd := fun (k r : Nat) => s.rdV p.core p.slot r k
      let co := fun (k r : Nat) => fmt32.decode (rd k r).toNat
      let diff := fun (k : Nat) => (neighbourDiff p co l k vb, neighbourDiff p co l k (vb.val + 1))
      .sample (pairOf (rd l) va) (rd l vb) (rd l (vb.val + 1)) (match lod with
        | .l0 => .l0
        | .lvl => .lvl (rd l vc)
        | .auto => .auto [diff (l ^^^ 1), diff (l ^^^ 2)]) (s.tick * 1024 + l)) ∧
  (∀ (c : LaneCtl) (vd va vb vc : VReg), LaneSamples (.tld c vd va vb vc) c.g [(vd.val, 4), (va.val, 2), (vb.val, 2), (vc.val, 1)] vd
    fun s p l =>
      let rd := fun (r : Nat) => s.rdV p.core p.slot r l
      .texel (pairOf rd va) (rd vb) (rd (vb.val + 1)) (rd vc)) ∧
  (∀ (c : LaneCtl) (cull : Bool) (vd va vb : VReg),
    (∀ any : Bool, LaneTraverses (.rayq c any cull vd va vb) c vd va vb false any cull) ∧
    LaneTraverses (.rayn c cull vd va vb) c vd va vb true false cull) ∧
  ∀ (s : State) (c id : Nat) (o : MemOp), (s.core c).flight.find? (fun y => y.id == id && y.traversal.isSome) = some o →
    exec (.variableLatencyCompletion c id) s = .next (s.rayStep c o)

/-! ### Tiles -/

/-- R190 to R205: the tile words put their operations into the queue; a claim takes the lowest free unit, a release unbinds
its name at once and frees the unit in its turn, once every earlier operation of the group on it is done. That a word which reads a
check record in redundant mode parks as it enters the queue is the model's reading (DEDUCED, notes/assumptions/64.md). -/
def Obligations.TileWords : Prop :=
  (∀ (fmt : Fmt) (acq : Bool) (n : TName) (sa : SReg), TileIssues (.tfill · fmt acq n sa) false fun s p g => (g.slotOf n).map fun u =>
    let sp := spanOf g sa (fillRowBytes fmt)
    { regs := [(sa.val, 2)], span := some sp, acq := acq, act := .fill u fmt ((s.wgOf p.core p.slot).scrOff + sp.1) sp.2.1 }) ∧
  (∀ (s : State) (c u : Nat) (acc : Bool), s.freeUnitOf c acc = some u →
    let free := fun n => if acc then (Tbl.get (s.core c).tiles n).owner = 0 ∧ (Tbl.get (s.core c).tiles n).retired = false
      else (Tbl.get (s.core c).slots n).owner = 0 ∧ (Tbl.get (s.core c).slots n).retired = false
    u < (if acc then 8 else 32) ∧ free u ∧ ∀ n, n < u → ¬ free n) ∧
  (∀ (x : Core) (o : TileOp) (acc : Bool) (n : Nat), o ∈ x.seq → o.act = .free acc n → (x.seq.map (·.id)).Nodup →
    let y := x.takeFrees x.seq.length
    (eligible x.seq o = true ↔ ∀ z ∈ x.seq.takeWhile (fun z => z.id != o.id), z.slot = o.slot → z.gen = o.gen → z.act.shares o.act = false) ∧
    (eligible x.seq o = true → o ∉ y.seq ∧ (if acc then (Tbl.get y.tiles n).owner = 0 else (Tbl.get y.slots n).owner = 0)) ∧
    (o ∈ y.seq → eligible y.seq o = false)) ∧
  (∀ n : TName, TileIssues (.tzero · n) false fun _ _ g => (g.slotOf n).map fun u => { act := .zero u }) ∧
  (∀ n : AName, TileIssues (.aclr · n) false fun _ _ g => (g.tileOf n).map fun u => { act := .clear u }) ∧
  (∀ (fa fb : Fmt) (ca cb : Bool) (part : Option (Fin 8)) (a : AName) (ta : TName) (oa : Fin 8) (tb : TName) (ob : Fin 8) (c x y : Nat)
    (sw : Bool) (s : State) (i : Inst) (p : Nat × Nat), s.alone i p → (s.grp i.core p.1).tileOf a = some c →
    (s.grp i.core p.1).slotOf ta = some x → (s.grp i.core p.1).slotOf tb = some y →
    let w : TileWord := {
      slots := [(x, ta.val), (y, tb.val)], tiles := if part.isSome then [] else [(c, a.val)],
      act := .mma c x y fa fb ca cb (part.map (·.val)) oa ob }
    s.tileReady i p w → exec (.mma sw fa fb ca cb part a ta oa tb ob) s =
      .next (((s.tileQueued (i.upart p) w).startPorts i.core).uniDone i p sw)) ∧
  (∀ (s32 acq : Bool) (dst src : AName) (sa : SReg) (d r : Nat) (sw : Bool) (s : State) (i : Inst) (p : Nat × Nat), s.alone i p →
    let g := s.grp i.core p.1
    let off := (g.sreg sa).toNat
    g.tileOf dst = some d → g.tileOf src = some r →
    let w : TileWord := {
      regs := [(sa.val, 1)], span := some (off, 0, off + 512), acq := acq, tiles := [(d, dst.val), (r, src.val)],
      act := .scale d r ((s.wgOf i.core p.1).scrOff + off) s32 }
    s.tileReady i p w → exec (.ascale sw s32 acq dst src sa) s =
      .next (((s.tileQueued (i.upart p) w).startPorts i.core).uniDone i p sw)) ∧
  (∀ (fmt : Fmt) (mode : Mode) (s32 rel : Bool) (clamp : Option SReg) (a : AName) (sa : SReg),
    TileIssues (.adrain · fmt mode s32 rel clamp a sa) true fun s p g => (g.tileOf a).map fun u =>
      let sp := spanOf g sa (drainRowBytes fmt)
      { regs := (sa.val, 2) :: (clamp.toList.map fun r => (r.val, 1)), span := some sp, rel := rel, tiles := [(u, a.val)],
        act := .drain u fmt mode (clamp.map fun r => g.sreg r.val) s32 rel ((s.wgOf p.core p.slot).scrOff + sp.1) sp.2.1 }) ∧
  (∀ (vd : VReg) (a : AName) (sa : SReg) (n : Fin 4), TileIssues (.aread · vd a sa n) true fun _ _ g => (g.tileOf a).map fun u =>
    { regs := [(sa.val, 1)], vecs := [(vd.val, 2 * 2 ^ n.val)], tiles := [(u, a.val)],
      act := .read u (g.sreg sa).toNat (2 ^ n.val) vd }) ∧
  ∀ (sw : Bool) (s : State) (i : Inst) (p : Nat × Nat), s.alone i p →
    let g := s.grp i.core p.1
    (∀ (qd : QReg) (n : TName), g.slotOf n = none →
      (s.freeUnitOf i.core false = none →
        exec (.tclaim sw qd (.tile n)) s = .next ((s.modGrp i.core p.1 fun x => x.setQ qd false).uniDone i p sw)) ∧
      ∀ u, s.freeUnitOf i.core false = some u → exec (.tclaim sw qd (.tile n)) s = .next (((s.modCore i.core fun x =>
        { x with slots := Tbl.mod x.slots u fun y => { y with owner := p.1 + 1 } }).modGrp i.core p.1 fun x =>
        Group.setQ { x with tn := Tbl.set x.tn n (u + 1) } qd true).uniDone i p sw)) ∧
    (∀ (qd : QReg) (n : AName), g.tileOf n = none →
      (s.freeUnitOf i.core true = none →
        exec (.tclaim sw qd (.acc n)) s = .next ((s.modGrp i.core p.1 fun x => x.setQ qd false).uniDone i p sw)) ∧
      ∀ u, s.freeUnitOf i.core true = some u → exec (.tclaim sw qd (.acc n)) s = .next (((s.modCore i.core fun x =>
        { x with tiles := Tbl.mod x.tiles u fun y => { y with owner := p.1 + 1 } }).modGrp i.core p.1 fun x =>
        Group.setQ { x with an := Tbl.set x.an n (u + 1) } qd true).uniDone i p sw)) ∧
    ((s.core i.core).seq.length < Config.seqEntries →
      (∀ (n : TName) (u : Nat), g.slotOf n = some u → exec (.trelease sw (.tile n)) s = .next (((State.enqueue
        (s.modGrp i.core p.1 fun x => { x with tn := Tbl.set x.tn n 0 }) (i.upart p) (.free false u)).startPorts i.core).uniDone i p sw)) ∧
      ∀ (n : AName) (u : Nat), g.tileOf n = some u → exec (.trelease sw (.acc n)) s = .next (((State.enqueue
        (s.modGrp i.core p.1 fun x => { x with an := Tbl.set x.an n 0 }) (i.upart p) (.free true u)).startPorts i.core).uniDone i p sw))

/-- R53, R192, R196, R197, R200 to R205, R264: a chunk that a port runs completes, with or without an operation on it; what one
chunk of a live allocation's operation leaves in its unit; and the check of redundant mode. -/
def Obligations.TileEffects : Prop :=
  (∀ (s : State) (c : Nat) (port : EnginePort), (s.core c).seq.find? (fun o => o.running && o.act.port == some port) = none →
    exec (.tileChunkCompletion c port) s = .next (s.startPorts c)) ∧
  (∀ (s : State) (c : Nat) (port : EnginePort) (o : TileOp), (s.core c).seq.find? (fun o => o.running && o.act.port == some port) = some o →
    let t := (s.chunkEffect c o).modCore c fun x => x.modSeq o.id fun y => { y with running := false, done := y.done + 1 }
    exec (.tileChunkCompletion c port) s = .next (
      (if o.act.chunks ≤ o.done + 1 ∨ (t.core c).isLive o.gen = false then t.finishTileOp c o else t).startPorts c)) ∧
  (∀ (s : State) (c : Nat) (o : TileOp), (s.core c).isLive o.gen = true →
    let t := s.chunkEffect c o
    let x := s.core c
    (∀ n, o.act = .zero n → ∀ k, (Tbl.get (t.core c).slots n).row o.gen k = 0 ∧ (Tbl.get (t.core c).slots n).tag = o.gen) ∧
    (∀ n, o.act = .clear n → (Tbl.get (t.core c).tiles n).words o.gen = List.replicate 16384 0 ∧
      (Tbl.get (t.core c).tiles n).record o.gen = (0, none)) ∧
    (∀ n f off stride, o.act = .fill n f off stride → ∀ k, (Tbl.get (t.core c).slots n).row o.gen k =
      if 16 * o.done ≤ k ∧ k < 16 * o.done + 16 then leNat (x.sramRead o.gen (off + k * stride) (fillRowBytes f))
      else (Tbl.get x.slots n).row o.gen k) ∧
    (∀ acc ta tb fa fb ca cb part oa ob, o.act = .mma acc ta tb fa fb ca cb part oa ob → (∀ r, corruptions o.armed c r = 0) →
      let j := part.getD o.done
      let A := (Tbl.get x.slots ta).block o.gen fa ca (oa + j)
      let B := (Tbl.get x.slots tb).block o.gen fb cb (ob + j)
      (Tbl.get (t.core c).tiles acc).words o.gen =
        (foldBlock fa.isPlane part.isSome ((Tbl.get x.tiles acc).words o.gen) (A.map (·.map (·.1))) (B.map (·.map (·.1)))).1) ∧
    (∀ acc row n vd, o.act = .read acc row n vd → s.genOf c o.slot = o.gen → vd + 2 * n ≤ 128 → ∀ k l, k < 2 * n → l < 64 →
      t.rdV c o.slot (vd + k) l =
        if 128 ≤ row + k / 2 then 0 else ((Tbl.get x.tiles acc).words o.gen).getD (128 * (row + k / 2) + 64 * (k % 2) + l) 0) ∧
    (∀ dst src off s32, o.act = .scale dst src off s32 →
      let D := Tbl.get x.tiles dst
      let S := Tbl.get x.tiles src
      let half := fun a => scaleDecode (leNat (x.sramRead o.gen a 2))
      let blocks := min ((D.record o.gen).1 + 1) 0xFFFF
      (∀ i j, i < 128 → j < 128 →
        let d := (D.words o.gen).getD (128 * i + j) 0
        let p := tileValue s32 ((S.words o.gen).getD (128 * i + j) 0)
        ((Tbl.get (t.core c).tiles dst).words o.gen).getD (128 * i + j) 0 =
          if 16 * o.done ≤ i ∧ i < 16 * o.done + 16 then BitVec.ofNat 32 (fmt32.encode (matrixRound (matrixSum [
            fmt32.decode d.toNat, FVal.mul (FVal.mul p (half (off + 2 * i))) (half (off + 256 + 2 * j))]))) else d) ∧
      (Tbl.get (t.core c).tiles dst).record o.gen = if o.done = 7 then
        (blocks, if (D.record o.gen).2 = none ∧ (S.record o.gen).2 ≠ none then some blocks else (D.record o.gen).2) else D.record o.gen) ∧
    (∀ acc f m b s32 rel off stride, o.act = .drain acc f m b s32 rel off stride → t.dev = s.dev ∧ t.narrows = s.narrows ∧
      (∀ a, (∀ k, 16 * o.done ≤ k → k < 16 * o.done + 16 → a < off + k * stride ∨ off + k * stride + drainRowBytes f ≤ a) →
        (t.core c).sramByte o.gen a = x.sramByte o.gen a) ∧
      ∀ σ : Nat → Nat → Word,
        let made := fun k j => fmtConvert (drainFmt f)
          (tileValue s32 (((Tbl.get x.tiles acc).words o.gen).getD (128 * (16 * o.done + k) + j) 0)) m
          (b.map fun w => (fmt32.decode w.toNat).abs) (σ (j % 64) (2 * k + j / 64))
        o.done < 8 → (∀ l, l < 64 → σ l 0 = (s.thr c o.slot l).seed) →
        (∀ k j, k < 16 → j < 128 → σ (j % 64) (2 * k + j / 64 + 1) = (made k j).rs) →
        (∀ l, l < 64 → (t.thr c o.slot l).seed = σ l 32) ∧
        (drainRowBytes f ≤ stride → ∀ k, k < 16 →
          (t.core c).sramRead o.gen (off + (16 * o.done + k) * stride) (drainRowBytes f) =
            packRow f ((List.range 128).map fun j => fmtCode (drainFmt f) (made k j).val)) ∧
        (t.grp c o.slot).mxstat = (s.grp c o.slot).mxstat ||| mxBits
          ((List.range 16).any fun k => (List.range 128).any fun j => (made k j).nv)
          ((List.range 16).any fun k => (List.range 128).any fun j => (made k j).of)
          false ((Tbl.get x.tiles acc).tag == o.gen && !(Tbl.get x.tiles acc).bad.isEmpty)) ∧
    (o.act.port = some .fill → SameMemory s t)) ∧
  ∀ (s : State) (c n : Nat) (o : TileOp),
    ((∃ row k vd, o.act = .read n row k vd) ∨ ∃ f m b s32 rel off stride, o.act = .drain n f m b s32 rel off stride) →
    (s.grp c o.slot).park = .check o.id → s.genOf c o.slot = o.gen →
    let t := (s.checkStep c o).1
    let record := ((Tbl.get (s.core c).tiles n).record o.gen).2
    (record = none → (s.checkStep c o).2 = true ∧ s.resumed t c o.slot ((s.grp c o.slot).ppc + 8)) ∧
    ∀ b, record = some b → (s.checkStep c o).2 = false ∧ (∀ y ∈ (t.core c).seq, y.id ≠ o.id) ∧
      ((s.launchOf c o.slot).lr.handler ≠ 0 → (s.grp c o.slot).handler = none →
        (t.core c).tiles = (s.core c).tiles ∧ SameMemory s t ∧ (t.grp c o.slot).handler.isSome = true ∧
        (t.grp c o.slot).tval = BitVec.ofNat 64 (n + b * 2 ^ 8) ∧
        (t.grp c o.slot).tcause.toNat % 2 ^ 8 = 0x09 ∧ (t.grp c o.slot).tcause.getLsbD 15 = false ∧
        (t.grp c o.slot).tpc = BitVec.ofNat 64 ((s.grp c o.slot).ppc / 4 % 2 ^ 46 * 4))

/-! ### Handles and copies -/

/-- R214 to R217, R258, R277, R344: the handle words of one group, a later cohort that joins the slot its workgroup is filling among
them, and the transition of a handle. That every group parked on a handle looks at it again at any transition, and is tested as it
issues its word anew, is the model's reading (DEDUCED, notes/assumptions/48.md). -/
def Obligations.HandleWords : Prop :=
  (∀ (sw : Bool) (h : HNum) (s : State) (i : Inst) (p : Nat × Nat), s.alone i p →
    let part := i.upart p
    let H := s.handle i.core h
    let done := fun (t : State) => (.next (t.uniDone i p sw) : Result)
    let waits : Result := .next (s.parked i p sw (.handle h))
    let put := fun (a : State) (f : Handle → Handle) => done (a.putHandle i.core h f)
    (∀ sa : SReg, s.scalarReady i p.1 [(sa.val, 3)] →
      let k := (s.grp i.core p.1).claim sa
      let W := s.wgOf i.core p.1
      s.claimTrap part h k = none → s.sourceMirror part h = false → H.consumer = false →
      let joins := ∃ st, W.stage = some st ∧ s.rejoins part H k st = true
      (joins → exec (.hclaim sw h sa) s = done (s.modHandle i.core h fun x =>
        ({ x with status := 0 } : Handle).mirror (s.slotEntry k.off))) ∧
      (¬ joins → H.state ≠ .free → exec (.hclaim sw h sa) s = waits) ∧
      (H.state = .free → k.narrows = false ∨ W.stage = none →
        exec (.hclaim sw h sa) s = done (((s.acquireOf part H).modHandle i.core h fun _ =>
          k.handle W (s.grp i.core p.1).wg).wakeHandles i.core (· == h.val))) ∧
      ∀ st t, ¬ joins → H.state = .free → k.narrows = true → W.stage = some st → s.claimSlot part h k st = .ok t →
        exec (.hclaim sw h sa) s = done t) ∧
    (∀ scope : Scope, s.heldElse part h = false → H.consumer = false → H.state = .filling →
      (s.core i.core).pendingAt p.1 (s.genOf i.core p.1) p.2 scope = false →
      (H.narrows = false → exec (.hfull sw scope h) s = put s fun x => { x with state := .full, scope := scope.code, bare := false }) ∧
      ∀ t, H.narrows = true → s.fullNarrows part h scope.code = .ok t → exec (.hfull sw scope h) s = done t) ∧
    (s.heldElse part h = false → ∀ sd : SReg, s.scalarReady i p.1 [(sd.val, 1)] →
      (H.state = .free ∨ H.state = .filling → exec (.hdrain sw h) s = waits ∧ exec (.hwait sw false sd h) s = waits) ∧
      (H.state = .full ∨ H.state = .draining → H.faulty = false →
        exec (.hwait sw false sd h) s = done ((s.acquireHandle part h).putStatus part sd H) ∧
        exec (.hdrain sw h) s = (if H.state = .full then put (s.acquireHandle part h) fun x => { x with state := .draining }
          else done (s.acquireHandle part h)))) ∧
    (∀ sd : SReg, s.scalarReady i p.1 [(sd.val, 1)] → H.consumer = false →
      exec (.hwait sw true sd h) s = (if H.state = .free then done (s.putStatus part sd H) else waits)) ∧
    (s.heldElse part h = false → H.consumer = false →
      (H.state = .full ∨ H.state = .draining → s.targetBusy part H = false →
        (H.cons + H.retain = 1 → H.bare = false →
          (s.core i.core).pendingAt p.1 (s.genOf i.core p.1) p.2 (scopeOfCode H.scope) = false) →
        (H.cons ≠ 0 → s.sourceMirror part h = false ∨ h.val = 61 →
          exec (.hfree sw h) s = put s fun x => ({ x with cons := x.cons - 1 } : Handle).settled .draining) ∧
        (H.retain ≠ 0 → exec (.hrel sw h) s = put s fun x => ({ x with retain := x.retain - 1 } : Handle).settled x.state)) ∧
      (H.state ≠ .free → H.retain ≠ 7 → exec (.hret sw h) s = put s fun x => { x with retain := x.retain + 1 })) ∧
    (s.heldElse part h = true → ∀ e ∈ [Instr.hdrain sw h, .hfree sw h, .hret sw h, .hrel sw h, .hfull sw .dev h],
      exec e s = .next ((s.takeTrap i.core p.1 p.2 i.pc true { cause := 0x0D, tval := h }).laneEnd i p false))) ∧
  ∀ (s : State) (c h : Nat) (f : Handle → Handle), (s.handle c h).narrows = false →
    let new := f (s.handle c h)
    let t := s.putHandle c h f
    t.handle c h = (if new.state = .free then new.freed else new) ∧ (∀ k, k ≠ h → t.handle c k = s.handle c k) ∧
    (∀ g, { t.grp c g with park := (s.grp c g).park, handler := (s.grp c g).handler } = s.grp c g) ∧ SameMemory s t ∧
    ∀ g, (s.grp c g).used = true → (s.grp c g).halted = false →
      ((s.grp c g).park = .handle h → (t.grp c g).park = .none) ∧
      ∀ H, (s.grp c g).handler = some H → H.held = .handle h → (s.grp c g).park = .none →
        (t.grp c g).handler = some { H with held := .none }

/-- R206, R209 to R213, R271 to R276: a copy from its word to its completion, and the check at its promise. -/
def Obligations.CopyWords : Prop :=
  (∀ (sw : Bool) (s : State) (i : Inst) (p : Nat × Nat), s.alone i p →
    let g := s.grp i.core p.1
    let W := s.wgOf i.core p.1
    let L := s.launchOf i.core p.1
    (∀ sd sa : SReg, s.scalarReady i p.1 [(sd.val, 2), (sa.val, 16)] → W.task = none → L.lr.producer = some g.index → g.ucount ≠ 63 →
      let k : Copy := {
        used := true, cmd := (upFrom sa.val 16).flatMap fun r => leBytes (g.sreg r).toNat 4, core := i.core, slot := p.1,
        wg := g.wg, gen := W.gen, launch := W.launch, ctx := L.ctx, lanes := p.2, sd := sd.val, mark := (s.core i.core).nextOp }
      (∀ a, s.copyHandle (i.upart p) k = .ok a → exec (.cpy sw sd sa) s =
        .next ((((State.countUpU { a with copies := Tbl.set a.copies a.freeCopy k } i.core p.1)).modCore i.core fun x =>
          { x with nextOp := x.nextOp + 1 }).parked i p sw (.copy a.freeCopy))) ∧
      (s.copyHandle (i.upart p) k = .waits → exec (.cpy sw sd sa) s = .next (s.parked i p sw (.handle k.h)))) ∧
    ∀ (sd sa : SReg) (h : HNum), s.scalarReady i p.1 [(sd.val, 1), (sa.val, 2)] →
      let due := (g.spair sa).toNat
      (s.cyc.toNat < due → exec (.cpyw sw sd sa h) s = .next (s.parked i p sw (.promise due s.cyc.toNat sd h))) ∧
      ∀ a, due ≤ s.cyc.toNat → s.promiseCheck (i.upart p) due s.cyc.toNat sd h = .ok a →
        exec (.cpyw sw sd sa h) s = .next (a.uniDone i p sw)) ∧
  (∀ (s : State) (c g d t sd h : Nat) (a : State), (s.grp c g).used = true → (s.grp c g).halted = false →
    (s.grp c g).park = .promise d t sd h → d ≤ s.cyc.toNat →
    let due := fun q => (Park.promised s.cyc.toNat q).isSome
    s.promiseCheck (s.parkedPart c g due) d t (Fin.ofNat 256 sd) (Fin.ofNat 64 h) = .ok a →
    exec (.cpywPromiseReached c g) s = .next (a.resumeAfter c g due 1)) ∧
  ∀ (s : State) (n : Nat),
    let k := s.copy n
    let f := s.ferryOf k false
    let t := s.acceptCopy n f
    (k.used = true → k.phase = .offered → s.copyAwaited n = true → (s.grp k.core k.slot).halted = false → s.copyWaits k = false →
      (∀ x ∈ s.faults, x.agent ≠ .ferry n) → k.status.getLsbD 4 = false → k.tensor ≠ [] → k.refused (s.handle k.core k.h) = false →
      (Tbl.get s.ferries f).queue.length < Config.ferryQueue → k.empty = false →
      exec (.copyAcceptance n) s = .next t ∧ (t.copy n).phase = .moving ∧ (t.copy n).promise = s.promiseAt k f ∧
        (t.copy n).dests = k.destinations.map (·, 0) ∧ (Tbl.get t.ferries f).queue = (Tbl.get s.ferries f).queue ++ [n] ∧
        (t.grp k.core k.slot).spair k.sd = BitVec.ofNat 64 (s.promiseAt k f)) ∧
    ∀ d, k.used = true → s.power.stopped = false → k.stuck = none → s.copyLinked k = true → s.copyHeld k = false →
      (k.phase ≠ .offered → s.copyTurn n = true → (∀ x ∈ s.faults, x.agent ≠ .ferry n) → k.taken = true →
        exec (.ferryDestinationDelivery n d) s = .next (s.deliver n d)) ∧
      (k.phase ≠ .offered → s.copyTurn n = true → (∀ x ∈ s.faults, x.agent ≠ .ferry n) → k.taken = false →
        ((s.beginCopy n).copy n).taken = true → exec (.ferryDestinationDelivery n d) s = .next ((s.beginCopy n).deliver n d)) ∧
      ((d, 1) ∈ k.dests → (∀ e ∈ k.dests, e.2 ≠ 0) → s.copyReleaseWaits k = false → s.ackWaits k = false →
        exec (.copyCompletion n d) s = .next (s.completeDest n d))

/-! ### Steps of a core -/

/-- R59 to R61, R176, R228, R235, R329: an entry ages, a sleeper wakes, the scrubber clears what no live allocation can read, the
scratchpad share moves by a step, and a finished workgroup retires. -/
def Obligations.CoreSteps : Prop :=
  (∀ (s : State) (c n : Nat), exec (.cohortEntryAgeing c n) s = .next (s.modCore c fun x => { x with table := x.table.map fun e =>
    if e.set = n / 4 ∧ e.way = n % 4 ∧ e.age + 16 ≤ s.power.ticks / 1900 then { e with aged := true } else e })) ∧
  (∀ (s : State) (c g d : Nat), (s.grp c g).used = true → (s.grp c g).park = .sleep d →
    (d ≤ s.cyc.toNat → ∃ t, exec (.sleepWake c g) s = .next t ∧ s.resumed t c g ((s.grp c g).ppc + 4)) ∧
    (s.cyc.toNat < d → (∀ H, (s.grp c g).handler = some H → H.held.slept s.cyc.toNat = false) →
      exec (.sleepWake c g) s = .next s)) ∧
  (∀ (s : State) (c : Nat),
    let x := s.core c
    let y := x.sweep
    exec (.scrubberSweep c) s = .next (s.modCore c Core.sweep) ∧ y.low = x.oldestGen ∧
    (∀ e ∈ x.wgs, e.2.used = true → (x.oldestGen - x.low).toNat ≤ (e.2.gen - x.low).toNat) ∧
    ((x.rows.map (·.1)).Nodup → (x.gtag.map (·.1)).Nodup →
      (∀ k, x.sweeps x.oldestGen (Tbl.get x.rows k).tag = true → Tbl.get y.rows k = default) ∧
      ∀ e ∈ x.wgs, e.2.used = true → (∀ g r l, y.lane e.2.gen g r l = x.lane e.2.gen g r l) ∧
        ∀ a, y.sramByte e.2.gen a = x.sramByte e.2.gen a)) ∧
  (∀ (s : State) (c : Nat) (v : BitVec 32),
    let r := v.toNat / 2 ^ 8 % 2 ^ 4
    s.service.recovery = false → exec (.scratchpadShareWrite c v) s =
      .next (if c < 192 ∧ 1 ≤ r ∧ r ≤ 11 then s.modCore c fun x => { x with req := r } else s)) ∧
  (∀ (s : State) (c : Nat),
    let x := s.core c
    let reaches := ∃ e ∈ x.wgs, e.2.used = true ∧ e.2.scrLen ≠ 0 ∧ (x.cur - 1) * 131072 < e.2.scrOff + e.2.scrLen
    ∃ t, exec (.scratchpadStepMove c) s = .next t ∧ (x.req = x.cur → t.core c = x) ∧ (x.req < x.cur → reaches → t.core c = x) ∧
      (x.req < x.cur → ¬ reaches → t.core c = { x with cur := x.cur - 1 }) ∧
      (x.cur < x.req → (t.core c).cur = x.cur + 1 ∧ (t.core c).req = x.req ∧ ∀ a, Tbl.get (t.core c).gtag (a / 32) =
        if a / 131072 = x.cur then 0 else Tbl.get x.gtag (a / 32))) ∧
  ∀ (s : State) (c w : Nat),
    let W := s.wg c w
    W.used = true → (∀ g ∈ W.slots, ∀ l, l < 64 → (s.thr c g l).live = false) → (s.core c).retireWaits w W = false →
    (W.stage = none → ∃ t, exec (.workgroupRetirement c w) s = .next t ∧ (t.wg c w).used = false ∧
      (∀ g ∈ W.slots, (t.grp c g).used = false) ∧
      t.launch W.launch = { s.launch W.launch with retired := (s.launch W.launch).retired + 1 } ∧ SameMemory s t ∧
      t.decrements = s.decrements ++ match W.task with
        | none => []
        | some k => if k.succ = 0 then [] else [{
            addr := k.succ, launch := W.launch, atoll := k.atoll, core := c, gen := W.gen,
            rel := if k.rel then some (scopeOfCode k.scope) else none }]) ∧
    ∀ st, W.stage = some st → W.task = none → (st.owes = true → s.partReady c w W st = true) →
      exec (.workgroupRetirement c w) s = .next (((s.retireStage c w st).modLaunch W.launch fun L =>
        { L with retired := L.retired + 1 }).endWg c w)

/-! ### Watches and answers -/

/-- R152, R153, R177, R231, R279 to R284: a watch expires, an outcome arrives at its waiter, a deferred registration enters, and
the spill walker tests a write against the records of its slice. That an outcome which makes the device write, and a deferred
registration, wait for a full spill walker is the model's reading (notes/assumptions/39.md). -/
def Obligations.WatchSteps : Prop :=
  (∀ (s : State) (n d : Nat),
    let w := Tbl.get s.watches n
    w.used = true → w.deadline = some d → d < s.cyc.toNat → s.walkPending w d = false →
    exec (.watchExpiry n) s = .next (s.endWatch n .expired) ∧
    (w.held = .table → exec (.watchExpiry n) s = .next { s with
      watches := Tbl.erase s.watches n
      msgs := Tbl.set s.msgs (freeKey s.msgs fun x => x.used) { used := true, watch := n, data := w, out := .expired } })) ∧
  (∀ (s : State) (n : Nat),
    let m := Tbl.get s.msgs n
    let b := { s with msgs := Tbl.erase s.msgs n }
    m.used = true →
    (∀ c g l, m.data.waiter = .thread c g l → (s.grp c g).used = true → s.genOf c g = m.data.gen → l < 64 →
      (s.thr c g l).wait = .watch m.watch → ∃ t, exec (.watchOutcomeArrival n) s = .next t ∧
        t.thr c g l = (if m.out = .retranslate then { s.thr c g l with wait := .none, pc := (s.thr c g l).pc - 8 }
          else ({ s.thr c g l with wait := .none } : Thread).setPred m.data.pd (m.out == .satisfied)) ∧
        (∀ d h k, d ≠ c ∨ h ≠ g ∨ k ≠ l → t.thr d h k = s.thr d h k) ∧ SameMemory s t) ∧
    (∀ c g, m.data.waiter = .group c g → (s.grp c g).used = true → s.genOf c g = m.data.gen → (s.grp c g).park = .watch m.watch →
      ∃ t, exec (.watchOutcomeArrival n) s = .next t ∧ (t.grp c g).park = .none ∧
        (m.out = .retranslate → { t.grp c g with park := (s.grp c g).park } = s.grp c g) ∧
        (m.out ≠ .retranslate → (t.grp c g).q = ((s.grp c g).setQ m.data.pd (m.out == .satisfied)).q ∧
          ((s.grp c g).handler = none → ∀ l, l < 64 → (s.grp c g).pset.testBit l = true → (t.thr c g l).pc = (s.grp c g).ppc + 8))) ∧
    (∀ x e g l, m.data.waiter = .saved x e g l → exec (.watchOutcomeArrival n) s =
      .next (s.walkersTake (b.savedOutcome m x e g l))) ∧
    (∀ q, m.data.waiter = .queue q → exec (.watchOutcomeArrival n) s = .next (s.walkersTake (b.examineQueue q))) ∧
    ∀ c, m.data.waiter = .ring c → exec (.watchOutcomeArrival n) s = .next (b.modChain c fun x => { x with waiting := false })) ∧
  (∀ (s : State) (n : Nat),
    let w := Tbl.get s.watches n
    let holds := w.cond ≠ .any ∧ Cond.holds w.cond (8 * w.bytes) (Memory.nat s.dev w.addr w.bytes) w.operand = true
    w.used = true → w.held = .deferred → s.walkFull [(w.addr, w.bytes)] = false →
    (s.watches.filter fun e => e.2.held == .table && e.2.slice == w.slice && e.1 != n).length < 256 →
    exec (.deferredRegistration n) s = .next (if holds then s.decideWatch n .satisfied else s.modWatch n fun _ =>
      { w with held := .table, deadline := w.timeout.map fun t => s.cyc.toNat + t })) ∧
  ∀ (s : State) (n : Nat) (k : Walk) (rest : List Walk), (Tbl.get s.slices n).walks = k :: rest →
    let bit := filterBit k.addr
    let a := { s with slices := Tbl.mod s.slices n fun x => { x with walks := rest } }
    let b := (Tbl.get a.slices n).ctxs.foldl (fun a ctx => a.walkCtx n k ctx) a
    let stays := ∃ e ∈ b.watches, e.2.slice = n ∧ filterBit e.2.addr = bit ∧ ∃ r, e.2.held = .spilled r
    (stays → exec (.spillWalk n) s = .next b) ∧
    (¬ stays → exec (.spillWalk n) s =
      .next { b with slices := Tbl.mod b.slices n fun x => { x with filter := x.filter.filter (· != bit) } }) ∧
    ∀ ctx, (ctx = deviceCtx ∨ ∀ m ∈ a.spilledOf n ctx, ∀ r, (Tbl.get a.watches m).held = .spilled r →
      ∃ pa, a.spillAddr ctx n r .read = .ok pa) → a.walkCtx n k ctx = (a.spilledOf n ctx).foldl
      (fun u m => if k.decides (Tbl.get u.watches m) then u.endWatch m .satisfied else u) a

/-- R129, R380: the oldest record that a response covers takes its answer: on retry a waiting thread's access is replayed and the
thread goes on after its word, or waits for the next answer; on failure it takes the trap of cause 0x0A. A thread of a workgroup that
halts for its save takes no answer: it stands at its word, which it executes again after the restore (R368). -/
def Obligations.FaultAnswers : Prop :=
  (∀ (s : State) (ctx n : Nat) (f : FaultRec), s.nextFault ctx = some f → f.index = some n → n < s.ctxNat ctx 0x60 8 →
    f.gen = s.agentGen f.agent →
    let r := Memory.nat s.dev (s.ctxNat ctx 0x40 8 + 32 * (n % 2 ^ (s.ctxNat ctx 0x48 4 % 16)) + 0x18) 4
    let b := { s with faults := s.faults.filter fun x => x != f }
    (s.agentHalts f.agent = true → exec (.faultResponse ctx) s = .next ((b.giveUp f.agent).postWaiting ctx)) ∧
    (s.agentHalts f.agent = false →
      (r ≠ 1 → exec (.faultResponse ctx) s = .next ((b.failFault f).postWaiting ctx)) ∧
      (∀ t, r = 1 → b.retryFault f = some t → exec (.faultResponse ctx) s = .next (t.postWaiting ctx)) ∧
      (r = 1 → b.retryFault f = none → exec (.faultResponse ctx) s = .next s))) ∧
  ∀ (s : State) (f : FaultRec) (c g l : Nat), f.agent = .thread c g l → l < 64 → (s.thr c g l).wait = .fault →
    (∀ (st : Stall) (r : Reach) (act : MemAct) (order : Order) (scope : Scope),
      (s.core c).stallOf g false false (2 ^ l) = some st → st.act = .access r act order scope →
      let a := (s.dropStall c st).issueAccess (st.part c) (2 ^ l) false r act order scope
      (a.2 = none → ∃ t, s.retryFault f = some t ∧
        t.thr c g l = (let u := a.1.thr c g l
          let n := u.count + if act.counted then 1 else 0
          { u with wait := .none, pc := st.pc + 4 * st.words, count := n, sw := u.sw || (st.sw && n != 0) }) ∧
        (∀ d h k, d ≠ c ∨ h ≠ g ∨ k ≠ l → t.thr d h k = a.1.thr d h k) ∧ SameMemory a.1 t) ∧
      ∀ k ptr, a.2 = some (k, ptr) → s.retryFault f = some (a.1.parkFault (st.part c) l ptr k st.sw st.act)) ∧
    let b := s.undoIssue c g [l] []
    let x : Trap := { cause := 0x0A, tval := f.ptr, lane := l }
    ((s.core c).stallOf g false false (2 ^ l) = none →
      s.retryFault f = some s ∧ s.failFault f = b.takeTrap c g (2 ^ l) (s.thr c g l).pc false x) ∧
    ∀ st : Stall, (s.core c).stallOf g false false (2 ^ l) = some st → (∀ op, st.act ≠ .ray op) →
      s.failFault f = (b.dropStall c st).takeTrap c g (2 ^ l) (s.thr c g l).pc false x

/-! ### Queues and launches -/

/-- R315 to R317: a queue becomes ready, takes a hardware slot and dispatches its entries, and gives the slot up where it has none or
its class is the strip class; writes of the scheduler wait for a full spill walker (R282, DEDUCED, notes/assumptions/39.md). -/
def Obligations.QueueSteps : Prop :=
  (∀ (s : State) (q : Nat), q < s.queueCount →
    (s.queueOn q = false → exec (.queueReady q) s = .next (s.idleQueue q)) ∧
    (s.queueOn q = true → s.queueBroken q = true → exec (.queueReady q) s = .next (s.walkersTake (s.stopQueue q))) ∧
    (s.queueOn q = true → s.queueBroken q = false → s.ctxLayout (s.queueCtx q) = false →
      exec (.queueReady q) s = .next (s.walkersTake ((s.postContext (s.queueCtx q)).stopQueue q))) ∧
    (s.queueOn q = true → s.queueBroken q = false → s.ctxLayout (s.queueCtx q) = true →
      (s.queueWork q = true → exec (.queueReady q) s = .next (if (s.queue q).ready = 0
        then { s with queues := Tbl.set s.queues q { s.queue q with ready := s.cyc.toNat + 1 } } else s)) ∧
      (s.queueWork q = false → exec (.queueReady q) s = .next (s.walkersTake ((s.idleQueue q).watchQueue q))) ∧
      (s.queueCls q = 3 → s.queueWork q = false ∧ (((s.idleQueue q).watchQueue q).queue q).ready = 0))) ∧
  (∀ (s : State) (n q : Nat), firstBy s.queueRank s.waitingQueues = some q →
    (n < 64 ∧ (Tbl.get s.hwSlots n).queue = 0) ∨ s.slotFor q = some n →
    ∃ t, exec (.queueSlotBind n) s = .next t ∧ Tbl.get t.hwSlots n = { queue := q + 1, since := s.cyc.toNat, expired := false } ∧
      (∀ m, m ≠ n → Tbl.get t.hwSlots m = Tbl.get s.hwSlots m) ∧
      ∀ r, t.queue r = if (Tbl.get s.hwSlots n).queue = r + 1 then { s.queue r with ready := s.cyc.toNat + 1 } else s.queue r) ∧
  (∀ (s : State) (n q : Nat), (Tbl.get s.hwSlots n).queue = q + 1 →
    (Tbl.get s.hwSlots n).since + s.sliceCyc (s.queueCls q) ≤ s.cyc.toNat → exec (.slotTimeSliceExpiry n) s =
      .next { s with hwSlots := Tbl.set s.hwSlots n { Tbl.get s.hwSlots n with expired := true } }) ∧
  ∀ (s : State) (n q : Nat), (Tbl.get s.hwSlots n).queue = q + 1 →
    (s.queueBusy q = false → s.queueOn q = true → s.queueBroken q = false → s.queuePending q = 0 ∨ s.queueCls q = 3 →
      exec (.queueDispatch n) s = .next (s.idleQueue q)) ∧
    (s.queueBusy q = false → s.queueOn q = true → s.queueBroken q = false → s.queuePending q ≠ 0 → s.queueCls q ≠ 3 → s.walkersIdle →
      (s.chains.find? fun e => e.2.state == 1 && e.2.field 0x10 4 == q) = none →
      let i := s.queueNat q 0x18 8
      let addr := s.queueNat q 0 8 + 128 * (i % 2 ^ s.queueNat q 8 4)
      let bytes := Memory.read s.dev addr 128
      ∃ t l, exec (.queueDispatch n) s = .next t ∧ (t.queue q).last = l + 1 ∧ Memory.nat t.dev (s.queueAddr q + 0x18) 8 = (i + 1) % 2 ^ 64 ∧
        t.launch l = {
          used := true, lr := LaunchRec.ofBytes bytes, bytes := bytes, addr := addr, ctx := s.queueCtx q, cls := s.queueCls q,
          queue := q + 1, priority := s.queuePrio q, ready := (s.queue q).ready - 1,
          prev := if (LaunchRec.ofBytes bytes).serial then (s.queue q).last else 0 }) ∧
    ∀ l, (s.queue q).last = l + 1 → s.queueBusy q = true → (s.launch l).checked = false → (s.launch l).prev = 0 →
      let r := s.recordReason (s.launch l) (s.launch l).bytes
      ∃ t, exec (.queueDispatch n) s = .next t ∧ (∀ m, m ≠ l → t.launch m = s.launch m) ∧
        t.launch l = { s.launch l with
          checked := true, since := s.cyc.toNat, firstCyc := s.cyc.toNat, firstNs := s.ptimeNs, reason := r,
          attached := (s.attachTable (s.launch l).ctx (s.launch l).lr).getD []
          status := if r = 0 then (s.launch l).status else 3 }

/-- R183, R325, R332 to R334: the group that `LAUNCHW` has parked longest gets the free entry, a pending record becomes a launch,
and a launch ends with its completion record. -/
def Obligations.LaunchSteps : Prop :=
  (∀ (s : State) (c g since ptr : Nat) (bs : List Byte) (reads : List MemOp), (s.core c).pend.length < 4 → (s.grp c g).used = true →
    (s.grp c g).halted = false → (s.grp c g).park = .launchw since ptr →
    (∀ h u p, (s.grp c h).used = true → (s.grp c h).halted = false → (s.grp c h).launchwSince = some (u, p) → h ≠ g →
      since < u ∨ since = u ∧ g < h) →
    s.unitBytes c (s.launchOf c g).ctx (usesL1 (ptr / 2 ^ 60) (ptr / 2 ^ 57 % 8)) ptr 128 = .ok bs reads →
    ∃ t, exec (.launchwEntryTaken c) s = .next t ∧ s.resumed t c g ((s.grp c g).ppc + 4) ∧
      (t.core c).pend = (s.core c).pend ++ [{ addr := ptr, bytes := bs, ctx := (s.launchOf c g).ctx }]) ∧
  (∀ (s : State) (c : Nat) (e : Pending) (rest : List Pending), (s.core c).pend = e :: rest → s.ctxState e.ctx = 0 →
    s.ctxEnabled e.ctx = true →
    (e.launch = 0 → ∃ t l, exec (.pendingLaunchDispatch c) s = .next t ∧ (t.core c).pend = { e with launch := l + 1 } :: rest ∧
      (t.core c).lastLaunch = l + 1 ∧ t.launch l = {
        used := true, lr := LaunchRec.ofBytes e.bytes, bytes := e.bytes, addr := e.addr, ctx := e.ctx, cls := s.ctxClass e.ctx,
        ready := s.cyc.toNat, core := c + 1,
        prev := if (LaunchRec.ofBytes e.bytes).serial then (s.core c).lastLaunch else 0 }) ∧
    ∀ l, e.launch = l + 1 → (s.launch l).checked = false → (s.launch l).prev = 0 →
      let t := s.checkLaunch l e.bytes
      exec (.pendingLaunchDispatch c) s = .next (if (t.launch l).status = 0 then t else t.freePend l)) ∧
  ∀ (s : State) (l : Nat),
    let L := s.launch l
    L.used = true → L.status = 3 ∨ (s.launchOver l = true ∧ s.endWaits l = false) → s.walkersIdle →
    ∃ t, exec (.launchEnd l) s = .next t ∧ t.launch l = default ∧ (∀ m, m ≠ l → (t.launch m).used = (s.launch m).used) ∧
      (∀ m, (s.launch m).prev = l + 1 → (t.launch m).prev = 0) ∧
      (L.chain = 0 → s.savedOf L.ctx l = [] → L.lr.sig = 0 → L.lr.comp / 2 ^ 60 = 5 → outPtrOk 64 L.lr.comp = true →
        Memory.read t.host (L.lr.comp % 2 ^ 48) 64 = s.completion L)

/-! ### Placement, tasks and pre-emption -/

/-- R31, R33, R51, R221, R222: what a placement leaves in its core: the workgroup, and in each group its launch-initial values
and its threads at the entry. R51, R58, R59: in every step the live allocations of a core keep generations of their own, inside the
window before its next one, and its tables list each workgroup, group, row and granule once. -/
def Obligations.PlacementValues : Prop :=
  (∀ s t : State, s.coresWf → step s = .next t → t.coresWf) ∧
  ∀ (s t : State) (c l off w : Nat) (q : Placing), s.place c l off q = (t, w) →
    let slots := (s.core c).freeGroups q.needs.groups
    t.wg c w = { q.wg with
      used := true, launch := l, base := q.base, slots := slots, gen := (s.core c).nextGen, scrOff := off, scrLen := q.needs.scratch,
      placed := s.placements } ∧
    (t.core c).nextGen = (if (s.core c).nextGen = 0xFFFF then 1 else (s.core c).nextGen + 1) ∧
    (∀ g j, slots[j]? = some g →
      ((t.grp c g).used = true ∧ (t.grp c g).wg = w ∧ (t.grp c g).index = j ∧ (t.grp c g).vregs = q.needs.vregs ∧
        (t.grp c g).sregs = q.needs.sregs ∧ (t.grp c g).q = 0 ∧ (t.grp c g).park = .none ∧ (t.grp c g).handler = none ∧
        (t.grp c g).ucount = 0) ∧
      ((t.grp c g).spair 0).toNat = q.args % 2 ^ 64 ∧ ((t.grp c g).spair 2).toNat = q.base % 2 ^ 64 ∧
      (t.grp c g).sreg 4 = BitVec.ofNat 32 j ∧ (t.grp c g).sreg 5 = BitVec.ofNat 32 q.groups ∧
      (t.grp c g).sreg 6 = BitVec.ofNat 32 c ∧ (t.grp c g).sreg 7 = BitVec.ofNat 32 q.s7 ∧
      (∀ r, 8 ≤ r → (t.grp c g).sreg r = 0) ∧
      ∀ i, i < 64 →
        (t.thr c g i).live = q.live (q.base + 64 * j + i) ∧ (t.thr c g i).pc = q.entry ∧ (t.thr c g i).count = 0 ∧
        (t.thr c g i).preds = 0 ∧ (t.thr c g i).wait = .none ∧
        t.rdV c g 0 i = BitVec.ofNat 32 (q.base + 64 * j + i) ∧ t.rdV c g 1 i = BitVec.ofNat 32 ((q.base + 64 * j + i) / 2 ^ 32)) ∧
    (∀ h, h ∉ slots → t.grp c h = s.grp c h) ∧ SameMemory s t

/-- R222, R223, R323, R327 to R329, R369: a workgroup or task is placed once a core can take it, the first one in the search behind
the core that took the workgroup before it; a retired task counts its successor down, and pre-emption takes a workgroup from its core. That
pre-emption takes one workgroup a step, and passes over those whose save has just found no room, is the model's reading (DEDUCED,
notes/assumptions/54.md), and so is the place that a refused task's fault names, core and group 0 (DEDUCED, notes/assumptions/41.md). -/
def Obligations.PlacementSteps : Prop :=
  (∀ (s : State) (l c off : Nat), s.chooseCore l = some (c, off) →
    let L := s.launch l
    c ∈ s.nextCores l ∧ s.takesNow l c = some off ∧ s.canTake c l L.lr.needs = some off ∧
    (L.lastCore ≤ Config.cores → ∀ d ∈ s.nextCores l, L.searchDistance d < L.searchDistance c → s.takesNow l d = none)) ∧
  (∀ (s : State) (l : Nat),
    let L := s.launch l
    s.placeable l = true → s.outranked l = false →
    (∀ plan, L.lr.coresident = true → L.placed = false → s.quads l = some plan →
      exec (.workgroupPlacement l) s = .next ((s.placeQuads l plan).freePend l)) ∧
    ∀ n c off, L.lr.coresident = false ∨ L.placed = true → L.nextIndex L.lr.workgroups = some n → s.chooseCore l = some (c, off) →
      let r := s.placeIndex l c off n L.s7 (L.stageOf n)
      exec (.workgroupPlacement l) s = .next (((r.1.bindStage c r.2).rejoin c r.2).freePend l)) ∧
  (∀ (s : State) (a : Nat) (r : ReadyTask) (rest : List ReadyTask), (s.atoll a).ready = r :: rest →
    s.ctxState (s.launch r.launch).ctx = 0 → r.late = false ∨ s.reservedBy a = none →
    let n := s.taskReason a r.bytes
    (∀ c off, n = 0 → s.taskCore a r.launch (taskNeeds r.bytes) = some (c, off) →
      let b := s.modAtoll a fun x => { x with
        ready := rest, reserved := x.reserved + if fieldAt r.bytes 0x18 8 = 0 then 0 else 1 }
      exec (.taskStart a) s = .next ((b.place c r.launch off (taskPlacing a r.bytes)).1.modLaunch r.launch fun L => { L with
        placed := true, firstCyc := if L.placed then L.firstCyc else s.cyc.toNat
        firstNs := if L.placed then L.firstNs else s.ptimeNs
        textAt := if L.placed then L.textAt else b.past.length })) ∧
    (n ≠ 0 → exec (.taskStart a) s = .next (((s.modAtoll a fun x => { x with ready := rest }).modLaunch r.launch fun L => { L with
      reason := if L.status = 0 then n else L.reason }).faultEnd r.launch 0 0 0 0))) ∧
  (∀ (s : State) (n pa : Nat) (d : Decrement), s.decrements[n]? = some d → s.decrementWaits d = false → s.walkersIdle →
    s.xlateDev (s.launch d.launch).ctx (d.addr % 2 ^ 48) .write = .ok pa →
    let v := (Memory.nat s.dev pa 4 + 2 ^ 32 - 1) % 2 ^ 32
    ∃ t, exec (.successorDecrement n) s = .next t ∧ t.decrements = s.decrements.eraseIdx n ∧ Memory.nat t.dev pa 4 = v ∧
      (d.reserved = true → (t.atoll d.atoll).reserved = (s.atoll d.atoll).reserved - 1 ∧
        (v ≠ 0 → (t.atoll d.atoll).ready = (s.atoll d.atoll).ready) ∧
        (v = 0 → (t.atoll d.atoll).ready = (s.atoll d.atoll).ready ++
          [{ bytes := Memory.read t.dev (pa / 64 * 64) 64, launch := d.launch, late := (s.reservedBy d.atoll).isSome }])) ∧
      (d.reserved = false → t.atolls = s.atolls)) ∧
  ∀ (s : State) (l k : Nat), s.power.stopped = false → s.starves l = true →
    firstBy (fun k => [2 - (s.launch (s.wg (k / 64) (k % 64)).launch).cls, s.refusedNow (s.wg (k / 64) (k % 64)),
        s.placements - (s.wg (k / 64) (k % 64)).placed])
      ((s.placedWgs.filter (s.preemptible (s.launch l))).map fun p => p.1 * 64 + p.2) = some k →
    let c := k / 64
    let w := k % 64
    let W := s.wg c w
    W.used = true → ∃ t, exec (.preemption l) s = .next t ∧
      (W.flushable = true → W.save = .no → (t.wg c w).used = false ∧ (t.launch W.launch).restarts = (s.launch W.launch).restarts ++
        [W.restarts (if (s.launch W.launch).lr.coresident then c + 1 else 0) true]) ∧
      (W.flushable = false → W.save = .no → t.wg c w = { W with save := .halting } ∧
        ∀ g ∈ W.slots, (t.grp c g).halted = true) ∧ SameMemory s t

/-! ### Contexts -/

/-- R62, R63, R363 to R374, R378: a halted workgroup is saved, a saved one is placed again, and each command on a context does its
part: its state word, its launches, its hardware slots and its translations. -/
def Obligations.ContextSteps : Prop :=
  (∀ (s : State) (c w : Nat) (t : State),
    let W := s.wg c w
    let ps := s.savedWith c w
    W.used = true → s.power.stopped = false → W.save = .halting → (∀ p ∈ ps, (s.wg p.1 p.2).save = .halting ∧ s.saveWaits p.1 p.2 = false) →
    (s.saveAll ps = some t → s.walkersIdle → exec (.workgroupSave c w) s = .next t ∧ (ps = [(c, w)] → (t.wg c w).used = false)) ∧
    (s.saveAll ps = none → exec (.workgroupSave c w) s =
      .next ((ps.foldl (fun a p => (a.modWg p.1 p.2 fun V => { V with refused := s.cyc.toNat + 1 }).unhaltWg p.1 p.2) s).sample
        0x04 none 65535))) ∧
  (∀ (s : State) (x e c off : Nat),
    let v := s.saved x e
    let u := { s with restores := s.restores.filter fun r =>
      !(r.ctx == x && r.entry == e && r.core.any fun k => !s.mayUse (s.launch v.launch) k) }
    v.used = true → s.ctxState x = 0 ∨ s.ctxState x = 3 → (s.launch v.launch).status = 0 → s.restoreTurn x e = true →
    (∀ m ∈ s.msgs, m.2.data.waiter.isSaved x e = false) → s.areaOk v = true → (s.launch v.launch).lr.coresident = false →
    (u.restoreCores x e).findSome? (fun c => (u.coreGivesAll x e c).map fun off => (c, off)) = some (c, off) →
    ∃ t w, exec (.workgroupRestore x e) s = .next t ∧ (t.saved x e).used = false ∧ (t.wg c w).used = true ∧
      (t.wg c w).launch = v.launch ∧ (t.wg c w).index = v.index ∧ (t.wg c w).gen = (s.core c).nextGen ∧ (t.wg c w).scrOff = off ∧
      (t.wg c w).point = bitsOf (Memory.nat s.dev (v.area + 0x10) 4) 15 8 ∧ (t.wg c w).restart = v.restart) ∧
  (∀ (s : State) (x : Nat),
    (s.ctxAccepts 1 x = true → ∃ t, exec (.swapOut x) s = .next t ∧ t.ctxState x = 1 ∧ t.cmd.busy = true ∧ t.cmd.op = 1 ∧ t.cmd.ctx = x ∧
      ∀ e ∈ t.hwSlots, e.2.queue ≠ 0 → t.queueCtx (e.2.queue - 1) ≠ x) ∧
    (s.ctxState x = 1 → s.wgsOfCtx x = [] → ∃ t, exec (.swapOutComplete x) s = .next t ∧ t.ctxState x = 2 ∧
      (∀ c, (∀ e ∈ (t.core c).tlb, e.ctx ≠ x) ∧ ∀ e ∈ (t.core c).l1, e.2.ctx ≠ x) ∧
      (s.cmd.op = 1 → s.cmd.ctx = x → t.cmd.busy = false)) ∧
    (s.asked x = true → exec (.contextRestore x) s = .next (s.setCtxState x 3) ∧ (s.setCtxState x 3).ctxState x = 3) ∧
    (s.asked x = false → s.ctxAccepts 2 x = true → ∃ t, exec (.contextRestore x) s = .next t ∧
      (s.ctxState x ≠ 4 → t.ctxState x = 3 ∧ t.cmd.busy = true) ∧ (s.ctxState x = 4 → s.ctxEnabled x = true → t.ctxState x = 0)) ∧
    (s.ctxState x = 3 → (∀ e ∈ (Tbl.get s.ctxRegs x).saved, e.2.used = false) → ∃ t, exec (.contextRestoreComplete x) s = .next t ∧
      t.ctxState x = 0 ∧
      ∀ q, (t.queue q).ready = if (s.queue q).ready ≠ 0 ∧ t.queueCtx q = x then s.cyc.toNat + 1 else (s.queue q).ready) ∧
    (∀ e, (e = .endLaunches x ∧ s.ctxAccepts 4 x = true) ∨ (e = .contextDestroy x ∧ s.ctxAccepts 3 x = true) →
      ∃ t, exec e s = .next t ∧ (∀ l, (t.launch l).used = true → (t.launch l).ctx = x → (t.launch l).status ≠ 0) ∧
        (∀ c w, (t.wg c w).used = true → (s.launch (t.wg c w).launch).used = true → (s.launch (t.wg c w).launch).ctx ≠ x) ∧
        (∀ n, (t.saved x n).used = false) ∧
        (e = .contextDestroy x → t.ctxState x = 4 ∧ ∀ n ∈ t.watches, n.2.ctx ≠ x)) ∧
    (s.ctxAccepts 5 x = true → ∃ t i, exec (.invalidate x) s = .next t ∧ t.cmd.busy = true ∧ t.cmd.inval = some i ∧
      i.ops = s.opsThrough x s.cmd.va s.cmd.pages ∧ SameMemory s t ∧
      ∀ c, ∀ e ∈ (t.core c).tlb, ¬ (e.ctx = x ∧ inRange s.cmd.va s.cmd.pages e.va e.size = true))) ∧
  ∀ (s : State) (i : Inval), s.cmd.inval = some i → (∀ o ∈ i.ops, ∀ y ∈ (s.core o.1).flight, y.id ≠ o.2) →
    ∃ t, exec .invalidateComplete s = .next t ∧ t.cmd = { s.cmd with busy := false, inval := none } ∧
      (s.watchesOn i.pages = [] → t = { s with cmd := t.cmd })

/-! ### Strip chains -/

/-- R289 to R298, R344 to R352: the binner takes mesh slots, a frame's bins close, bin workgroups and upscale jobs are placed; a
kept primitive is counter-clockwise, and of two primitives that share an edge exactly one covers a sample upon it. The model's readings:
the bins of a frame that a stopping chain closes are dropped (notes/assumptions/25.md), which job waits and where it is placed
(notes/assumptions/29.md), a chain that has stopped goes on with the frames dispatched (notes/assumptions/42.md), and the binner's writes
to the spill area wait for a full spill walker (notes/assumptions/39.md). -/
def Obligations.StripSteps : Prop :=
  (∀ (s : State) (c : Nat) (f : Frame),
    let x := s.chain c
    x.active = true → x.frames.find? (fun f => !f.closed) = some f →
    (s.power.stopped = false → f.taken < f.total → (∀ g ∈ x.frames, g.num + 2 = f.num → s.rendered x g = true) →
      (f.empty.contains f.taken = true → exec (.meshSlotBinning c) s = .next (s.passMesh c f.num)) ∧
      (f.empty.contains f.taken = false →
        let u := s.stageSlot { chain := c, role := 0, frame := f.num, bin := f.taken }
        (s.slotEntry u).mesh = some (f.num, f.taken) → (s.slotEntry u).state = .full →
        let thr := s.slotThr c f.num f.taken
        (∀ t, s.binSlot c f.num u thr (s.oldestFrame x f) = some t → s.walkersIdle → exec (.meshSlotBinning c) s =
          .next (((t.modChain c fun y => { y with begun := none }).freeCount u).passMesh c f.num)) ∧
        (s.binSlot c f.num u thr (s.oldestFrame x f) = none → exec (.meshSlotBinning c) s =
          .next (s.modChain c fun y => { y with begun := some (f.num, f.taken, thr) })))) ∧
    (f.meshDone = true → f.total ≤ f.taken →
      let b := s.modChain c fun y => y.modFrame f.num fun r => { r with closed := true }
      (x.state = 1 → exec (.binsClose c) s = .next (b.dispatchFrame c f.num)) ∧
      (x.state ≠ 1 → exec (.binsClose c) s = .next (b.modChain c fun y => y.modFrame f.num fun r => { r with bins := [] })))) ∧
  (∀ (s : State) (c f l n off : Nat),
    let x := s.chain c
    let core := x.binCore n
    s.nextBin x = some (f, l, n) → x.active = true → s.ctxState x.ctx = 0 → s.binDue x f n = true → s.savedFirst x.ctx core = false →
    s.canTake core l (s.launch l).lr.needs = some off →
    ∃ t w, exec (.binWorkgroupPlacement c) s = .next t ∧
      let W := t.wg core w
      W.used = true ∧ W.launch = l ∧ W.index = n ∧ W.scrOff = off ∧
      W.stage = some (((s.launch l).restartStage n).getD { chain := c, role := 1, frame := f, strip := n / x.B, bin := n % x.B }) ∧
      (t.core core).sramRead W.gen (off + 512 * x.H * x.samples) 6 = leBytes (n / x.B) 4 ++ leBytes (n % x.B) 2) ∧
  (∀ (s b : State) (c f l k core off : Nat),
    let x := s.chain c
    s.nextJob x = some (f, l, k) → x.active = true → s.ctxState x.ctx = 0 → x.jobDue f k = true →
    s.jobCore x l f k = some (b, core, off) →
    ∃ t w, exec (.upscaleJobPlacement c) s = .next t ∧
      let W := t.wg core w
      W.used = true ∧ W.launch = l ∧ W.index = k ∧
      W.stage = some (((b.launch l).restartStage k).getD { chain := c, role := 2, frame := f, strip := k }) ∧
      (∀ g ∈ W.slots, (t.grp core g).sreg 7 = BitVec.ofNat 32 (x.jobWord f k)) ∧
      (t.handle core 61).owner = w + 1 ∧ (t.handle core 61).off = x.slotOf false (f * x.K + k)) ∧
  (∀ (m : MeshSlot) (thr j : Nat) (e : BinEntry), m.primitive thr j = some e →
    ∃ a b c, e.v = [a, b, c] ∧ 0 < edgeAt (Vertex.at_ a) (Vertex.at_ b) (Vertex.at_ c) ∧
      e.area = (edgeAt (Vertex.at_ a) (Vertex.at_ b) (Vertex.at_ c)).natAbs / 512 ∧ e.soft = decide (e.area < thr)) ∧
  ∀ a b p : Int × Int, a ≠ b → edgeCovers a b p = !edgeCovers b a p

/-- R338 to R343, R354 to R359, R362, R365, R387: a chain is admitted, refused, stopped and released, its consumer meets the
instants of its strips, and a released unit is zeroed. The model's readings: a start that waits for zeroing is tried again, and instants
that lie in the past are met one after another (notes/assumptions/49.md); the frame start packet stands before the frame's first active
line (notes/assumptions/62.md); writes of the device wait for a full spill walker (notes/assumptions/39.md). -/
def Obligations.ChainSteps : Prop :=
  (∀ (s : State) (c : Nat),
    let x := s.chain c
    (x.active = false → c < 16 → s.service.recovery = false →
      let bytes := Memory.read s.dev x.record 256
      let y : Chain := { x with bytes := bytes, ctx := s.queueCtx (fieldAt bytes 0x10 2) }
      (s.chainReason c y ≠ 0 → exec (.chainStart c) s =
        .next (s.modChain c fun _ => { x with state := 2, reason := s.chainReason c y, pending := false })) ∧
      (s.chainReason c y = 0 → (∃ u ∈ unitsIn y.ranges, s.foreign y u = true) →
        exec (.chainStart c) s = .next (s.modChain c fun _ => { x with pending := true })) ∧
      (s.chainReason c y = 0 → (∀ u ∈ unitsIn y.ranges, s.foreign y u = false) → ∃ t, exec (.chainStart c) s = .next t ∧
        (t.chain c).state = 1 ∧ (t.chain c).bytes = bytes ∧ (t.chain c).ctx = y.ctx ∧ (t.chain c).frames = [] ∧
        ∀ u ∈ upFrom (y.field 0x14 2) (y.field 0x16 2), (t.slotEntry u).granted = true ∧ (t.slotEntry u).state = .free)) ∧
    (x.state = 1 → exec (.chainStop c) s = .next (s.modChain c fun _ => { x with state := 3 })) ∧
    (s.chainIdle c = true → ∃ t, exec (.chainRelease c) s = .next t ∧ (t.chain c).state = 0 ∧
      (∀ u ∈ x.slots, (t.slotEntry u).granted = false) ∧
      ∀ u ∈ unitsIn x.ranges, Tbl.get t.dirty u = s.tenantOf x.ctx + 1)) ∧
  (∀ (s : State) (u : Nat), Tbl.get s.dirty u ≠ 0 → (∀ c, (s.chain c).pending = false) →
    ∃ t, exec (.narrowsZeroing u) s = .next t ∧ Tbl.get t.dirty u = 0 ∧
      ∀ a, Memory.byte t.narrows a = if a / 32768 = u then 0 else Memory.byte s.narrows a) ∧
  (∀ (s : State) (c : Nat),
    let x := s.chain c
    let g := x.next
    let u := x.slotOf true g
    x.active = true → x.missed = [] → x.consumes g = true → s.instantMet x g 0 = true → s.walkersIdle →
    (x.kind = 0 ∨ x.kind = 3 → x.cur = none → ∃ t, exec (.consumerStripStart c) s = .next t ∧ (t.chain c).next = g + 1 ∧
      (t.chain c).cur = some g ∧ (t.chain c).line = 0 ∧
      (t.chain c).fill = (!s.outputFull x g || (s.slotEntry u).fault) ∧
      (t.chain c).misses = x.misses + (if s.outputFull x g then 0 else 1) ∧
      (s.outputFull x g = true → (s.slotEntry u).fault = false → (t.slotEntry u).state = .draining)) ∧
    (x.kind = 1 → ∃ t, exec (.consumerStripStart c) s = .next t ∧ (t.chain c).next = g + 1 ∧
      (t.chain c).misses = x.misses + (if s.outputFull x g then 0 else 1))) ∧
  (∀ (s : State) (c g : Nat),
    let x := s.chain c
    let u := x.slotOf true g
    let last := x.linesOf (g % x.K) ≤ x.line + 1
    x.cur = some g → s.instantMet x g x.line = true → ∃ t, exec (.consumerLineSend c) s = .next t ∧
      (t.chain c).line = x.line + 1 ∧ (t.chain c).cur = (if last then none else some g) ∧
      (t.chain c).done = x.done + (if last then 1 else 0) ∧
      (t.chain c).sent = some (s.lineSent x u (g / x.K) (g % x.K) x.line) ∧
      t.slotEntry u = if last ∧ x.fill = false then (s.slotEntry u).free1 else s.slotEntry u) ∧
  (∀ (s : State) (x : Chain) (u f k y : Nat),
    let p := s.lineSent x u f k y
    let bytes := s.lineBytes x u y
    (p.frame = f ∧ p.strip = k ∧ p.line = y ∧ p.bytes = (if x.fill then [] else bytes)) ∧
    (x.kind ≠ 0 → p.packets = []) ∧
    (x.kind = 0 →
      (x.fill = false → ∃ q ∈ p.packets, q.kind = (if x.outFormat = 0 then .rgb888 else .yuv422) ∧ q.value = bytes.length ∧
        q.payload = bytes) ∧
      (k = 0 → y = 0 → ∃ q, p.packets.head? = some q ∧ q.kind = .frameStart ∧ q.value = f % 2 ^ 16))) ∧
  ∀ (s : State) (c : Nat),
    let x := s.chain c
    let u := x.slotOf true x.done
    x.active = true → x.kind = 1 → s.power.stopped = false → x.waiting = false →
    (x.taken = 0 → x.done < x.next → s.outputFull x x.done = true → ∃ t, exec (.encoderTileGroup c) s = .next t ∧
      ((s.slotEntry u).fault = true → (t.chain c).done = x.done + 1 ∧ t.slotEntry u = (s.slotEntry u).free1) ∧
      ((s.slotEntry u).fault = false → (t.chain c).taken = s.tick + 1 ∧ (t.slotEntry u).state = .draining)) ∧
    (x.taken ≠ 0 → s.walkersIdle → (x.write + 2 ^ 64 - s.ringIndex x 8 + (s.tileGroup c).length) % 2 ^ 64 ≤ x.field 0xA0 8 →
      ∃ t, exec (.encoderTileGroup c) s = .next t ∧ (t.chain c).write = (x.write + (s.tileGroup c).length) % 2 ^ 64 ∧
        (t.chain c).done = x.done + 1 ∧ (t.chain c).taken = 0 ∧ t.slotEntry u = (s.slotEntry u).free1)

/-! ### Time, links, errors and power -/

/-- R335 to R337: the messages of the followed source move the clock, at the first complete measurement of the offset by a step; of
another source or domain they change nothing. That a step waits for the first measured path delay is the model's reading
(notes/assumptions/31.md). -/
def Obligations.TimeSteps : Prop :=
  ∀ (s : State) (d x seq n : Nat),
    let moved := fun (t : State) (offset : Int) => t.servo.offset = offset ∧ t.servo.c0 = s.cyc.toNat ∧
      t.servo.calm = (if offset.natAbs < 100 then s.servo.calm + 1 else 0) ∧
      t.servo.state = (if 16 ≤ t.servo.calm then 2 else 1) ∧
      (s.servo.state = 0 → (t.servo.p0 : Int) = max 0 (s.ptime - offset * 2 ^ 32)) ∧
      (s.servo.state ≠ 0 → t.servo.p0 = s.ptime ∧ -200000 ≤ t.servo.adj ∧ t.servo.adj ≤ 200000)
    (s.servo.source = none → d = s.servo.domain → s.service.recovery = false →
      exec (.ptpAnnounce d x) s = .next { s with servo := { s.servo with source := some x } }) ∧
    (s.follows d x = true →
      exec (.ptpSync d x seq true) s = .next { s with servo := { s.servo with sync := some (seq, s.ptime) } } ∧
      (∀ t2, s.servo.sync = some (seq, t2) →
        let t21 : Int := (t2 / 2 ^ 32 : Nat) - (n : Int)
        ∃ t, exec (.ptpFollowUp d x seq n) s = .next t ∧ t.servo.sync = none ∧ t.servo.t21 = t21 ∧ t.servo.delay = s.servo.delay ∧
          (∃ t3, t.servo.delayReq = some (seq, t3)) ∧ (s.servo.measured = true → moved t (t21 - s.servo.delay)) ∧
          (s.servo.measured = false → { t with servo := { t.servo with
            sync := s.servo.sync, t21 := s.servo.t21, delayReq := s.servo.delayReq } } = s)) ∧
      ∀ t3, s.servo.delayReq = some (seq, t3) →
        let delay : Int := (s.servo.t21 + ((n : Int) - (t3 / 2 ^ 32 : Nat))) / 2
        (s.servo.measured = true → exec (.ptpDelayResp d x seq n) s =
          .next { s with servo := { s.servo with delayReq := none, delay := delay } }) ∧
        (s.servo.measured = false → ∃ t, exec (.ptpDelayResp d x seq n) s = .next t ∧ t.servo.delayReq = none ∧
          t.servo.delay = delay ∧ t.servo.measured = true ∧ moved t (s.servo.t21 - delay))) ∧
    (s.follows d x = false → exec (.ptpFollowUp d x seq n) s = .next s ∧ exec (.ptpDelayResp d x seq n) s = .next s ∧
      ∀ two, exec (.ptpSync d x seq two) s = .next s) ∧
    exec .ptpIgnoredMessage s = .next s

/-- R383, R392 to R395, R398, R399: ports train, lanes retrain and retire, an error is counted and handled, the clock steps, and the
die stops all issue at 115 °C until it has been below 95 °C for 1 ms. That a lasting error of classes 4 to 7 fences its core, that one of
classes 0 to 7 enters the repairs, and that a choice tells an error which the code corrects from one that a retry corrects, are the
model's readings (notes/assumptions/33.md). -/
def Obligations.WearSteps : Prop :=
  (∀ (s : State) (port lane : Nat),
    (s.peerNum ≠ 0x1FF → port < 24 →
      exec (.straitLinkTraining port false) s = .next (s.modLink port fun p => { p with up := true, held := false }) ∧
      exec (.straitLinkTraining port true) s =
        .next ((s.modLink port fun p => { p with up := false, held := true }).postLog 0x08 0 port s.peerNum)) ∧
    (let p := Tbl.get s.links port
     let l := Tbl.get p.flits lane
     let flaky := 16 ≤ l.length ∧ l.headD 0 ≤ l.getD 15 0 + 1900000
     (¬ flaky → exec (.laneRetrain port lane) s = .next s ∧ exec (.laneRetirement port lane) s = .next s) ∧
     (port < 25 → flaky → lane ∉ p.retrained → exec (.laneRetrain port lane) s = .next (s.modLink port fun q =>
       { q with retrained := lane :: q.retrained, flits := Tbl.erase q.flits lane })) ∧
     (port < 25 → flaky → lane ∈ p.retrained → ∃ t, exec (.laneRetirement port lane) s = .next t ∧
        lane ∉ (Tbl.get t.links port).retrained ∧ (Tbl.get t.links port).spare = (if p.spare = 0 then 1 else 2) ∧
        (Tbl.get t.counters (if port = 24 then 0xA else 9)).lasting =
          min ((Tbl.get s.counters (if port = 24 then 0xA else 9)).lasting + 1) (2 ^ 32 - 1)))) ∧
  (∀ (s : State) (cls unit addr : Nat), errorUnit cls unit addr = true →
    let both := s.countRetried cls
    (cls ≤ 7 → exec (.errorRetry cls unit addr true) s = .next (if s.choose 0 then s.countCorrected cls else both)) ∧
    (8 ≤ cls → exec (.errorRetry cls unit addr true) s = .next (both.modLink (if cls = 0xA then 24 else unit) fun p =>
      { p with flits := Tbl.mod p.flits addr fun l => (s.cyc.toNat :: l).take 16 })) ∧
    (cls ≠ 4 ∨ addr < (s.core unit).cur * 131072 → exec (.errorRetry cls unit addr false) s = .next (s.lasting cls unit addr)) ∧
    (cls = 4 → (s.core unit).cur * 131072 ≤ addr → exec (.errorRetry cls unit addr false) s = .next (s.dropL1 unit addr)) ∧
    (4 ≤ cls → cls ≤ 7 → ((s.lasting cls unit addr).core unit).fenced = true) ∧
    (cls ≤ 7 → (s.lasting cls unit addr).repairs = s.repairs ++ [(cls, unit, addr)])) ∧
  ∀ (s : State) (power temp : Int),
    (s.power.stepped + 3800 ≤ s.cyc.toNat → s.power.stopped = false → ∃ t, exec (.clockStep power temp) s = .next t ∧
      t.power.clock = (if 1600 < power ∨ 420 < temp then max lowestClock (s.power.clock - 50) else min 1900 (s.power.clock + 50)) ∧
      t.power.stepped = s.cyc.toNat ∧ t.power.watts = power ∧ t.power.temp = temp) ∧
    (460 ≤ temp → s.power.stopped = false → ∃ t, exec (.thermalStop temp) s = .next t ∧ t.power.stopped = true ∧ t.cores = s.cores) ∧
    (s.power.stopped = true → temp < 380 → s.power.cool ≠ 0 → s.power.cool + 1900000 ≤ s.cyc.toNat + 1 →
      ∃ t, exec (.thermalResume temp) s = .next t ∧ t.power.stopped = false ∧ t.power.clock = lowestClock) ∧
    (s.power.stopped = true → 380 ≤ temp → ∃ t, exec (.thermalResume temp) s = .next t ∧ t.power.stopped = true ∧ t.power.cool = 0) ∧
    (s.power.sampled + 65536 ≤ s.cyc.toNat → ∃ t, exec (.periodicSample power temp) s = .next t ∧
      t.power.sampled = s.cyc.toNat ∧ t.power.watts = power ∧ t.power.temp = temp ∧ t.obs =
        (((((List.range 96).foldl (fun a n => a.sample 0x05 (some n) (s.occupancy n)) (s.sample 0x04 none s.queueDepth)).sample 0x08 none
          temp).sample 0x09 none power)).obs)

/-! ### The host, the configuration space and the service ports -/

/-- R4, R61, R262, R358, R361, R381 to R385, R397, R407: the host's accesses, those of peers, and the words of the configuration
space that act. The model's readings: a host access beyond the device memory stops by name (notes/assumptions/57.md), one to a slice
whose spill walker is full waits (notes/assumptions/39.md), and offsets of the configuration space that no map names ignore a write
(notes/assumptions/34.md). -/
def Obligations.HostSteps : Prop :=
  (∀ (s : State) (addr len : Nat) (data : List Byte), s.service.recovery = false →
    (addr + data.length ≤ 0x18000000000 → s.walkFull [(addr, data.length)] = false →
      ∃ t, exec (.hostWrite addr data) s = .next t ∧ t.dev = Memory.write s.dev addr data ∧
      t.host = s.host ∧ t.narrows = s.narrows ∧ t.cores = s.cores) ∧
    (addr + data.length ≤ 0x18000000000 → s.walkFull [(addr, data.length)] = true → exec (.hostWrite addr data) s = .next s) ∧
    (0x18000000000 < addr + data.length → exec (.hostWrite addr data) s = .fault (.noSuchMemory addr)) ∧
    (addr + len ≤ 0x18000000000 → s.walkFull [(addr, len)] = false →
      exec (.hostRead addr len) s = .next { s with answer := Memory.read s.dev addr len }) ∧
    (0x18000000000 < addr + len → exec (.hostRead addr len) s = .fault (.noSuchMemory addr))) ∧
  (∀ (s : State) (source port pod va : Nat) (req : RemoteReq), (Tbl.get s.links port).up = true →
    (s.podContext pod = none → exec (.remoteAccess source port pod va req) s = .next { s with answer := [] }) ∧
    ∀ x ps, s.podContext pod = some x → s.remoteBytes x va (reqNeed req).1 (reqNeed req).2 = .inr ps → s.walkFull ps = false →
      let old := ps.flatMap fun p => Memory.read s.dev p.1 p.2
      (∀ n, req = .read n → exec (.remoteAccess source port pod va req) s = .next { s with answer := old }) ∧
      (∀ d, req = .write d → exec (.remoteAccess source port pod va req) s = .next { s.placePieces ps d with answer := [] }) ∧
      ∀ op w64 v seq, req = .atomic op w64 v seq →
        (∀ r, (Tbl.get s.windows source).find? (fun e => e.1 == seq) = some (seq, r) →
          exec (.remoteAccess source port pod va req) s = .next { s with answer := wideBytes w64 r }) ∧
        ((Tbl.get s.windows source).find? (fun e => e.1 == seq) = none → ∃ t, exec (.remoteAccess source port pod va req) s = .next t ∧
          t.answer = wideBytes w64 (leNat old) ∧ (Tbl.get t.windows source).find? (fun e => e.1 == seq) = some (seq, leNat old))) ∧
  (∀ (s : State) (c op : Nat),
    (∀ o, (s.core c).flight.find? (fun o => o.id == op && s.mayFail o) = some o →
      exec (.remoteAccessTimeout c op) s = .next (s.failOp c o)) ∧
    ((s.core c).flight.find? (fun o => o.id == op && s.mayFail o) = none →
      let late := (s.core c).unacked.find? fun u =>
        u.id == op && u.origin.isNone && !u.host && decide (u.since + 3800000 ≤ s.cyc.toNat)
      (∀ u, late = some u → ∃ t, exec (.remoteAccessTimeout c op) s = .next t ∧
        ((s.launch u.launch).used = true → (t.launch u.launch).status ≠ 0 ∧
          ((s.launch u.launch).status = 0 → (t.launch u.launch).faults = min ((s.launch u.launch).faults + 1) (2 ^ 32 - 1)))) ∧
      ∀ n, late = none → s.failingCopy c op = some n → exec (.remoteAccessTimeout c op) s = .next (s.failCopy n))) ∧
  (∀ (s : State) (n : Nat) (v : BitVec 32),
    let f := fun hi lo => v.toNat / 2 ^ lo % 2 ^ (hi + 1 - lo)
    s.service.recovery = false →
    (n < 64 → s.unitOwned n = false → ∃ t, exec (.observationControlWrite n v) s = .next t ∧
      (let o := Tbl.get t.obs n
       o.en = v.getLsbD 31 ∧ o.frz = v.getLsbD 25 ∧ o.win = v.getLsbD 24 ∧ o.e = f 20 16 ∧ o.filter = f 15 8 ∧ o.source = f 7 0 ∧
       (v.getLsbD 30 = true → o.count = 0 ∧ o.bins = []) ∧ (v.getLsbD 30 = false → o.count = (Tbl.get s.obs n).count)) ∧
      ∀ m, m ≠ n → Tbl.get t.obs m = Tbl.get s.obs m) ∧
    (n < 4 → f 3 0 ≤ f 11 8 → 1 ≤ f 11 8 → f 11 8 ≤ 12 → v.toNat < 2 ^ 12 → f 7 4 = 0 →
      ((List.range 4).filter (· != n)).foldl (fun a c => a + (s.quota c).2) 0 + f 3 0 ≤ 12 →
      ∃ t, exec (.l2QuotaWrite n v) s = .next t ∧ t.quota n = (f 11 8, f 3 0) ∧ ∀ m, m ≠ n → t.quota m = s.quota m) ∧
    (s.remoteOpen = false → (∀ p, p < 24 → (Tbl.get s.links p).up = false) → f 8 0 < 288 ∨ f 8 0 = 0x1FF →
      exec (.peerNumberWrite v) s = .next { s with peerNum := f 8 0 }) ∧
    (n < 8 → s.consumerUsed 0 n = false → 1 ≤ f 2 0 → f 2 0 ≤ 5 →
      exec (.portConfigWrite n v) s = .next { s with ports := Tbl.set s.ports n { en := v.getLsbD 8, gear := f 2 0 } }) ∧
    (n < 2 → s.consumerUsed 3 n = false →
      (1 ≤ f 3 0 → f 3 0 ≤ 7 → f 5 4 ≠ 3 → f 3 0 ≤ 4 ∨ f 5 4 = 2 → exec (.displayportConfigWrite n 0 v) s = .next { s with
        outputs := Tbl.mod s.outputs n fun o => { o with en := v.getLsbD 6, lanes := f 5 4, rate := f 3 0 } }) ∧
      exec (.displayportConfigWrite n 1 v) s = .next { s with outputs := Tbl.mod s.outputs n fun o => { o with flat := f 23 0 } } ∧
      exec (.displayportConfigWrite n 2 v) s = .next { s with outputs := Tbl.mod s.outputs n fun o => { o with hb := f 15 0 } })) ∧
  (∀ (s : State) (n : Nat) (v : BitVec 64), n < 4 → s.service.recovery = false → v.getLsbD 63 = false ∨
      (v.toNat / 2 ^ 16 % 2 ^ 8 ≤ 191 ∧ v.toNat / 2 ^ 32 % 2 ^ 8 ≤ 131 ∧ (v.toNat / 2 ^ 40 % 2 ^ 8 ≠ 0 ∨ v.getLsbD 62 = true)) →
    exec (.injectionEntryWrite n v) s = .next { s with
      injections := Tbl.set s.injections n (v &&& 0xC0FFFFFF00FF0000), injected := Tbl.set s.injected n s.tick }) ∧
  ∀ (s : State) (offset size : Nat) (v : BitVec 64),
    (s.service.recovery = true → exec (.configWrite offset size v) s = .next s) ∧
    (s.service.recovery = false → 0x34000 ≤ offset → exec (.configWrite offset size v) s = .next s) ∧
    (s.service.recovery = false → v.toNat % 2 ^ 17 ≤ 65536 →
      exec (.configWrite 0x0808 4 v) s = .next { s with queueCount := v.toNat % 2 ^ 17 }) ∧
    (s.service.recovery = false → exec (.configWrite 0x0800 8 v) s = .next { s with queueBase := v.toNat % 2 ^ 48 / 64 * 64 })

/-- R64, R401 to R406: the debugger's claim, stops and window, attestation, power-on and the service ports. That power-on leaves device
memory, the Narrows and the arrays with nothing listed (notes/assumptions/53.md), and the data register of the test port and the bytes of
an I3C read (notes/assumptions/46.md), are the model's choices. -/
def Obligations.ServiceSteps : Prop :=
  (∀ (s : State) (claim : BitVec 32) (tag : BitVec 64),
    (s.service.recovery = false → exec (.debugClaim claim tag) s =
      .next { s with dbg := { s.dbg with claim := claim &&& 0x8000FFFF, tag := tag.toNat } }) ∧
    (s.service.recovery = true → ∀ e ∈ [Instr.debugClaim claim tag, .debugRead, .debugWrite, .attestationRequest],
      exec e s = .next s)) ∧
  (∀ (s : State) (c g n : Nat), s.stopEntry c g = some n → (s.grp c g).used = true → (s.grp c g).park = .dbg (n + 1) →
    s.service.recovery = false → s.unlistedStops = [] → ∃ t, exec (.debugResume c g) s = .next t ∧ s.resumed t c g ((s.grp c g).ppc + 4) ∧
      t.dbg.stops = Tbl.erase s.dbg.stops n) ∧
  (∀ s : State,
    let d := s.dbg
    let c := d.unit % 2 ^ 8
    let cls := d.unit / 2 ^ 8 % 2 ^ 4
    let i := d.unit / 2 ^ 16 % 2 ^ 24
    let x := s.core c
    s.service.recovery = false →
    (s.windowRefuses = true → exec .debugRead s = .next { s with dbg := { d with refused := true } } ∧
      exec .debugWrite s = .next { s with dbg := { d with refused := true } }) ∧
    (s.windowRefuses = false → exec .debugRead s = .next { s with dbg := { d with
        refused := false, data := x.unitData cls i d.offset, rtag := (x.unitTag cls i).toNat, stale := (x.unitTag cls i).toNat != d.gen } } ∧
      (x.tagOk (BitVec.ofNat 16 d.gen) = true → ∃ t, exec .debugWrite s = .next t ∧
        (t.core c).unitTag cls i = BitVec.ofNat 16 d.gen ∧ (t.core c).unitData cls i d.offset = d.data % 2 ^ 64 ∧
        (∀ k, k ≠ c → t.core k = s.core k) ∧ (t.core c).grps = x.grps)) ∧
    exec .attestationRequest s = .next (if s.service.busy then s
      else { s with service := { s.service with busy := true, asked := s.service.nonce } }) ∧
    (s.service.busy = true → ∃ t, exec .attestationReport s = .next t ∧ t.service.busy = false ∧ t.service.report.length = 512 ∧
      (s.service.asked.length = 32 → t.service.report.take 32 = s.service.asked))) ∧
  (∀ (s : State) (image : List Byte), ∃ t, exec (.powerOn image) s = .next t ∧
    t.service.recovery = !Config.firmwareOk image ∧ t.cyc = 0 ∧ t.launches = [] ∧ t.queueCount = 0 ∧
    (t.service.recovery = false → t.service.firmware = image) ∧
    (t.service.recovery = true → t.service.refusedImage = true ∧ t.dev = [] ∧ t.narrows = [] ∧ t.peerNum = 0x1FF ∧
      ∀ c, (t.core c).nextGen = 1 ∧ (t.core c).wgs = [] ∧ (t.core c).sram = [])) ∧
  ∀ s : State,
    (∀ what, exec (.i3cRead what) s = .next { s with answer := s.i3c what }) ∧
    exec .jtagBypass s = .next { s with service := { s.service with jtag := 0, dr := 0 } } ∧
    exec .jtagIdcode s = .next { s with service := { s.service with jtag := 1, dr := 0x0B8801F3 } } ∧
    (s.service.recovery = true →
      exec .jtagSamplePreload s = .next { s with service := { s.service with jtag := 2, dr := Config.pinState s.tick } } ∧
      exec .jtagExtest s = .next { s with service := { s.service with jtag := 3 } })
end

