-- ==== Sys2Proof/Laws/Tbl.lean ====
section
/-! SUPPORT. Laws of sparse tables and of memories: reading after writing, the canonical form, and that equal contents
are equal data. -/

namespace Sys2Proof.Machine

variable {α : Type}

@[simp] theorem Tbl.get_nil [Inhabited α] (n : Nat) : Tbl.get ([] : Tbl α) n = default := rfl

theorem Tbl.get_cons [Inhabited α] (k : Nat) (v : α) (t : Tbl α) (n : Nat) :
    Tbl.get ((k, v) :: t) n = if k = n then v else Tbl.get t n := rfl

theorem Tbl.get_erase_self [Inhabited α] (t : Tbl α) (n : Nat) : Tbl.get (Tbl.erase t n) n = default := by
  induction t with
  | nil => rfl
  | cons e t ih =>
    obtain ⟨k, v⟩ := e
    by_cases h : k = n <;> simp [Tbl.erase, Tbl.get, h, ih]

theorem Tbl.get_erase_ne [Inhabited α] (t : Tbl α) {n m : Nat} (h : m ≠ n) : Tbl.get (Tbl.erase t n) m = Tbl.get t m := by
  induction t with
  | nil => rfl
  | cons e t ih =>
    obtain ⟨k, v⟩ := e
    by_cases hk : k = n
    · subst hk
      simp [Tbl.erase, Tbl.get, ih, Ne.symm h]
    · simp [Tbl.erase, Tbl.get, hk, ih]

theorem Tbl.get_insert_ne [Inhabited α] (t : Tbl α) {n m : Nat} (x : α) (h : m ≠ n) :
    Tbl.get (Tbl.insert t n x) m = Tbl.get t m := by
  induction t with
  | nil => simp [Tbl.insert, Tbl.get, Ne.symm h]
  | cons e t ih =>
    obtain ⟨k, v⟩ := e
    by_cases hk : n < k <;> simp [Tbl.insert, Tbl.get, hk, ih, Ne.symm h]

theorem Tbl.get_insert_self [Inhabited α] (t : Tbl α) (n : Nat) (x : α) (h : ∀ e ∈ t, e.1 ≠ n) :
    Tbl.get (Tbl.insert t n x) n = x := by
  induction t with
  | nil => simp [Tbl.insert, Tbl.get]
  | cons e t ih =>
    obtain ⟨k, v⟩ := e
    have hk : k ≠ n := h (k, v) (by simp)
    by_cases hn : n < k
    · simp [Tbl.insert, Tbl.get, hn]
    · simp [Tbl.insert, Tbl.get, hn, hk, ih (fun e he => h e (by simp [he]))]

theorem Tbl.mem_erase {t : Tbl α} {n : Nat} {e : Nat × α} : e ∈ Tbl.erase t n ↔ e ∈ t ∧ e.1 ≠ n := by
  induction t with
  | nil => simp [Tbl.erase]
  | cons x t ih =>
    obtain ⟨k, v⟩ := x
    by_cases hk : k = n
    · subst hk
      simp only [Tbl.erase, if_true, ih, List.mem_cons]
      constructor
      · rintro ⟨h, hne⟩; exact ⟨.inr h, hne⟩
      · rintro ⟨h | h, hne⟩
        · simp [h] at hne
        · exact ⟨h, hne⟩
    · simp only [Tbl.erase, hk, if_false, List.mem_cons, ih]
      constructor
      · rintro (h | ⟨h, hne⟩)
        · exact ⟨.inl h, by simp [h, hk]⟩
        · exact ⟨.inr h, hne⟩
      · rintro ⟨h | h, hne⟩
        · exact .inl h
        · exact .inr ⟨h, hne⟩

theorem Tbl.mem_insert {t : Tbl α} {n : Nat} {x : α} {e : Nat × α} : e ∈ Tbl.insert t n x ↔ e = (n, x) ∨ e ∈ t := by
  induction t with
  | nil => simp [Tbl.insert]
  | cons y t ih =>
    obtain ⟨k, v⟩ := y
    by_cases hk : n < k <;> simp [Tbl.insert, hk, ih] <;> tauto

/-- Reading the entry that was written. -/
@[simp] theorem Tbl.get_set_self [Inhabited α] [DecidableEq α] (t : Tbl α) (n : Nat) (x : α) :
    Tbl.get (Tbl.set t n x) n = x := by
  unfold Tbl.set
  split
  · next h => rw [Tbl.get_erase_self, h]
  · exact Tbl.get_insert_self _ _ _ fun e he => (Tbl.mem_erase.1 he).2

/-- Reading another entry than the one written. -/
theorem Tbl.get_set_ne [Inhabited α] [DecidableEq α] (t : Tbl α) {n m : Nat} (x : α) (h : m ≠ n) :
    Tbl.get (Tbl.set t n x) m = Tbl.get t m := by
  unfold Tbl.set
  split
  · exact Tbl.get_erase_ne t h
  · rw [Tbl.get_insert_ne _ _ h, Tbl.get_erase_ne t h]

theorem Tbl.get_set [Inhabited α] [DecidableEq α] (t : Tbl α) (n m : Nat) (x : α) :
    Tbl.get (Tbl.set t n x) m = if m = n then x else Tbl.get t m := by
  split
  · next h => subst h; simp
  · next h => exact Tbl.get_set_ne t x h

theorem Tbl.erase_erase (t : Tbl α) (n : Nat) : Tbl.erase (Tbl.erase t n) n = Tbl.erase t n := by
  induction t with
  | nil => rfl
  | cons e t ih => by_cases h : e.1 = n <;> simp [Tbl.erase, h, ih]

theorem Tbl.erase_insert (t : Tbl α) (n : Nat) (x : α) : Tbl.erase (Tbl.insert t n x) n = Tbl.erase t n := by
  induction t with
  | nil => simp [Tbl.insert, Tbl.erase]
  | cons e t ih =>
    unfold Tbl.insert
    by_cases h : n < e.1
    · simp [h, Tbl.erase]
    · by_cases k : e.1 = n <;> simp [h, Tbl.erase, k, ih]

/-- Of two writes of one entry the later one stands. -/
theorem Tbl.set_set [Inhabited α] [DecidableEq α] (t : Tbl α) (n : Nat) (x y : α) : Tbl.set (Tbl.set t n x) n y = Tbl.set t n y := by
  unfold Tbl.set
  by_cases h : x = default <;> simp only [h, if_true, if_false, Tbl.erase_insert, Tbl.erase_erase]

@[simp] theorem Tbl.get_mod_self [Inhabited α] [DecidableEq α] (t : Tbl α) (n : Nat) (f : α → α) :
    Tbl.get (Tbl.mod t n f) n = f (Tbl.get t n) := Tbl.get_set_self t n _

theorem Tbl.get_mod_ne [Inhabited α] [DecidableEq α] (t : Tbl α) {n m : Nat} (f : α → α) (h : m ≠ n) :
    Tbl.get (Tbl.mod t n f) m = Tbl.get t m := Tbl.get_set_ne t _ h

theorem Tbl.get_mod [Inhabited α] [DecidableEq α] (t : Tbl α) (n m : Nat) (f : α → α) :
    Tbl.get (Tbl.mod t n f) m = if m = n then f (Tbl.get t m) else Tbl.get t m := by
  unfold Tbl.mod
  rw [Tbl.get_set]
  split
  · next h => rw [h]
  · rfl

/-! ### The canonical form -/

/-- Every listed key is above a bound. -/
def Tbl.above (t : Tbl α) (k : Nat) : Prop := ∀ e ∈ t, k < e.1

theorem Tbl.wf_cons [Inhabited α] [DecidableEq α] {k : Nat} {v : α} {t : Tbl α} :
    Tbl.wf ((k, v) :: t) = true ↔ v ≠ default ∧ Tbl.above t k ∧ Tbl.wf t = true := by
  simp only [Tbl.wf, Tbl.above, Bool.and_eq_true, decide_eq_true_eq, List.all_eq_true, and_assoc]

theorem Tbl.wf_erase [Inhabited α] [DecidableEq α] (t : Tbl α) (n : Nat) (h : Tbl.wf t = true) :
    Tbl.wf (Tbl.erase t n) = true := by
  induction t with
  | nil => rfl
  | cons e t ih =>
    obtain ⟨k, v⟩ := e
    obtain ⟨hv, ha, ht⟩ := Tbl.wf_cons.1 h
    by_cases hk : k = n
    · simpa [Tbl.erase, hk] using ih ht
    · simp only [Tbl.erase, hk, if_false]
      exact Tbl.wf_cons.2 ⟨hv, fun e he => ha e (Tbl.mem_erase.1 he).1, ih ht⟩

theorem Tbl.wf_insert [Inhabited α] [DecidableEq α] (t : Tbl α) (n : Nat) (x : α) (hx : x ≠ default)
    (hn : ∀ e ∈ t, e.1 ≠ n) (h : Tbl.wf t = true) : Tbl.wf (Tbl.insert t n x) = true := by
  induction t with
  | nil => simp [Tbl.insert, Tbl.wf, hx]
  | cons e t ih =>
    obtain ⟨k, v⟩ := e
    obtain ⟨hv, ha, ht⟩ := Tbl.wf_cons.1 h
    by_cases hk : n < k
    · simp only [Tbl.insert, hk, if_true]
      refine Tbl.wf_cons.2 ⟨hx, ?_, h⟩
      intro e he
      rcases List.mem_cons.1 he with rfl | he
      · exact hk
      · exact hk.trans (ha e he)
    · simp only [Tbl.insert, hk, if_false]
      have hkn : k ≠ n := hn (k, v) (by simp)
      refine Tbl.wf_cons.2 ⟨hv, ?_, ih (fun e he => hn e (by simp [he])) ht⟩
      intro e he
      rcases Tbl.mem_insert.1 he with rfl | he
      · show k < n
        omega
      · exact ha e he

/-- A write keeps the canonical form. -/
theorem Tbl.wf_set [Inhabited α] [DecidableEq α] (t : Tbl α) (n : Nat) (x : α) (h : Tbl.wf t = true) :
    Tbl.wf (Tbl.set t n x) = true := by
  unfold Tbl.set
  split
  · exact Tbl.wf_erase t n h
  · next hx => exact Tbl.wf_insert _ n x hx (fun e he => (Tbl.mem_erase.1 he).2) (Tbl.wf_erase t n h)

theorem Tbl.wf_mod [Inhabited α] [DecidableEq α] (t : Tbl α) (n : Nat) (f : α → α) (h : Tbl.wf t = true) :
    Tbl.wf (Tbl.mod t n f) = true := Tbl.wf_set t n _ h

/-- A filter keeps the canonical form. -/
theorem Tbl.wf_filter [Inhabited α] [DecidableEq α] (t : Tbl α) (p : Nat × α → Bool) (h : Tbl.wf t = true) :
    Tbl.wf (t.filter p) = true := by
  induction t with
  | nil => rfl
  | cons e t ih =>
    obtain ⟨k, v⟩ := e
    obtain ⟨hv, ha, ht⟩ := Tbl.wf_cons.1 h
    by_cases hp : p (k, v) = true
    · rw [List.filter_cons_of_pos hp]
      exact Tbl.wf_cons.2 ⟨hv, fun e he => ha e (List.mem_of_mem_filter he), ih ht⟩
    · rw [List.filter_cons_of_neg hp]
      exact ih ht

theorem Tbl.get_of_above [Inhabited α] {t : Tbl α} {k : Nat} (h : Tbl.above t k) : Tbl.get t k = default := by
  induction t with
  | nil => rfl
  | cons e t ih =>
    obtain ⟨j, v⟩ := e
    have hj : k < j := h (j, v) (by simp)
    simp [Tbl.get, Nat.ne_of_gt hj, ih (fun e he => h e (by simp [he]))]

/-- Two tables in canonical form with the same entries are the same data. -/
theorem Tbl.ext_of_wf [Inhabited α] [DecidableEq α] : ∀ (s t : Tbl α), Tbl.wf s = true → Tbl.wf t = true →
    (∀ n, Tbl.get s n = Tbl.get t n) → s = t
  | [], [], _, _, _ => rfl
  | [], (k, v) :: t, _, ht, h => by
    have := h k
    simp [Tbl.get] at this
    exact absurd this.symm (Tbl.wf_cons.1 ht).1
  | (k, v) :: s, [], hs, _, h => by
    have := h k
    simp [Tbl.get] at this
    exact absurd this (Tbl.wf_cons.1 hs).1
  | (k, v) :: s, (j, w) :: t, hs, ht, h => by
    obtain ⟨hv, ka, ws⟩ := Tbl.wf_cons.1 hs
    obtain ⟨hw, ja, wt⟩ := Tbl.wf_cons.1 ht
    have hkj : k = j := by
      rcases Nat.lt_trichotomy k j with hlt | heq | hgt
      · have h1 := h k
        have : Tbl.above ((j, w) :: t) k := by
          intro e he
          rcases List.mem_cons.1 he with rfl | he
          · exact hlt
          · exact hlt.trans (ja e he)
        rw [Tbl.get_of_above this] at h1
        simp [Tbl.get] at h1
        exact absurd h1 hv
      · exact heq
      · have h1 := h j
        have : Tbl.above ((k, v) :: s) j := by
          intro e he
          rcases List.mem_cons.1 he with rfl | he
          · exact hgt
          · exact hgt.trans (ka e he)
        rw [Tbl.get_of_above this] at h1
        simp [Tbl.get] at h1
        exact absurd h1.symm hw
    subst hkj
    have hvw : v = w := by simpa [Tbl.get] using h k
    subst hvw
    have hst : s = t := by
      refine Tbl.ext_of_wf s t ws wt fun n => ?_
      by_cases hn : k = n
      · subst hn
        rw [Tbl.get_of_above ka, Tbl.get_of_above ja]
      · have := h n
        simpa [Tbl.get, hn] using this
    rw [hst]

/-! ### Memories -/

@[simp] theorem Memory.byte_put_self (m : Memory) (a : Nat) (b : Byte) : Memory.byte (Memory.put m a b) a = b :=
  Tbl.get_set_self m a b

theorem Memory.byte_put_ne (m : Memory) {a x : Nat} (b : Byte) (h : x ≠ a) :
    Memory.byte (Memory.put m a b) x = Memory.byte m x := Tbl.get_set_ne m b h

theorem Memory.wf_put (m : Memory) (a : Nat) (b : Byte) (h : Memory.wf m = true) : Memory.wf (Memory.put m a b) = true :=
  Tbl.wf_set m a b h

/-- A write leaves every byte outside it. -/
theorem Memory.byte_write_outside (bs : List Byte) (m : Memory) (a x : Nat) (h : x < a ∨ a + bs.length ≤ x) :
    Memory.byte (Memory.write m a bs) x = Memory.byte m x := by
  induction bs generalizing m a with
  | nil => rfl
  | cons b bs ih =>
    simp only [List.length_cons] at h
    rw [Memory.write, ih _ _ (by omega), Memory.byte_put_ne _ _ (by omega)]

/-- A byte inside a write reads as what was written there. -/
theorem Memory.byte_write_inside (bs : List Byte) (m : Memory) (a i : Nat) (h : i < bs.length) :
    Memory.byte (Memory.write m a bs) (a + i) = bs[i] := by
  induction bs generalizing m a i with
  | nil => simp at h
  | cons b bs ih =>
    cases i with
    | zero =>
      rw [Memory.write, Nat.add_zero, Memory.byte_write_outside _ _ _ _ (by omega)]
      simp
    | succ i =>
      have := ih (Memory.put m a b) (a + 1) i (by simpa using h)
      rw [Memory.write, show a + (i + 1) = a + 1 + i by omega, this]
      simp

/-- Reading back a write. -/
theorem Memory.read_write (bs : List Byte) (m : Memory) (a : Nat) :
    Memory.read (Memory.write m a bs) a bs.length = bs := by
  have key : ∀ (n : Nat) (m : Memory) (a : Nat), Memory.read m a n = (List.range n).map fun i => Memory.byte m (a + i) := by
    intro n
    induction n with
    | zero => intro m a; rfl
    | succ n ih =>
      intro m a
      rw [Memory.read, ih, List.range_succ_eq_map]
      simp [List.map_map, Function.comp_def, Nat.add_assoc, Nat.add_comm 1]
  rw [key]
  apply List.ext_getElem
  · simp
  · intro i h1 h2
    simp [Memory.byte_write_inside bs m a i h2]

theorem Memory.wf_write (bs : List Byte) (m : Memory) (a : Nat) (h : Memory.wf m = true) :
    Memory.wf (Memory.write m a bs) = true := by
  induction bs generalizing m a with
  | nil => exact h
  | cons b bs ih => exact ih _ _ (Memory.wf_put m a b h)

theorem Memory.wf_putNat (m : Memory) (a n x : Nat) (h : Memory.wf m = true) : Memory.wf (Memory.putNat m a n x) = true :=
  Memory.wf_write _ m a h

@[simp] theorem leBytes_length (x n : Nat) : (leBytes x n).length = n := by
  induction n generalizing x with
  | zero => rfl
  | succ n ih => simp [leBytes, ih]

/-- The number of a little-endian byte string is the number it was made of, below its size. -/
theorem leNat_leBytes (x n : Nat) : leNat (leBytes x n) = x % 256 ^ n := by
  induction n generalizing x with
  | zero => simp [leBytes, leNat, Nat.mod_one]
  | succ n ih =>
    have : (BitVec.ofNat 8 x).toNat = x % 256 := by simp
    rw [leBytes, leNat, ih, this, Nat.pow_succ', Nat.mod_mul]

/-- A little-endian number read back after it was stored. -/
theorem Memory.nat_putNat (m : Memory) (a n x : Nat) : Memory.nat (Memory.putNat m a n x) a n = x % 256 ^ n := by
  have h := Memory.read_write (leBytes x n) m a
  rw [leBytes_length] at h
  rw [Memory.nat, Memory.putNat, h, leNat_leBytes]

end Sys2Proof.Machine
end

