-- ==== Sys2Proof/Laws/State.lean ====
section
/-! SUPPORT. The fields of `State` after each named update: one lemma per field that the update leaves, and the entry
that it changes. -/

namespace Sys2Proof.Machine

/-! ### Fields left by an update -/

@[simp] theorem State.setCore_agenda (s : State) (c : Nat) (x : Core) : (s.setCore c x).agenda = s.agenda := rfl
@[simp] theorem State.setCore_tick (s : State) (c : Nat) (x : Core) : (s.setCore c x).tick = s.tick := rfl
@[simp] theorem State.setCore_phase (s : State) (c : Nat) (x : Core) : (s.setCore c x).phase = s.phase := rfl
@[simp] theorem State.setCore_choice (s : State) (c : Nat) (x : Core) : (s.setCore c x).choice = s.choice := rfl
@[simp] theorem State.setCore_cyc (s : State) (c : Nat) (x : Core) : (s.setCore c x).cyc = s.cyc := rfl
@[simp] theorem State.setCore_inst (s : State) (c : Nat) (x : Core) : (s.setCore c x).inst = s.inst := rfl
@[simp] theorem State.setCore_atolls (s : State) (c : Nat) (x : Core) : (s.setCore c x).atolls = s.atolls := rfl
@[simp] theorem State.setCore_dev (s : State) (c : Nat) (x : Core) : (s.setCore c x).dev = s.dev := rfl
@[simp] theorem State.setCore_past (s : State) (c : Nat) (x : Core) : (s.setCore c x).past = s.past := rfl
@[simp] theorem State.setCore_host (s : State) (c : Nat) (x : Core) : (s.setCore c x).host = s.host := rfl
@[simp] theorem State.setCore_narrows (s : State) (c : Nat) (x : Core) : (s.setCore c x).narrows = s.narrows := rfl
@[simp] theorem State.setCore_peers (s : State) (c : Nat) (x : Core) : (s.setCore c x).peers = s.peers := rfl
@[simp] theorem State.setCore_launches (s : State) (c : Nat) (x : Core) : (s.setCore c x).launches = s.launches := rfl
@[simp] theorem State.setCore_launchCount (s : State) (c : Nat) (x : Core) : (s.setCore c x).launchCount = s.launchCount := rfl
@[simp] theorem State.setCore_watches (s : State) (c : Nat) (x : Core) : (s.setCore c x).watches = s.watches := rfl
@[simp] theorem State.setCore_msgs (s : State) (c : Nat) (x : Core) : (s.setCore c x).msgs = s.msgs := rfl
@[simp] theorem State.setCore_slices (s : State) (c : Nat) (x : Core) : (s.setCore c x).slices = s.slices := rfl
@[simp] theorem State.setCore_copies (s : State) (c : Nat) (x : Core) : (s.setCore c x).copies = s.copies := rfl
@[simp] theorem State.setCore_ferries (s : State) (c : Nat) (x : Core) : (s.setCore c x).ferries = s.ferries := rfl
@[simp] theorem State.setCore_servo (s : State) (c : Nat) (x : Core) : (s.setCore c x).servo = s.servo := rfl
@[simp] theorem State.setCore_faults (s : State) (c : Nat) (x : Core) : (s.setCore c x).faults = s.faults := rfl
@[simp] theorem State.setCore_placements (s : State) (c : Nat) (x : Core) : (s.setCore c x).placements = s.placements := rfl
@[simp] theorem State.setCore_queueBase (s : State) (c : Nat) (x : Core) : (s.setCore c x).queueBase = s.queueBase := rfl
@[simp] theorem State.setCore_queueCount (s : State) (c : Nat) (x : Core) : (s.setCore c x).queueCount = s.queueCount := rfl
@[simp] theorem State.setCore_timeSlices (s : State) (c : Nat) (x : Core) : (s.setCore c x).timeSlices = s.timeSlices := rfl
@[simp] theorem State.setCore_queues (s : State) (c : Nat) (x : Core) : (s.setCore c x).queues = s.queues := rfl
@[simp] theorem State.setCore_hwSlots (s : State) (c : Nat) (x : Core) : (s.setCore c x).hwSlots = s.hwSlots := rfl
@[simp] theorem State.setCore_decrements (s : State) (c : Nat) (x : Core) : (s.setCore c x).decrements = s.decrements := rfl
@[simp] theorem State.setCore_ctxBase (s : State) (c : Nat) (x : Core) : (s.setCore c x).ctxBase = s.ctxBase := rfl
@[simp] theorem State.setCore_ctxCount (s : State) (c : Nat) (x : Core) : (s.setCore c x).ctxCount = s.ctxCount := rfl
@[simp] theorem State.setCore_delay (s : State) (c : Nat) (x : Core) : (s.setCore c x).delay = s.delay := rfl
@[simp] theorem State.setCore_cmd (s : State) (c : Nat) (x : Core) : (s.setCore c x).cmd = s.cmd := rfl
@[simp] theorem State.setCore_restores (s : State) (c : Nat) (x : Core) : (s.setCore c x).restores = s.restores := rfl
@[simp] theorem State.setCore_ctxRegs (s : State) (c : Nat) (x : Core) : (s.setCore c x).ctxRegs = s.ctxRegs := rfl
@[simp] theorem State.setCore_chains (s : State) (c : Nat) (x : Core) : (s.setCore c x).chains = s.chains := rfl
@[simp] theorem State.setCore_slotTable (s : State) (c : Nat) (x : Core) : (s.setCore c x).slotTable = s.slotTable := rfl
@[simp] theorem State.setCore_dirty (s : State) (c : Nat) (x : Core) : (s.setCore c x).dirty = s.dirty := rfl
@[simp] theorem State.setCore_ports (s : State) (c : Nat) (x : Core) : (s.setCore c x).ports = s.ports := rfl
@[simp] theorem State.setCore_outputs (s : State) (c : Nat) (x : Core) : (s.setCore c x).outputs = s.outputs := rfl
@[simp] theorem State.setCore_peerNum (s : State) (c : Nat) (x : Core) : (s.setCore c x).peerNum = s.peerNum := rfl
@[simp] theorem State.setCore_links (s : State) (c : Nat) (x : Core) : (s.setCore c x).links = s.links := rfl
@[simp] theorem State.setCore_remotes (s : State) (c : Nat) (x : Core) : (s.setCore c x).remotes = s.remotes := rfl
@[simp] theorem State.setCore_windows (s : State) (c : Nat) (x : Core) : (s.setCore c x).windows = s.windows := rfl
@[simp] theorem State.setCore_quotas (s : State) (c : Nat) (x : Core) : (s.setCore c x).quotas = s.quotas := rfl
@[simp] theorem State.setCore_counters (s : State) (c : Nat) (x : Core) : (s.setCore c x).counters = s.counters := rfl
@[simp] theorem State.setCore_logBase (s : State) (c : Nat) (x : Core) : (s.setCore c x).logBase = s.logBase := rfl
@[simp] theorem State.setCore_logSize (s : State) (c : Nat) (x : Core) : (s.setCore c x).logSize = s.logSize := rfl
@[simp] theorem State.setCore_logIndex (s : State) (c : Nat) (x : Core) : (s.setCore c x).logIndex = s.logIndex := rfl
@[simp] theorem State.setCore_rowShift (s : State) (c : Nat) (x : Core) : (s.setCore c x).rowShift = s.rowShift := rfl
@[simp] theorem State.setCore_retiredSlices (s : State) (c : Nat) (x : Core) : (s.setCore c x).retiredSlices = s.retiredSlices := rfl
@[simp] theorem State.setCore_repairs (s : State) (c : Nat) (x : Core) : (s.setCore c x).repairs = s.repairs := rfl
@[simp] theorem State.setCore_zeroed (s : State) (c : Nat) (x : Core) : (s.setCore c x).zeroed = s.zeroed := rfl
@[simp] theorem State.setCore_lent (s : State) (c : Nat) (x : Core) : (s.setCore c x).lent = s.lent := rfl
@[simp] theorem State.setCore_obs (s : State) (c : Nat) (x : Core) : (s.setCore c x).obs = s.obs := rfl
@[simp] theorem State.setCore_injections (s : State) (c : Nat) (x : Core) : (s.setCore c x).injections = s.injections := rfl
@[simp] theorem State.setCore_injected (s : State) (c : Nat) (x : Core) : (s.setCore c x).injected = s.injected := rfl
@[simp] theorem State.setCore_dbg (s : State) (c : Nat) (x : Core) : (s.setCore c x).dbg = s.dbg := rfl
@[simp] theorem State.setCore_service (s : State) (c : Nat) (x : Core) : (s.setCore c x).service = s.service := rfl
@[simp] theorem State.setCore_power (s : State) (c : Nat) (x : Core) : (s.setCore c x).power = s.power := rfl
@[simp] theorem State.setCore_answer (s : State) (c : Nat) (x : Core) : (s.setCore c x).answer = s.answer := rfl

@[simp] theorem State.modCore_agenda (s : State) (c : Nat) (f : Core → Core) : (s.modCore c f).agenda = s.agenda := rfl
@[simp] theorem State.modCore_tick (s : State) (c : Nat) (f : Core → Core) : (s.modCore c f).tick = s.tick := rfl
@[simp] theorem State.modCore_phase (s : State) (c : Nat) (f : Core → Core) : (s.modCore c f).phase = s.phase := rfl
@[simp] theorem State.modCore_choice (s : State) (c : Nat) (f : Core → Core) : (s.modCore c f).choice = s.choice := rfl
@[simp] theorem State.modCore_cyc (s : State) (c : Nat) (f : Core → Core) : (s.modCore c f).cyc = s.cyc := rfl
@[simp] theorem State.modCore_inst (s : State) (c : Nat) (f : Core → Core) : (s.modCore c f).inst = s.inst := rfl
@[simp] theorem State.modCore_atolls (s : State) (c : Nat) (f : Core → Core) : (s.modCore c f).atolls = s.atolls := rfl
@[simp] theorem State.modCore_dev (s : State) (c : Nat) (f : Core → Core) : (s.modCore c f).dev = s.dev := rfl
@[simp] theorem State.modCore_past (s : State) (c : Nat) (f : Core → Core) : (s.modCore c f).past = s.past := rfl
@[simp] theorem State.modCore_host (s : State) (c : Nat) (f : Core → Core) : (s.modCore c f).host = s.host := rfl
@[simp] theorem State.modCore_narrows (s : State) (c : Nat) (f : Core → Core) : (s.modCore c f).narrows = s.narrows := rfl
@[simp] theorem State.modCore_peers (s : State) (c : Nat) (f : Core → Core) : (s.modCore c f).peers = s.peers := rfl
@[simp] theorem State.modCore_launches (s : State) (c : Nat) (f : Core → Core) : (s.modCore c f).launches = s.launches := rfl
@[simp] theorem State.modCore_launchCount (s : State) (c : Nat) (f : Core → Core) : (s.modCore c f).launchCount = s.launchCount := rfl
@[simp] theorem State.modCore_watches (s : State) (c : Nat) (f : Core → Core) : (s.modCore c f).watches = s.watches := rfl
@[simp] theorem State.modCore_msgs (s : State) (c : Nat) (f : Core → Core) : (s.modCore c f).msgs = s.msgs := rfl
@[simp] theorem State.modCore_slices (s : State) (c : Nat) (f : Core → Core) : (s.modCore c f).slices = s.slices := rfl
@[simp] theorem State.modCore_copies (s : State) (c : Nat) (f : Core → Core) : (s.modCore c f).copies = s.copies := rfl
@[simp] theorem State.modCore_ferries (s : State) (c : Nat) (f : Core → Core) : (s.modCore c f).ferries = s.ferries := rfl
@[simp] theorem State.modCore_servo (s : State) (c : Nat) (f : Core → Core) : (s.modCore c f).servo = s.servo := rfl
@[simp] theorem State.modCore_faults (s : State) (c : Nat) (f : Core → Core) : (s.modCore c f).faults = s.faults := rfl
@[simp] theorem State.modCore_placements (s : State) (c : Nat) (f : Core → Core) : (s.modCore c f).placements = s.placements := rfl
@[simp] theorem State.modCore_queueBase (s : State) (c : Nat) (f : Core → Core) : (s.modCore c f).queueBase = s.queueBase := rfl
@[simp] theorem State.modCore_queueCount (s : State) (c : Nat) (f : Core → Core) : (s.modCore c f).queueCount = s.queueCount := rfl
@[simp] theorem State.modCore_timeSlices (s : State) (c : Nat) (f : Core → Core) : (s.modCore c f).timeSlices = s.timeSlices := rfl
@[simp] theorem State.modCore_queues (s : State) (c : Nat) (f : Core → Core) : (s.modCore c f).queues = s.queues := rfl
@[simp] theorem State.modCore_hwSlots (s : State) (c : Nat) (f : Core → Core) : (s.modCore c f).hwSlots = s.hwSlots := rfl
@[simp] theorem State.modCore_decrements (s : State) (c : Nat) (f : Core → Core) : (s.modCore c f).decrements = s.decrements := rfl
@[simp] theorem State.modCore_ctxBase (s : State) (c : Nat) (f : Core → Core) : (s.modCore c f).ctxBase = s.ctxBase := rfl
@[simp] theorem State.modCore_ctxCount (s : State) (c : Nat) (f : Core → Core) : (s.modCore c f).ctxCount = s.ctxCount := rfl
@[simp] theorem State.modCore_delay (s : State) (c : Nat) (f : Core → Core) : (s.modCore c f).delay = s.delay := rfl
@[simp] theorem State.modCore_cmd (s : State) (c : Nat) (f : Core → Core) : (s.modCore c f).cmd = s.cmd := rfl
@[simp] theorem State.modCore_restores (s : State) (c : Nat) (f : Core → Core) : (s.modCore c f).restores = s.restores := rfl
@[simp] theorem State.modCore_ctxRegs (s : State) (c : Nat) (f : Core → Core) : (s.modCore c f).ctxRegs = s.ctxRegs := rfl
@[simp] theorem State.modCore_chains (s : State) (c : Nat) (f : Core → Core) : (s.modCore c f).chains = s.chains := rfl
@[simp] theorem State.modCore_slotTable (s : State) (c : Nat) (f : Core → Core) : (s.modCore c f).slotTable = s.slotTable := rfl
@[simp] theorem State.modCore_dirty (s : State) (c : Nat) (f : Core → Core) : (s.modCore c f).dirty = s.dirty := rfl
@[simp] theorem State.modCore_ports (s : State) (c : Nat) (f : Core → Core) : (s.modCore c f).ports = s.ports := rfl
@[simp] theorem State.modCore_outputs (s : State) (c : Nat) (f : Core → Core) : (s.modCore c f).outputs = s.outputs := rfl
@[simp] theorem State.modCore_peerNum (s : State) (c : Nat) (f : Core → Core) : (s.modCore c f).peerNum = s.peerNum := rfl
@[simp] theorem State.modCore_links (s : State) (c : Nat) (f : Core → Core) : (s.modCore c f).links = s.links := rfl
@[simp] theorem State.modCore_remotes (s : State) (c : Nat) (f : Core → Core) : (s.modCore c f).remotes = s.remotes := rfl
@[simp] theorem State.modCore_windows (s : State) (c : Nat) (f : Core → Core) : (s.modCore c f).windows = s.windows := rfl
@[simp] theorem State.modCore_quotas (s : State) (c : Nat) (f : Core → Core) : (s.modCore c f).quotas = s.quotas := rfl
@[simp] theorem State.modCore_counters (s : State) (c : Nat) (f : Core → Core) : (s.modCore c f).counters = s.counters := rfl
@[simp] theorem State.modCore_logBase (s : State) (c : Nat) (f : Core → Core) : (s.modCore c f).logBase = s.logBase := rfl
@[simp] theorem State.modCore_logSize (s : State) (c : Nat) (f : Core → Core) : (s.modCore c f).logSize = s.logSize := rfl
@[simp] theorem State.modCore_logIndex (s : State) (c : Nat) (f : Core → Core) : (s.modCore c f).logIndex = s.logIndex := rfl
@[simp] theorem State.modCore_rowShift (s : State) (c : Nat) (f : Core → Core) : (s.modCore c f).rowShift = s.rowShift := rfl
@[simp] theorem State.modCore_retiredSlices (s : State) (c : Nat) (f : Core → Core) : (s.modCore c f).retiredSlices = s.retiredSlices := rfl
@[simp] theorem State.modCore_repairs (s : State) (c : Nat) (f : Core → Core) : (s.modCore c f).repairs = s.repairs := rfl
@[simp] theorem State.modCore_zeroed (s : State) (c : Nat) (f : Core → Core) : (s.modCore c f).zeroed = s.zeroed := rfl
@[simp] theorem State.modCore_lent (s : State) (c : Nat) (f : Core → Core) : (s.modCore c f).lent = s.lent := rfl
@[simp] theorem State.modCore_obs (s : State) (c : Nat) (f : Core → Core) : (s.modCore c f).obs = s.obs := rfl
@[simp] theorem State.modCore_injections (s : State) (c : Nat) (f : Core → Core) : (s.modCore c f).injections = s.injections := rfl
@[simp] theorem State.modCore_injected (s : State) (c : Nat) (f : Core → Core) : (s.modCore c f).injected = s.injected := rfl
@[simp] theorem State.modCore_dbg (s : State) (c : Nat) (f : Core → Core) : (s.modCore c f).dbg = s.dbg := rfl
@[simp] theorem State.modCore_service (s : State) (c : Nat) (f : Core → Core) : (s.modCore c f).service = s.service := rfl
@[simp] theorem State.modCore_power (s : State) (c : Nat) (f : Core → Core) : (s.modCore c f).power = s.power := rfl
@[simp] theorem State.modCore_answer (s : State) (c : Nat) (f : Core → Core) : (s.modCore c f).answer = s.answer := rfl

@[simp] theorem State.modGrp_agenda (s : State) (c g : Nat) (f : Group → Group) : (s.modGrp c g f).agenda = s.agenda := rfl
@[simp] theorem State.modGrp_tick (s : State) (c g : Nat) (f : Group → Group) : (s.modGrp c g f).tick = s.tick := rfl
@[simp] theorem State.modGrp_phase (s : State) (c g : Nat) (f : Group → Group) : (s.modGrp c g f).phase = s.phase := rfl
@[simp] theorem State.modGrp_choice (s : State) (c g : Nat) (f : Group → Group) : (s.modGrp c g f).choice = s.choice := rfl
@[simp] theorem State.modGrp_cyc (s : State) (c g : Nat) (f : Group → Group) : (s.modGrp c g f).cyc = s.cyc := rfl
@[simp] theorem State.modGrp_inst (s : State) (c g : Nat) (f : Group → Group) : (s.modGrp c g f).inst = s.inst := rfl
@[simp] theorem State.modGrp_atolls (s : State) (c g : Nat) (f : Group → Group) : (s.modGrp c g f).atolls = s.atolls := rfl
@[simp] theorem State.modGrp_dev (s : State) (c g : Nat) (f : Group → Group) : (s.modGrp c g f).dev = s.dev := rfl
@[simp] theorem State.modGrp_past (s : State) (c g : Nat) (f : Group → Group) : (s.modGrp c g f).past = s.past := rfl
@[simp] theorem State.modGrp_host (s : State) (c g : Nat) (f : Group → Group) : (s.modGrp c g f).host = s.host := rfl
@[simp] theorem State.modGrp_narrows (s : State) (c g : Nat) (f : Group → Group) : (s.modGrp c g f).narrows = s.narrows := rfl
@[simp] theorem State.modGrp_peers (s : State) (c g : Nat) (f : Group → Group) : (s.modGrp c g f).peers = s.peers := rfl
@[simp] theorem State.modGrp_launches (s : State) (c g : Nat) (f : Group → Group) : (s.modGrp c g f).launches = s.launches := rfl
@[simp] theorem State.modGrp_launchCount (s : State) (c g : Nat) (f : Group → Group) : (s.modGrp c g f).launchCount = s.launchCount := rfl
@[simp] theorem State.modGrp_watches (s : State) (c g : Nat) (f : Group → Group) : (s.modGrp c g f).watches = s.watches := rfl
@[simp] theorem State.modGrp_msgs (s : State) (c g : Nat) (f : Group → Group) : (s.modGrp c g f).msgs = s.msgs := rfl
@[simp] theorem State.modGrp_slices (s : State) (c g : Nat) (f : Group → Group) : (s.modGrp c g f).slices = s.slices := rfl
@[simp] theorem State.modGrp_copies (s : State) (c g : Nat) (f : Group → Group) : (s.modGrp c g f).copies = s.copies := rfl
@[simp] theorem State.modGrp_ferries (s : State) (c g : Nat) (f : Group → Group) : (s.modGrp c g f).ferries = s.ferries := rfl
@[simp] theorem State.modGrp_servo (s : State) (c g : Nat) (f : Group → Group) : (s.modGrp c g f).servo = s.servo := rfl
@[simp] theorem State.modGrp_faults (s : State) (c g : Nat) (f : Group → Group) : (s.modGrp c g f).faults = s.faults := rfl
@[simp] theorem State.modGrp_placements (s : State) (c g : Nat) (f : Group → Group) : (s.modGrp c g f).placements = s.placements := rfl
@[simp] theorem State.modGrp_queueBase (s : State) (c g : Nat) (f : Group → Group) : (s.modGrp c g f).queueBase = s.queueBase := rfl
@[simp] theorem State.modGrp_queueCount (s : State) (c g : Nat) (f : Group → Group) : (s.modGrp c g f).queueCount = s.queueCount := rfl
@[simp] theorem State.modGrp_timeSlices (s : State) (c g : Nat) (f : Group → Group) : (s.modGrp c g f).timeSlices = s.timeSlices := rfl
@[simp] theorem State.modGrp_queues (s : State) (c g : Nat) (f : Group → Group) : (s.modGrp c g f).queues = s.queues := rfl
@[simp] theorem State.modGrp_hwSlots (s : State) (c g : Nat) (f : Group → Group) : (s.modGrp c g f).hwSlots = s.hwSlots := rfl
@[simp] theorem State.modGrp_decrements (s : State) (c g : Nat) (f : Group → Group) : (s.modGrp c g f).decrements = s.decrements := rfl
@[simp] theorem State.modGrp_ctxBase (s : State) (c g : Nat) (f : Group → Group) : (s.modGrp c g f).ctxBase = s.ctxBase := rfl
@[simp] theorem State.modGrp_ctxCount (s : State) (c g : Nat) (f : Group → Group) : (s.modGrp c g f).ctxCount = s.ctxCount := rfl
@[simp] theorem State.modGrp_delay (s : State) (c g : Nat) (f : Group → Group) : (s.modGrp c g f).delay = s.delay := rfl
@[simp] theorem State.modGrp_cmd (s : State) (c g : Nat) (f : Group → Group) : (s.modGrp c g f).cmd = s.cmd := rfl
@[simp] theorem State.modGrp_restores (s : State) (c g : Nat) (f : Group → Group) : (s.modGrp c g f).restores = s.restores := rfl
@[simp] theorem State.modGrp_ctxRegs (s : State) (c g : Nat) (f : Group → Group) : (s.modGrp c g f).ctxRegs = s.ctxRegs := rfl
@[simp] theorem State.modGrp_chains (s : State) (c g : Nat) (f : Group → Group) : (s.modGrp c g f).chains = s.chains := rfl
@[simp] theorem State.modGrp_slotTable (s : State) (c g : Nat) (f : Group → Group) : (s.modGrp c g f).slotTable = s.slotTable := rfl
@[simp] theorem State.modGrp_dirty (s : State) (c g : Nat) (f : Group → Group) : (s.modGrp c g f).dirty = s.dirty := rfl
@[simp] theorem State.modGrp_ports (s : State) (c g : Nat) (f : Group → Group) : (s.modGrp c g f).ports = s.ports := rfl
@[simp] theorem State.modGrp_outputs (s : State) (c g : Nat) (f : Group → Group) : (s.modGrp c g f).outputs = s.outputs := rfl
@[simp] theorem State.modGrp_peerNum (s : State) (c g : Nat) (f : Group → Group) : (s.modGrp c g f).peerNum = s.peerNum := rfl
@[simp] theorem State.modGrp_links (s : State) (c g : Nat) (f : Group → Group) : (s.modGrp c g f).links = s.links := rfl
@[simp] theorem State.modGrp_remotes (s : State) (c g : Nat) (f : Group → Group) : (s.modGrp c g f).remotes = s.remotes := rfl
@[simp] theorem State.modGrp_windows (s : State) (c g : Nat) (f : Group → Group) : (s.modGrp c g f).windows = s.windows := rfl
@[simp] theorem State.modGrp_quotas (s : State) (c g : Nat) (f : Group → Group) : (s.modGrp c g f).quotas = s.quotas := rfl
@[simp] theorem State.modGrp_counters (s : State) (c g : Nat) (f : Group → Group) : (s.modGrp c g f).counters = s.counters := rfl
@[simp] theorem State.modGrp_logBase (s : State) (c g : Nat) (f : Group → Group) : (s.modGrp c g f).logBase = s.logBase := rfl
@[simp] theorem State.modGrp_logSize (s : State) (c g : Nat) (f : Group → Group) : (s.modGrp c g f).logSize = s.logSize := rfl
@[simp] theorem State.modGrp_logIndex (s : State) (c g : Nat) (f : Group → Group) : (s.modGrp c g f).logIndex = s.logIndex := rfl
@[simp] theorem State.modGrp_rowShift (s : State) (c g : Nat) (f : Group → Group) : (s.modGrp c g f).rowShift = s.rowShift := rfl
@[simp] theorem State.modGrp_retiredSlices (s : State) (c g : Nat) (f : Group → Group) : (s.modGrp c g f).retiredSlices = s.retiredSlices := rfl
@[simp] theorem State.modGrp_repairs (s : State) (c g : Nat) (f : Group → Group) : (s.modGrp c g f).repairs = s.repairs := rfl
@[simp] theorem State.modGrp_zeroed (s : State) (c g : Nat) (f : Group → Group) : (s.modGrp c g f).zeroed = s.zeroed := rfl
@[simp] theorem State.modGrp_lent (s : State) (c g : Nat) (f : Group → Group) : (s.modGrp c g f).lent = s.lent := rfl
@[simp] theorem State.modGrp_obs (s : State) (c g : Nat) (f : Group → Group) : (s.modGrp c g f).obs = s.obs := rfl
@[simp] theorem State.modGrp_injections (s : State) (c g : Nat) (f : Group → Group) : (s.modGrp c g f).injections = s.injections := rfl
@[simp] theorem State.modGrp_injected (s : State) (c g : Nat) (f : Group → Group) : (s.modGrp c g f).injected = s.injected := rfl
@[simp] theorem State.modGrp_dbg (s : State) (c g : Nat) (f : Group → Group) : (s.modGrp c g f).dbg = s.dbg := rfl
@[simp] theorem State.modGrp_service (s : State) (c g : Nat) (f : Group → Group) : (s.modGrp c g f).service = s.service := rfl
@[simp] theorem State.modGrp_power (s : State) (c g : Nat) (f : Group → Group) : (s.modGrp c g f).power = s.power := rfl
@[simp] theorem State.modGrp_answer (s : State) (c g : Nat) (f : Group → Group) : (s.modGrp c g f).answer = s.answer := rfl

@[simp] theorem State.modThr_agenda (s : State) (c g l : Nat) (f : Thread → Thread) : (s.modThr c g l f).agenda = s.agenda := rfl
@[simp] theorem State.modThr_tick (s : State) (c g l : Nat) (f : Thread → Thread) : (s.modThr c g l f).tick = s.tick := rfl
@[simp] theorem State.modThr_phase (s : State) (c g l : Nat) (f : Thread → Thread) : (s.modThr c g l f).phase = s.phase := rfl
@[simp] theorem State.modThr_choice (s : State) (c g l : Nat) (f : Thread → Thread) : (s.modThr c g l f).choice = s.choice := rfl
@[simp] theorem State.modThr_cyc (s : State) (c g l : Nat) (f : Thread → Thread) : (s.modThr c g l f).cyc = s.cyc := rfl
@[simp] theorem State.modThr_inst (s : State) (c g l : Nat) (f : Thread → Thread) : (s.modThr c g l f).inst = s.inst := rfl
@[simp] theorem State.modThr_atolls (s : State) (c g l : Nat) (f : Thread → Thread) : (s.modThr c g l f).atolls = s.atolls := rfl
@[simp] theorem State.modThr_dev (s : State) (c g l : Nat) (f : Thread → Thread) : (s.modThr c g l f).dev = s.dev := rfl
@[simp] theorem State.modThr_past (s : State) (c g l : Nat) (f : Thread → Thread) : (s.modThr c g l f).past = s.past := rfl
@[simp] theorem State.modThr_host (s : State) (c g l : Nat) (f : Thread → Thread) : (s.modThr c g l f).host = s.host := rfl
@[simp] theorem State.modThr_narrows (s : State) (c g l : Nat) (f : Thread → Thread) : (s.modThr c g l f).narrows = s.narrows := rfl
@[simp] theorem State.modThr_peers (s : State) (c g l : Nat) (f : Thread → Thread) : (s.modThr c g l f).peers = s.peers := rfl
@[simp] theorem State.modThr_launches (s : State) (c g l : Nat) (f : Thread → Thread) : (s.modThr c g l f).launches = s.launches := rfl
@[simp] theorem State.modThr_launchCount (s : State) (c g l : Nat) (f : Thread → Thread) : (s.modThr c g l f).launchCount = s.launchCount := rfl
@[simp] theorem State.modThr_watches (s : State) (c g l : Nat) (f : Thread → Thread) : (s.modThr c g l f).watches = s.watches := rfl
@[simp] theorem State.modThr_msgs (s : State) (c g l : Nat) (f : Thread → Thread) : (s.modThr c g l f).msgs = s.msgs := rfl
@[simp] theorem State.modThr_slices (s : State) (c g l : Nat) (f : Thread → Thread) : (s.modThr c g l f).slices = s.slices := rfl
@[simp] theorem State.modThr_copies (s : State) (c g l : Nat) (f : Thread → Thread) : (s.modThr c g l f).copies = s.copies := rfl
@[simp] theorem State.modThr_ferries (s : State) (c g l : Nat) (f : Thread → Thread) : (s.modThr c g l f).ferries = s.ferries := rfl
@[simp] theorem State.modThr_servo (s : State) (c g l : Nat) (f : Thread → Thread) : (s.modThr c g l f).servo = s.servo := rfl
@[simp] theorem State.modThr_faults (s : State) (c g l : Nat) (f : Thread → Thread) : (s.modThr c g l f).faults = s.faults := rfl
@[simp] theorem State.modThr_placements (s : State) (c g l : Nat) (f : Thread → Thread) : (s.modThr c g l f).placements = s.placements := rfl
@[simp] theorem State.modThr_queueBase (s : State) (c g l : Nat) (f : Thread → Thread) : (s.modThr c g l f).queueBase = s.queueBase := rfl
@[simp] theorem State.modThr_queueCount (s : State) (c g l : Nat) (f : Thread → Thread) : (s.modThr c g l f).queueCount = s.queueCount := rfl
@[simp] theorem State.modThr_timeSlices (s : State) (c g l : Nat) (f : Thread → Thread) : (s.modThr c g l f).timeSlices = s.timeSlices := rfl
@[simp] theorem State.modThr_queues (s : State) (c g l : Nat) (f : Thread → Thread) : (s.modThr c g l f).queues = s.queues := rfl
@[simp] theorem State.modThr_hwSlots (s : State) (c g l : Nat) (f : Thread → Thread) : (s.modThr c g l f).hwSlots = s.hwSlots := rfl
@[simp] theorem State.modThr_decrements (s : State) (c g l : Nat) (f : Thread → Thread) : (s.modThr c g l f).decrements = s.decrements := rfl
@[simp] theorem State.modThr_ctxBase (s : State) (c g l : Nat) (f : Thread → Thread) : (s.modThr c g l f).ctxBase = s.ctxBase := rfl
@[simp] theorem State.modThr_ctxCount (s : State) (c g l : Nat) (f : Thread → Thread) : (s.modThr c g l f).ctxCount = s.ctxCount := rfl
@[simp] theorem State.modThr_delay (s : State) (c g l : Nat) (f : Thread → Thread) : (s.modThr c g l f).delay = s.delay := rfl
@[simp] theorem State.modThr_cmd (s : State) (c g l : Nat) (f : Thread → Thread) : (s.modThr c g l f).cmd = s.cmd := rfl
@[simp] theorem State.modThr_restores (s : State) (c g l : Nat) (f : Thread → Thread) : (s.modThr c g l f).restores = s.restores := rfl
@[simp] theorem State.modThr_ctxRegs (s : State) (c g l : Nat) (f : Thread → Thread) : (s.modThr c g l f).ctxRegs = s.ctxRegs := rfl
@[simp] theorem State.modThr_chains (s : State) (c g l : Nat) (f : Thread → Thread) : (s.modThr c g l f).chains = s.chains := rfl
@[simp] theorem State.modThr_slotTable (s : State) (c g l : Nat) (f : Thread → Thread) : (s.modThr c g l f).slotTable = s.slotTable := rfl
@[simp] theorem State.modThr_dirty (s : State) (c g l : Nat) (f : Thread → Thread) : (s.modThr c g l f).dirty = s.dirty := rfl
@[simp] theorem State.modThr_ports (s : State) (c g l : Nat) (f : Thread → Thread) : (s.modThr c g l f).ports = s.ports := rfl
@[simp] theorem State.modThr_outputs (s : State) (c g l : Nat) (f : Thread → Thread) : (s.modThr c g l f).outputs = s.outputs := rfl
@[simp] theorem State.modThr_peerNum (s : State) (c g l : Nat) (f : Thread → Thread) : (s.modThr c g l f).peerNum = s.peerNum := rfl
@[simp] theorem State.modThr_links (s : State) (c g l : Nat) (f : Thread → Thread) : (s.modThr c g l f).links = s.links := rfl
@[simp] theorem State.modThr_remotes (s : State) (c g l : Nat) (f : Thread → Thread) : (s.modThr c g l f).remotes = s.remotes := rfl
@[simp] theorem State.modThr_windows (s : State) (c g l : Nat) (f : Thread → Thread) : (s.modThr c g l f).windows = s.windows := rfl
@[simp] theorem State.modThr_quotas (s : State) (c g l : Nat) (f : Thread → Thread) : (s.modThr c g l f).quotas = s.quotas := rfl
@[simp] theorem State.modThr_counters (s : State) (c g l : Nat) (f : Thread → Thread) : (s.modThr c g l f).counters = s.counters := rfl
@[simp] theorem State.modThr_logBase (s : State) (c g l : Nat) (f : Thread → Thread) : (s.modThr c g l f).logBase = s.logBase := rfl
@[simp] theorem State.modThr_logSize (s : State) (c g l : Nat) (f : Thread → Thread) : (s.modThr c g l f).logSize = s.logSize := rfl
@[simp] theorem State.modThr_logIndex (s : State) (c g l : Nat) (f : Thread → Thread) : (s.modThr c g l f).logIndex = s.logIndex := rfl
@[simp] theorem State.modThr_rowShift (s : State) (c g l : Nat) (f : Thread → Thread) : (s.modThr c g l f).rowShift = s.rowShift := rfl
@[simp] theorem State.modThr_retiredSlices (s : State) (c g l : Nat) (f : Thread → Thread) : (s.modThr c g l f).retiredSlices = s.retiredSlices := rfl
@[simp] theorem State.modThr_repairs (s : State) (c g l : Nat) (f : Thread → Thread) : (s.modThr c g l f).repairs = s.repairs := rfl
@[simp] theorem State.modThr_zeroed (s : State) (c g l : Nat) (f : Thread → Thread) : (s.modThr c g l f).zeroed = s.zeroed := rfl
@[simp] theorem State.modThr_lent (s : State) (c g l : Nat) (f : Thread → Thread) : (s.modThr c g l f).lent = s.lent := rfl
@[simp] theorem State.modThr_obs (s : State) (c g l : Nat) (f : Thread → Thread) : (s.modThr c g l f).obs = s.obs := rfl
@[simp] theorem State.modThr_injections (s : State) (c g l : Nat) (f : Thread → Thread) : (s.modThr c g l f).injections = s.injections := rfl
@[simp] theorem State.modThr_injected (s : State) (c g l : Nat) (f : Thread → Thread) : (s.modThr c g l f).injected = s.injected := rfl
@[simp] theorem State.modThr_dbg (s : State) (c g l : Nat) (f : Thread → Thread) : (s.modThr c g l f).dbg = s.dbg := rfl
@[simp] theorem State.modThr_service (s : State) (c g l : Nat) (f : Thread → Thread) : (s.modThr c g l f).service = s.service := rfl
@[simp] theorem State.modThr_power (s : State) (c g l : Nat) (f : Thread → Thread) : (s.modThr c g l f).power = s.power := rfl
@[simp] theorem State.modThr_answer (s : State) (c g l : Nat) (f : Thread → Thread) : (s.modThr c g l f).answer = s.answer := rfl

@[simp] theorem State.modWg_agenda (s : State) (c w : Nat) (f : Wg → Wg) : (s.modWg c w f).agenda = s.agenda := rfl
@[simp] theorem State.modWg_tick (s : State) (c w : Nat) (f : Wg → Wg) : (s.modWg c w f).tick = s.tick := rfl
@[simp] theorem State.modWg_phase (s : State) (c w : Nat) (f : Wg → Wg) : (s.modWg c w f).phase = s.phase := rfl
@[simp] theorem State.modWg_choice (s : State) (c w : Nat) (f : Wg → Wg) : (s.modWg c w f).choice = s.choice := rfl
@[simp] theorem State.modWg_cyc (s : State) (c w : Nat) (f : Wg → Wg) : (s.modWg c w f).cyc = s.cyc := rfl
@[simp] theorem State.modWg_inst (s : State) (c w : Nat) (f : Wg → Wg) : (s.modWg c w f).inst = s.inst := rfl
@[simp] theorem State.modWg_atolls (s : State) (c w : Nat) (f : Wg → Wg) : (s.modWg c w f).atolls = s.atolls := rfl
@[simp] theorem State.modWg_dev (s : State) (c w : Nat) (f : Wg → Wg) : (s.modWg c w f).dev = s.dev := rfl
@[simp] theorem State.modWg_past (s : State) (c w : Nat) (f : Wg → Wg) : (s.modWg c w f).past = s.past := rfl
@[simp] theorem State.modWg_host (s : State) (c w : Nat) (f : Wg → Wg) : (s.modWg c w f).host = s.host := rfl
@[simp] theorem State.modWg_narrows (s : State) (c w : Nat) (f : Wg → Wg) : (s.modWg c w f).narrows = s.narrows := rfl
@[simp] theorem State.modWg_peers (s : State) (c w : Nat) (f : Wg → Wg) : (s.modWg c w f).peers = s.peers := rfl
@[simp] theorem State.modWg_launches (s : State) (c w : Nat) (f : Wg → Wg) : (s.modWg c w f).launches = s.launches := rfl
@[simp] theorem State.modWg_launchCount (s : State) (c w : Nat) (f : Wg → Wg) : (s.modWg c w f).launchCount = s.launchCount := rfl
@[simp] theorem State.modWg_watches (s : State) (c w : Nat) (f : Wg → Wg) : (s.modWg c w f).watches = s.watches := rfl
@[simp] theorem State.modWg_msgs (s : State) (c w : Nat) (f : Wg → Wg) : (s.modWg c w f).msgs = s.msgs := rfl
@[simp] theorem State.modWg_slices (s : State) (c w : Nat) (f : Wg → Wg) : (s.modWg c w f).slices = s.slices := rfl
@[simp] theorem State.modWg_copies (s : State) (c w : Nat) (f : Wg → Wg) : (s.modWg c w f).copies = s.copies := rfl
@[simp] theorem State.modWg_ferries (s : State) (c w : Nat) (f : Wg → Wg) : (s.modWg c w f).ferries = s.ferries := rfl
@[simp] theorem State.modWg_servo (s : State) (c w : Nat) (f : Wg → Wg) : (s.modWg c w f).servo = s.servo := rfl
@[simp] theorem State.modWg_faults (s : State) (c w : Nat) (f : Wg → Wg) : (s.modWg c w f).faults = s.faults := rfl
@[simp] theorem State.modWg_placements (s : State) (c w : Nat) (f : Wg → Wg) : (s.modWg c w f).placements = s.placements := rfl
@[simp] theorem State.modWg_queueBase (s : State) (c w : Nat) (f : Wg → Wg) : (s.modWg c w f).queueBase = s.queueBase := rfl
@[simp] theorem State.modWg_queueCount (s : State) (c w : Nat) (f : Wg → Wg) : (s.modWg c w f).queueCount = s.queueCount := rfl
@[simp] theorem State.modWg_timeSlices (s : State) (c w : Nat) (f : Wg → Wg) : (s.modWg c w f).timeSlices = s.timeSlices := rfl
@[simp] theorem State.modWg_queues (s : State) (c w : Nat) (f : Wg → Wg) : (s.modWg c w f).queues = s.queues := rfl
@[simp] theorem State.modWg_hwSlots (s : State) (c w : Nat) (f : Wg → Wg) : (s.modWg c w f).hwSlots = s.hwSlots := rfl
@[simp] theorem State.modWg_decrements (s : State) (c w : Nat) (f : Wg → Wg) : (s.modWg c w f).decrements = s.decrements := rfl
@[simp] theorem State.modWg_ctxBase (s : State) (c w : Nat) (f : Wg → Wg) : (s.modWg c w f).ctxBase = s.ctxBase := rfl
@[simp] theorem State.modWg_ctxCount (s : State) (c w : Nat) (f : Wg → Wg) : (s.modWg c w f).ctxCount = s.ctxCount := rfl
@[simp] theorem State.modWg_delay (s : State) (c w : Nat) (f : Wg → Wg) : (s.modWg c w f).delay = s.delay := rfl
@[simp] theorem State.modWg_cmd (s : State) (c w : Nat) (f : Wg → Wg) : (s.modWg c w f).cmd = s.cmd := rfl
@[simp] theorem State.modWg_restores (s : State) (c w : Nat) (f : Wg → Wg) : (s.modWg c w f).restores = s.restores := rfl
@[simp] theorem State.modWg_ctxRegs (s : State) (c w : Nat) (f : Wg → Wg) : (s.modWg c w f).ctxRegs = s.ctxRegs := rfl
@[simp] theorem State.modWg_chains (s : State) (c w : Nat) (f : Wg → Wg) : (s.modWg c w f).chains = s.chains := rfl
@[simp] theorem State.modWg_slotTable (s : State) (c w : Nat) (f : Wg → Wg) : (s.modWg c w f).slotTable = s.slotTable := rfl
@[simp] theorem State.modWg_dirty (s : State) (c w : Nat) (f : Wg → Wg) : (s.modWg c w f).dirty = s.dirty := rfl
@[simp] theorem State.modWg_ports (s : State) (c w : Nat) (f : Wg → Wg) : (s.modWg c w f).ports = s.ports := rfl
@[simp] theorem State.modWg_outputs (s : State) (c w : Nat) (f : Wg → Wg) : (s.modWg c w f).outputs = s.outputs := rfl
@[simp] theorem State.modWg_peerNum (s : State) (c w : Nat) (f : Wg → Wg) : (s.modWg c w f).peerNum = s.peerNum := rfl
@[simp] theorem State.modWg_links (s : State) (c w : Nat) (f : Wg → Wg) : (s.modWg c w f).links = s.links := rfl
@[simp] theorem State.modWg_remotes (s : State) (c w : Nat) (f : Wg → Wg) : (s.modWg c w f).remotes = s.remotes := rfl
@[simp] theorem State.modWg_windows (s : State) (c w : Nat) (f : Wg → Wg) : (s.modWg c w f).windows = s.windows := rfl
@[simp] theorem State.modWg_quotas (s : State) (c w : Nat) (f : Wg → Wg) : (s.modWg c w f).quotas = s.quotas := rfl
@[simp] theorem State.modWg_counters (s : State) (c w : Nat) (f : Wg → Wg) : (s.modWg c w f).counters = s.counters := rfl
@[simp] theorem State.modWg_logBase (s : State) (c w : Nat) (f : Wg → Wg) : (s.modWg c w f).logBase = s.logBase := rfl
@[simp] theorem State.modWg_logSize (s : State) (c w : Nat) (f : Wg → Wg) : (s.modWg c w f).logSize = s.logSize := rfl
@[simp] theorem State.modWg_logIndex (s : State) (c w : Nat) (f : Wg → Wg) : (s.modWg c w f).logIndex = s.logIndex := rfl
@[simp] theorem State.modWg_rowShift (s : State) (c w : Nat) (f : Wg → Wg) : (s.modWg c w f).rowShift = s.rowShift := rfl
@[simp] theorem State.modWg_retiredSlices (s : State) (c w : Nat) (f : Wg → Wg) : (s.modWg c w f).retiredSlices = s.retiredSlices := rfl
@[simp] theorem State.modWg_repairs (s : State) (c w : Nat) (f : Wg → Wg) : (s.modWg c w f).repairs = s.repairs := rfl
@[simp] theorem State.modWg_zeroed (s : State) (c w : Nat) (f : Wg → Wg) : (s.modWg c w f).zeroed = s.zeroed := rfl
@[simp] theorem State.modWg_lent (s : State) (c w : Nat) (f : Wg → Wg) : (s.modWg c w f).lent = s.lent := rfl
@[simp] theorem State.modWg_obs (s : State) (c w : Nat) (f : Wg → Wg) : (s.modWg c w f).obs = s.obs := rfl
@[simp] theorem State.modWg_injections (s : State) (c w : Nat) (f : Wg → Wg) : (s.modWg c w f).injections = s.injections := rfl
@[simp] theorem State.modWg_injected (s : State) (c w : Nat) (f : Wg → Wg) : (s.modWg c w f).injected = s.injected := rfl
@[simp] theorem State.modWg_dbg (s : State) (c w : Nat) (f : Wg → Wg) : (s.modWg c w f).dbg = s.dbg := rfl
@[simp] theorem State.modWg_service (s : State) (c w : Nat) (f : Wg → Wg) : (s.modWg c w f).service = s.service := rfl
@[simp] theorem State.modWg_power (s : State) (c w : Nat) (f : Wg → Wg) : (s.modWg c w f).power = s.power := rfl
@[simp] theorem State.modWg_answer (s : State) (c w : Nat) (f : Wg → Wg) : (s.modWg c w f).answer = s.answer := rfl

@[simp] theorem State.modHandle_agenda (s : State) (c h : Nat) (f : Handle → Handle) : (s.modHandle c h f).agenda = s.agenda := rfl
@[simp] theorem State.modHandle_tick (s : State) (c h : Nat) (f : Handle → Handle) : (s.modHandle c h f).tick = s.tick := rfl
@[simp] theorem State.modHandle_phase (s : State) (c h : Nat) (f : Handle → Handle) : (s.modHandle c h f).phase = s.phase := rfl
@[simp] theorem State.modHandle_choice (s : State) (c h : Nat) (f : Handle → Handle) : (s.modHandle c h f).choice = s.choice := rfl
@[simp] theorem State.modHandle_cyc (s : State) (c h : Nat) (f : Handle → Handle) : (s.modHandle c h f).cyc = s.cyc := rfl
@[simp] theorem State.modHandle_inst (s : State) (c h : Nat) (f : Handle → Handle) : (s.modHandle c h f).inst = s.inst := rfl
@[simp] theorem State.modHandle_atolls (s : State) (c h : Nat) (f : Handle → Handle) : (s.modHandle c h f).atolls = s.atolls := rfl
@[simp] theorem State.modHandle_dev (s : State) (c h : Nat) (f : Handle → Handle) : (s.modHandle c h f).dev = s.dev := rfl
@[simp] theorem State.modHandle_past (s : State) (c h : Nat) (f : Handle → Handle) : (s.modHandle c h f).past = s.past := rfl
@[simp] theorem State.modHandle_host (s : State) (c h : Nat) (f : Handle → Handle) : (s.modHandle c h f).host = s.host := rfl
@[simp] theorem State.modHandle_narrows (s : State) (c h : Nat) (f : Handle → Handle) : (s.modHandle c h f).narrows = s.narrows := rfl
@[simp] theorem State.modHandle_peers (s : State) (c h : Nat) (f : Handle → Handle) : (s.modHandle c h f).peers = s.peers := rfl
@[simp] theorem State.modHandle_launches (s : State) (c h : Nat) (f : Handle → Handle) : (s.modHandle c h f).launches = s.launches := rfl
@[simp] theorem State.modHandle_launchCount (s : State) (c h : Nat) (f : Handle → Handle) : (s.modHandle c h f).launchCount = s.launchCount := rfl
@[simp] theorem State.modHandle_watches (s : State) (c h : Nat) (f : Handle → Handle) : (s.modHandle c h f).watches = s.watches := rfl
@[simp] theorem State.modHandle_msgs (s : State) (c h : Nat) (f : Handle → Handle) : (s.modHandle c h f).msgs = s.msgs := rfl
@[simp] theorem State.modHandle_slices (s : State) (c h : Nat) (f : Handle → Handle) : (s.modHandle c h f).slices = s.slices := rfl
@[simp] theorem State.modHandle_copies (s : State) (c h : Nat) (f : Handle → Handle) : (s.modHandle c h f).copies = s.copies := rfl
@[simp] theorem State.modHandle_ferries (s : State) (c h : Nat) (f : Handle → Handle) : (s.modHandle c h f).ferries = s.ferries := rfl
@[simp] theorem State.modHandle_servo (s : State) (c h : Nat) (f : Handle → Handle) : (s.modHandle c h f).servo = s.servo := rfl
@[simp] theorem State.modHandle_faults (s : State) (c h : Nat) (f : Handle → Handle) : (s.modHandle c h f).faults = s.faults := rfl
@[simp] theorem State.modHandle_placements (s : State) (c h : Nat) (f : Handle → Handle) : (s.modHandle c h f).placements = s.placements := rfl
@[simp] theorem State.modHandle_queueBase (s : State) (c h : Nat) (f : Handle → Handle) : (s.modHandle c h f).queueBase = s.queueBase := rfl
@[simp] theorem State.modHandle_queueCount (s : State) (c h : Nat) (f : Handle → Handle) : (s.modHandle c h f).queueCount = s.queueCount := rfl
@[simp] theorem State.modHandle_timeSlices (s : State) (c h : Nat) (f : Handle → Handle) : (s.modHandle c h f).timeSlices = s.timeSlices := rfl
@[simp] theorem State.modHandle_queues (s : State) (c h : Nat) (f : Handle → Handle) : (s.modHandle c h f).queues = s.queues := rfl
@[simp] theorem State.modHandle_hwSlots (s : State) (c h : Nat) (f : Handle → Handle) : (s.modHandle c h f).hwSlots = s.hwSlots := rfl
@[simp] theorem State.modHandle_decrements (s : State) (c h : Nat) (f : Handle → Handle) : (s.modHandle c h f).decrements = s.decrements := rfl
@[simp] theorem State.modHandle_ctxBase (s : State) (c h : Nat) (f : Handle → Handle) : (s.modHandle c h f).ctxBase = s.ctxBase := rfl
@[simp] theorem State.modHandle_ctxCount (s : State) (c h : Nat) (f : Handle → Handle) : (s.modHandle c h f).ctxCount = s.ctxCount := rfl
@[simp] theorem State.modHandle_delay (s : State) (c h : Nat) (f : Handle → Handle) : (s.modHandle c h f).delay = s.delay := rfl
@[simp] theorem State.modHandle_cmd (s : State) (c h : Nat) (f : Handle → Handle) : (s.modHandle c h f).cmd = s.cmd := rfl
@[simp] theorem State.modHandle_restores (s : State) (c h : Nat) (f : Handle → Handle) : (s.modHandle c h f).restores = s.restores := rfl
@[simp] theorem State.modHandle_ctxRegs (s : State) (c h : Nat) (f : Handle → Handle) : (s.modHandle c h f).ctxRegs = s.ctxRegs := rfl
@[simp] theorem State.modHandle_chains (s : State) (c h : Nat) (f : Handle → Handle) : (s.modHandle c h f).chains = s.chains := rfl
@[simp] theorem State.modHandle_slotTable (s : State) (c h : Nat) (f : Handle → Handle) : (s.modHandle c h f).slotTable = s.slotTable := rfl
@[simp] theorem State.modHandle_dirty (s : State) (c h : Nat) (f : Handle → Handle) : (s.modHandle c h f).dirty = s.dirty := rfl
@[simp] theorem State.modHandle_ports (s : State) (c h : Nat) (f : Handle → Handle) : (s.modHandle c h f).ports = s.ports := rfl
@[simp] theorem State.modHandle_outputs (s : State) (c h : Nat) (f : Handle → Handle) : (s.modHandle c h f).outputs = s.outputs := rfl
@[simp] theorem State.modHandle_peerNum (s : State) (c h : Nat) (f : Handle → Handle) : (s.modHandle c h f).peerNum = s.peerNum := rfl
@[simp] theorem State.modHandle_links (s : State) (c h : Nat) (f : Handle → Handle) : (s.modHandle c h f).links = s.links := rfl
@[simp] theorem State.modHandle_remotes (s : State) (c h : Nat) (f : Handle → Handle) : (s.modHandle c h f).remotes = s.remotes := rfl
@[simp] theorem State.modHandle_windows (s : State) (c h : Nat) (f : Handle → Handle) : (s.modHandle c h f).windows = s.windows := rfl
@[simp] theorem State.modHandle_quotas (s : State) (c h : Nat) (f : Handle → Handle) : (s.modHandle c h f).quotas = s.quotas := rfl
@[simp] theorem State.modHandle_counters (s : State) (c h : Nat) (f : Handle → Handle) : (s.modHandle c h f).counters = s.counters := rfl
@[simp] theorem State.modHandle_logBase (s : State) (c h : Nat) (f : Handle → Handle) : (s.modHandle c h f).logBase = s.logBase := rfl
@[simp] theorem State.modHandle_logSize (s : State) (c h : Nat) (f : Handle → Handle) : (s.modHandle c h f).logSize = s.logSize := rfl
@[simp] theorem State.modHandle_logIndex (s : State) (c h : Nat) (f : Handle → Handle) : (s.modHandle c h f).logIndex = s.logIndex := rfl
@[simp] theorem State.modHandle_rowShift (s : State) (c h : Nat) (f : Handle → Handle) : (s.modHandle c h f).rowShift = s.rowShift := rfl
@[simp] theorem State.modHandle_retiredSlices (s : State) (c h : Nat) (f : Handle → Handle) : (s.modHandle c h f).retiredSlices = s.retiredSlices := rfl
@[simp] theorem State.modHandle_repairs (s : State) (c h : Nat) (f : Handle → Handle) : (s.modHandle c h f).repairs = s.repairs := rfl
@[simp] theorem State.modHandle_zeroed (s : State) (c h : Nat) (f : Handle → Handle) : (s.modHandle c h f).zeroed = s.zeroed := rfl
@[simp] theorem State.modHandle_lent (s : State) (c h : Nat) (f : Handle → Handle) : (s.modHandle c h f).lent = s.lent := rfl
@[simp] theorem State.modHandle_obs (s : State) (c h : Nat) (f : Handle → Handle) : (s.modHandle c h f).obs = s.obs := rfl
@[simp] theorem State.modHandle_injections (s : State) (c h : Nat) (f : Handle → Handle) : (s.modHandle c h f).injections = s.injections := rfl
@[simp] theorem State.modHandle_injected (s : State) (c h : Nat) (f : Handle → Handle) : (s.modHandle c h f).injected = s.injected := rfl
@[simp] theorem State.modHandle_dbg (s : State) (c h : Nat) (f : Handle → Handle) : (s.modHandle c h f).dbg = s.dbg := rfl
@[simp] theorem State.modHandle_service (s : State) (c h : Nat) (f : Handle → Handle) : (s.modHandle c h f).service = s.service := rfl
@[simp] theorem State.modHandle_power (s : State) (c h : Nat) (f : Handle → Handle) : (s.modHandle c h f).power = s.power := rfl
@[simp] theorem State.modHandle_answer (s : State) (c h : Nat) (f : Handle → Handle) : (s.modHandle c h f).answer = s.answer := rfl

@[simp] theorem State.wrV_agenda (s : State) (c g r l : Nat) (w : Word) : (s.wrV c g r l w).agenda = s.agenda := rfl
@[simp] theorem State.wrV_tick (s : State) (c g r l : Nat) (w : Word) : (s.wrV c g r l w).tick = s.tick := rfl
@[simp] theorem State.wrV_phase (s : State) (c g r l : Nat) (w : Word) : (s.wrV c g r l w).phase = s.phase := rfl
@[simp] theorem State.wrV_choice (s : State) (c g r l : Nat) (w : Word) : (s.wrV c g r l w).choice = s.choice := rfl
@[simp] theorem State.wrV_cyc (s : State) (c g r l : Nat) (w : Word) : (s.wrV c g r l w).cyc = s.cyc := rfl
@[simp] theorem State.wrV_inst (s : State) (c g r l : Nat) (w : Word) : (s.wrV c g r l w).inst = s.inst := rfl
@[simp] theorem State.wrV_atolls (s : State) (c g r l : Nat) (w : Word) : (s.wrV c g r l w).atolls = s.atolls := rfl
@[simp] theorem State.wrV_dev (s : State) (c g r l : Nat) (w : Word) : (s.wrV c g r l w).dev = s.dev := rfl
@[simp] theorem State.wrV_past (s : State) (c g r l : Nat) (w : Word) : (s.wrV c g r l w).past = s.past := rfl
@[simp] theorem State.wrV_host (s : State) (c g r l : Nat) (w : Word) : (s.wrV c g r l w).host = s.host := rfl
@[simp] theorem State.wrV_narrows (s : State) (c g r l : Nat) (w : Word) : (s.wrV c g r l w).narrows = s.narrows := rfl
@[simp] theorem State.wrV_peers (s : State) (c g r l : Nat) (w : Word) : (s.wrV c g r l w).peers = s.peers := rfl
@[simp] theorem State.wrV_launches (s : State) (c g r l : Nat) (w : Word) : (s.wrV c g r l w).launches = s.launches := rfl
@[simp] theorem State.wrV_launchCount (s : State) (c g r l : Nat) (w : Word) : (s.wrV c g r l w).launchCount = s.launchCount := rfl
@[simp] theorem State.wrV_watches (s : State) (c g r l : Nat) (w : Word) : (s.wrV c g r l w).watches = s.watches := rfl
@[simp] theorem State.wrV_msgs (s : State) (c g r l : Nat) (w : Word) : (s.wrV c g r l w).msgs = s.msgs := rfl
@[simp] theorem State.wrV_slices (s : State) (c g r l : Nat) (w : Word) : (s.wrV c g r l w).slices = s.slices := rfl
@[simp] theorem State.wrV_copies (s : State) (c g r l : Nat) (w : Word) : (s.wrV c g r l w).copies = s.copies := rfl
@[simp] theorem State.wrV_ferries (s : State) (c g r l : Nat) (w : Word) : (s.wrV c g r l w).ferries = s.ferries := rfl
@[simp] theorem State.wrV_servo (s : State) (c g r l : Nat) (w : Word) : (s.wrV c g r l w).servo = s.servo := rfl
@[simp] theorem State.wrV_faults (s : State) (c g r l : Nat) (w : Word) : (s.wrV c g r l w).faults = s.faults := rfl
@[simp] theorem State.wrV_placements (s : State) (c g r l : Nat) (w : Word) : (s.wrV c g r l w).placements = s.placements := rfl
@[simp] theorem State.wrV_queueBase (s : State) (c g r l : Nat) (w : Word) : (s.wrV c g r l w).queueBase = s.queueBase := rfl
@[simp] theorem State.wrV_queueCount (s : State) (c g r l : Nat) (w : Word) : (s.wrV c g r l w).queueCount = s.queueCount := rfl
@[simp] theorem State.wrV_timeSlices (s : State) (c g r l : Nat) (w : Word) : (s.wrV c g r l w).timeSlices = s.timeSlices := rfl
@[simp] theorem State.wrV_queues (s : State) (c g r l : Nat) (w : Word) : (s.wrV c g r l w).queues = s.queues := rfl
@[simp] theorem State.wrV_hwSlots (s : State) (c g r l : Nat) (w : Word) : (s.wrV c g r l w).hwSlots = s.hwSlots := rfl
@[simp] theorem State.wrV_decrements (s : State) (c g r l : Nat) (w : Word) : (s.wrV c g r l w).decrements = s.decrements := rfl
@[simp] theorem State.wrV_ctxBase (s : State) (c g r l : Nat) (w : Word) : (s.wrV c g r l w).ctxBase = s.ctxBase := rfl
@[simp] theorem State.wrV_ctxCount (s : State) (c g r l : Nat) (w : Word) : (s.wrV c g r l w).ctxCount = s.ctxCount := rfl
@[simp] theorem State.wrV_delay (s : State) (c g r l : Nat) (w : Word) : (s.wrV c g r l w).delay = s.delay := rfl
@[simp] theorem State.wrV_cmd (s : State) (c g r l : Nat) (w : Word) : (s.wrV c g r l w).cmd = s.cmd := rfl
@[simp] theorem State.wrV_restores (s : State) (c g r l : Nat) (w : Word) : (s.wrV c g r l w).restores = s.restores := rfl
@[simp] theorem State.wrV_ctxRegs (s : State) (c g r l : Nat) (w : Word) : (s.wrV c g r l w).ctxRegs = s.ctxRegs := rfl
@[simp] theorem State.wrV_chains (s : State) (c g r l : Nat) (w : Word) : (s.wrV c g r l w).chains = s.chains := rfl
@[simp] theorem State.wrV_slotTable (s : State) (c g r l : Nat) (w : Word) : (s.wrV c g r l w).slotTable = s.slotTable := rfl
@[simp] theorem State.wrV_dirty (s : State) (c g r l : Nat) (w : Word) : (s.wrV c g r l w).dirty = s.dirty := rfl
@[simp] theorem State.wrV_ports (s : State) (c g r l : Nat) (w : Word) : (s.wrV c g r l w).ports = s.ports := rfl
@[simp] theorem State.wrV_outputs (s : State) (c g r l : Nat) (w : Word) : (s.wrV c g r l w).outputs = s.outputs := rfl
@[simp] theorem State.wrV_peerNum (s : State) (c g r l : Nat) (w : Word) : (s.wrV c g r l w).peerNum = s.peerNum := rfl
@[simp] theorem State.wrV_links (s : State) (c g r l : Nat) (w : Word) : (s.wrV c g r l w).links = s.links := rfl
@[simp] theorem State.wrV_remotes (s : State) (c g r l : Nat) (w : Word) : (s.wrV c g r l w).remotes = s.remotes := rfl
@[simp] theorem State.wrV_windows (s : State) (c g r l : Nat) (w : Word) : (s.wrV c g r l w).windows = s.windows := rfl
@[simp] theorem State.wrV_quotas (s : State) (c g r l : Nat) (w : Word) : (s.wrV c g r l w).quotas = s.quotas := rfl
@[simp] theorem State.wrV_counters (s : State) (c g r l : Nat) (w : Word) : (s.wrV c g r l w).counters = s.counters := rfl
@[simp] theorem State.wrV_logBase (s : State) (c g r l : Nat) (w : Word) : (s.wrV c g r l w).logBase = s.logBase := rfl
@[simp] theorem State.wrV_logSize (s : State) (c g r l : Nat) (w : Word) : (s.wrV c g r l w).logSize = s.logSize := rfl
@[simp] theorem State.wrV_logIndex (s : State) (c g r l : Nat) (w : Word) : (s.wrV c g r l w).logIndex = s.logIndex := rfl
@[simp] theorem State.wrV_rowShift (s : State) (c g r l : Nat) (w : Word) : (s.wrV c g r l w).rowShift = s.rowShift := rfl
@[simp] theorem State.wrV_retiredSlices (s : State) (c g r l : Nat) (w : Word) : (s.wrV c g r l w).retiredSlices = s.retiredSlices := rfl
@[simp] theorem State.wrV_repairs (s : State) (c g r l : Nat) (w : Word) : (s.wrV c g r l w).repairs = s.repairs := rfl
@[simp] theorem State.wrV_zeroed (s : State) (c g r l : Nat) (w : Word) : (s.wrV c g r l w).zeroed = s.zeroed := rfl
@[simp] theorem State.wrV_lent (s : State) (c g r l : Nat) (w : Word) : (s.wrV c g r l w).lent = s.lent := rfl
@[simp] theorem State.wrV_obs (s : State) (c g r l : Nat) (w : Word) : (s.wrV c g r l w).obs = s.obs := rfl
@[simp] theorem State.wrV_injections (s : State) (c g r l : Nat) (w : Word) : (s.wrV c g r l w).injections = s.injections := rfl
@[simp] theorem State.wrV_injected (s : State) (c g r l : Nat) (w : Word) : (s.wrV c g r l w).injected = s.injected := rfl
@[simp] theorem State.wrV_dbg (s : State) (c g r l : Nat) (w : Word) : (s.wrV c g r l w).dbg = s.dbg := rfl
@[simp] theorem State.wrV_service (s : State) (c g r l : Nat) (w : Word) : (s.wrV c g r l w).service = s.service := rfl
@[simp] theorem State.wrV_power (s : State) (c g r l : Nat) (w : Word) : (s.wrV c g r l w).power = s.power := rfl
@[simp] theorem State.wrV_answer (s : State) (c g r l : Nat) (w : Word) : (s.wrV c g r l w).answer = s.answer := rfl

@[simp] theorem State.modLaunch_agenda (s : State) (l : Nat) (f : Launch → Launch) : (s.modLaunch l f).agenda = s.agenda := rfl
@[simp] theorem State.modLaunch_tick (s : State) (l : Nat) (f : Launch → Launch) : (s.modLaunch l f).tick = s.tick := rfl
@[simp] theorem State.modLaunch_phase (s : State) (l : Nat) (f : Launch → Launch) : (s.modLaunch l f).phase = s.phase := rfl
@[simp] theorem State.modLaunch_choice (s : State) (l : Nat) (f : Launch → Launch) : (s.modLaunch l f).choice = s.choice := rfl
@[simp] theorem State.modLaunch_cyc (s : State) (l : Nat) (f : Launch → Launch) : (s.modLaunch l f).cyc = s.cyc := rfl
@[simp] theorem State.modLaunch_inst (s : State) (l : Nat) (f : Launch → Launch) : (s.modLaunch l f).inst = s.inst := rfl
@[simp] theorem State.modLaunch_cores (s : State) (l : Nat) (f : Launch → Launch) : (s.modLaunch l f).cores = s.cores := rfl
@[simp] theorem State.modLaunch_atolls (s : State) (l : Nat) (f : Launch → Launch) : (s.modLaunch l f).atolls = s.atolls := rfl
@[simp] theorem State.modLaunch_dev (s : State) (l : Nat) (f : Launch → Launch) : (s.modLaunch l f).dev = s.dev := rfl
@[simp] theorem State.modLaunch_past (s : State) (l : Nat) (f : Launch → Launch) : (s.modLaunch l f).past = s.past := rfl
@[simp] theorem State.modLaunch_host (s : State) (l : Nat) (f : Launch → Launch) : (s.modLaunch l f).host = s.host := rfl
@[simp] theorem State.modLaunch_narrows (s : State) (l : Nat) (f : Launch → Launch) : (s.modLaunch l f).narrows = s.narrows := rfl
@[simp] theorem State.modLaunch_peers (s : State) (l : Nat) (f : Launch → Launch) : (s.modLaunch l f).peers = s.peers := rfl
@[simp] theorem State.modLaunch_launchCount (s : State) (l : Nat) (f : Launch → Launch) : (s.modLaunch l f).launchCount = s.launchCount := rfl
@[simp] theorem State.modLaunch_watches (s : State) (l : Nat) (f : Launch → Launch) : (s.modLaunch l f).watches = s.watches := rfl
@[simp] theorem State.modLaunch_msgs (s : State) (l : Nat) (f : Launch → Launch) : (s.modLaunch l f).msgs = s.msgs := rfl
@[simp] theorem State.modLaunch_slices (s : State) (l : Nat) (f : Launch → Launch) : (s.modLaunch l f).slices = s.slices := rfl
@[simp] theorem State.modLaunch_copies (s : State) (l : Nat) (f : Launch → Launch) : (s.modLaunch l f).copies = s.copies := rfl
@[simp] theorem State.modLaunch_ferries (s : State) (l : Nat) (f : Launch → Launch) : (s.modLaunch l f).ferries = s.ferries := rfl
@[simp] theorem State.modLaunch_servo (s : State) (l : Nat) (f : Launch → Launch) : (s.modLaunch l f).servo = s.servo := rfl
@[simp] theorem State.modLaunch_faults (s : State) (l : Nat) (f : Launch → Launch) : (s.modLaunch l f).faults = s.faults := rfl
@[simp] theorem State.modLaunch_placements (s : State) (l : Nat) (f : Launch → Launch) : (s.modLaunch l f).placements = s.placements := rfl
@[simp] theorem State.modLaunch_queueBase (s : State) (l : Nat) (f : Launch → Launch) : (s.modLaunch l f).queueBase = s.queueBase := rfl
@[simp] theorem State.modLaunch_queueCount (s : State) (l : Nat) (f : Launch → Launch) : (s.modLaunch l f).queueCount = s.queueCount := rfl
@[simp] theorem State.modLaunch_timeSlices (s : State) (l : Nat) (f : Launch → Launch) : (s.modLaunch l f).timeSlices = s.timeSlices := rfl
@[simp] theorem State.modLaunch_queues (s : State) (l : Nat) (f : Launch → Launch) : (s.modLaunch l f).queues = s.queues := rfl
@[simp] theorem State.modLaunch_hwSlots (s : State) (l : Nat) (f : Launch → Launch) : (s.modLaunch l f).hwSlots = s.hwSlots := rfl
@[simp] theorem State.modLaunch_decrements (s : State) (l : Nat) (f : Launch → Launch) : (s.modLaunch l f).decrements = s.decrements := rfl
@[simp] theorem State.modLaunch_ctxBase (s : State) (l : Nat) (f : Launch → Launch) : (s.modLaunch l f).ctxBase = s.ctxBase := rfl
@[simp] theorem State.modLaunch_ctxCount (s : State) (l : Nat) (f : Launch → Launch) : (s.modLaunch l f).ctxCount = s.ctxCount := rfl
@[simp] theorem State.modLaunch_delay (s : State) (l : Nat) (f : Launch → Launch) : (s.modLaunch l f).delay = s.delay := rfl
@[simp] theorem State.modLaunch_cmd (s : State) (l : Nat) (f : Launch → Launch) : (s.modLaunch l f).cmd = s.cmd := rfl
@[simp] theorem State.modLaunch_restores (s : State) (l : Nat) (f : Launch → Launch) : (s.modLaunch l f).restores = s.restores := rfl
@[simp] theorem State.modLaunch_ctxRegs (s : State) (l : Nat) (f : Launch → Launch) : (s.modLaunch l f).ctxRegs = s.ctxRegs := rfl
@[simp] theorem State.modLaunch_chains (s : State) (l : Nat) (f : Launch → Launch) : (s.modLaunch l f).chains = s.chains := rfl
@[simp] theorem State.modLaunch_slotTable (s : State) (l : Nat) (f : Launch → Launch) : (s.modLaunch l f).slotTable = s.slotTable := rfl
@[simp] theorem State.modLaunch_dirty (s : State) (l : Nat) (f : Launch → Launch) : (s.modLaunch l f).dirty = s.dirty := rfl
@[simp] theorem State.modLaunch_ports (s : State) (l : Nat) (f : Launch → Launch) : (s.modLaunch l f).ports = s.ports := rfl
@[simp] theorem State.modLaunch_outputs (s : State) (l : Nat) (f : Launch → Launch) : (s.modLaunch l f).outputs = s.outputs := rfl
@[simp] theorem State.modLaunch_peerNum (s : State) (l : Nat) (f : Launch → Launch) : (s.modLaunch l f).peerNum = s.peerNum := rfl
@[simp] theorem State.modLaunch_links (s : State) (l : Nat) (f : Launch → Launch) : (s.modLaunch l f).links = s.links := rfl
@[simp] theorem State.modLaunch_remotes (s : State) (l : Nat) (f : Launch → Launch) : (s.modLaunch l f).remotes = s.remotes := rfl
@[simp] theorem State.modLaunch_windows (s : State) (l : Nat) (f : Launch → Launch) : (s.modLaunch l f).windows = s.windows := rfl
@[simp] theorem State.modLaunch_quotas (s : State) (l : Nat) (f : Launch → Launch) : (s.modLaunch l f).quotas = s.quotas := rfl
@[simp] theorem State.modLaunch_counters (s : State) (l : Nat) (f : Launch → Launch) : (s.modLaunch l f).counters = s.counters := rfl
@[simp] theorem State.modLaunch_logBase (s : State) (l : Nat) (f : Launch → Launch) : (s.modLaunch l f).logBase = s.logBase := rfl
@[simp] theorem State.modLaunch_logSize (s : State) (l : Nat) (f : Launch → Launch) : (s.modLaunch l f).logSize = s.logSize := rfl
@[simp] theorem State.modLaunch_logIndex (s : State) (l : Nat) (f : Launch → Launch) : (s.modLaunch l f).logIndex = s.logIndex := rfl
@[simp] theorem State.modLaunch_rowShift (s : State) (l : Nat) (f : Launch → Launch) : (s.modLaunch l f).rowShift = s.rowShift := rfl
@[simp] theorem State.modLaunch_retiredSlices (s : State) (l : Nat) (f : Launch → Launch) : (s.modLaunch l f).retiredSlices = s.retiredSlices := rfl
@[simp] theorem State.modLaunch_repairs (s : State) (l : Nat) (f : Launch → Launch) : (s.modLaunch l f).repairs = s.repairs := rfl
@[simp] theorem State.modLaunch_zeroed (s : State) (l : Nat) (f : Launch → Launch) : (s.modLaunch l f).zeroed = s.zeroed := rfl
@[simp] theorem State.modLaunch_lent (s : State) (l : Nat) (f : Launch → Launch) : (s.modLaunch l f).lent = s.lent := rfl
@[simp] theorem State.modLaunch_obs (s : State) (l : Nat) (f : Launch → Launch) : (s.modLaunch l f).obs = s.obs := rfl
@[simp] theorem State.modLaunch_injections (s : State) (l : Nat) (f : Launch → Launch) : (s.modLaunch l f).injections = s.injections := rfl
@[simp] theorem State.modLaunch_injected (s : State) (l : Nat) (f : Launch → Launch) : (s.modLaunch l f).injected = s.injected := rfl
@[simp] theorem State.modLaunch_dbg (s : State) (l : Nat) (f : Launch → Launch) : (s.modLaunch l f).dbg = s.dbg := rfl
@[simp] theorem State.modLaunch_service (s : State) (l : Nat) (f : Launch → Launch) : (s.modLaunch l f).service = s.service := rfl
@[simp] theorem State.modLaunch_power (s : State) (l : Nat) (f : Launch → Launch) : (s.modLaunch l f).power = s.power := rfl
@[simp] theorem State.modLaunch_answer (s : State) (l : Nat) (f : Launch → Launch) : (s.modLaunch l f).answer = s.answer := rfl

@[simp] theorem State.modWatch_agenda (s : State) (w : Nat) (f : Watch → Watch) : (s.modWatch w f).agenda = s.agenda := rfl
@[simp] theorem State.modWatch_tick (s : State) (w : Nat) (f : Watch → Watch) : (s.modWatch w f).tick = s.tick := rfl
@[simp] theorem State.modWatch_phase (s : State) (w : Nat) (f : Watch → Watch) : (s.modWatch w f).phase = s.phase := rfl
@[simp] theorem State.modWatch_choice (s : State) (w : Nat) (f : Watch → Watch) : (s.modWatch w f).choice = s.choice := rfl
@[simp] theorem State.modWatch_cyc (s : State) (w : Nat) (f : Watch → Watch) : (s.modWatch w f).cyc = s.cyc := rfl
@[simp] theorem State.modWatch_inst (s : State) (w : Nat) (f : Watch → Watch) : (s.modWatch w f).inst = s.inst := rfl
@[simp] theorem State.modWatch_cores (s : State) (w : Nat) (f : Watch → Watch) : (s.modWatch w f).cores = s.cores := rfl
@[simp] theorem State.modWatch_atolls (s : State) (w : Nat) (f : Watch → Watch) : (s.modWatch w f).atolls = s.atolls := rfl
@[simp] theorem State.modWatch_dev (s : State) (w : Nat) (f : Watch → Watch) : (s.modWatch w f).dev = s.dev := rfl
@[simp] theorem State.modWatch_past (s : State) (w : Nat) (f : Watch → Watch) : (s.modWatch w f).past = s.past := rfl
@[simp] theorem State.modWatch_host (s : State) (w : Nat) (f : Watch → Watch) : (s.modWatch w f).host = s.host := rfl
@[simp] theorem State.modWatch_narrows (s : State) (w : Nat) (f : Watch → Watch) : (s.modWatch w f).narrows = s.narrows := rfl
@[simp] theorem State.modWatch_peers (s : State) (w : Nat) (f : Watch → Watch) : (s.modWatch w f).peers = s.peers := rfl
@[simp] theorem State.modWatch_launches (s : State) (w : Nat) (f : Watch → Watch) : (s.modWatch w f).launches = s.launches := rfl
@[simp] theorem State.modWatch_launchCount (s : State) (w : Nat) (f : Watch → Watch) : (s.modWatch w f).launchCount = s.launchCount := rfl
@[simp] theorem State.modWatch_msgs (s : State) (w : Nat) (f : Watch → Watch) : (s.modWatch w f).msgs = s.msgs := rfl
@[simp] theorem State.modWatch_slices (s : State) (w : Nat) (f : Watch → Watch) : (s.modWatch w f).slices = s.slices := rfl
@[simp] theorem State.modWatch_copies (s : State) (w : Nat) (f : Watch → Watch) : (s.modWatch w f).copies = s.copies := rfl
@[simp] theorem State.modWatch_ferries (s : State) (w : Nat) (f : Watch → Watch) : (s.modWatch w f).ferries = s.ferries := rfl
@[simp] theorem State.modWatch_servo (s : State) (w : Nat) (f : Watch → Watch) : (s.modWatch w f).servo = s.servo := rfl
@[simp] theorem State.modWatch_faults (s : State) (w : Nat) (f : Watch → Watch) : (s.modWatch w f).faults = s.faults := rfl
@[simp] theorem State.modWatch_placements (s : State) (w : Nat) (f : Watch → Watch) : (s.modWatch w f).placements = s.placements := rfl
@[simp] theorem State.modWatch_queueBase (s : State) (w : Nat) (f : Watch → Watch) : (s.modWatch w f).queueBase = s.queueBase := rfl
@[simp] theorem State.modWatch_queueCount (s : State) (w : Nat) (f : Watch → Watch) : (s.modWatch w f).queueCount = s.queueCount := rfl
@[simp] theorem State.modWatch_timeSlices (s : State) (w : Nat) (f : Watch → Watch) : (s.modWatch w f).timeSlices = s.timeSlices := rfl
@[simp] theorem State.modWatch_queues (s : State) (w : Nat) (f : Watch → Watch) : (s.modWatch w f).queues = s.queues := rfl
@[simp] theorem State.modWatch_hwSlots (s : State) (w : Nat) (f : Watch → Watch) : (s.modWatch w f).hwSlots = s.hwSlots := rfl
@[simp] theorem State.modWatch_decrements (s : State) (w : Nat) (f : Watch → Watch) : (s.modWatch w f).decrements = s.decrements := rfl
@[simp] theorem State.modWatch_ctxBase (s : State) (w : Nat) (f : Watch → Watch) : (s.modWatch w f).ctxBase = s.ctxBase := rfl
@[simp] theorem State.modWatch_ctxCount (s : State) (w : Nat) (f : Watch → Watch) : (s.modWatch w f).ctxCount = s.ctxCount := rfl
@[simp] theorem State.modWatch_delay (s : State) (w : Nat) (f : Watch → Watch) : (s.modWatch w f).delay = s.delay := rfl
@[simp] theorem State.modWatch_cmd (s : State) (w : Nat) (f : Watch → Watch) : (s.modWatch w f).cmd = s.cmd := rfl
@[simp] theorem State.modWatch_restores (s : State) (w : Nat) (f : Watch → Watch) : (s.modWatch w f).restores = s.restores := rfl
@[simp] theorem State.modWatch_ctxRegs (s : State) (w : Nat) (f : Watch → Watch) : (s.modWatch w f).ctxRegs = s.ctxRegs := rfl
@[simp] theorem State.modWatch_chains (s : State) (w : Nat) (f : Watch → Watch) : (s.modWatch w f).chains = s.chains := rfl
@[simp] theorem State.modWatch_slotTable (s : State) (w : Nat) (f : Watch → Watch) : (s.modWatch w f).slotTable = s.slotTable := rfl
@[simp] theorem State.modWatch_dirty (s : State) (w : Nat) (f : Watch → Watch) : (s.modWatch w f).dirty = s.dirty := rfl
@[simp] theorem State.modWatch_ports (s : State) (w : Nat) (f : Watch → Watch) : (s.modWatch w f).ports = s.ports := rfl
@[simp] theorem State.modWatch_outputs (s : State) (w : Nat) (f : Watch → Watch) : (s.modWatch w f).outputs = s.outputs := rfl
@[simp] theorem State.modWatch_peerNum (s : State) (w : Nat) (f : Watch → Watch) : (s.modWatch w f).peerNum = s.peerNum := rfl
@[simp] theorem State.modWatch_links (s : State) (w : Nat) (f : Watch → Watch) : (s.modWatch w f).links = s.links := rfl
@[simp] theorem State.modWatch_remotes (s : State) (w : Nat) (f : Watch → Watch) : (s.modWatch w f).remotes = s.remotes := rfl
@[simp] theorem State.modWatch_windows (s : State) (w : Nat) (f : Watch → Watch) : (s.modWatch w f).windows = s.windows := rfl
@[simp] theorem State.modWatch_quotas (s : State) (w : Nat) (f : Watch → Watch) : (s.modWatch w f).quotas = s.quotas := rfl
@[simp] theorem State.modWatch_counters (s : State) (w : Nat) (f : Watch → Watch) : (s.modWatch w f).counters = s.counters := rfl
@[simp] theorem State.modWatch_logBase (s : State) (w : Nat) (f : Watch → Watch) : (s.modWatch w f).logBase = s.logBase := rfl
@[simp] theorem State.modWatch_logSize (s : State) (w : Nat) (f : Watch → Watch) : (s.modWatch w f).logSize = s.logSize := rfl
@[simp] theorem State.modWatch_logIndex (s : State) (w : Nat) (f : Watch → Watch) : (s.modWatch w f).logIndex = s.logIndex := rfl
@[simp] theorem State.modWatch_rowShift (s : State) (w : Nat) (f : Watch → Watch) : (s.modWatch w f).rowShift = s.rowShift := rfl
@[simp] theorem State.modWatch_retiredSlices (s : State) (w : Nat) (f : Watch → Watch) : (s.modWatch w f).retiredSlices = s.retiredSlices := rfl
@[simp] theorem State.modWatch_repairs (s : State) (w : Nat) (f : Watch → Watch) : (s.modWatch w f).repairs = s.repairs := rfl
@[simp] theorem State.modWatch_zeroed (s : State) (w : Nat) (f : Watch → Watch) : (s.modWatch w f).zeroed = s.zeroed := rfl
@[simp] theorem State.modWatch_lent (s : State) (w : Nat) (f : Watch → Watch) : (s.modWatch w f).lent = s.lent := rfl
@[simp] theorem State.modWatch_obs (s : State) (w : Nat) (f : Watch → Watch) : (s.modWatch w f).obs = s.obs := rfl
@[simp] theorem State.modWatch_injections (s : State) (w : Nat) (f : Watch → Watch) : (s.modWatch w f).injections = s.injections := rfl
@[simp] theorem State.modWatch_injected (s : State) (w : Nat) (f : Watch → Watch) : (s.modWatch w f).injected = s.injected := rfl
@[simp] theorem State.modWatch_dbg (s : State) (w : Nat) (f : Watch → Watch) : (s.modWatch w f).dbg = s.dbg := rfl
@[simp] theorem State.modWatch_service (s : State) (w : Nat) (f : Watch → Watch) : (s.modWatch w f).service = s.service := rfl
@[simp] theorem State.modWatch_power (s : State) (w : Nat) (f : Watch → Watch) : (s.modWatch w f).power = s.power := rfl
@[simp] theorem State.modWatch_answer (s : State) (w : Nat) (f : Watch → Watch) : (s.modWatch w f).answer = s.answer := rfl

@[simp] theorem State.modCopy_agenda (s : State) (n : Nat) (f : Copy → Copy) : (s.modCopy n f).agenda = s.agenda := rfl
@[simp] theorem State.modCopy_tick (s : State) (n : Nat) (f : Copy → Copy) : (s.modCopy n f).tick = s.tick := rfl
@[simp] theorem State.modCopy_phase (s : State) (n : Nat) (f : Copy → Copy) : (s.modCopy n f).phase = s.phase := rfl
@[simp] theorem State.modCopy_choice (s : State) (n : Nat) (f : Copy → Copy) : (s.modCopy n f).choice = s.choice := rfl
@[simp] theorem State.modCopy_cyc (s : State) (n : Nat) (f : Copy → Copy) : (s.modCopy n f).cyc = s.cyc := rfl
@[simp] theorem State.modCopy_inst (s : State) (n : Nat) (f : Copy → Copy) : (s.modCopy n f).inst = s.inst := rfl
@[simp] theorem State.modCopy_cores (s : State) (n : Nat) (f : Copy → Copy) : (s.modCopy n f).cores = s.cores := rfl
@[simp] theorem State.modCopy_atolls (s : State) (n : Nat) (f : Copy → Copy) : (s.modCopy n f).atolls = s.atolls := rfl
@[simp] theorem State.modCopy_dev (s : State) (n : Nat) (f : Copy → Copy) : (s.modCopy n f).dev = s.dev := rfl
@[simp] theorem State.modCopy_past (s : State) (n : Nat) (f : Copy → Copy) : (s.modCopy n f).past = s.past := rfl
@[simp] theorem State.modCopy_host (s : State) (n : Nat) (f : Copy → Copy) : (s.modCopy n f).host = s.host := rfl
@[simp] theorem State.modCopy_narrows (s : State) (n : Nat) (f : Copy → Copy) : (s.modCopy n f).narrows = s.narrows := rfl
@[simp] theorem State.modCopy_peers (s : State) (n : Nat) (f : Copy → Copy) : (s.modCopy n f).peers = s.peers := rfl
@[simp] theorem State.modCopy_launches (s : State) (n : Nat) (f : Copy → Copy) : (s.modCopy n f).launches = s.launches := rfl
@[simp] theorem State.modCopy_launchCount (s : State) (n : Nat) (f : Copy → Copy) : (s.modCopy n f).launchCount = s.launchCount := rfl
@[simp] theorem State.modCopy_watches (s : State) (n : Nat) (f : Copy → Copy) : (s.modCopy n f).watches = s.watches := rfl
@[simp] theorem State.modCopy_msgs (s : State) (n : Nat) (f : Copy → Copy) : (s.modCopy n f).msgs = s.msgs := rfl
@[simp] theorem State.modCopy_slices (s : State) (n : Nat) (f : Copy → Copy) : (s.modCopy n f).slices = s.slices := rfl
@[simp] theorem State.modCopy_ferries (s : State) (n : Nat) (f : Copy → Copy) : (s.modCopy n f).ferries = s.ferries := rfl
@[simp] theorem State.modCopy_servo (s : State) (n : Nat) (f : Copy → Copy) : (s.modCopy n f).servo = s.servo := rfl
@[simp] theorem State.modCopy_faults (s : State) (n : Nat) (f : Copy → Copy) : (s.modCopy n f).faults = s.faults := rfl
@[simp] theorem State.modCopy_placements (s : State) (n : Nat) (f : Copy → Copy) : (s.modCopy n f).placements = s.placements := rfl
@[simp] theorem State.modCopy_queueBase (s : State) (n : Nat) (f : Copy → Copy) : (s.modCopy n f).queueBase = s.queueBase := rfl
@[simp] theorem State.modCopy_queueCount (s : State) (n : Nat) (f : Copy → Copy) : (s.modCopy n f).queueCount = s.queueCount := rfl
@[simp] theorem State.modCopy_timeSlices (s : State) (n : Nat) (f : Copy → Copy) : (s.modCopy n f).timeSlices = s.timeSlices := rfl
@[simp] theorem State.modCopy_queues (s : State) (n : Nat) (f : Copy → Copy) : (s.modCopy n f).queues = s.queues := rfl
@[simp] theorem State.modCopy_hwSlots (s : State) (n : Nat) (f : Copy → Copy) : (s.modCopy n f).hwSlots = s.hwSlots := rfl
@[simp] theorem State.modCopy_decrements (s : State) (n : Nat) (f : Copy → Copy) : (s.modCopy n f).decrements = s.decrements := rfl
@[simp] theorem State.modCopy_ctxBase (s : State) (n : Nat) (f : Copy → Copy) : (s.modCopy n f).ctxBase = s.ctxBase := rfl
@[simp] theorem State.modCopy_ctxCount (s : State) (n : Nat) (f : Copy → Copy) : (s.modCopy n f).ctxCount = s.ctxCount := rfl
@[simp] theorem State.modCopy_delay (s : State) (n : Nat) (f : Copy → Copy) : (s.modCopy n f).delay = s.delay := rfl
@[simp] theorem State.modCopy_cmd (s : State) (n : Nat) (f : Copy → Copy) : (s.modCopy n f).cmd = s.cmd := rfl
@[simp] theorem State.modCopy_restores (s : State) (n : Nat) (f : Copy → Copy) : (s.modCopy n f).restores = s.restores := rfl
@[simp] theorem State.modCopy_ctxRegs (s : State) (n : Nat) (f : Copy → Copy) : (s.modCopy n f).ctxRegs = s.ctxRegs := rfl
@[simp] theorem State.modCopy_chains (s : State) (n : Nat) (f : Copy → Copy) : (s.modCopy n f).chains = s.chains := rfl
@[simp] theorem State.modCopy_slotTable (s : State) (n : Nat) (f : Copy → Copy) : (s.modCopy n f).slotTable = s.slotTable := rfl
@[simp] theorem State.modCopy_dirty (s : State) (n : Nat) (f : Copy → Copy) : (s.modCopy n f).dirty = s.dirty := rfl
@[simp] theorem State.modCopy_ports (s : State) (n : Nat) (f : Copy → Copy) : (s.modCopy n f).ports = s.ports := rfl
@[simp] theorem State.modCopy_outputs (s : State) (n : Nat) (f : Copy → Copy) : (s.modCopy n f).outputs = s.outputs := rfl
@[simp] theorem State.modCopy_peerNum (s : State) (n : Nat) (f : Copy → Copy) : (s.modCopy n f).peerNum = s.peerNum := rfl
@[simp] theorem State.modCopy_links (s : State) (n : Nat) (f : Copy → Copy) : (s.modCopy n f).links = s.links := rfl
@[simp] theorem State.modCopy_remotes (s : State) (n : Nat) (f : Copy → Copy) : (s.modCopy n f).remotes = s.remotes := rfl
@[simp] theorem State.modCopy_windows (s : State) (n : Nat) (f : Copy → Copy) : (s.modCopy n f).windows = s.windows := rfl
@[simp] theorem State.modCopy_quotas (s : State) (n : Nat) (f : Copy → Copy) : (s.modCopy n f).quotas = s.quotas := rfl
@[simp] theorem State.modCopy_counters (s : State) (n : Nat) (f : Copy → Copy) : (s.modCopy n f).counters = s.counters := rfl
@[simp] theorem State.modCopy_logBase (s : State) (n : Nat) (f : Copy → Copy) : (s.modCopy n f).logBase = s.logBase := rfl
@[simp] theorem State.modCopy_logSize (s : State) (n : Nat) (f : Copy → Copy) : (s.modCopy n f).logSize = s.logSize := rfl
@[simp] theorem State.modCopy_logIndex (s : State) (n : Nat) (f : Copy → Copy) : (s.modCopy n f).logIndex = s.logIndex := rfl
@[simp] theorem State.modCopy_rowShift (s : State) (n : Nat) (f : Copy → Copy) : (s.modCopy n f).rowShift = s.rowShift := rfl
@[simp] theorem State.modCopy_retiredSlices (s : State) (n : Nat) (f : Copy → Copy) : (s.modCopy n f).retiredSlices = s.retiredSlices := rfl
@[simp] theorem State.modCopy_repairs (s : State) (n : Nat) (f : Copy → Copy) : (s.modCopy n f).repairs = s.repairs := rfl
@[simp] theorem State.modCopy_zeroed (s : State) (n : Nat) (f : Copy → Copy) : (s.modCopy n f).zeroed = s.zeroed := rfl
@[simp] theorem State.modCopy_lent (s : State) (n : Nat) (f : Copy → Copy) : (s.modCopy n f).lent = s.lent := rfl
@[simp] theorem State.modCopy_obs (s : State) (n : Nat) (f : Copy → Copy) : (s.modCopy n f).obs = s.obs := rfl
@[simp] theorem State.modCopy_injections (s : State) (n : Nat) (f : Copy → Copy) : (s.modCopy n f).injections = s.injections := rfl
@[simp] theorem State.modCopy_injected (s : State) (n : Nat) (f : Copy → Copy) : (s.modCopy n f).injected = s.injected := rfl
@[simp] theorem State.modCopy_dbg (s : State) (n : Nat) (f : Copy → Copy) : (s.modCopy n f).dbg = s.dbg := rfl
@[simp] theorem State.modCopy_service (s : State) (n : Nat) (f : Copy → Copy) : (s.modCopy n f).service = s.service := rfl
@[simp] theorem State.modCopy_power (s : State) (n : Nat) (f : Copy → Copy) : (s.modCopy n f).power = s.power := rfl
@[simp] theorem State.modCopy_answer (s : State) (n : Nat) (f : Copy → Copy) : (s.modCopy n f).answer = s.answer := rfl

@[simp] theorem State.modChain_agenda (s : State) (c : Nat) (f : Chain → Chain) : (s.modChain c f).agenda = s.agenda := rfl
@[simp] theorem State.modChain_tick (s : State) (c : Nat) (f : Chain → Chain) : (s.modChain c f).tick = s.tick := rfl
@[simp] theorem State.modChain_phase (s : State) (c : Nat) (f : Chain → Chain) : (s.modChain c f).phase = s.phase := rfl
@[simp] theorem State.modChain_choice (s : State) (c : Nat) (f : Chain → Chain) : (s.modChain c f).choice = s.choice := rfl
@[simp] theorem State.modChain_cyc (s : State) (c : Nat) (f : Chain → Chain) : (s.modChain c f).cyc = s.cyc := rfl
@[simp] theorem State.modChain_inst (s : State) (c : Nat) (f : Chain → Chain) : (s.modChain c f).inst = s.inst := rfl
@[simp] theorem State.modChain_cores (s : State) (c : Nat) (f : Chain → Chain) : (s.modChain c f).cores = s.cores := rfl
@[simp] theorem State.modChain_atolls (s : State) (c : Nat) (f : Chain → Chain) : (s.modChain c f).atolls = s.atolls := rfl
@[simp] theorem State.modChain_dev (s : State) (c : Nat) (f : Chain → Chain) : (s.modChain c f).dev = s.dev := rfl
@[simp] theorem State.modChain_past (s : State) (c : Nat) (f : Chain → Chain) : (s.modChain c f).past = s.past := rfl
@[simp] theorem State.modChain_host (s : State) (c : Nat) (f : Chain → Chain) : (s.modChain c f).host = s.host := rfl
@[simp] theorem State.modChain_narrows (s : State) (c : Nat) (f : Chain → Chain) : (s.modChain c f).narrows = s.narrows := rfl
@[simp] theorem State.modChain_peers (s : State) (c : Nat) (f : Chain → Chain) : (s.modChain c f).peers = s.peers := rfl
@[simp] theorem State.modChain_launches (s : State) (c : Nat) (f : Chain → Chain) : (s.modChain c f).launches = s.launches := rfl
@[simp] theorem State.modChain_launchCount (s : State) (c : Nat) (f : Chain → Chain) : (s.modChain c f).launchCount = s.launchCount := rfl
@[simp] theorem State.modChain_watches (s : State) (c : Nat) (f : Chain → Chain) : (s.modChain c f).watches = s.watches := rfl
@[simp] theorem State.modChain_msgs (s : State) (c : Nat) (f : Chain → Chain) : (s.modChain c f).msgs = s.msgs := rfl
@[simp] theorem State.modChain_slices (s : State) (c : Nat) (f : Chain → Chain) : (s.modChain c f).slices = s.slices := rfl
@[simp] theorem State.modChain_copies (s : State) (c : Nat) (f : Chain → Chain) : (s.modChain c f).copies = s.copies := rfl
@[simp] theorem State.modChain_ferries (s : State) (c : Nat) (f : Chain → Chain) : (s.modChain c f).ferries = s.ferries := rfl
@[simp] theorem State.modChain_servo (s : State) (c : Nat) (f : Chain → Chain) : (s.modChain c f).servo = s.servo := rfl
@[simp] theorem State.modChain_faults (s : State) (c : Nat) (f : Chain → Chain) : (s.modChain c f).faults = s.faults := rfl
@[simp] theorem State.modChain_placements (s : State) (c : Nat) (f : Chain → Chain) : (s.modChain c f).placements = s.placements := rfl
@[simp] theorem State.modChain_queueBase (s : State) (c : Nat) (f : Chain → Chain) : (s.modChain c f).queueBase = s.queueBase := rfl
@[simp] theorem State.modChain_queueCount (s : State) (c : Nat) (f : Chain → Chain) : (s.modChain c f).queueCount = s.queueCount := rfl
@[simp] theorem State.modChain_timeSlices (s : State) (c : Nat) (f : Chain → Chain) : (s.modChain c f).timeSlices = s.timeSlices := rfl
@[simp] theorem State.modChain_queues (s : State) (c : Nat) (f : Chain → Chain) : (s.modChain c f).queues = s.queues := rfl
@[simp] theorem State.modChain_hwSlots (s : State) (c : Nat) (f : Chain → Chain) : (s.modChain c f).hwSlots = s.hwSlots := rfl
@[simp] theorem State.modChain_decrements (s : State) (c : Nat) (f : Chain → Chain) : (s.modChain c f).decrements = s.decrements := rfl
@[simp] theorem State.modChain_ctxBase (s : State) (c : Nat) (f : Chain → Chain) : (s.modChain c f).ctxBase = s.ctxBase := rfl
@[simp] theorem State.modChain_ctxCount (s : State) (c : Nat) (f : Chain → Chain) : (s.modChain c f).ctxCount = s.ctxCount := rfl
@[simp] theorem State.modChain_delay (s : State) (c : Nat) (f : Chain → Chain) : (s.modChain c f).delay = s.delay := rfl
@[simp] theorem State.modChain_cmd (s : State) (c : Nat) (f : Chain → Chain) : (s.modChain c f).cmd = s.cmd := rfl
@[simp] theorem State.modChain_restores (s : State) (c : Nat) (f : Chain → Chain) : (s.modChain c f).restores = s.restores := rfl
@[simp] theorem State.modChain_ctxRegs (s : State) (c : Nat) (f : Chain → Chain) : (s.modChain c f).ctxRegs = s.ctxRegs := rfl
@[simp] theorem State.modChain_slotTable (s : State) (c : Nat) (f : Chain → Chain) : (s.modChain c f).slotTable = s.slotTable := rfl
@[simp] theorem State.modChain_dirty (s : State) (c : Nat) (f : Chain → Chain) : (s.modChain c f).dirty = s.dirty := rfl
@[simp] theorem State.modChain_ports (s : State) (c : Nat) (f : Chain → Chain) : (s.modChain c f).ports = s.ports := rfl
@[simp] theorem State.modChain_outputs (s : State) (c : Nat) (f : Chain → Chain) : (s.modChain c f).outputs = s.outputs := rfl
@[simp] theorem State.modChain_peerNum (s : State) (c : Nat) (f : Chain → Chain) : (s.modChain c f).peerNum = s.peerNum := rfl
@[simp] theorem State.modChain_links (s : State) (c : Nat) (f : Chain → Chain) : (s.modChain c f).links = s.links := rfl
@[simp] theorem State.modChain_remotes (s : State) (c : Nat) (f : Chain → Chain) : (s.modChain c f).remotes = s.remotes := rfl
@[simp] theorem State.modChain_windows (s : State) (c : Nat) (f : Chain → Chain) : (s.modChain c f).windows = s.windows := rfl
@[simp] theorem State.modChain_quotas (s : State) (c : Nat) (f : Chain → Chain) : (s.modChain c f).quotas = s.quotas := rfl
@[simp] theorem State.modChain_counters (s : State) (c : Nat) (f : Chain → Chain) : (s.modChain c f).counters = s.counters := rfl
@[simp] theorem State.modChain_logBase (s : State) (c : Nat) (f : Chain → Chain) : (s.modChain c f).logBase = s.logBase := rfl
@[simp] theorem State.modChain_logSize (s : State) (c : Nat) (f : Chain → Chain) : (s.modChain c f).logSize = s.logSize := rfl
@[simp] theorem State.modChain_logIndex (s : State) (c : Nat) (f : Chain → Chain) : (s.modChain c f).logIndex = s.logIndex := rfl
@[simp] theorem State.modChain_rowShift (s : State) (c : Nat) (f : Chain → Chain) : (s.modChain c f).rowShift = s.rowShift := rfl
@[simp] theorem State.modChain_retiredSlices (s : State) (c : Nat) (f : Chain → Chain) : (s.modChain c f).retiredSlices = s.retiredSlices := rfl
@[simp] theorem State.modChain_repairs (s : State) (c : Nat) (f : Chain → Chain) : (s.modChain c f).repairs = s.repairs := rfl
@[simp] theorem State.modChain_zeroed (s : State) (c : Nat) (f : Chain → Chain) : (s.modChain c f).zeroed = s.zeroed := rfl
@[simp] theorem State.modChain_lent (s : State) (c : Nat) (f : Chain → Chain) : (s.modChain c f).lent = s.lent := rfl
@[simp] theorem State.modChain_obs (s : State) (c : Nat) (f : Chain → Chain) : (s.modChain c f).obs = s.obs := rfl
@[simp] theorem State.modChain_injections (s : State) (c : Nat) (f : Chain → Chain) : (s.modChain c f).injections = s.injections := rfl
@[simp] theorem State.modChain_injected (s : State) (c : Nat) (f : Chain → Chain) : (s.modChain c f).injected = s.injected := rfl
@[simp] theorem State.modChain_dbg (s : State) (c : Nat) (f : Chain → Chain) : (s.modChain c f).dbg = s.dbg := rfl
@[simp] theorem State.modChain_service (s : State) (c : Nat) (f : Chain → Chain) : (s.modChain c f).service = s.service := rfl
@[simp] theorem State.modChain_power (s : State) (c : Nat) (f : Chain → Chain) : (s.modChain c f).power = s.power := rfl
@[simp] theorem State.modChain_answer (s : State) (c : Nat) (f : Chain → Chain) : (s.modChain c f).answer = s.answer := rfl

@[simp] theorem State.modSlot_agenda (s : State) (u : Nat) (f : SlotEntry → SlotEntry) : (s.modSlot u f).agenda = s.agenda := rfl
@[simp] theorem State.modSlot_tick (s : State) (u : Nat) (f : SlotEntry → SlotEntry) : (s.modSlot u f).tick = s.tick := rfl
@[simp] theorem State.modSlot_phase (s : State) (u : Nat) (f : SlotEntry → SlotEntry) : (s.modSlot u f).phase = s.phase := rfl
@[simp] theorem State.modSlot_choice (s : State) (u : Nat) (f : SlotEntry → SlotEntry) : (s.modSlot u f).choice = s.choice := rfl
@[simp] theorem State.modSlot_cyc (s : State) (u : Nat) (f : SlotEntry → SlotEntry) : (s.modSlot u f).cyc = s.cyc := rfl
@[simp] theorem State.modSlot_inst (s : State) (u : Nat) (f : SlotEntry → SlotEntry) : (s.modSlot u f).inst = s.inst := rfl
@[simp] theorem State.modSlot_cores (s : State) (u : Nat) (f : SlotEntry → SlotEntry) : (s.modSlot u f).cores = s.cores := rfl
@[simp] theorem State.modSlot_atolls (s : State) (u : Nat) (f : SlotEntry → SlotEntry) : (s.modSlot u f).atolls = s.atolls := rfl
@[simp] theorem State.modSlot_dev (s : State) (u : Nat) (f : SlotEntry → SlotEntry) : (s.modSlot u f).dev = s.dev := rfl
@[simp] theorem State.modSlot_past (s : State) (u : Nat) (f : SlotEntry → SlotEntry) : (s.modSlot u f).past = s.past := rfl
@[simp] theorem State.modSlot_host (s : State) (u : Nat) (f : SlotEntry → SlotEntry) : (s.modSlot u f).host = s.host := rfl
@[simp] theorem State.modSlot_narrows (s : State) (u : Nat) (f : SlotEntry → SlotEntry) : (s.modSlot u f).narrows = s.narrows := rfl
@[simp] theorem State.modSlot_peers (s : State) (u : Nat) (f : SlotEntry → SlotEntry) : (s.modSlot u f).peers = s.peers := rfl
@[simp] theorem State.modSlot_launches (s : State) (u : Nat) (f : SlotEntry → SlotEntry) : (s.modSlot u f).launches = s.launches := rfl
@[simp] theorem State.modSlot_launchCount (s : State) (u : Nat) (f : SlotEntry → SlotEntry) : (s.modSlot u f).launchCount = s.launchCount := rfl
@[simp] theorem State.modSlot_watches (s : State) (u : Nat) (f : SlotEntry → SlotEntry) : (s.modSlot u f).watches = s.watches := rfl
@[simp] theorem State.modSlot_msgs (s : State) (u : Nat) (f : SlotEntry → SlotEntry) : (s.modSlot u f).msgs = s.msgs := rfl
@[simp] theorem State.modSlot_slices (s : State) (u : Nat) (f : SlotEntry → SlotEntry) : (s.modSlot u f).slices = s.slices := rfl
@[simp] theorem State.modSlot_copies (s : State) (u : Nat) (f : SlotEntry → SlotEntry) : (s.modSlot u f).copies = s.copies := rfl
@[simp] theorem State.modSlot_ferries (s : State) (u : Nat) (f : SlotEntry → SlotEntry) : (s.modSlot u f).ferries = s.ferries := rfl
@[simp] theorem State.modSlot_servo (s : State) (u : Nat) (f : SlotEntry → SlotEntry) : (s.modSlot u f).servo = s.servo := rfl
@[simp] theorem State.modSlot_faults (s : State) (u : Nat) (f : SlotEntry → SlotEntry) : (s.modSlot u f).faults = s.faults := rfl
@[simp] theorem State.modSlot_placements (s : State) (u : Nat) (f : SlotEntry → SlotEntry) : (s.modSlot u f).placements = s.placements := rfl
@[simp] theorem State.modSlot_queueBase (s : State) (u : Nat) (f : SlotEntry → SlotEntry) : (s.modSlot u f).queueBase = s.queueBase := rfl
@[simp] theorem State.modSlot_queueCount (s : State) (u : Nat) (f : SlotEntry → SlotEntry) : (s.modSlot u f).queueCount = s.queueCount := rfl
@[simp] theorem State.modSlot_timeSlices (s : State) (u : Nat) (f : SlotEntry → SlotEntry) : (s.modSlot u f).timeSlices = s.timeSlices := rfl
@[simp] theorem State.modSlot_queues (s : State) (u : Nat) (f : SlotEntry → SlotEntry) : (s.modSlot u f).queues = s.queues := rfl
@[simp] theorem State.modSlot_hwSlots (s : State) (u : Nat) (f : SlotEntry → SlotEntry) : (s.modSlot u f).hwSlots = s.hwSlots := rfl
@[simp] theorem State.modSlot_decrements (s : State) (u : Nat) (f : SlotEntry → SlotEntry) : (s.modSlot u f).decrements = s.decrements := rfl
@[simp] theorem State.modSlot_ctxBase (s : State) (u : Nat) (f : SlotEntry → SlotEntry) : (s.modSlot u f).ctxBase = s.ctxBase := rfl
@[simp] theorem State.modSlot_ctxCount (s : State) (u : Nat) (f : SlotEntry → SlotEntry) : (s.modSlot u f).ctxCount = s.ctxCount := rfl
@[simp] theorem State.modSlot_delay (s : State) (u : Nat) (f : SlotEntry → SlotEntry) : (s.modSlot u f).delay = s.delay := rfl
@[simp] theorem State.modSlot_cmd (s : State) (u : Nat) (f : SlotEntry → SlotEntry) : (s.modSlot u f).cmd = s.cmd := rfl
@[simp] theorem State.modSlot_restores (s : State) (u : Nat) (f : SlotEntry → SlotEntry) : (s.modSlot u f).restores = s.restores := rfl
@[simp] theorem State.modSlot_ctxRegs (s : State) (u : Nat) (f : SlotEntry → SlotEntry) : (s.modSlot u f).ctxRegs = s.ctxRegs := rfl
@[simp] theorem State.modSlot_chains (s : State) (u : Nat) (f : SlotEntry → SlotEntry) : (s.modSlot u f).chains = s.chains := rfl
@[simp] theorem State.modSlot_dirty (s : State) (u : Nat) (f : SlotEntry → SlotEntry) : (s.modSlot u f).dirty = s.dirty := rfl
@[simp] theorem State.modSlot_ports (s : State) (u : Nat) (f : SlotEntry → SlotEntry) : (s.modSlot u f).ports = s.ports := rfl
@[simp] theorem State.modSlot_outputs (s : State) (u : Nat) (f : SlotEntry → SlotEntry) : (s.modSlot u f).outputs = s.outputs := rfl
@[simp] theorem State.modSlot_peerNum (s : State) (u : Nat) (f : SlotEntry → SlotEntry) : (s.modSlot u f).peerNum = s.peerNum := rfl
@[simp] theorem State.modSlot_links (s : State) (u : Nat) (f : SlotEntry → SlotEntry) : (s.modSlot u f).links = s.links := rfl
@[simp] theorem State.modSlot_remotes (s : State) (u : Nat) (f : SlotEntry → SlotEntry) : (s.modSlot u f).remotes = s.remotes := rfl
@[simp] theorem State.modSlot_windows (s : State) (u : Nat) (f : SlotEntry → SlotEntry) : (s.modSlot u f).windows = s.windows := rfl
@[simp] theorem State.modSlot_quotas (s : State) (u : Nat) (f : SlotEntry → SlotEntry) : (s.modSlot u f).quotas = s.quotas := rfl
@[simp] theorem State.modSlot_counters (s : State) (u : Nat) (f : SlotEntry → SlotEntry) : (s.modSlot u f).counters = s.counters := rfl
@[simp] theorem State.modSlot_logBase (s : State) (u : Nat) (f : SlotEntry → SlotEntry) : (s.modSlot u f).logBase = s.logBase := rfl
@[simp] theorem State.modSlot_logSize (s : State) (u : Nat) (f : SlotEntry → SlotEntry) : (s.modSlot u f).logSize = s.logSize := rfl
@[simp] theorem State.modSlot_logIndex (s : State) (u : Nat) (f : SlotEntry → SlotEntry) : (s.modSlot u f).logIndex = s.logIndex := rfl
@[simp] theorem State.modSlot_rowShift (s : State) (u : Nat) (f : SlotEntry → SlotEntry) : (s.modSlot u f).rowShift = s.rowShift := rfl
@[simp] theorem State.modSlot_retiredSlices (s : State) (u : Nat) (f : SlotEntry → SlotEntry) : (s.modSlot u f).retiredSlices = s.retiredSlices := rfl
@[simp] theorem State.modSlot_repairs (s : State) (u : Nat) (f : SlotEntry → SlotEntry) : (s.modSlot u f).repairs = s.repairs := rfl
@[simp] theorem State.modSlot_zeroed (s : State) (u : Nat) (f : SlotEntry → SlotEntry) : (s.modSlot u f).zeroed = s.zeroed := rfl
@[simp] theorem State.modSlot_lent (s : State) (u : Nat) (f : SlotEntry → SlotEntry) : (s.modSlot u f).lent = s.lent := rfl
@[simp] theorem State.modSlot_obs (s : State) (u : Nat) (f : SlotEntry → SlotEntry) : (s.modSlot u f).obs = s.obs := rfl
@[simp] theorem State.modSlot_injections (s : State) (u : Nat) (f : SlotEntry → SlotEntry) : (s.modSlot u f).injections = s.injections := rfl
@[simp] theorem State.modSlot_injected (s : State) (u : Nat) (f : SlotEntry → SlotEntry) : (s.modSlot u f).injected = s.injected := rfl
@[simp] theorem State.modSlot_dbg (s : State) (u : Nat) (f : SlotEntry → SlotEntry) : (s.modSlot u f).dbg = s.dbg := rfl
@[simp] theorem State.modSlot_service (s : State) (u : Nat) (f : SlotEntry → SlotEntry) : (s.modSlot u f).service = s.service := rfl
@[simp] theorem State.modSlot_power (s : State) (u : Nat) (f : SlotEntry → SlotEntry) : (s.modSlot u f).power = s.power := rfl
@[simp] theorem State.modSlot_answer (s : State) (u : Nat) (f : SlotEntry → SlotEntry) : (s.modSlot u f).answer = s.answer := rfl

/-! ### The entry that an update changes -/

@[simp] theorem State.core_setCore_self (s : State) (c : Nat) (x : Core) : (s.setCore c x).core c = x :=
  Tbl.get_set_self _ _ _

theorem State.core_setCore_ne (s : State) {c d : Nat} (x : Core) (h : d ≠ c) : (s.setCore c x).core d = s.core d :=
  Tbl.get_set_ne _ _ h

@[simp] theorem State.core_modCore_self (s : State) (c : Nat) (f : Core → Core) : (s.modCore c f).core c = f (s.core c) :=
  Tbl.get_set_self _ _ _

theorem State.core_modCore_ne (s : State) {c d : Nat} (f : Core → Core) (h : d ≠ c) : (s.modCore c f).core d = s.core d :=
  Tbl.get_set_ne _ _ h

@[simp] theorem State.grp_modGrp_self (s : State) (c g : Nat) (f : Group → Group) : (s.modGrp c g f).grp c g = f (s.grp c g) := by
  simp [State.modGrp, State.grp]

theorem State.grp_modGrp_ne (s : State) (c : Nat) {g h : Nat} (f : Group → Group) (hg : h ≠ g) :
    (s.modGrp c g f).grp c h = s.grp c h := by
  simp [State.modGrp, State.grp, Tbl.get_mod_ne _ _ hg]

@[simp] theorem State.thr_modThr_self (s : State) (c g l : Nat) (f : Thread → Thread) :
    (s.modThr c g l f).thr c g l = f (s.thr c g l) := by
  simp [State.modThr, State.thr]

theorem State.thr_modThr_ne (s : State) (c g : Nat) {l m : Nat} (f : Thread → Thread) (h : m ≠ l) :
    (s.modThr c g l f).thr c g m = s.thr c g m := by
  simp [State.modThr, State.thr, Tbl.get_mod_ne _ _ h]

@[simp] theorem State.wg_modWg_self (s : State) (c w : Nat) (f : Wg → Wg) : (s.modWg c w f).wg c w = f (s.wg c w) := by
  simp [State.modWg, State.wg]

@[simp] theorem State.handle_modHandle_self (s : State) (c h : Nat) (f : Handle → Handle) :
    (s.modHandle c h f).handle c h = f (s.handle c h) := by
  simp [State.modHandle, State.handle]

@[simp] theorem State.launch_modLaunch_self (s : State) (l : Nat) (f : Launch → Launch) :
    (s.modLaunch l f).launch l = f (s.launch l) := Tbl.get_mod_self _ _ _

theorem State.launch_modLaunch_ne (s : State) {l k : Nat} (f : Launch → Launch) (h : k ≠ l) :
    (s.modLaunch l f).launch k = s.launch k := Tbl.get_mod_ne _ _ h

@[simp] theorem State.launch_modCore (s : State) (c : Nat) (f : Core → Core) (l : Nat) :
    (s.modCore c f).launch l = s.launch l := rfl

@[simp] theorem State.chain_modChain_self (s : State) (c : Nat) (f : Chain → Chain) :
    (s.modChain c f).chain c = f (s.chain c) := Tbl.get_mod_self _ _ _

@[simp] theorem State.slotEntry_modSlot_self (s : State) (u : Nat) (f : SlotEntry → SlotEntry) :
    (s.modSlot u f).slotEntry u = f (s.slotEntry u) := Tbl.get_mod_self _ _ _

@[simp] theorem State.copy_modCopy_self (s : State) (n : Nat) (f : Copy → Copy) :
    (s.modCopy n f).copy n = f (s.copy n) := Tbl.get_mod_self _ _ _

end Sys2Proof.Machine
end

