-- ==== Sys2Proof/Laws/Core.lean ====
section
/-! SUPPORT. Masks and lists of lanes, rows of a core, and what the issue-group table leaves alone. -/

namespace Sys2Proof.Machine

/-! ### Masks -/

@[simp] theorem mem_maskList {m n l : Nat} : l ∈ maskList m n ↔ l < n ∧ m.testBit l = true := by
  simp [maskList, List.mem_filter, List.mem_range]

theorem nodup_maskList (m n : Nat) : (maskList m n).Nodup := List.Nodup.filter _ List.nodup_range

theorem testBit_foldl_or (l : List Nat) (m i : Nat) :
    (l.foldl (fun m i => m ||| 2 ^ i) m).testBit i = (m.testBit i || decide (i ∈ l)) := by
  induction l generalizing m with
  | nil => simp
  | cons a l ih =>
    rw [List.foldl_cons, ih, Nat.testBit_lor, Nat.testBit_two_pow]
    by_cases h : a = i
    · simp [h]
    · simp [h, Ne.symm h]

/-- The bits of the mask of a list are its members. -/
@[simp] theorem testBit_listMask (l : List Nat) (i : Nat) : (listMask l).testBit i = decide (i ∈ l) := by
  simp [listMask, testBit_foldl_or]

/-- The lanes of the mask of some lanes below `n` are those lanes. -/
theorem maskList_listMask_filter (q : Nat → Bool) (n : Nat) :
    maskList (listMask ((List.range n).filter q)) n = (List.range n).filter q := by
  unfold maskList
  apply List.filter_congr
  intro x hx
  simp [List.mem_filter, List.mem_range.1 hx]

/-! ### Folds -/

/-- A relation that holds of no step and composes holds along a fold of related steps. -/
theorem foldl_rel {σ β : Type} (R : σ → σ → Prop) (refl : ∀ s, R s s) (trans : ∀ a b c, R a b → R b c → R a c)
    (f : σ → β → σ) (l : List β) (step : ∀ s x, x ∈ l → R s (f s x)) (s : σ) : R s (l.foldl f s) := by
  induction l generalizing s with
  | nil => exact refl s
  | cons x l ih =>
    exact trans _ _ _ (step s x (by simp)) (ih (fun s y hy => step s y (by simp [hy])) _)

/-! ### Tables -/

theorem SameBesideTable.refl (x : Core) : SameBesideTable x x := rfl

theorem SameBesideTable.trans {x y z : Core} (h : SameBesideTable x y) (k : SameBesideTable y z) : SameBesideTable x z := by
  unfold SameBesideTable at *
  rw [← k] at h
  exact h

theorem Core.newEntry_frame (x : Core) (cyc num pc : Nat) (parts : List (Nat × Nat)) :
    SameBesideTable x (x.newEntry cyc num pc parts) := by
  unfold Core.newEntry
  split <;> rfl

theorem Core.enter_frame (x : Core) (cyc num pc : Nat) (parts : List (Nat × Nat)) :
    SameBesideTable x (x.enter cyc num pc parts) := by
  unfold Core.enter
  split
  · rfl
  · split
    · rfl
    · exact Core.newEntry_frame ..

theorem Core.serve_frame (cyc : Nat) (l : List Cohort) (x : Core) : SameBesideTable x (x.serve cyc l) := by
  induction l generalizing x with
  | nil => rfl
  | cons h t ih =>
    unfold Core.serve
    split
    · exact (Core.newEntry_frame ..).trans (ih _)
    · exact SameBesideTable.trans (y := { x with queue := x.queue ++ [h] }) rfl (ih _)

theorem Core.served_frame (x : Core) (cyc : Nat) : SameBesideTable x (x.served cyc) :=
  SameBesideTable.trans (y := { x with queue := [] }) rfl (Core.serve_frame ..)

theorem Core.leave_frame (x : Core) (cyc g m : Nat) : SameBesideTable x (x.leave cyc g m) :=
  SameBesideTable.trans (y := { x with
    table := (x.table.map (fun e => { e with parts := dropLanes g m e.parts })).filter (fun e => !e.parts.isEmpty)
    queue := (x.queue.map (fun h => { h with parts := dropLanes g m h.parts })).filter (fun h => !h.parts.isEmpty) })
    rfl (Core.served_frame ..)

/-- Fields of a core beside the issue-group table. -/
theorem SameBesideTable.grps {x y : Core} (h : SameBesideTable x y) : y.grps = x.grps := by
  have e := congrArg Core.grps (show { y with table := x.table, queue := x.queue, order := x.order } = x from h)
  exact e
theorem SameBesideTable.rows {x y : Core} (h : SameBesideTable x y) : y.rows = x.rows := by
  have e := congrArg Core.rows (show { y with table := x.table, queue := x.queue, order := x.order } = x from h)
  exact e
theorem SameBesideTable.wgs {x y : Core} (h : SameBesideTable x y) : y.wgs = x.wgs := by
  have e := congrArg Core.wgs (show { y with table := x.table, queue := x.queue, order := x.order } = x from h)
  exact e
theorem SameBesideTable.sram {x y : Core} (h : SameBesideTable x y) : y.sram = x.sram := by
  have e := congrArg Core.sram (show { y with table := x.table, queue := x.queue, order := x.order } = x from h)
  exact e
theorem SameBesideTable.gtag {x y : Core} (h : SameBesideTable x y) : y.gtag = x.gtag := by
  have e := congrArg Core.gtag (show { y with table := x.table, queue := x.queue, order := x.order } = x from h)
  exact e
theorem SameBesideTable.flight {x y : Core} (h : SameBesideTable x y) : y.flight = x.flight := by
  have e := congrArg Core.flight (show { y with table := x.table, queue := x.queue, order := x.order } = x from h)
  exact e

theorem SameBesideTable.seq {x y : Core} (h : SameBesideTable x y) : y.seq = x.seq := by
  have e := congrArg Core.seq (show { y with table := x.table, queue := x.queue, order := x.order } = x from h)
  exact e

/-! ### States that differ in their cores -/

theorem SameBesideCores.refl (s : State) : SameBesideCores s s := rfl

theorem SameBesideCores.trans {s t u : State} (h : SameBesideCores s t) (k : SameBesideCores t u) : SameBesideCores s u := by
  unfold SameBesideCores at *
  rw [← k] at h
  exact h

theorem SameBesideCores.modCore (s : State) (c : Nat) (f : Core → Core) : SameBesideCores s (s.modCore c f) := rfl

theorem SameBesideCores.launches {s t : State} (h : SameBesideCores s t) : t.launches = s.launches := by
  have e := congrArg State.launches (show { t with cores := s.cores } = s from h)
  exact e
theorem SameBesideCores.launch {s t : State} (h : SameBesideCores s t) (l : Nat) : t.launch l = s.launch l := by
  unfold State.launch; rw [h.launches]
theorem SameBesideCores.dev {s t : State} (h : SameBesideCores s t) : t.dev = s.dev := by
  have e := congrArg State.dev (show { t with cores := s.cores } = s from h)
  exact e
theorem SameBesideCores.host {s t : State} (h : SameBesideCores s t) : t.host = s.host := by
  have e := congrArg State.host (show { t with cores := s.cores } = s from h)
  exact e
theorem SameBesideCores.narrows {s t : State} (h : SameBesideCores s t) : t.narrows = s.narrows := by
  have e := congrArg State.narrows (show { t with cores := s.cores } = s from h)
  exact e
theorem SameBesideCores.peers {s t : State} (h : SameBesideCores s t) : t.peers = s.peers := by
  have e := congrArg State.peers (show { t with cores := s.cores } = s from h)
  exact e
theorem SameBesideCores.inst {s t : State} (h : SameBesideCores s t) : t.inst = s.inst := by
  have e := congrArg State.inst (show { t with cores := s.cores } = s from h)
  exact e
theorem SameBesideCores.cyc {s t : State} (h : SameBesideCores s t) : t.cyc = s.cyc := by
  have e := congrArg State.cyc (show { t with cores := s.cores } = s from h)
  exact e
theorem SameBesideCores.tick {s t : State} (h : SameBesideCores s t) : t.tick = s.tick := by
  have e := congrArg State.tick (show { t with cores := s.cores } = s from h)
  exact e
theorem SameBesideCores.choice {s t : State} (h : SameBesideCores s t) : t.choice = s.choice := by
  have e := congrArg State.choice (show { t with cores := s.cores } = s from h)
  exact e

/-! ### One group seen from two states -/

/-- Two states show the same of one group: the group itself, its rows, the workgroups of its core and everything beside the cores. -/
structure Agree (s t : State) (c g : Nat) : Prop where
  beside : SameBesideCores s t
  wgs : (t.core c).wgs = (s.core c).wgs
  grp : t.grp c g = s.grp c g
  row : ∀ r, r < 128 → (t.core c).row g r = (s.core c).row g r
  ops : (t.core c).opsOf g = (s.core c).opsOf g

theorem Agree.refl (s : State) (c g : Nat) : Agree s s c g := ⟨rfl, rfl, rfl, fun _ _ => rfl, rfl⟩

theorem Agree.trans {s t u : State} {c g : Nat} (h : Agree s t c g) (k : Agree t u c g) : Agree s u c g :=
  ⟨h.beside.trans k.beside, k.wgs.trans h.wgs, k.grp.trans h.grp, fun r hr => (k.row r hr).trans (h.row r hr),
    k.ops.trans h.ops⟩

theorem Agree.wgOf {s t : State} {c g : Nat} (h : Agree s t c g) : t.wgOf c g = s.wgOf c g := by
  unfold State.wgOf State.wg
  rw [h.grp, h.wgs]

theorem Agree.genOf {s t : State} {c g : Nat} (h : Agree s t c g) : t.genOf c g = s.genOf c g := by
  unfold State.genOf
  rw [h.wgOf]

theorem Agree.launchOf {s t : State} {c g : Nat} (h : Agree s t c g) : t.launchOf c g = s.launchOf c g := by
  unfold State.launchOf
  rw [h.wgOf, h.beside.launch]

theorem Agree.thr {s t : State} {c g : Nat} (h : Agree s t c g) (l : Nat) : t.thr c g l = s.thr c g l := by
  unfold State.thr
  rw [h.grp]

theorem Agree.rdV {s t : State} {c g : Nat} (h : Agree s t c g) {r : Nat} (hr : r < 128) (l : Nat) :
    t.rdV c g r l = s.rdV c g r l := by
  unfold State.rdV Core.lane
  rw [h.genOf, h.row r hr]

/-- Along the parts of an instance, each part finds its group as the instance found it and no later part changes it; a
relation that holds of each part's change holds of the whole. -/
theorem foldl_parts_agree (R : State → State → Prop) (rr : ∀ s, R s s) (rt : ∀ a b d, R a b → R b d → R a d)
    (c : Nat) (body : State → Nat × Nat → State) (parts : List (Nat × Nat)) (hd : (parts.map (·.1)).Nodup) (s : State)
    (step : ∀ a p, p ∈ parts → R s a → Agree s a c p.1 → R a (body a p) ∧ ∀ g, g ≠ p.1 → Agree a (body a p) c g) :
    R s (parts.foldl body s) ∧
      ∀ p ∈ parts, ∃ a, R s a ∧ Agree s a c p.1 ∧ Agree (body a p) (parts.foldl body s) c p.1 := by
  have key : ∀ (l : List (Nat × Nat)) (a : State), R s a → (∀ p ∈ l, p ∈ parts) → (l.map (·.1)).Nodup →
      (∀ p ∈ l, Agree s a c p.1) →
      (∀ p ∈ l, ∃ b, R s b ∧ Agree s b c p.1 ∧ Agree (body b p) (l.foldl body a) c p.1) ∧
      (∀ g, g ∉ l.map (·.1) → Agree a (l.foldl body a) c g) ∧ R a (l.foldl body a) := by
    intro l
    induction l with
    | nil => intro a _ _ _ _; exact ⟨by simp, fun g _ => Agree.refl a c g, rr a⟩
    | cons p l ih =>
      intro a ra hm hn ha
      have hp := step a p (hm p (by simp)) ra (ha p (by simp))
      simp only [List.map_cons, List.nodup_cons] at hn
      have ha' : ∀ q ∈ l, Agree s (body a p) c q.1 := by
        intro q hq
        refine (ha q (by simp [hq])).trans (hp.2 q.1 ?_)
        rintro hqp
        exact hn.1 (List.mem_map.2 ⟨q, hq, hqp⟩)
      obtain ⟨h1, h2, h3⟩ := ih (body a p) (rt _ _ _ ra hp.1) (fun q hq => hm q (by simp [hq])) hn.2 ha'
      refine ⟨?_, ?_, rt _ _ _ hp.1 h3⟩
      · intro q hq
        rcases List.mem_cons.1 hq with rfl | hq
        · exact ⟨a, ra, ha q (by simp), h2 _ hn.1⟩
        · exact h1 q hq
      · intro g hg
        simp only [List.map_cons, List.mem_cons, not_or] at hg
        exact (hp.2 g hg.1).trans (h2 g hg.2)
  obtain ⟨h1, _, h3⟩ := key parts s (rr s) (fun _ h => h) hd (fun p _ => Agree.refl s c p.1)
  exact ⟨h3, h1⟩

end Sys2Proof.Machine
end

