-- ==== Sys2Proof/Laws/Run.lean ====
section
/-! SUPPORT. What a lane word does to the groups of its instance: rows and threads after one write, along the lanes of a
part, and along the parts of the instance. -/

namespace Sys2Proof.Machine

/-! ### One group changed -/

/-- Two states differ at most in one group of a core and in its rows, and in what no word reads of that core. -/
structure OnlyGroup (a b : State) (c g : Nat) : Prop where
  beside : SameBesideCores a b
  wgs : (b.core c).wgs = (a.core c).wgs
  grp : ∀ h, h ≠ g → b.grp c h = a.grp c h
  row : ∀ h r, h ≠ g → r < 128 → (b.core c).row h r = (a.core c).row h r
  ops : ∀ h, h ≠ g → (b.core c).opsOf h = (a.core c).opsOf h

theorem OnlyGroup.refl (a : State) (c g : Nat) : OnlyGroup a a c g :=
  ⟨rfl, rfl, fun _ _ => rfl, fun _ _ _ _ => rfl, fun _ _ => rfl⟩

theorem OnlyGroup.trans {a b d : State} {c g : Nat} (h : OnlyGroup a b c g) (k : OnlyGroup b d c g) : OnlyGroup a d c g :=
  ⟨h.beside.trans k.beside, k.wgs.trans h.wgs, fun x hx => (k.grp x hx).trans (h.grp x hx),
    fun x r hx hr => (k.row x r hx hr).trans (h.row x r hx hr), fun x hx => (k.ops x hx).trans (h.ops x hx)⟩

theorem OnlyGroup.agree {a b : State} {c g h : Nat} (k : OnlyGroup a b c g) (hg : h ≠ g) : Agree a b c h :=
  ⟨k.beside, k.wgs, k.grp h hg, fun r hr => k.row h r hg hr, k.ops h hg⟩

theorem OnlyGroup.modGrp (s : State) (c g : Nat) (f : Group → Group) : OnlyGroup s (s.modGrp c g f) c g where
  beside := rfl
  wgs := by simp [State.modGrp]
  grp h hg := State.grp_modGrp_ne s c f hg
  row h r _ _ := by simp [State.modGrp, Core.row]
  ops h _ := by simp [State.modGrp, Core.opsOf]

theorem rowIndex_inj {g h r q : Nat} (hr : r < 128) (hq : q < 128) : 128 * g + r = 128 * h + q ↔ g = h ∧ r = q := by omega

theorem Core.row_setLane_ne (x : Core) (gen : Gen) {g h r q : Nat} (l : Nat) (w : Word) (hr : r < 128) (hq : q < 128)
    (hn : ¬(h = g ∧ q = r)) : (x.setLane gen g r l w).row h q = x.row h q := by
  have e : 128 * h + q ≠ 128 * g + r := by
    intro e
    exact hn (by omega)
  simp only [Core.setLane, Core.row]
  rw [Tbl.get_mod_ne _ _ e]

theorem Core.row_setLane_self (x : Core) (gen : Gen) (g r l : Nat) (w : Word) :
    (x.setLane gen g r l w).row g r = (x.row g r).write gen l w := by
  simp only [Core.setLane, Core.row, Tbl.get_mod_self]

@[simp] theorem State.grp_wrV (s : State) (c g r l : Nat) (w : Word) (h : Nat) : (s.wrV c g r l w).grp c h = s.grp c h := by
  simp [State.wrV, State.grp, Core.setLane]

@[simp] theorem State.wgs_wrV (s : State) (c g r l : Nat) (w : Word) : ((s.wrV c g r l w).core c).wgs = (s.core c).wgs := by
  simp [State.wrV, Core.setLane]

@[simp] theorem State.thr_wrV (s : State) (c g r l : Nat) (w : Word) (h m : Nat) : (s.wrV c g r l w).thr c h m = s.thr c h m := by
  simp [State.thr]

@[simp] theorem State.genOf_wrV (s : State) (c g r l : Nat) (w : Word) (h : Nat) : (s.wrV c g r l w).genOf c h = s.genOf c h := by
  simp [State.genOf, State.wgOf, State.wg]

theorem OnlyGroup.wrV (s : State) (c g : Nat) {r : Nat} (l : Nat) (w : Word) (hr : r < 128) : OnlyGroup s (s.wrV c g r l w) c g where
  beside := rfl
  wgs := by simp
  grp h _ := by simp
  row h q hg hq := by
    simp only [State.wrV, State.core_modCore_self]
    exact Core.row_setLane_ne _ _ _ _ hr hq (fun e => hg e.1)
  ops h _ := by simp [State.wrV, Core.setLane, Core.opsOf]

/-- A register lane after a write: the new word at its place, the old one anywhere else; a stale row was zero-filled (R54). -/
theorem State.rdV_wrV (s : State) (c g : Nat) {r q : Nat} (l m : Nat) (w : Word) (hr : r < 128) (hq : q < 128) :
    (s.wrV c g r l w).rdV c g q m = if q = r ∧ m = l then w else s.rdV c g q m := by
  by_cases h : q = r
  · subst h
    simp only [State.rdV, State.genOf_wrV, Core.lane]
    simp only [State.wrV, State.core_modCore_self, Core.row_setLane_self, Row.write]
    by_cases ht : ((s.core c).row g q).tag = s.genOf c g
    · by_cases hm : m = l
      · simp [ht, hm]
      · simp [ht, hm, Tbl.get_set_ne]
    · by_cases hm : m = l
      · simp [ht, hm]
      · simp only [ht, if_false, if_true, hm, and_false]
        exact (Tbl.get_set_ne _ _ hm).trans rfl
  · simp only [h, false_and, if_false, State.rdV, State.genOf_wrV, Core.lane]
    simp only [State.wrV, State.core_modCore_self]
    rw [Core.row_setLane_ne _ _ _ _ hr hq (by simp [h])]

theorem State.genOf_modGrp (s : State) (c g : Nat) (f : Group → Group) (hf : ∀ x, (f x).wg = x.wg) (h : Nat) :
    (s.modGrp c g f).genOf c h = s.genOf c h := by
  have hw : ((s.modGrp c g f).core c).wgs = (s.core c).wgs := (OnlyGroup.modGrp s c g f).wgs
  by_cases e : h = g
  · subst e; simp [State.genOf, State.wgOf, State.wg, hw, hf]
  · simp [State.genOf, State.wgOf, State.wg, hw, State.grp_modGrp_ne _ _ _ e]

theorem State.launchOf_modGrp (s : State) (c g : Nat) (f : Group → Group) (hf : ∀ x, (f x).wg = x.wg) (h : Nat) :
    (s.modGrp c g f).launchOf c h = s.launchOf c h := by
  have hw : ((s.modGrp c g f).core c).wgs = (s.core c).wgs := (OnlyGroup.modGrp s c g f).wgs
  by_cases e : h = g
  · subst e; simp [State.launchOf, State.wgOf, State.wg, hw, hf]; rfl
  · simp [State.launchOf, State.wgOf, State.wg, hw, State.grp_modGrp_ne _ _ _ e]; rfl

@[simp] theorem State.row_modGrp (s : State) (c g : Nat) (f : Group → Group) (h r : Nat) :
    ((s.modGrp c g f).core c).row h r = (s.core c).row h r := by simp [State.modGrp, Core.row]

theorem State.rdV_modGrp (s : State) (c g : Nat) (f : Group → Group) (hf : ∀ x, (f x).wg = x.wg) (h r m : Nat) :
    (s.modGrp c g f).rdV c h r m = s.rdV c h r m := by
  simp [State.rdV, Core.lane, State.genOf_modGrp s c g f hf]

@[simp] theorem State.rdV_modThr (s : State) (c g l : Nat) (f : Thread → Thread) (h r m : Nat) :
    (s.modThr c g l f).rdV c h r m = s.rdV c h r m := by
  unfold State.modThr
  rw [State.rdV_modGrp]
  intro x
  rfl

/-! ### Along the lanes of a part -/

/-- What one lane shows after every lane of a list has been given its turn. -/
theorem foldl_obs {α : Type} (obs : State → Nat → α) (G : State → Nat → State) (U : Nat → α → α) :
    ∀ (ls : List Nat), ls.Nodup → (∀ a l, l ∈ ls → obs (G a l) l = U l (obs a l)) →
      (∀ a l m, l ∈ ls → m ≠ l → obs (G a l) m = obs a m) →
      ∀ s m, obs (ls.foldl G s) m = if m ∈ ls then U m (obs s m) else obs s m := by
  intro ls
  induction ls with
  | nil => intros; simp
  | cons l ls ih =>
    intro hn hs ho s m
    rw [List.nodup_cons] at hn
    rw [List.foldl_cons, ih hn.2 (fun a k hk => hs a k (by simp [hk])) (fun a k j hk => ho a k j (by simp [hk]))]
    by_cases hm : m = l
    · subst hm; simp [hn.1, hs s m (by simp)]
    · simp [hm, ho s l m (by simp) hm]

/-- The word that a list of writes leaves in a register. -/
def written (ws : List (Nat × Word)) (r : Nat) (old : Word) : Word := ws.foldl (fun v w => if w.1 = r then w.2 else v) old

theorem written_of_not_mem (ws : List (Nat × Word)) (r : Nat) (old : Word) (h : r ∉ ws.map (·.1)) : written ws r old = old := by
  induction ws generalizing old with
  | nil => rfl
  | cons w ws ih =>
    simp only [List.map_cons, List.mem_cons, not_or] at h
    show written ws r (if w.1 = r then w.2 else old) = old
    rw [if_neg (Ne.symm h.1), ih _ h.2]

theorem written_of_mem (ws : List (Nat × Word)) (hn : (ws.map (·.1)).Nodup) (w : Nat × Word) (hw : w ∈ ws) (old : Word) :
    written ws w.1 old = w.2 := by
  induction ws generalizing old with
  | nil => simp at hw
  | cons x ws ih =>
    simp only [List.map_cons, List.nodup_cons] at hn
    show written ws w.1 (if x.1 = w.1 then x.2 else old) = w.2
    rcases List.mem_cons.1 hw with rfl | hw
    · rw [if_pos rfl]; exact written_of_not_mem _ _ _ hn.1
    · exact ih hn.2 hw _

/-- Words written to one lane of a group. -/
def State.wrList (s : State) (c g l : Nat) (ws : List (Nat × Word)) : State :=
  ws.foldl (fun a w => a.wrV c g w.1 l w.2) s

theorem State.rdV_wrList (c g l : Nat) (ws : List (Nat × Word)) (hk : ∀ w ∈ ws, w.1 < 128) {q : Nat} (hq : q < 128) (m : Nat)
    (s : State) : (s.wrList c g l ws).rdV c g q m = if m = l then written ws q (s.rdV c g q m) else s.rdV c g q m := by
  induction ws generalizing s with
  | nil => simp [State.wrList, written]
  | cons w ws ih =>
    show ((s.wrV c g w.1 l w.2).wrList c g l ws).rdV c g q m = _
    rw [ih (fun x hx => hk x (by simp [hx])), State.rdV_wrV s c g l m w.2 (hk w (by simp)) hq]
    by_cases hm : m = l
    · simp only [hm, and_true, if_true]
      show _ = written ws q (if w.1 = q then w.2 else _)
      by_cases e : q = w.1
      · simp [e]
      · simp [e, Ne.symm e]
    · simp [hm]

theorem State.wrList_keeps {β : Type} (c g l : Nat) (obs : State → β) (h : ∀ s r w, obs (s.wrV c g r l w) = obs s)
    (ws : List (Nat × Word)) (s : State) : obs (s.wrList c g l ws) = obs s := by
  induction ws generalizing s with
  | nil => rfl
  | cons w ws ih => exact (ih _).trans (h _ _ _)

@[simp] theorem State.grp_wrList (s : State) (c g l : Nat) (ws : List (Nat × Word)) (h : Nat) : (s.wrList c g l ws).grp c h = s.grp c h :=
  State.wrList_keeps c g l (fun s => s.grp c h) (fun s r w => State.grp_wrV s c g r l w h) ws s

@[simp] theorem State.thr_wrList (s : State) (c g l : Nat) (ws : List (Nat × Word)) (h m : Nat) :
    (s.wrList c g l ws).thr c h m = s.thr c h m := by simp [State.thr]

/-! ### Threads of a group -/

theorem Tbl.get_foldl_mod {α : Type} [Inhabited α] [DecidableEq α] (f : α → α) (ls : List Nat) (hn : ls.Nodup) (t : Tbl α) (m : Nat) :
    Tbl.get (ls.foldl (fun t l => Tbl.mod t l f) t) m = if m ∈ ls then f (Tbl.get t m) else Tbl.get t m := by
  induction ls generalizing t with
  | nil => simp
  | cons l ls ih =>
    rw [List.nodup_cons] at hn
    rw [List.foldl_cons, ih hn.2]
    by_cases h : m = l
    · subst h; simp [hn.1]
    · simp [h, Tbl.get_mod_ne _ _ h]

/-- A thread of a group whose lanes have been put at a word. -/
theorem State.thr_setPcs (s : State) (c g : Nat) (ls : List Nat) (hn : ls.Nodup) (pc m : Nat) :
    (s.setPcs c g ls pc).thr c g m = if m ∈ ls then { s.thr c g m with pc := pc } else s.thr c g m := by
  unfold State.setPcs State.thr
  rw [State.grp_modGrp_self]
  exact Tbl.get_foldl_mod _ ls hn _ m

/-- A thread of a group after the switch bit (R71). -/
theorem State.thr_switchLanes (s : State) (c g : Nat) (ls : List Nat) (hn : ls.Nodup) (m : Nat) :
    (s.switchLanes c g ls).thr c g m =
      if m ∈ ls then { s.thr c g m with sw := (s.thr c g m).sw || ((s.thr c g m).live && (s.thr c g m).count != 0) }
      else s.thr c g m := by
  unfold State.switchLanes State.thr
  rw [State.grp_modGrp_self]
  exact Tbl.get_foldl_mod _ ls hn _ m

theorem State.thr_ne (s : State) (c g h : Nat) (f : Group → Group) (hg : h ≠ g) (m : Nat) :
    (s.modGrp c g f).thr c h m = s.thr c h m := by simp [State.thr, State.grp_modGrp_ne _ _ _ hg]

/-! ### The frame of a lane word -/

theorem SameBesideTable.agree {s : State} {c : Nat} {x : Core} (h : SameBesideTable (s.core c) x) (g : Nat) :
    Agree s (s.setCore c x) c g where
  beside := rfl
  wgs := by simp [h.wgs]
  grp := by simp [State.grp, h.grps]
  row r _ := by simp [Core.row, h.rows]
  ops := by simp [Core.opsOf, h.flight]

/-- Two states differ at most in the issue-group table of one core. -/
def OnlyTable (c : Nat) (s t : State) : Prop := ∃ x, SameBesideTable (s.core c) x ∧ t = s.setCore c x

theorem OnlyTable.trans {c : Nat} {s t u : State} (h : OnlyTable c s t) (k : OnlyTable c t u) : OnlyTable c s u := by
  obtain ⟨x, hx, rfl⟩ := h
  obtain ⟨y, hy, rfl⟩ := k
  rw [State.core_setCore_self] at hy
  exact ⟨y, hx.trans hy, by simp only [State.setCore, Tbl.set_set]⟩

theorem State.enterAll_table (s : State) (c : Nat) (l : List (Nat × List (Nat × Nat))) (cyc num : Nat) :
    OnlyTable c s (s.modCore c fun x => l.foldl (fun x h => x.enter cyc num h.1 h.2) x) :=
  ⟨_, foldl_rel SameBesideTable SameBesideTable.refl (fun _ _ _ => SameBesideTable.trans) _ _
    (fun x _ _ => Core.enter_frame x _ _ _ _) _, rfl⟩

/-- Lanes that become ready change the issue-group table alone (R227). -/
theorem State.release_table (s : State) (c g m : Nat) : OnlyTable c s (s.release c g m) :=
  ⟨_, foldl_rel SameBesideTable SameBesideTable.refl (fun _ _ _ => SameBesideTable.trans) _ _
    (fun x _ _ => Core.enter_frame x _ _ _ _) _, rfl⟩

/-- So do lanes of several groups that one event makes ready; with no lanes nothing happens (R227). -/
theorem State.releaseAll_table (s : State) (c : Nat) (l : List (Nat × Nat)) : s.releaseAll c l = s ∨ OnlyTable c s (s.releaseAll c l) := by
  unfold State.releaseAll
  split
  · exact .inl rfl
  · exact .inr (State.release_table ..)
  · exact .inr (State.enterAll_table ..)

/-- The cohorts of an instance go on: the issue-group table alone changes (R227). -/
theorem State.goOn_table (s : State) (i : Inst) (hh : i.handler = false) :
    ∃ x, SameBesideTable (s.core i.core) x ∧ s.goOn i = s.setCore i.core x := by
  have fold (l : List (List (Nat × Nat))) (t : State) : ∀ (n : List (Nat × List (Nat × Nat))) (cyc : Nat),
      OnlyTable i.core t ((l.foldl (fun s e => s.releaseAll i.core e) t).modCore i.core
        fun x => n.foldl (fun x h => x.enter cyc i.num h.1 h.2) x) := by
    induction l generalizing t with
    | nil => exact fun n cyc => State.enterAll_table t i.core n cyc i.num
    | cons e l ih =>
      intro n cyc
      rcases State.releaseAll_table t i.core e with h | h
      · rw [List.foldl_cons, h]; exact ih t n cyc
      · exact h.trans (ih _ n cyc)
  unfold State.goOn
  rw [hh]
  exact fold _ s _ _

theorem SameBesidePred.refl (pd : Nat) (u : Thread) : SameBesidePred pd u u := ⟨rfl, fun _ _ => rfl⟩

theorem SameBesidePred.trans {pd : Nat} {u v w : Thread} (h : SameBesidePred pd u v) (k : SameBesidePred pd v w) :
    SameBesidePred pd u w := by
  refine ⟨?_, fun n hn => (k.2 n hn).trans (h.2 n hn)⟩
  have e := h.1
  rw [← k.1] at e
  exact e

/-- Only the predicate named changes, and `p7` discards (R31). -/
theorem Thread.setPred_frame (u : Thread) (pd : Nat) (b : Bool) : SameBesidePred pd u (u.setPred pd b) := by
  unfold Thread.setPred
  split
  · exact SameBesidePred.refl _ _
  · refine ⟨rfl, ?_⟩
    intro k hk
    have e : decide (pd = k) = false := by simp [Ne.symm hk]
    cases b with
    | true => simp only [if_true, BitVec.getLsbD_or, BitVec.getLsbD_twoPow, e, Bool.and_false, Bool.or_false]
    | false =>
      simp only [Bool.false_eq_true, if_false, BitVec.getLsbD_and, BitVec.getLsbD_not, BitVec.getLsbD_twoPow, e, Bool.and_false,
        Bool.not_false, Bool.and_true]
      by_cases h7 : k < 7
      · simp [h7]
      · have hk7 : u.preds.getLsbD k = false := BitVec.getLsbD_of_ge u.preds k (by omega)
        simp [hk7]

/-- A predicate read back: as written, and `p7` reads as true (R31). -/
theorem Thread.pred_setPred (u : Thread) (pd : Fin 8) (b : Bool) : (u.setPred pd b).pred pd = (pd.val == 7 || b) := by
  unfold Thread.setPred Thread.pred
  by_cases h : pd.val = 7
  · simp [h]
  · have h7 : pd.val < 7 := by omega
    cases b <;> simp [h, h7]

theorem LaneFrame.refl (s : State) (i : Inst) (ds : List Nat) (pd : Nat) : LaneFrame s s i ds pd :=
  ⟨rfl, fun _ _ => rfl, rfl, fun _ _ => rfl, fun _ => rfl, fun _ _ => SameBesidePred.refl _ _, fun _ _ _ _ => rfl⟩

theorem SameBesidePc.trans {u v w : Thread} (h : SameBesidePc u v) (k : SameBesidePc v w) : SameBesidePc u w := by
  unfold SameBesidePc at *
  rw [← k] at h
  exact h

theorem LaneFrame.trans {a b d : State} {i : Inst} {ds : List Nat} {pd : Nat} (h : LaneFrame a b i ds pd)
    (k : LaneFrame b d i ds pd) : LaneFrame a d i ds pd where
  beside := h.beside.trans k.beside
  others c hc := (k.others c hc).trans (h.others c hc)
  core := h.core.trans k.core
  outside g hg := (k.outside g hg).trans (h.outside g hg)
  groups g := by
    have e := h.groups g
    rw [← k.groups g] at e
    exact e
  threads g l := (h.threads g l).trans (k.threads g l)
  rows g r ho hr := (k.rows g r ho hr).trans (h.rows g r ho hr)

theorem LaneFrame.setCore {s : State} {i : Inst} {x : Core} (ds : List Nat) (pd : Nat) (h : SameBesideTable (s.core i.core) x) :
    LaneFrame s (s.setCore i.core x) i ds pd where
  beside := rfl
  others c hc := State.core_setCore_ne s x hc
  core := by
    rw [State.core_setCore_self]
    unfold SameBesideTable at *
    rw [← h]
  outside g _ := by simp [State.grp, h.grps]
  groups g := by simp [State.grp, h.grps]
  threads g l := by simp [State.thr, State.grp, h.grps, SameBesidePred.refl]
  rows g r _ _ := by simp [Core.row, h.rows]

theorem LaneFrame.goOn (s : State) (i : Inst) (hh : i.handler = false) (ds : List Nat) (pd : Nat) :
    LaneFrame s (s.goOn i) i ds pd := by
  obtain ⟨x, hx, e⟩ := s.goOn_table i hh
  rw [e]
  exact LaneFrame.setCore ds pd hx

/-- A change to the threads of one group of the instance that leaves all but their word and switch bit. -/
theorem LaneFrame.thr (s : State) (i : Inst) (g : Nat) (hg : g ∈ i.parts.map (·.1)) (ds : List Nat) (pd : Nat)
    (h : Tbl Thread → Tbl Thread) (hh : ∀ t l, SameBesidePred pd (Tbl.get t l) (Tbl.get (h t) l)) :
    LaneFrame s (s.modGrp i.core g fun x => { x with thr := h x.thr }) i ds pd where
  beside := rfl
  others c hc := State.core_modCore_ne s _ hc
  core := by
    unfold State.modGrp
    rw [State.core_modCore_self]
    rfl
  outside k hk := State.grp_modGrp_ne s _ _ (fun e => hk (e ▸ hg))
  groups k := by
    by_cases e : k = g
    · subst e; rw [State.grp_modGrp_self]
    · rw [State.grp_modGrp_ne _ _ _ e]
  threads k l := by
    by_cases e : k = g
    · subst e; unfold State.thr; rw [State.grp_modGrp_self]; exact hh _ _
    · unfold State.thr; rw [State.grp_modGrp_ne _ _ _ e]; exact SameBesidePred.refl _ _
  rows k r _ _ := State.row_modGrp _ _ _ _ _ _

theorem SameBesidePc.toPred {u v : Thread} (pd : Nat) (h : SameBesidePc u v) : SameBesidePred pd u v := by
  have e : v.preds = u.preds := by
    have e := congrArg Thread.preds (show { v with pc := u.pc, sw := u.sw } = u from h)
    exact e
  refine ⟨?_, fun k _ => by rw [e]⟩
  unfold SameBesidePc at h
  rw [← e]
  exact h

theorem LaneFrame.modThr (s : State) (i : Inst) (g : Nat) (hg : g ∈ i.parts.map (·.1)) (ds : List Nat) (pd l : Nat) (b : Bool) :
    LaneFrame s (s.modThr i.core g l fun t => t.setPred pd b) i ds pd :=
  LaneFrame.thr s i g hg ds pd (fun t => Tbl.mod t l fun u => u.setPred pd b) fun t m => by
    by_cases e : m = l
    · subst e; rw [Tbl.get_mod_self]; exact Thread.setPred_frame _ _ _
    · rw [Tbl.get_mod_ne _ _ e]; exact SameBesidePred.refl _ _

theorem foldl_mod_samePc (f : Thread → Thread) (hf : ∀ u, SameBesidePc u (f u)) (ls : List Nat) (t : Tbl Thread) (l : Nat) :
    SameBesidePc (Tbl.get t l) (Tbl.get (ls.foldl (fun t l => Tbl.mod t l f) t) l) := by
  induction ls generalizing t with
  | nil => rfl
  | cons k ls ih =>
    refine SameBesidePc.trans ?_ (ih _)
    by_cases e : l = k
    · subst e; rw [Tbl.get_mod_self]; exact hf _
    · rw [Tbl.get_mod_ne _ _ e]; rfl

theorem LaneFrame.setPcs (s : State) (i : Inst) (g : Nat) (hg : g ∈ i.parts.map (·.1)) (ds : List Nat) (pd : Nat)
    (ls : List Nat) (pc : Nat) : LaneFrame s (s.setPcs i.core g ls pc) i ds pd :=
  LaneFrame.thr s i g hg ds pd _ fun t l => (foldl_mod_samePc (fun u => { u with pc := pc }) (fun _ => rfl) ls t l).toPred pd

theorem LaneFrame.switchLanes (s : State) (i : Inst) (g : Nat) (hg : g ∈ i.parts.map (·.1)) (ds : List Nat) (pd : Nat)
    (ls : List Nat) : LaneFrame s (s.switchLanes i.core g ls) i ds pd :=
  LaneFrame.thr s i g hg ds pd _ fun t l =>
    (foldl_mod_samePc (fun u => { u with sw := u.sw || (u.live && u.count != 0) }) (fun _ => rfl) ls t l).toPred pd

theorem LaneFrame.wrV (s : State) (i : Inst) (g : Nat) (hg : g ∈ i.parts.map (·.1)) (ds : List Nat) (pd : Nat) {r : Nat} (hr : r ∈ ds)
    (h128 : r < 128) (l : Nat) (w : Word) : LaneFrame s (s.wrV i.core g r l w) i ds pd where
  beside := rfl
  others c hc := State.core_modCore_ne s _ hc
  core := by
    unfold State.wrV
    rw [State.core_modCore_self]
    rfl
  outside k _ := by simp
  groups k := by simp
  threads k l := by simp [SameBesidePred.refl]
  rows k q ho hq := by
    simp only [State.wrV, State.core_modCore_self]
    refine Core.row_setLane_ne _ _ _ _ h128 hq ?_
    rintro ⟨rfl, rfl⟩
    rcases ho with ho | ho
    · exact ho hg
    · exact ho hr

/-! ### A lane word runs -/

theorem Agree.inv {s a : State} {c g : Nat} (h : Agree s a c g) : a.grp c g = s.grp c g := h.grp

/-- A lane word that goes on in every part answers a next state; each part has found its group as the instance found
it, and the result shows what the part left; a relation that holds of each piece holds of the whole (R128, R227). -/
theorem runLane_spec (R : State → State → Prop) (rr : ∀ s, R s s) (rt : ∀ a b d, R a b → R b d → R a d)
    (sw : Bool) (guard : Nat) (s : State) (i : Inst) (f : State → Part → LaneOut) (hr : s.running i) (hh : i.handler = false)
    (rgo : ∀ a, R a (a.goOn i)) (rpc : ∀ p ∈ i.parts, ∀ a, R a (a.ahead i p))
    (rsw : ∀ p ∈ i.parts, ∀ a, R a (a.switchLanes i.core p.1 (maskList p.2 64)))
    (ok : ∀ p ∈ i.parts, ∀ a, R s a → Agree s a i.core p.1 → ∃ b, f (a.ahead i p) (i.part s guard p) = .ok b ∧
      R (a.ahead i p) b ∧ OnlyGroup (a.ahead i p) b i.core p.1) :
    ∃ t, runLane sw guard s f = .next t ∧ R s t ∧ ∀ p ∈ i.parts, ∃ a b, R s a ∧ Agree s a i.core p.1 ∧
      f (a.ahead i p) (i.part s guard p) = .ok b ∧
      Agree (if sw then b.switchLanes i.core p.1 (maskList p.2 64) else b) t i.core p.1 := by
  obtain ⟨hi, hn, hg⟩ := hr
  have body : ∀ p ∈ i.parts, ∀ a b, Agree s a i.core p.1 → f (a.ahead i p) (i.part s guard p) = .ok b →
      lanePart sw guard i f a p = if sw then b.switchLanes i.core p.1 (maskList p.2 64) else b := by
    intro p hp a b ha hb
    unfold lanePart
    have hu : (a.grp i.core p.1).used = true := by rw [ha.grp]; exact (hg p hp).1
    simp only [hu, hh, Bool.not_true, if_false, Bool.false_eq_true]
    have e : f (a.setPcs i.core p.1 (maskList p.2 64) i.after)
        { core := i.core, slot := p.1, lanes := p.2, exec := (a.grp i.core p.1).guarded guard p.2, inst := i } = .ok b := by
      rw [ha.grp]; exact hb
    rw [e]
  have main := foldl_parts_agree R rr rt i.core (lanePart sw guard i f) i.parts hn s (by
    intro a p hp ra ha
    obtain ⟨b, hb, rb, ob⟩ := ok p hp a ra ha
    have o1 : OnlyGroup a (a.ahead i p) i.core p.1 := OnlyGroup.modGrp _ _ _ _
    rw [body p hp a b ha hb]
    cases sw with
    | false =>
      simp only [Bool.false_eq_true, if_false]
      exact ⟨rt _ _ _ (rpc p hp a) rb, fun g hne => (o1.trans ob).agree hne⟩
    | true =>
      simp only [if_true]
      exact ⟨rt _ _ _ (rt _ _ _ (rpc p hp a) rb) (rsw p hp b),
        fun g hne => ((o1.trans ob).trans (OnlyGroup.modGrp _ _ _ _)).agree hne⟩)
  refine ⟨(i.parts.foldl (lanePart sw guard i f) s).goOn i, ?_, rt _ _ _ main.1 (rgo _), ?_⟩
  · unfold runLane; rw [hi]
  · intro p hp
    obtain ⟨a, ra, ha, hb⟩ := main.2 p hp
    obtain ⟨b, hb', _, _⟩ := ok p hp a ra ha
    refine ⟨a, b, ra, ha, hb', ?_⟩
    rw [body p hp a b ha hb'] at hb
    obtain ⟨x, hx, e⟩ := State.goOn_table (i.parts.foldl (lanePart sw guard i f) s) i hh
    rw [e]
    exact hb.trans (hx.agree _)

/-! ### Checks -/

/-- Operand registers within the allocation: no bound trap (R68 step 5). -/
theorem Group.bounds_none (g : Group) (regs : List (Bool × Nat × Nat))
    (h : ∀ r ∈ regs, r.2.1 + r.2.2 ≤ if r.1 then g.vregs else g.sregs) : g.bounds regs = none := by
  induction regs with
  | nil => rfl
  | cons r regs ih =>
    obtain ⟨v, a, n⟩ := r
    have h1 := h (v, a, n) (by simp)
    have ih' := ih fun r hr => h r (by simp [hr])
    cases v <;> simp_all [Group.bounds, boundTrap]

/-- Source rows that are current, or a launch that did not choose the trap: no stale-read trap (R52). -/
theorem State.staleRow_none (s : State) (c g : Nat) (srcs : List Nat)
    (h : (s.launchOf c g).lr.staleTrap = false ∨ ∀ r ∈ srcs, ((s.core c).row g r).tag = s.genOf c g) :
    s.staleRow c g srcs = none := by
  unfold State.staleRow
  rcases h with h | h
  · simp [h]
  · have : srcs.filter (fun r => ((s.core c).row g r).tag != s.genOf c g) = [] := by
      simp only [List.filter_eq_nil_iff]
      intro r hr
      simp [h r hr]
    simp only [this]
    split <;> rfl

/-- What the word finds ahead of the threads is what the instance found, but for their word. -/
theorem State.ahead_grp (a : State) (i : Inst) (p : Nat × Nat) :
    ∃ t, (a.ahead i p).grp i.core p.1 = { a.grp i.core p.1 with thr := t } := ⟨_, State.grp_modGrp_self _ _ _ _⟩

theorem State.ahead_genOf (a : State) (i : Inst) (p : Nat × Nat) : (a.ahead i p).genOf i.core p.1 = a.genOf i.core p.1 := by
  unfold State.ahead State.setPcs
  rw [State.genOf_modGrp]
  intro x
  rfl

theorem State.ahead_launchOf (a : State) (i : Inst) (p : Nat × Nat) : (a.ahead i p).launchOf i.core p.1 = a.launchOf i.core p.1 := by
  unfold State.ahead State.setPcs
  rw [State.launchOf_modGrp]
  intro x
  rfl

theorem State.ahead_row (a : State) (i : Inst) (p : Nat × Nat) (h r : Nat) :
    ((a.ahead i p).core i.core).row h r = (a.core i.core).row h r := State.row_modGrp _ _ _ _ _ _

theorem State.ahead_rdV (a : State) (i : Inst) (p : Nat × Nat) (h r l : Nat) :
    (a.ahead i p).rdV i.core h r l = a.rdV i.core h r l := by
  unfold State.ahead State.setPcs
  rw [State.rdV_modGrp]
  intro x
  rfl

/-- A part whose operands are ready passes the checks of a lane word. -/
theorem State.laneChecks_none {s a : State} {i : Inst} {p : Nat × Nat} (guard : Nat) (regs : List (Bool × Nat × Nat)) (srcs : List Nat)
    (ha : Agree s a i.core p.1)
    (hb : ∀ r ∈ regs, r.2.1 + r.2.2 ≤ if r.1 then (s.grp i.core p.1).vregs else (s.grp i.core p.1).sregs)
    (h128 : ∀ r ∈ srcs, r < 128)
    (hs : (s.launchOf i.core p.1).lr.staleTrap = false ∨ ∀ r ∈ srcs, ((s.core i.core).row p.1 r).tag = s.genOf i.core p.1) :
    (a.ahead i p).laneChecks (i.part s guard p) regs srcs = none := by
  unfold State.laneChecks Inst.part
  obtain ⟨t, ht⟩ := a.ahead_grp i p
  have e1 : ((a.ahead i p).grp i.core p.1).bounds regs = none := by
    rw [ht, ha.grp]
    exact Group.bounds_none _ _ hb
  have e2 : (a.ahead i p).staleRow i.core p.1 srcs = none := by
    apply State.staleRow_none
    rw [a.ahead_launchOf, ha.launchOf, a.ahead_genOf, ha.genOf]
    refine hs.imp id fun h r hr => ?_
    rw [a.ahead_row, ha.row r (h128 r hr)]
    exact h r hr
  simp only [e1, State.staleLane, e2, Option.map_none, ite_self]

/-! ### Executing lanes -/

theorem mem_guarded {G : Group} {guard m l : Nat} :
    l ∈ maskList (G.guarded guard m) 64 ↔ l < 64 ∧ m.testBit l = true ∧ (Tbl.get G.thr l).pred guard = true := by
  unfold Group.guarded
  simp only [mem_maskList, testBit_listMask, List.mem_filter, decide_eq_true_eq]
  tauto

/-- The executing lanes of a part are those present whose guard holds (R73). -/
theorem Inst.mem_lanesL {i : Inst} {s : State} {guard : Nat} {p : Nat × Nat} {l : Nat} :
    l ∈ (i.part s guard p).lanesL ↔ s.executes i p guard l = true := by
  unfold State.executes
  rw [Bool.and_eq_true, Bool.and_eq_true, decide_eq_true_eq, and_assoc]
  exact mem_guarded

theorem Inst.nodup_lanesL (i : Inst) (s : State) (guard : Nat) (p : Nat × Nat) : (i.part s guard p).lanesL.Nodup :=
  nodup_maskList _ _

/-! ### Computing words -/

theorem LaneFrame.wrList {i : Inst} {g : Nat} (hg : g ∈ i.parts.map (·.1)) {ds : List Nat} (pd l : Nat) (ws : List (Nat × Word))
    (h : ∀ w ∈ ws, w.1 ∈ ds ∧ w.1 < 128) (s : State) : LaneFrame s (s.wrList i.core g l ws) i ds pd := by
  induction ws generalizing s with
  | nil => exact LaneFrame.refl _ _ _ _
  | cons w ws ih =>
    exact (LaneFrame.wrV s i g hg ds pd (h w (by simp)).1 (h w (by simp)).2 l w.2).trans (ih (fun x hx => h x (by simp [hx])) _)

theorem OnlyGroup.wrList {c g : Nat} (l : Nat) (ws : List (Nat × Word)) (h : ∀ w ∈ ws, w.1 < 128) (s : State) :
    OnlyGroup s (s.wrList c g l ws) c g := by
  induction ws generalizing s with
  | nil => exact OnlyGroup.refl _ _ _
  | cons w ws ih => exact (OnlyGroup.wrV s c g l w.2 (h w (by simp))).trans (ih (fun x hx => h x (by simp [hx])) _)

/-- Words written to every lane of a list. -/
def State.wrLanes (s : State) (c g : Nat) (ls : List Nat) (ws : Nat → List (Nat × Word)) : State :=
  ls.foldl (fun a l => a.wrList c g l (ws l)) s

/-- A register after the writes of several lanes. -/
theorem State.rdV_wrLanes (s : State) (c g : Nat) (ls : List Nat) (hn : ls.Nodup) (ws : Nat → List (Nat × Word))
    (hk : ∀ l, ∀ w ∈ ws l, w.1 < 128) {q : Nat} (hq : q < 128) (m : Nat) :
    (s.wrLanes c g ls ws).rdV c g q m = if m ∈ ls then written (ws m) q (s.rdV c g q m) else s.rdV c g q m := by
  refine foldl_obs (fun a m => a.rdV c g q m) (fun a l => a.wrList c g l (ws l)) (fun l v => written (ws l) q v) ls hn ?_ ?_ s m
  · intro a l _
    simp only [State.rdV_wrList c g l (ws l) (hk l) hq l a, if_true]
  · intro a l m _ hm
    simp only [State.rdV_wrList c g l (ws l) (hk l) hq m a, hm, if_false]

@[simp] theorem State.grp_wrLanes (s : State) (c g : Nat) (ls : List Nat) (ws : Nat → List (Nat × Word)) (h : Nat) :
    (s.wrLanes c g ls ws).grp c h = s.grp c h := by
  induction ls generalizing s with
  | nil => rfl
  | cons l ls ih => exact (ih _).trans (State.grp_wrList _ _ _ _ _ _)

theorem LaneFrame.wrLanes {i : Inst} {g : Nat} (hg : g ∈ i.parts.map (·.1)) {ds : List Nat} (pd : Nat) (ls : List Nat)
    (ws : Nat → List (Nat × Word)) (h : ∀ l, ∀ w ∈ ws l, w.1 ∈ ds ∧ w.1 < 128) (s : State) :
    LaneFrame s (s.wrLanes i.core g ls ws) i ds pd :=
  foldl_rel (fun a b => LaneFrame a b i ds pd) (fun a => LaneFrame.refl a i ds pd) (fun _ _ _ => LaneFrame.trans) _ _
    (fun a l _ => LaneFrame.wrList hg pd l (ws l) (h l) a) _

theorem OnlyGroup.wrLanes {c g : Nat} (ls : List Nat) (ws : Nat → List (Nat × Word)) (h : ∀ l, ∀ w ∈ ws l, w.1 < 128) (s : State) :
    OnlyGroup s (s.wrLanes c g ls ws) c g :=
  foldl_rel (fun a b => OnlyGroup a b c g) (fun a => OnlyGroup.refl a c g) (fun _ _ _ => OnlyGroup.trans) _ _
    (fun a l _ => OnlyGroup.wrList l (ws l) (h l) a) _

/-- A thread present in a part after the word: at the next word, whatever the switch bit has done. -/
theorem State.pc_ahead_switch (a b : State) (i : Inst) (p : Nat × Nat) (sw : Bool) (l : Nat) (hl : l < 64)
    (hp : p.2.testBit l = true) (hb : (b.thr i.core p.1 l).pc = ((a.ahead i p).thr i.core p.1 l).pc) :
    ((if sw then b.switchLanes i.core p.1 (maskList p.2 64) else b).thr i.core p.1 l).pc = i.after := by
  have e : ((a.ahead i p).thr i.core p.1 l).pc = i.after := by
    unfold State.ahead
    rw [State.thr_setPcs _ _ _ _ (nodup_maskList _ _)]
    simp [hl, hp]
  cases sw with
  | false => simpa [hb] using e
  | true =>
    simp only [if_true]
    rw [State.thr_switchLanes _ _ _ _ (nodup_maskList _ _)]
    split <;> simpa [hb] using e

theorem State.rdV_switch (b : State) (i : Inst) (p : Nat × Nat) (sw : Bool) (r l : Nat) :
    (if sw then b.switchLanes i.core p.1 (maskList p.2 64) else b).rdV i.core p.1 r l = b.rdV i.core p.1 r l := by
  cases sw with
  | false => rfl
  | true =>
    simp only [if_true]
    unfold State.switchLanes
    rw [State.rdV_modGrp]
    intro x
    rfl

/-- A lane word that writes registers, from a body that each part answers with writes to its executing lanes; the words
may depend on anything that the part shows (R94, R128). -/
theorem runLane_writes (sw : Bool) (guard : Nat) (s : State) (i : Inst) (f : State → Part → LaneOut) (ds : List Nat)
    (val : Nat × Nat → Nat → List (Nat × Word)) (hr : s.running i) (hh : i.handler = false)
    (hv : ∀ p ∈ i.parts, ∀ l, (val p l).map (·.1) = ds) (hd : ds.Nodup)
    (h128 : ∀ p ∈ i.parts, ∀ r ∈ ds, r < 128)
    (hf : ∀ p ∈ i.parts, ∀ a, Agree s a i.core p.1 → f (a.ahead i p) (i.part s guard p) =
      .ok ((a.ahead i p).wrLanes i.core p.1 (i.part s guard p).lanesL (val p))) :
    ∃ t, runLane sw guard s f = .next t ∧ LaneResult s t i guard ds val := by
  have hin : ∀ p ∈ i.parts, ∀ l, ∀ w ∈ val p l, w.1 ∈ ds ∧ w.1 < 128 := by
    intro p hp l w hw
    have : w.1 ∈ ds := by rw [← hv p hp l]; exact List.mem_map_of_mem hw
    exact ⟨this, h128 p hp _ this⟩
  have mem : ∀ p ∈ i.parts, p.1 ∈ i.parts.map (·.1) := fun p hp => List.mem_map_of_mem hp
  obtain ⟨t, ht, hR, hp⟩ := runLane_spec (fun a b => LaneFrame a b i ds 7) (fun a => LaneFrame.refl a i ds 7)
    (fun _ _ _ => LaneFrame.trans) sw guard s i f hr hh (fun a => LaneFrame.goOn a i hh ds 7)
    (fun p hp a => LaneFrame.setPcs a i p.1 (mem p hp) ds 7 _ _) (fun p hp a => LaneFrame.switchLanes a i p.1 (mem p hp) ds 7 _)
    (fun p hp a _ ha => ⟨_, hf p hp a ha, LaneFrame.wrLanes (mem p hp) 7 _ _ (hin p hp) _,
      OnlyGroup.wrLanes _ _ (fun l w hw => (hin p hp l w hw).2) _⟩)
  refine ⟨t, ht, hR, ?_, ?_, ?_⟩
  · intro p hpp l hl hpl
    obtain ⟨a, b, _, ha, hb, hbt⟩ := hp p hpp
    rw [hf p hpp a ha] at hb
    injection hb with hb
    rw [hbt.thr l]
    refine State.pc_ahead_switch a b i p sw l hl hpl ?_
    subst hb
    simp [State.thr]
  · intro p hpp l hx w hw
    obtain ⟨a, b, _, ha, hb, hbt⟩ := hp p hpp
    rw [hf p hpp a ha] at hb
    injection hb with hb
    rw [hbt.rdV (hin p hpp l w hw).2, State.rdV_switch, ← hb,
      State.rdV_wrLanes _ _ _ _ (Inst.nodup_lanesL _ _ _ _) _ (fun l w hw => (hin p hpp l w hw).2) (hin p hpp l w hw).2,
      if_pos (Inst.mem_lanesL.2 hx)]
    exact written_of_mem _ (by rw [hv p hpp l]; exact hd) w hw _
  · intro p hpp l r hx hr
    obtain ⟨a, b, _, ha, hb, hbt⟩ := hp p hpp
    rw [hf p hpp a ha] at hb
    injection hb with hb
    rw [hbt.rdV hr, State.rdV_switch, ← hb,
      State.rdV_wrLanes _ _ _ _ (Inst.nodup_lanesL _ _ _ _) _ (fun l w hw => (hin p hpp l w hw).2) hr,
      if_neg (fun h => hx (Inst.mem_lanesL.1 h)), State.ahead_rdV, ha.rdV hr]

/-- A computing lane word on ready operands (R94): its result. -/
theorem laneFn_spec (c : LaneCtl) (s : State) (i : Inst) (regs : List (Nat × Nat)) (srcs ds : List Nat)
    (f : (Nat → Word) → List (Nat × Word)) (hr : s.running i) (hh : i.handler = false)
    (hready : ∀ p ∈ i.parts, s.laneReady i p.1 regs srcs)
    (hds : ∀ rd, (f rd).map (·.1) = ds) (hd : ds.Nodup)
    (hin : ∀ r ∈ ds ++ srcs, ∃ e ∈ regs, e.1 ≤ r ∧ r < e.1 + e.2)
    (hext : ∀ rd rd', (∀ r ∈ srcs, rd r = rd' r) → f rd = f rd') :
    ∃ t, laneFn c s regs srcs f = .next t ∧
      LaneResult s t i c.g.val ds fun p l => f fun r => s.rdV i.core p.1 r l := by
  have h128 : ∀ p ∈ i.parts, ∀ r ∈ ds ++ srcs, r < 128 := by
    intro p hp r hrr
    obtain ⟨e, he, _, h2⟩ := hin r hrr
    have := (hready p hp).1 e he
    have := (hr.2.2 p hp).2
    omega
  refine runLane_writes c.sw c.g.val s i _ ds _ hr hh (fun p _ l => hds _) hd
    (fun p hp r hrr => h128 p hp r (by simp [hrr])) ?_
  intro p hp a ha
  have hc := State.laneChecks_none (s := s) (a := a) (i := i) (p := p) c.g.val (regs.map fun r => (true, r.1, r.2)) srcs ha
    (by
      intro r hrr
      obtain ⟨e, he, rfl⟩ := List.mem_map.1 hrr
      simpa using (hready p hp).1 e he)
    (fun r hrr => h128 p hp r (by simp [hrr])) (hready p hp).2
  simp only [hc]
  congr 1
  unfold State.wrLanes State.wrList
  congr 1
  funext b l
  congr 1
  apply hext
  intro r hrr
  have e := a.ahead_rdV i p p.1 r l
  rw [ha.rdV (h128 p hp r (by simp [hrr]))] at e
  exact e

end Sys2Proof.Machine
end

