-- ==== Sys2Proof/Laws/Pred.lean ====
section
/-! SUPPORT. What a lane word does that writes one predicate of each executing thread. -/

namespace Sys2Proof.Machine

/-- A predicate written to every lane of a list. -/
def State.predLanes (s : State) (c g pd : Nat) (ls : List Nat) (val : Nat → Bool) : State :=
  ls.foldl (fun a l => a.modThr c g l fun t => t.setPred pd (val l)) s

theorem State.thr_predLanes (s : State) (c g pd : Nat) (ls : List Nat) (hn : ls.Nodup) (val : Nat → Bool) (m : Nat) :
    (s.predLanes c g pd ls val).thr c g m = if m ∈ ls then (s.thr c g m).setPred pd (val m) else s.thr c g m :=
  foldl_obs (fun a m => a.thr c g m) (fun a l => a.modThr c g l fun t => t.setPred pd (val l))
    (fun l t => t.setPred pd (val l)) ls hn (fun a l _ => State.thr_modThr_self a c g l _)
    (fun a _ _ _ hm => State.thr_modThr_ne a c g _ hm) s m

/-- A lane word that writes one predicate, from a body that each part answers with writes to its executing lanes. -/
theorem runLane_preds (sw : Bool) (guard : Nat) (s : State) (i : Inst) (f : State → Part → LaneOut) (pd : Fin 8)
    (val : Nat × Nat → Nat → Bool) (hr : s.running i) (hh : i.handler = false)
    (hf : ∀ p ∈ i.parts, ∀ a, Agree s a i.core p.1 → f (a.ahead i p) (i.part s guard p) =
      .ok ((a.ahead i p).predLanes i.core p.1 pd (i.part s guard p).lanesL (val p))) :
    ∃ t, runLane sw guard s f = .next t ∧ PredResult s t i guard pd val := by
  have mem : ∀ p ∈ i.parts, p.1 ∈ i.parts.map (·.1) := fun p hp => List.mem_map_of_mem hp
  obtain ⟨t, ht, hR, hp⟩ := runLane_spec (fun a b => LaneFrame a b i [] pd) (fun a => LaneFrame.refl a i [] pd)
    (fun _ _ _ => LaneFrame.trans) sw guard s i f hr hh (fun a => LaneFrame.goOn a i hh [] pd)
    (fun p hp a => LaneFrame.setPcs a i p.1 (mem p hp) [] pd _ _) (fun p hp a => LaneFrame.switchLanes a i p.1 (mem p hp) [] pd _)
    (fun p hp a _ ha => ⟨_, hf p hp a ha,
      foldl_rel (fun a b => LaneFrame a b i [] pd) (fun a => LaneFrame.refl a i [] pd) (fun _ _ _ => LaneFrame.trans) _ _
        (fun a l _ => LaneFrame.modThr a i p.1 (mem p hp) [] pd l _) _,
      foldl_rel (fun a b => OnlyGroup a b i.core p.1) (fun a => OnlyGroup.refl a _ _) (fun _ _ _ => OnlyGroup.trans) _ _
        (fun a l _ => OnlyGroup.modGrp a _ _ _) _⟩)
  have swp : ∀ (b : State) (p : Nat × Nat) l,
      ((if sw then b.switchLanes i.core p.1 (maskList p.2 64) else b).thr i.core p.1 l).preds = (b.thr i.core p.1 l).preds := by
    intro b p l
    cases sw with
    | false => rfl
    | true =>
      simp only [if_true, State.thr_switchLanes _ _ _ _ (nodup_maskList _ _)]
      split <;> rfl
  have ahp : ∀ (a : State) (p : Nat × Nat) l, ((a.ahead i p).thr i.core p.1 l).preds = (a.thr i.core p.1 l).preds := by
    intro a p l
    simp only [State.ahead, State.thr_setPcs _ _ _ _ (nodup_maskList _ _)]
    split <;> rfl
  refine ⟨t, ht, hR, ?_, ?_, ?_⟩
  · intro p hpp l hl hpl
    obtain ⟨a, b, _, ha, hb, hbt⟩ := hp p hpp
    rw [hf p hpp a ha] at hb
    injection hb with hb
    rw [hbt.thr l]
    refine State.pc_ahead_switch a b i p sw l hl hpl ?_
    rw [← hb, State.thr_predLanes _ _ _ _ _ (Inst.nodup_lanesL _ _ _ _)]
    split
    · unfold Thread.setPred; split <;> rfl
    · rfl
  · intro p hpp l hx
    obtain ⟨a, b, _, ha, hb, hbt⟩ := hp p hpp
    rw [hf p hpp a ha] at hb
    injection hb with hb
    have e : (t.thr i.core p.1 l).pred pd = (b.thr i.core p.1 l).pred pd := by
      unfold Thread.pred; rw [hbt.thr l, swp]
    rw [e, ← hb, State.thr_predLanes _ _ _ _ _ (Inst.nodup_lanesL _ _ _ _), if_pos (Inst.mem_lanesL.2 hx)]
    exact Thread.pred_setPred _ _ _
  · intro p hpp l hx
    obtain ⟨a, b, _, ha, hb, hbt⟩ := hp p hpp
    rw [hf p hpp a ha] at hb
    injection hb with hb
    rw [hbt.thr l, swp, ← hb, State.thr_predLanes _ _ _ _ _ (Inst.nodup_lanesL _ _ _ _),
      if_neg (fun h => hx (Inst.mem_lanesL.1 h)), ahp, ha.thr]

/-- A lane word that computes one predicate on ready operands (R102, R110): its result. -/
theorem lanePred_spec (c : LaneCtl) (s : State) (i : Inst) (pd : Fin 8) (regs : List Nat) (f : (Nat → Word) → Bool)
    (hr : s.running i) (hh : i.handler = false)
    (hready : ∀ p ∈ i.parts, s.laneReady i p.1 (regs.map fun r => (r, 1)) regs)
    (hext : ∀ rd rd', (∀ r ∈ regs, rd r = rd' r) → f rd = f rd') :
    ∃ t, lanePred c s pd regs f = .next t ∧ PredResult s t i c.g.val pd fun p l => f fun r => s.rdV i.core p.1 r l := by
  have h128 : ∀ p ∈ i.parts, ∀ r ∈ regs, r < 128 := by
    intro p hp r hrr
    have := (hready p hp).1 (r, 1) (List.mem_map.2 ⟨r, hrr, rfl⟩)
    have := (hr.2.2 p hp).2
    simp only at *
    omega
  refine runLane_preds c.sw c.g.val s i _ pd _ hr hh ?_
  intro p hp a ha
  have hc := State.laneChecks_none (s := s) (a := a) (i := i) (p := p) c.g.val (regs.map fun r => (true, r, 1)) regs ha
    (by
      intro r hrr
      obtain ⟨e, he, rfl⟩ := List.mem_map.1 hrr
      simpa using (hready p hp).1 (e, 1) (List.mem_map.2 ⟨e, he, rfl⟩))
    (fun r hrr => h128 p hp r hrr) (hready p hp).2
  simp only [hc]
  congr 1
  unfold State.predLanes
  congr 1
  funext b l
  have e : (f fun r => (a.ahead i p).rdV i.core p.1 r l) = f fun r => s.rdV i.core p.1 r l := by
    apply hext
    intro r hrr
    rw [a.ahead_rdV i p p.1 r l, ha.rdV (h128 p hp r hrr)]
  show (b.modThr i.core p.1 l fun t => t.setPred pd (f fun r => (a.ahead i p).rdV i.core p.1 r l)) = _
  rw [e]

end Sys2Proof.Machine
end

