-- ==== Sys2Proof/Laws/Scalar.lean ====
section
/-! SUPPORT. What a uniform word does to the groups of its instance. -/

namespace Sys2Proof.Machine

/-! ### A uniform word runs -/

theorem OnlyGroup.table {s : State} {c : Nat} {x : Core} (h : SameBesideTable (s.core c) x) (g : Nat) :
    OnlyGroup s (s.setCore c x) c g where
  beside := rfl
  wgs := by simp [h.wgs]
  grp k _ := by simp [State.grp, h.grps]
  row k r _ _ := by simp [Core.row, h.rows]
  ops k _ := by simp [Core.opsOf, h.flight]

theorem State.leaveAll_table (s : State) (c g : Nat) :
    ∃ x, SameBesideTable (s.core c) x ∧ s.leaveAll c g = s.setCore c x := ⟨_, Core.leave_frame _ _ _ _, rfl⟩

theorem OnlyGroup.leaveAll (s : State) (c g : Nat) : OnlyGroup s (s.leaveAll c g) c g := by
  obtain ⟨x, hx, e⟩ := s.leaveAll_table c g
  rw [e]; exact OnlyGroup.table hx g

theorem OnlyGroup.advance (s : State) (i : Inst) (p : Nat × Nat) (pc : Nat) : OnlyGroup s (s.advance i p pc) i.core p.1 := by
  unfold State.advance
  split
  · exact OnlyGroup.modGrp _ _ _ _
  · exact OnlyGroup.modGrp _ _ _ _

theorem OnlyGroup.uniEnd (s : State) (i : Inst) (p : Nat × Nat) (sw : Bool) (pc : Nat) :
    OnlyGroup s (s.uniEnd i p sw pc) i.core p.1 := by
  unfold State.uniEnd
  split
  · exact ((OnlyGroup.advance s i p pc).trans (OnlyGroup.modGrp _ _ _ _)).trans (OnlyGroup.leaveAll _ _ _)
  · exact OnlyGroup.advance s i p pc

theorem State.goOn_agree (s : State) (i : Inst) (g : Nat) : Agree s (s.goOn i) i.core g := by
  by_cases h : i.handler = true
  · unfold State.goOn; rw [h]; exact Agree.refl _ _ _
  · obtain ⟨x, hx, e⟩ := s.goOn_table i (by simpa using h)
    rw [e]; exact hx.agree g

/-- A uniform word that goes on in every part answers a next state (R162). -/
theorem runUniform_spec (R : State → State → Prop) (rr : ∀ s, R s s) (rt : ∀ a b d, R a b → R b d → R a d)
    (sw : Bool) (s : State) (i : Inst) (f : State → Part → UniOut) (hr : s.running i)
    (rgo : ∀ a, R a (a.goOn i)) (rend : ∀ p ∈ i.parts, ∀ a pc, R a (a.uniEnd i p sw pc))
    (ok : ∀ p ∈ i.parts, ∀ a, R s a → Agree s a i.core p.1 → ∃ b pc, f a (i.upart p) = .ok b pc ∧ R a b ∧ OnlyGroup a b i.core p.1) :
    ∃ t, runUniform sw s f = .next t ∧ R s t ∧ ∀ p ∈ i.parts, ∃ a b pc, R s a ∧ Agree s a i.core p.1 ∧
      f a (i.upart p) = .ok b pc ∧ Agree (b.uniEnd i p sw pc) t i.core p.1 := by
  obtain ⟨hi, hn, hg⟩ := hr
  have body : ∀ p ∈ i.parts, ∀ a b pc, Agree s a i.core p.1 → f a (i.upart p) = .ok b pc →
      uniformPart sw i f a p = b.uniEnd i p sw pc := by
    intro p hp a b pc ha hb
    unfold uniformPart
    have hu : (a.grp i.core p.1).used = true := by rw [ha.grp]; exact (hg p hp).1
    simp only [hu, Bool.not_true, if_false, Bool.false_eq_true]
    have e : f a { core := i.core, slot := p.1, lanes := p.2, exec := p.2, inst := i } = .ok b pc := hb
    rw [e]
    rfl
  have main := foldl_parts_agree R rr rt i.core (uniformPart sw i f) i.parts hn s (by
    intro a p hp ra ha
    obtain ⟨b, pc, hb, rb, ob⟩ := ok p hp a ra ha
    rw [body p hp a b pc ha hb]
    exact ⟨rt _ _ _ rb (rend p hp b pc), fun g hne => (ob.trans (OnlyGroup.uniEnd b i p sw pc)).agree hne⟩)
  refine ⟨(i.parts.foldl (uniformPart sw i f) s).goOn i, ?_, rt _ _ _ main.1 (rgo _), ?_⟩
  · unfold runUniform; rw [hi]
  · intro p hp
    obtain ⟨a, ra, ha, hb⟩ := main.2 p hp
    obtain ⟨b, pc, hb', _, _⟩ := ok p hp a ra ha
    refine ⟨a, b, pc, ra, ha, hb', ?_⟩
    rw [body p hp a b pc ha hb'] at hb
    exact hb.trans (State.goOn_agree _ i _)

/-! ### The frame of a uniform word -/

theorem ScalarFrame.refl (s : State) (i : Inst) (ds : List Nat) (qd : Nat) : ScalarFrame s s i ds qd :=
  ⟨rfl, fun _ _ => rfl, rfl, fun _ _ => rfl, fun _ => rfl, fun _ _ => rfl, fun _ _ _ => rfl, fun _ _ _ => rfl⟩

theorem ScalarFrame.trans {a b d : State} {i : Inst} {ds : List Nat} {qd : Nat} (h : ScalarFrame a b i ds qd)
    (k : ScalarFrame b d i ds qd) : ScalarFrame a d i ds qd where
  beside := h.beside.trans k.beside
  others c hc := (k.others c hc).trans (h.others c hc)
  core := h.core.trans k.core
  outside g hg := (k.outside g hg).trans (h.outside g hg)
  groups g := by
    have e := h.groups g
    rw [← k.groups g] at e
    exact e
  threads g l := by
    have e := h.threads g l
    rw [← k.threads g l] at e
    exact e
  sregs g r hr := (k.sregs g r hr).trans (h.sregs g r hr)
  qpreds g n hn := (k.qpreds g n hn).trans (h.qpreds g n hn)

theorem ScalarFrame.setCore {s : State} {i : Inst} {x : Core} (ds : List Nat) (qd : Nat)
    (h : SameBesideTable (s.core i.core) x) : ScalarFrame s (s.setCore i.core x) i ds qd where
  beside := rfl
  others c hc := State.core_setCore_ne s x hc
  core := by
    rw [State.core_setCore_self]
    unfold SameBesideTable at *
    rw [← h]
  outside g _ := by simp [State.grp, h.grps]
  groups g := by simp [State.grp, h.grps]
  threads g l := by simp [State.thr, State.grp, h.grps]
  sregs g r _ := by simp [State.grp, h.grps]
  qpreds g r _ := by simp [State.grp, h.grps]

theorem ScalarFrame.goOn (s : State) (i : Inst) (ds : List Nat) (qd : Nat) : ScalarFrame s (s.goOn i) i ds qd := by
  by_cases h : i.handler = true
  · unfold State.goOn; rw [h]; exact ScalarFrame.refl _ _ _ _
  · obtain ⟨x, hx, e⟩ := s.goOn_table i (by simpa using h)
    rw [e]; exact ScalarFrame.setCore ds qd hx

/-- A change to one group of the instance that keeps to the frame. -/
theorem ScalarFrame.modGrp (s : State) (i : Inst) (g : Nat) (hg : g ∈ i.parts.map (·.1)) (ds : List Nat) (qd : Nat)
    (f : Group → Group)
    (h1 : ∀ x : Group, { f x with s := x.s, q := x.q, thr := x.thr, usw := x.usw, handler := x.handler } = x)
    (h2 : ∀ (x : Group) (l : Nat), { Tbl.get (f x).thr l with pc := (Tbl.get x.thr l).pc } = Tbl.get x.thr l)
    (h3 : ∀ (x : Group) (r : Nat), r ∉ ds → (f x).sreg r = x.sreg r)
    (h4 : ∀ (x : Group) (k : Nat), k ≠ qd → (f x).q.getLsbD k = x.q.getLsbD k) :
    ScalarFrame s (s.modGrp i.core g f) i ds qd where
  beside := rfl
  others c hc := State.core_modCore_ne s _ hc
  core := by
    unfold State.modGrp
    rw [State.core_modCore_self]
    rfl
  outside k hk := State.grp_modGrp_ne s _ _ (fun e => hk (e ▸ hg))
  groups k := by
    by_cases e : k = g
    · subst e; rw [State.grp_modGrp_self]; exact h1 _
    · rw [State.grp_modGrp_ne _ _ _ e]
  threads k l := by
    by_cases e : k = g
    · subst e; unfold State.thr; rw [State.grp_modGrp_self]; exact h2 _ _
    · unfold State.thr; rw [State.grp_modGrp_ne _ _ _ e]
  sregs k r hr := by
    by_cases e : k = g
    · subst e; rw [State.grp_modGrp_self]; exact h3 _ _ hr
    · rw [State.grp_modGrp_ne _ _ _ e]
  qpreds k n hn := by
    by_cases e : k = g
    · subst e; rw [State.grp_modGrp_self]; exact h4 _ _ hn
    · rw [State.grp_modGrp_ne _ _ _ e]

theorem foldl_mod_pc (pc : Nat) (ls : List Nat) (t : Tbl Thread) (l : Nat) :
    { Tbl.get (ls.foldl (fun t l => Tbl.mod t l fun u => { u with pc := pc }) t) l with pc := (Tbl.get t l).pc } = Tbl.get t l := by
  induction ls generalizing t with
  | nil => rfl
  | cons k ls ih =>
    rw [List.foldl_cons]
    have e := ih (Tbl.mod t k fun u => { u with pc := pc })
    by_cases hk : l = k
    · subst hk
      rw [Tbl.get_mod_self] at e
      have e2 := congrArg (fun u : Thread => { u with pc := (Tbl.get t l).pc }) e
      exact e2
    · rw [Tbl.get_mod_ne _ _ hk] at e; exact e

theorem ScalarFrame.advance (s : State) (i : Inst) (p : Nat × Nat) (hp : p ∈ i.parts) (ds : List Nat) (qd : Nat) (pc : Nat) :
    ScalarFrame s (s.advance i p pc) i ds qd := by
  have hg : p.1 ∈ i.parts.map (·.1) := List.mem_map_of_mem hp
  unfold State.advance
  split
  · exact ScalarFrame.modGrp s i p.1 hg ds qd _ (fun _ => rfl) (fun _ _ => rfl) (fun _ _ _ => rfl) (fun _ _ _ => rfl)
  · exact ScalarFrame.modGrp s i p.1 hg ds qd _ (fun _ => rfl) (fun _ _ => foldl_mod_pc _ _ _ _) (fun _ _ _ => rfl)
      (fun _ _ _ => rfl)

theorem ScalarFrame.uniEnd (s : State) (i : Inst) (p : Nat × Nat) (hp : p ∈ i.parts) (ds : List Nat) (qd : Nat) (sw : Bool)
    (pc : Nat) : ScalarFrame s (s.uniEnd i p sw pc) i ds qd := by
  have hg : p.1 ∈ i.parts.map (·.1) := List.mem_map_of_mem hp
  unfold State.uniEnd
  split
  · refine (ScalarFrame.advance s i p hp ds qd pc).trans (ScalarFrame.trans (ScalarFrame.modGrp _ i p.1 hg ds qd
      (fun x => { x with usw := true }) (fun _ => rfl) (fun _ _ => rfl) (fun _ _ _ => rfl) (fun _ _ _ => rfl)) ?_)
    obtain ⟨x, hx, e⟩ := State.leaveAll_table ((s.advance i p pc).modGrp i.core p.1 fun x => { x with usw := true }) i.core p.1
    rw [e]; exact ScalarFrame.setCore ds qd hx
  · exact ScalarFrame.advance s i p hp ds qd pc

/-! ### What a group shows after a uniform word -/

/-- What shows of a group beside its threads, its switch and its handler does not change at the end of the word. -/
theorem State.grp_uniEnd {β : Type} (obs : Group → β)
    (ho : ∀ (x : Group) (t : Tbl Thread) (u : Bool) (h : Option Handler), obs { x with thr := t, usw := u, handler := h } = obs x)
    (b : State) (i : Inst) (p : Nat × Nat) (sw : Bool) (pc : Nat) :
    obs ((b.uniEnd i p sw pc).grp i.core p.1) = obs (b.grp i.core p.1) := by
  have h1 : obs ((b.advance i p pc).grp i.core p.1) = obs (b.grp i.core p.1) := by
    unfold State.advance State.setPcs
    split
    · rw [State.grp_modGrp_self]; exact ho (b.grp i.core p.1) _ _ _
    · rw [State.grp_modGrp_self]; exact ho (b.grp i.core p.1) _ _ _
  unfold State.uniEnd
  split
  · obtain ⟨x, hx, e⟩ := State.leaveAll_table ((b.advance i p pc).modGrp i.core p.1 fun x => { x with usw := true }) i.core p.1
    rw [e, (hx.agree p.1).grp, State.grp_modGrp_self]
    exact (ho ((b.advance i p pc).grp i.core p.1) _ _ _).trans h1
  · exact h1

theorem State.thr_advance (b : State) (i : Inst) (p : Nat × Nat) (pc l : Nat) (hh : i.handler = false) (hl : l < 64)
    (hp : p.2.testBit l = true) : ((b.advance i p pc).thr i.core p.1 l).pc = pc := by
  unfold State.advance
  rw [hh]
  simp only [Bool.false_eq_true, if_false]
  rw [State.thr_setPcs _ _ _ _ (nodup_maskList _ _)]
  simp [hl, hp]

/-- The threads or the handler of a part after a uniform word (R163, R186). -/
theorem State.moved_uniEnd {s a b t : State} {i : Inst} {p : Nat × Nat} {sw : Bool} {pc : Nat}
    (ha : Agree s a i.core p.1) (hb : (b.grp i.core p.1).handler = (a.grp i.core p.1).handler)
    (hbt : Agree (b.uniEnd i p sw pc) t i.core p.1) : s.movedTo t i p pc := by
  have eh : (t.grp i.core p.1).handler = ((b.advance i p pc).grp i.core p.1).handler ∧
      ∀ l, t.thr i.core p.1 l = (b.advance i p pc).thr i.core p.1 l := by
    have e0 : ((b.uniEnd i p sw pc).grp i.core p.1).handler = ((b.advance i p pc).grp i.core p.1).handler ∧
        ((b.uniEnd i p sw pc).grp i.core p.1).thr = ((b.advance i p pc).grp i.core p.1).thr := by
      unfold State.uniEnd
      split
      · obtain ⟨x, hx, e⟩ := State.leaveAll_table ((b.advance i p pc).modGrp i.core p.1 fun x => { x with usw := true }) i.core p.1
        rw [e, (hx.agree p.1).grp, State.grp_modGrp_self]
        exact ⟨rfl, rfl⟩
      · exact ⟨rfl, rfl⟩
    refine ⟨by rw [hbt.grp]; exact e0.1, fun l => ?_⟩
    unfold State.thr
    rw [hbt.grp, e0.2]
  unfold State.movedTo
  by_cases h : i.handler = true
  · rw [if_pos h, eh.1]
    unfold State.advance
    rw [if_pos h, State.grp_modGrp_self]
    simp only [hb, ha.grp]
  · rw [if_neg h, eh.1]
    have h' : i.handler = false := by simpa using h
    constructor
    · unfold State.advance
      rw [if_neg h]
      unfold State.setPcs
      rw [State.grp_modGrp_self]
      simp only [hb, ha.grp]
    · intro l hl hp
      rw [eh.2 l]
      exact State.thr_advance b i p pc l h' hl hp

/-! ### Scalar words -/

/-- Words written to uniform registers of a group. -/
def Group.setWords (g : Group) (ws : List (Nat × Word)) : Group := ws.foldl (fun g w => g.setS w.1 w.2) g

theorem Group.sreg_setS (g : Group) (n m : Nat) (w : Word) : (g.setS n w).sreg m = if m = n then w else g.sreg m := by
  simp [Group.setS, Group.sreg, Tbl.get_set]

theorem Group.sreg_setWords (ws : List (Nat × Word)) (g : Group) (m : Nat) :
    (g.setWords ws).sreg m = written ws m (g.sreg m) := by
  induction ws generalizing g with
  | nil => rfl
  | cons w ws ih =>
    show ((g.setS w.1 w.2).setWords ws).sreg m = written ws m (if w.1 = m then w.2 else g.sreg m)
    rw [ih, Group.sreg_setS]
    by_cases e : m = w.1
    · simp [e]
    · simp [e, Ne.symm e]

theorem Group.setWords_rest (ws : List (Nat × Word)) (g : Group) : { g.setWords ws with s := g.s } = g := by
  induction ws generalizing g with
  | nil => rfl
  | cons w ws ih =>
    have e := ih (g.setS w.1 w.2)
    have e2 := congrArg (fun x : Group => { x with s := g.s }) e
    exact e2

/-- A scalar word on registers of the allocation (R166): its result. -/
theorem scalar_spec (sw : Bool) (s : State) (i : Inst) (regs : List (Nat × Nat)) (f : Group → Group) (ds : List Nat)
    (val : Group → List (Nat × Word)) (hr : s.running i) (hready : ∀ p ∈ i.parts, s.scalarReady i p.1 regs)
    (hf : ∀ g, f g = g.setWords (val g)) (hv : ∀ g, (val g).map (·.1) = ds) (hd : ds.Nodup) :
    ∃ t, scalar sw s regs f = .next t ∧ ScalarResult s t i ds val := by
  have hmem : ∀ g w, w ∈ val g → w.1 ∈ ds := fun g w hw => by rw [← hv g]; exact List.mem_map_of_mem hw
  have fr : ∀ p ∈ i.parts, ∀ a : State, ScalarFrame a (a.modGrp i.core p.1 f) i ds 7 := by
    intro p hp a
    have key : ∀ x : Group, ({ f x with s := x.s } : Group) = x := fun x => by rw [hf x]; exact Group.setWords_rest _ _
    refine ScalarFrame.modGrp a i p.1 (List.mem_map_of_mem hp) ds 7 f ?_ ?_ ?_ ?_
    · intro x
      have e := congrArg (fun y : Group => { y with q := x.q, thr := x.thr, usw := x.usw, handler := x.handler }) (key x)
      exact e
    · intro x l
      have e : (f x).thr = x.thr := by
        have e := congrArg Group.thr (key x)
        exact e
      rw [e]
    · intro x r hr
      rw [hf x, Group.sreg_setWords, written_of_not_mem]
      rw [hv x]; exact hr
    · intro x k _
      have e : (f x).q = x.q := by
        have e := congrArg Group.q (key x)
        exact e
      rw [e]
  obtain ⟨t, ht, hR, hp⟩ := runUniform_spec (fun a b => ScalarFrame a b i ds 7) (fun a => ScalarFrame.refl a i ds 7)
    (fun _ _ _ => ScalarFrame.trans) sw s i
    (fun s p => match (s.grp p.core p.slot).bounds (regs.map fun r => (false, r.1, r.2)) with
      | some t => .trap t
      | none => .ok (s.modGrp p.core p.slot f) p.inst.after) hr
    (fun a => ScalarFrame.goOn a i ds 7) (fun p hp a pc => ScalarFrame.uniEnd a i p hp ds 7 sw pc)
    (fun p hp a _ ha => by
      refine ⟨a.modGrp i.core p.1 f, i.after, ?_, fr p hp a, OnlyGroup.modGrp _ _ _ _⟩
      have hb : (a.grp i.core p.1).bounds (regs.map fun r => (false, r.1, r.2)) = none := by
        rw [ha.grp]
        refine Group.bounds_none _ _ fun r hrr => ?_
        obtain ⟨e, he, rfl⟩ := List.mem_map.1 hrr
        simpa using hready p hp e he
      show (match (a.grp i.core p.1).bounds (regs.map fun r => (false, r.1, r.2)) with
        | some t => UniOut.trap t
        | none => UniOut.ok (a.modGrp i.core p.1 f) i.after) = _
      rw [hb])
  have fin : ∀ p ∈ i.parts, ∃ a, Agree s a i.core p.1 ∧ Agree ((a.modGrp i.core p.1 f).uniEnd i p sw i.after) t i.core p.1 := by
    intro p hpp
    obtain ⟨a, b, pc, _, ha, hb, hbt⟩ := hp p hpp
    have hbn : (a.grp i.core p.1).bounds (regs.map fun r => (false, r.1, r.2)) = none := by
      rw [ha.grp]
      refine Group.bounds_none _ _ fun r hrr => ?_
      obtain ⟨e, he, rfl⟩ := List.mem_map.1 hrr
      simpa using hready p hpp e he
    have hb' : (match (a.grp i.core p.1).bounds (regs.map fun r => (false, r.1, r.2)) with
        | some t => UniOut.trap t
        | none => UniOut.ok (a.modGrp i.core p.1 f) i.after) = .ok b pc := hb
    rw [hbn] at hb'
    injection hb' with h1 h2
    subst h1 h2
    exact ⟨a, ha, hbt⟩
  refine ⟨t, ht, hR, ?_, ?_⟩
  · intro p hpp
    obtain ⟨a, ha, hbt⟩ := fin p hpp
    refine State.moved_uniEnd ha ?_ hbt
    rw [State.grp_modGrp_self, hf]
    have e := congrArg Group.handler (Group.setWords_rest (val (a.grp i.core p.1)) (a.grp i.core p.1))
    exact e
  · intro p hpp w hw
    obtain ⟨a, ha, hbt⟩ := fin p hpp
    rw [hbt.grp, State.grp_uniEnd (fun g => g.sreg w.1) (fun _ _ _ _ => rfl), State.grp_modGrp_self, ha.grp, hf,
      Group.sreg_setWords]
    exact written_of_mem _ (by rw [hv]; exact hd) w hw _

end Sys2Proof.Machine
end

