-- ==== Sys2Proof/Laws/Lane.lean ====
section
/-! SUPPORT. Computing words by the shared operation that each meaning calls. -/

namespace Sys2Proof.Machine

/-- A meaning that is `laneFn` computes what its function gives. -/
theorem LaneComputes.of_laneFn {e : Instr} {c : LaneCtl} {regs : List (Nat × Nat)} {srcs ds : List Nat}
    {f : (Nat → Word) → List (Nat × Word)} (f' : (Nat → Word) → List (Nat × Word))
    (he : ∀ s, exec e s = laneFn c s regs srcs f') (hf : ∀ rd, f' rd = f rd)
    (hds : ∀ rd, (f rd).map (·.1) = ds) (hd : ds.Nodup) (hin : ∀ r ∈ ds ++ srcs, ∃ e ∈ regs, e.1 ≤ r ∧ r < e.1 + e.2)
    (hext : ∀ rd rd', (∀ r ∈ srcs, rd r = rd' r) → f rd = f rd') : LaneComputes e c.g.val regs srcs ds f := by
  have e' : f' = f := funext hf
  subst e'
  intro s i hr hh hready
  rw [he]
  exact laneFn_spec c s i regs srcs ds f' hr hh hready hds hd hin hext

/-- A meaning that is `int2` computes its function of two words. -/
theorem LaneComputes2.of_int2 {e : LaneCtl → VReg → VReg → VReg → Instr} (f : Word → Word → Word) {g : Word → Word → Word}
    (he : ∀ c vd va vb s, exec (e c vd va vb) s = int2 c vd va vb f s) (hfg : ∀ a b, f a b = g a b) : LaneComputes2 e g := by
  intro c vd va vb
  refine LaneComputes.of_laneFn (fun rd => [(vd.val, f (rd va) (rd vb))]) (he c vd va vb) (fun rd => by rw [hfg]) (fun _ => rfl)
    (by simp) ?_ ?_
  · intro r h; simp at h; rcases h with rfl | rfl | rfl <;> simp
  · intro rd rd' h; simp [h]

/-- The words of a pair depend on a number modulo 2^64. -/
theorem putPair_mod (r x : Nat) : putPair r (x % 2 ^ 64) = putPair r x := by
  unfold putPair
  have e1 : BitVec.ofNat 32 (x % 2 ^ 64) = BitVec.ofNat 32 x := by apply BitVec.eq_of_toNat_eq; simp
  have e2 : BitVec.ofNat 32 (x % 2 ^ 64 / 2 ^ 32) = BitVec.ofNat 32 (x / 2 ^ 32) := by apply BitVec.eq_of_toNat_eq; simp; omega
  rw [e1, e2]

/-- A two-operand meaning on pairs computes its function of two numbers. -/
theorem LaneComputesPairs.of_laneFn {e : LaneCtl → VReg → VReg → VReg → Instr} (f : Nat → Nat → Nat) {g : Nat → Nat → Nat}
    (he : ∀ c vd va vb s, exec (e c vd va vb) s = laneFn c s [(vd, 2), (va, 2), (vb, 2)] [va, va.val + 1, vb, vb.val + 1]
      fun rd => putPair vd (f (pairOf rd va) (pairOf rd vb)))
    (hfg : ∀ a b, f a b % 2 ^ 64 = g a b % 2 ^ 64) : LaneComputesPairs e g := by
  intro c vd va vb
  refine LaneComputes.of_laneFn (fun rd => putPair vd (f (pairOf rd va) (pairOf rd vb))) (he c vd va vb)
    (fun rd => by rw [← putPair_mod, hfg, putPair_mod]) (fun _ => rfl) (by simp) ?_ ?_
  · intro r h; simp at h; rcases h with rfl | rfl | rfl | rfl | rfl | rfl <;> simp
  · intro rd rd' h; simp [pairOf, h]

/-- A meaning that is `lanePred` decides what its function gives. -/
theorem LaneDecides.of_lanePred {e : Instr} {c : LaneCtl} {pd : PReg} {srcs : List Nat} {f : (Nat → Word) → Bool}
    (f' : (Nat → Word) → Bool) (he : ∀ s, exec e s = lanePred c s pd srcs f') (hf : ∀ rd, f' rd = f rd)
    (hext : ∀ rd rd', (∀ r ∈ srcs, rd r = rd' r) → f rd = f rd') : LaneDecides e c.g.val pd srcs f := by
  have e' : f' = f := funext hf
  subst e'
  intro s i hr hh hready
  rw [he]
  exact lanePred_spec c s i pd srcs f' hr hh hready hext

/-- A meaning that is `scalar` computes what its function of the group gives. -/
theorem ScalarComputes.of_scalar {e : Instr} {regs : List (Nat × Nat)} {ds : List Nat} {val : Group → List (Nat × Word)}
    (sw : Bool) (f : Group → Group) (he : ∀ s, exec e s = scalar sw s regs f)
    (hf : ∀ g, f g = g.setWords (val g)) (hv : ∀ g, (val g).map (·.1) = ds) (hd : ds.Nodup) : ScalarComputes e regs ds val := by
  intro s i hr hready
  rw [he]
  exact scalar_spec sw s i regs f ds val hr hready hf hv hd

/-- A meaning that is `scalar2` computes its function of two words. -/
theorem ScalarComputes2.of_scalar2 {e : Bool → SReg → SReg → SReg → Instr} (f : Word → Word → Word) {g : Word → Word → Word}
    (he : ∀ sw sd sa sb s, exec (e sw sd sa sb) s = scalar2 sw sd sa sb f s) (hfg : ∀ a b, f a b = g a b) : ScalarComputes2 e g := by
  intro sw sd sa sb
  exact ScalarComputes.of_scalar sw _ (he sw sd sa sb) (fun G => by simp [Group.setWords, hfg]) (fun _ => rfl) (by simp)

end Sys2Proof.Machine
end

