-- ==== Sys2Proof/Laws/Cross.lean ====
section
/-! SUPPORT. Lane words whose result takes more than the thread's own sources: selections, uniform operands, cross-lane
words and conversions. -/

namespace Sys2Proof.Machine

theorem LaneFrame.predLanes {i : Inst} {g : Nat} (hg : g ∈ i.parts.map (·.1)) (ds : List Nat) (pd : Nat) (ls : List Nat)
    (val : Nat → Bool) (s : State) : LaneFrame s (s.predLanes i.core g pd ls val) i ds pd :=
  foldl_rel (fun a b => LaneFrame a b i ds pd) (fun a => LaneFrame.refl a i ds pd) (fun _ _ _ => LaneFrame.trans) _ _
    (fun a l _ => LaneFrame.modThr a i g hg ds pd l _) _

theorem State.wgOf_modGrp (s : State) (c g : Nat) (f : Group → Group) (hf : ∀ x, (f x).wg = x.wg) (h : Nat) :
    (s.modGrp c g f).wgOf c h = s.wgOf c h := by
  have hw : ((s.modGrp c g f).core c).wgs = (s.core c).wgs := (OnlyGroup.modGrp s c g f).wgs
  by_cases e : h = g
  · subst e; simp [State.wgOf, State.wg, hw, hf]
  · simp [State.wgOf, State.wg, hw, State.grp_modGrp_ne _ _ _ e]

theorem State.ahead_pred (a : State) (i : Inst) (p : Nat × Nat) (l n : Nat) :
    ((a.ahead i p).thr i.core p.1 l).pred n = (a.thr i.core p.1 l).pred n := by
  have e : ((a.ahead i p).thr i.core p.1 l).preds = (a.thr i.core p.1 l).preds := by
    simp only [State.ahead, State.thr_setPcs _ _ _ _ (nodup_maskList _ _)]
    split <;> rfl
  unfold Thread.pred; rw [e]

theorem State.ahead_seed (a : State) (i : Inst) (p : Nat × Nat) (l : Nat) :
    ((a.ahead i p).thr i.core p.1 l).seed = (a.thr i.core p.1 l).seed := by
  simp only [State.ahead, State.thr_setPcs _ _ _ _ (nodup_maskList _ _)]
  split <;> rfl

theorem State.ahead_sreg (a : State) (i : Inst) (p : Nat × Nat) (n : Nat) :
    ((a.ahead i p).grp i.core p.1).sreg n = (a.grp i.core p.1).sreg n := by
  obtain ⟨t, ht⟩ := a.ahead_grp i p
  rw [ht]; rfl

/-- What a part reads of its group on entry is what the instance found. -/
theorem Agree.rdV_ahead {s a : State} {i : Inst} {p : Nat × Nat} (h : Agree s a i.core p.1) {r : Nat} (hr : r < 128) (l : Nat) :
    (a.ahead i p).rdV i.core p.1 r l = s.rdV i.core p.1 r l := by rw [a.ahead_rdV, h.rdV hr]

theorem Agree.pred_ahead {s a : State} {i : Inst} {p : Nat × Nat} (h : Agree s a i.core p.1) (l n : Nat) :
    ((a.ahead i p).thr i.core p.1 l).pred n = (s.thr i.core p.1 l).pred n := by rw [a.ahead_pred, h.thr]

theorem Agree.sreg_ahead {s a : State} {i : Inst} {p : Nat × Nat} (h : Agree s a i.core p.1) (n : Nat) :
    ((a.ahead i p).grp i.core p.1).sreg n = (s.grp i.core p.1).sreg n := by rw [a.ahead_sreg, h.grp]

theorem State.wrLanes_single (s : State) (c g r : Nat) (ls : List Nat) (v : Nat → Word) :
    s.wrLanes c g ls (fun l => [(r, v l)]) = ls.foldl (fun a l => a.wrV c g r l (v l)) s := rfl

@[simp] theorem Inst.part_core (i : Inst) (s : State) (guard : Nat) (p : Nat × Nat) : (i.part s guard p).core = i.core := rfl
@[simp] theorem Inst.part_slot (i : Inst) (s : State) (guard : Nat) (p : Nat × Nat) : (i.part s guard p).slot = p.1 := rfl
@[simp] theorem Inst.part_lanes (i : Inst) (s : State) (guard : Nat) (p : Nat × Nat) : (i.part s guard p).lanes = p.2 := rfl
@[simp] theorem Inst.part_inst (i : Inst) (s : State) (guard : Nat) (p : Nat × Nat) : (i.part s guard p).inst = i := rfl

/-- `SEL` on ready operands (R103). -/
theorem execSel_spec (sw : Bool) (n : PReg) (vd va vb : VReg) (s : State) (i : Inst) (hr : s.running i) (hh : i.handler = false)
    (hready : ∀ p ∈ i.parts, s.laneReady i p.1 [(vd, 1), (va, 1), (vb, 1)] [va, vb]) :
    ∃ t, execSel sw n vd va vb s = .next t ∧ LaneResult s t i 7 [vd] fun p l =>
      [(vd, s.rdV i.core p.1 (if (s.thr i.core p.1 l).pred n then va else vb) l)] := by
  unfold execSel
  refine runLane_writes sw 7 s i _ [vd] _ hr hh (fun _ _ _ => rfl) (by simp) (by simp) ?_
  intro p hp a ha
  have hc := State.laneChecks_none (s := s) (a := a) (i := i) (p := p) 7 [(true, vd, 1), (true, va, 1), (true, vb, 1)] [va, vb] ha
    (by
      have h := (hready p hp).1
      simp only [List.mem_cons, List.not_mem_nil, or_false, forall_eq_or_imp, forall_eq] at h ⊢
      simpa using h)
    (by simp) (hready p hp).2
  have key : ∀ l, (a.ahead i p).rdV i.core p.1 (if ((a.ahead i p).thr i.core p.1 l).pred n = true then va.val else vb.val) l =
      s.rdV i.core p.1 (if (s.thr i.core p.1 l).pred n = true then va.val else vb.val) l := by
    intro l
    rw [ha.pred_ahead, ha.rdV_ahead]
    split
    · exact va.isLt
    · exact vb.isLt
  rw [State.wrLanes_single]
  simp only [hc, Inst.part_core, Inst.part_slot]
  exact congrArg LaneOut.ok (List.foldl_ext _ _ _ fun b l _ => congrArg (b.wrV i.core p.1 vd l) (key l))

/-- `MOVS` on registers of the allocation (R104). -/
theorem execMovs_spec (c : LaneCtl) (vd : VReg) (sa : SReg) (s : State) (i : Inst) (hr : s.running i) (hh : i.handler = false)
    (hv : ∀ p ∈ i.parts, vd.val < (s.grp i.core p.1).vregs) (hs : ∀ p ∈ i.parts, sa.val < (s.grp i.core p.1).sregs) :
    ∃ t, execMovs c vd sa s = .next t ∧ LaneResult s t i c.g.val [vd] fun p _ => [(vd, (s.grp i.core p.1).sreg sa)] := by
  refine runLane_writes c.sw c.g.val s i _ [vd] _ hr hh (fun _ _ _ => rfl) (by simp) (by simp) ?_
  intro p hp a ha
  have hc := State.laneChecks_none (s := s) (a := a) (i := i) (p := p) c.g.val [(true, vd, 1), (false, sa, 1)] [] ha
    (by
      have h1 := hv p hp
      have h2 := hs p hp
      simp only [List.mem_cons, List.not_mem_nil, or_false, forall_eq_or_imp, forall_eq]
      constructor <;> simp <;> omega)
    (by simp) (Or.inr (by simp))
  simp only [hc]
  congr 1
  unfold State.wrLanes State.wrList
  congr 1
  funext b l
  show b.wrV i.core p.1 vd l (((a.ahead i p).grp i.core p.1).sreg sa) = _
  rw [ha.sreg_ahead]
  rfl

/-- The executing lanes of a part, as a test of the lane. -/
theorem Inst.testBit_exec {i : Inst} {s : State} {guard : Nat} {p : Nat × Nat} {l : Nat} :
    ((i.part s guard p).exec.testBit l && decide (l < 64)) = s.executes i p guard l := by
  have e : (i.part s guard p).exec.testBit l = true ∧ l < 64 ↔ s.executes i p guard l = true := by
    rw [← Inst.mem_lanesL]; unfold Part.lanesL; rw [mem_maskList]; tauto
  cases h : s.executes i p guard l
  · rw [h] at e; simp at e; simp; exact e
  · rw [h] at e; simp at e; simp [e]

theorem shflLane_lt {mode : ShflMode} {l b k : Nat} (h : shflLane mode l b = some k) : k < 64 := by
  have key : ∀ x : Int, (if 0 ≤ x ∧ x < 64 then some x.toNat else none) = some k → k < 64 := by
    intro x hx
    split at hx
    · have e := Option.some.inj hx
      omega
    · exact absurd hx (by simp)
  cases mode <;> exact key _ h

theorem shflRegs_lt (b : ShflSrc) : ∀ r ∈ shflRegs b, r < 128 := by
  cases b with
  | reg r => intro x hx; simp [shflRegs] at hx; subst hx; exact r.isLt
  | imm i => simp [shflRegs]

/-- `SHFL` on ready operands (R121). -/
theorem execShfl_spec (c : LaneCtl) (mode : ShflMode) (vd va : VReg) (b : ShflSrc) (s : State) (i : Inst) (hr : s.running i)
    (hh : i.handler = false)
    (hready : ∀ p ∈ i.parts, s.laneReady i p.1 ([(vd.val, 1), (va.val, 1)] ++ (shflRegs b).map (·, 1)) (va.val :: shflRegs b)) :
    ∃ t, execShfl c mode vd va b s = .next t ∧ LaneResult s t i c.g.val [vd] fun p l =>
      [(vd, s.shflVal i p c.g.val va l (shflLane mode l (shflValue b fun r => s.rdV i.core p.1 r l)))] := by
  refine runLane_writes c.sw c.g.val s i _ [vd] _ hr hh (fun _ _ _ => rfl) (by simp) (by simp) ?_
  intro p hp a ha
  have hc := State.laneChecks_none (s := s) (a := a) (i := i) (p := p) c.g.val
    ([(true, vd.val, 1), (true, va.val, 1)] ++ (shflRegs b).map (true, ·, 1)) (va.val :: shflRegs b) ha
    (by
      have h := (hready p hp).1
      simp only [List.mem_append, List.mem_cons, List.not_mem_nil, or_false, List.mem_map] at h ⊢
      rintro r ((rfl | rfl) | ⟨x, hx, rfl⟩)
      · simpa using h (vd, 1) (by simp)
      · simpa using h (va, 1) (by simp)
      · simpa using h (x, 1) (Or.inr ⟨x, hx, rfl⟩))
    (fun r h => by
      rcases List.mem_cons.1 h with rfl | h
      · exact va.isLt
      · exact shflRegs_lt b r h) (hready p hp).2
  have hx : ∀ (d : State) (l n : Nat), d.wrV i.core p.1 vd l (match shflLane mode l n with
      | none => (a.ahead i p).rdV i.core p.1 va l
      | some k => if (i.part s c.g.val p).exec.testBit k then (a.ahead i p).rdV i.core p.1 va k else 0) =
      d.wrV i.core p.1 vd l (s.shflVal i p c.g.val va l (shflLane mode l n)) := by
    intro d l n
    congr 1
    cases hk : shflLane mode l n with
    | none => exact ha.rdV_ahead va.isLt l
    | some k =>
      have e := Inst.testBit_exec (i := i) (s := s) (guard := c.g.val) (p := p) (l := k)
      simp only [shflLane_lt hk, decide_true, Bool.and_true] at e
      show (if (i.part s c.g.val p).exec.testBit k = true then (a.ahead i p).rdV i.core p.1 va k else 0) = _
      rw [ha.rdV_ahead va.isLt, e]
      rfl
  rw [State.wrLanes_single]
  cases b with
  | reg r =>
    simp only [shflRegs] at hc
    have e : ∀ l, (a.ahead i p).rdV i.core p.1 r l = s.rdV i.core p.1 r l := fun l => ha.rdV_ahead r.isLt l
    simp only [hc, Inst.part_core, Inst.part_slot, e]
    exact congrArg LaneOut.ok (List.foldl_ext _ _ _ fun b l _ => hx b l _)
  | imm n =>
    simp only [shflRegs] at hc
    simp only [hc, Inst.part_core, Inst.part_slot]
    exact congrArg LaneOut.ok (List.foldl_ext _ _ _ fun b l _ => hx b l _)

theorem Inst.lanesL_eq (i : Inst) (s : State) (guard : Nat) (p : Nat × Nat) :
    (i.part s guard p).lanesL = s.executing i p guard := by
  unfold Part.lanesL maskList State.executing
  apply List.filter_congr
  intro l hl
  have e := Inst.testBit_exec (i := i) (s := s) (guard := guard) (p := p) (l := l)
  simpa [List.mem_range.1 hl] using e

/-- `REDUX` on ready operands (R123). -/
theorem execRedux_spec (c : LaneCtl) (op : ReduxOp) (kind : ReduxKind) (vd va : VReg) (s : State) (i : Inst) (hr : s.running i)
    (hh : i.handler = false) (hready : ∀ p ∈ i.parts, s.laneReady i p.1 [(vd, 1), (va, 1)] [va]) :
    ∃ t, execRedux c op kind vd va s = .next t ∧ LaneResult s t i c.g.val [vd] fun p l =>
      [(vd, reduxList op (((s.executing i p c.g.val).filter (reduxTakes kind l)).map fun k => s.rdV i.core p.1 va k))] := by
  refine runLane_writes c.sw c.g.val s i _ [vd] _ hr hh (fun _ _ _ => rfl) (by simp) (by simp) ?_
  intro p hp a ha
  have hc := State.laneChecks_none (s := s) (a := a) (i := i) (p := p) c.g.val [(true, vd.val, 1), (true, va.val, 1)] [va.val] ha
    (by
      have h := (hready p hp).1
      simp only [List.mem_cons, List.not_mem_nil, or_false, forall_eq_or_imp, forall_eq] at h ⊢
      simpa using h) (by simp) (hready p hp).2
  have e : ∀ k, (a.ahead i p).rdV i.core p.1 va k = s.rdV i.core p.1 va k := fun k => ha.rdV_ahead va.isLt k
  rw [State.wrLanes_single]
  simp only [hc, Inst.part_core, Inst.part_slot, e, Inst.lanesL_eq]
  cases kind <;> rfl

end Sys2Proof.Machine
end

