-- ==== Sys2Proof/Laws/Access.lean ====
section
/-! SUPPORT. Accesses as they issue: what the flight of a core holds after them, and the lane memory words. -/

namespace Sys2Proof.Machine

/-! ### The flight of a core -/

/-- Two cores differ at most in the accesses in flight, their counters and the L1. -/
def SameBesideFlight (x y : Core) : Prop :=
  { y with flight := x.flight, nextOp := x.nextOp, nextEnt := x.nextEnt, l1 := x.l1 } = x

theorem SameBesideFlight.refl (x : Core) : SameBesideFlight x x := rfl

theorem SameBesideFlight.trans {x y z : Core} (h : SameBesideFlight x y) (k : SameBesideFlight y z) : SameBesideFlight x z := by
  unfold SameBesideFlight at *
  rw [← k] at h
  exact h

theorem Core.updateL1_frame (x : Core) (ctx a : Nat) (d : List Byte) :
    SameBesideFlight x (x.updateL1 ctx a d) ∧ (x.updateL1 ctx a d).flight = x.flight := by
  unfold Core.updateL1
  dsimp only
  split <;> exact ⟨rfl, rfl⟩

theorem Core.updateL1s_frame (ctx : Nat) (l : List (Nat × List Byte)) (x : Core) :
    SameBesideFlight x (l.foldl (fun x p => x.updateL1 ctx p.1 p.2) x) ∧
      (l.foldl (fun x p => x.updateL1 ctx p.1 p.2) x).flight = x.flight := by
  induction l generalizing x with
  | nil => exact ⟨rfl, rfl⟩
  | cons p l ih =>
    have h := Core.updateL1_frame x ctx p.1 p.2
    have k := ih (x.updateL1 ctx p.1 p.2)
    exact ⟨h.1.trans k.1, k.2.trans h.2⟩

/-- The accesses of a group in a list, as they show. -/
def plainOps (l : List MemOp) (g : Nat) : List MemOp := (l.filter fun o => o.slot == g && !o.isFence).map MemOp.plain

theorem plainOps_append (l m : List MemOp) (g : Nat) : plainOps (l ++ m) g = plainOps l g ++ plainOps m g := by
  simp [plainOps]

theorem plainOps_single (o : MemOp) (g : Nat) : plainOps [o] g = if o.slot = g ∧ o.isFence = false then [o.plain] else [] := by
  unfold plainOps
  by_cases h : o.slot = g
  · cases hf : o.isFence <;> simp [h, hf]
  · simp [h]

theorem plainOps_cons (o : MemOp) (l : List MemOp) (g : Nat) : plainOps (o :: l) g = plainOps [o] g ++ plainOps l g :=
  plainOps_append [o] l g

/-- One pass over the flight changes neither the accesses of any group, as they show, nor anything beside the flight. -/
theorem Core.settleFrom_spec (l : List MemOp) (x : Core) (past : List MemOp) :
    SameBesideFlight x (x.settleFrom past l) ∧
      ∀ g, (x.settleFrom past l).opsOf g = plainOps past.reverse g ++ plainOps l g := by
  induction l generalizing x past with
  | nil =>
    unfold Core.settleFrom
    refine ⟨rfl, fun g => ?_⟩
    show plainOps past.reverse g = _
    simp [plainOps]
  | cons o t ih =>
    have step : ∀ (y : Core) (o' : MemOp), SameBesideFlight x y → plainOps [o'] = plainOps [o] →
        SameBesideFlight x (y.settleFrom (o' :: past) t) ∧
          ∀ g, (y.settleFrom (o' :: past) t).opsOf g = plainOps past.reverse g ++ plainOps (o :: t) g := by
      intro y o' hy ho
      obtain ⟨h1, h2⟩ := ih y (o' :: past)
      refine ⟨hy.trans h1, fun g => ?_⟩
      rw [h2 g, List.reverse_cons, plainOps_append, plainOps_cons o t, ho, List.append_assoc]
    unfold Core.settleFrom
    split
    · rename_i hf
      have e : plainOps [o] = fun _ => [] := by
        funext g
        rw [plainOps_single]
        have : o.isFence = true := by unfold MemOp.isFence; rw [hf]
        simp [this]
      split
      · exact step x o (SameBesideFlight.refl x) rfl
      · have drop : ∀ y, SameBesideFlight x y → SameBesideFlight x (y.settleFrom past t) ∧
            ∀ g, (y.settleFrom past t).opsOf g = plainOps past.reverse g ++ plainOps (o :: t) g := by
          intro y hy
          obtain ⟨h1, h2⟩ := ih y past
          refine ⟨hy.trans h1, fun g => ?_⟩
          rw [h2 g, plainOps_cons o t, e, List.nil_append]
        dsimp only
        split
        · exact drop _ rfl
        · exact drop _ (SameBesideFlight.refl x)
    · split
      · dsimp only
        refine step _ _ ?_ ?_
        · exact (Core.updateL1s_frame _ _ _).1.trans rfl
        · funext g
          rw [plainOps_single, plainOps_single]
          rfl
      · exact step x o (SameBesideFlight.refl x) rfl
    · exact step x o (SameBesideFlight.refl x) rfl

theorem Core.settle_spec (x : Core) : SameBesideFlight x x.settle ∧ ∀ g, x.settle.opsOf g = x.opsOf g := by
  obtain ⟨h1, h2⟩ := Core.settleFrom_spec x.flight x []
  exact ⟨h1, fun g => by rw [Core.settle, h2 g]; rfl⟩

/-- An access issued shows last among those of its group (R128). -/
theorem State.issueOp_spec (s : State) (c : Nat) (o : MemOp) :
    ∃ x, s.issueOp c o = s.setCore c x ∧ SameBesideFlight (s.core c) x ∧
      ∀ g, x.opsOf g = (s.core c).opsOf g ++ plainOps [{ o with since := s.cyc.toNat }] g := by
  refine ⟨_, rfl, ?_, fun g => ?_⟩
  · exact SameBesideFlight.trans (y := { s.core c with
      flight := (s.core c).flight ++ [{ o with id := (s.core c).nextOp, since := s.cyc.toNat }], nextOp := (s.core c).nextOp + 1 })
      rfl (Core.settle_spec _).1
  · rw [(Core.settle_spec _).2 g]
    show plainOps ((s.core c).flight ++ _) g = _
    rw [plainOps_append]
    congr 1
    rw [plainOps_single, plainOps_single]
    rfl

/-- Two states differ at most in the flight of a core. -/
structure FlightOnly (c : Nat) (s t : State) : Prop where
  beside : SameBesideCores s t
  others : ∀ d, d ≠ c → t.core d = s.core d
  core : SameBesideFlight (s.core c) (t.core c)

theorem FlightOnly.refl (c : Nat) (s : State) : FlightOnly c s s := ⟨rfl, fun _ _ => rfl, SameBesideFlight.refl _⟩

theorem FlightOnly.trans {c : Nat} {s t u : State} (h : FlightOnly c s t) (k : FlightOnly c t u) : FlightOnly c s u :=
  ⟨h.beside.trans k.beside, fun d hd => (k.others d hd).trans (h.others d hd), h.core.trans k.core⟩

/-- Accesses issued show last among those of their group, in their order (R128). -/
theorem State.issueOps_spec (c : Nat) (l : List MemOp) (s : State) :
    FlightOnly c s (l.foldl (fun s o => s.issueOp c o) s) ∧
      ∀ g, ((l.foldl (fun s o => s.issueOp c o) s).core c).opsOf g =
        (s.core c).opsOf g ++ plainOps (l.map fun o => { o with since := s.cyc.toNat }) g := by
  induction l generalizing s with
  | nil => exact ⟨FlightOnly.refl c s, fun g => (List.append_nil _).symm⟩
  | cons o l ih =>
    obtain ⟨x, hx, hf, ho⟩ := s.issueOp_spec c o
    obtain ⟨k1, k2⟩ := ih (s.issueOp c o)
    have h1 : FlightOnly c s (s.issueOp c o) := by
      rw [hx]
      exact ⟨rfl, fun d hd => State.core_setCore_ne s x hd, by rw [State.core_setCore_self]; exact hf⟩
    have hcyc : (s.issueOp c o).cyc = s.cyc := h1.beside.cyc
    refine ⟨h1.trans k1, fun g => ?_⟩
    rw [List.foldl_cons, k2 g, List.map_cons, plainOps_cons, hcyc, ← List.append_assoc]
    congr 1
    rw [hx, State.core_setCore_self, ho g]

/-- The parts of an access (R130): each keeps all of it but its bytes and what it does, and none is a fence. -/
theorem MemOp.quarters_mem {o q : MemOp} (h : q ∈ o.quarters) (hf : o.act ≠ .fence) :
    ∃ w a ps vs, q = { o with wide := w, act := a, pieces := ps, vas := vs } ∧ a ≠ .fence := by
  unfold MemOp.quarters at h
  dsimp only at h
  split at h
  · obtain ⟨k, _, rfl⟩ := List.mem_map.1 h
    exact ⟨_, _, _, _, rfl, by simp⟩
  · split at h
    · obtain ⟨k, _, rfl⟩ := List.mem_map.1 h
      exact ⟨_, _, _, _, rfl, by simp⟩
    · rw [List.mem_singleton] at h
      exact ⟨o.wide, o.act, o.pieces, o.vas, h, hf⟩
  · rw [List.mem_singleton] at h
    exact ⟨o.wide, o.act, o.pieces, o.vas, h, hf⟩

theorem MemOp.quarters_since (o : MemOp) (n : Nat) :
    ({ o with since := n } : MemOp).quarters = o.quarters.map fun q => { q with since := n } := by
  unfold MemOp.quarters
  dsimp only
  split
  · simp only [List.map_map]; rfl
  · split
    · simp only [List.map_map]; rfl
    · rfl
  · rfl

/-- The parts of an access of a group show as they are. -/
theorem plainOps_quarters (o : MemOp) (hp : o.plain = o) (hf : o.act ≠ .fence) : plainOps o.quarters o.slot = o.quarters := by
  have hid : o.id = 0 := (congrArg MemOp.id hp).symm
  have hen : o.ent = none := (congrArg MemOp.ent hp).symm
  have hrd : o.readers = [] := (congrArg MemOp.readers hp).symm
  have key : ∀ q ∈ o.quarters, (q.slot == o.slot && !q.isFence) = true ∧ q.plain = q := by
    intro q hq
    obtain ⟨w, a, ps, vs, rfl, ha⟩ := MemOp.quarters_mem hq hf
    refine ⟨?_, by simp only [MemOp.plain, hid, hen, hrd]⟩
    have : ({ o with wide := w, act := a, pieces := ps, vas := vs } : MemOp).isFence = false := by
      unfold MemOp.isFence
      cases a <;> simp_all
    simp [this]
  unfold plainOps
  rw [List.filter_eq_self.2 fun q hq => (key q hq).1]
  exact (List.map_congr_left fun q hq => (key q hq).2).trans (List.map_id _)

/-- A group's accesses do not show among another's. -/
theorem plainOps_other {l : List MemOp} {g : Nat} (h : ∀ o ∈ l, o.slot ≠ g) : plainOps l g = [] := by
  unfold plainOps
  rw [List.filter_eq_nil_iff.2 fun o ho => by simp [h o ho]]
  rfl

/-! ### The frame of a lane memory word -/

theorem LaneMemFrame.refl (s : State) (i : Inst) : LaneMemFrame s s i :=
  ⟨rfl, fun _ _ => rfl, rfl, fun _ _ => rfl, fun _ => rfl, fun _ _ => rfl⟩

theorem LaneMemFrame.trans {a b d : State} {i : Inst} (h : LaneMemFrame a b i) (k : LaneMemFrame b d i) : LaneMemFrame a d i where
  beside := h.beside.trans k.beside
  others c hc := (k.others c hc).trans (h.others c hc)
  core := by
    have e := h.core
    rw [← k.core] at e
    exact e
  outside g hg := (k.outside g hg).trans (h.outside g hg)
  groups g := by
    have e := h.groups g
    rw [← k.groups g] at e
    exact e
  threads g l := by
    have e := h.threads g l
    rw [← k.threads g l] at e
    exact e

theorem LaneMemFrame.table {s : State} {i : Inst} {x : Core} (h : SameBesideTable (s.core i.core) x) :
    LaneMemFrame s (s.setCore i.core x) i where
  beside := rfl
  others c hc := State.core_setCore_ne s x hc
  core := by
    rw [State.core_setCore_self]
    unfold SameBesideTable at h
    rw [← h]
  outside g _ := by simp [State.grp, h.grps]
  groups g := by simp [State.grp, h.grps]
  threads g l := by simp [State.thr, State.grp, h.grps]

theorem SameBesideFlight.grps {x y : Core} (h : SameBesideFlight x y) : y.grps = x.grps := by
  have e := congrArg Core.grps (show { y with flight := x.flight, nextOp := x.nextOp, nextEnt := x.nextEnt, l1 := x.l1 } = x from h)
  exact e
theorem SameBesideFlight.wgs {x y : Core} (h : SameBesideFlight x y) : y.wgs = x.wgs := by
  have e := congrArg Core.wgs (show { y with flight := x.flight, nextOp := x.nextOp, nextEnt := x.nextEnt, l1 := x.l1 } = x from h)
  exact e
theorem SameBesideFlight.rows {x y : Core} (h : SameBesideFlight x y) : y.rows = x.rows := by
  have e := congrArg Core.rows (show { y with flight := x.flight, nextOp := x.nextOp, nextEnt := x.nextEnt, l1 := x.l1 } = x from h)
  exact e

theorem LaneMemFrame.flight {s t : State} {i : Inst} (h : FlightOnly i.core s t) : LaneMemFrame s t i where
  beside := h.beside
  others := h.others
  core := by
    have e := h.core
    unfold SameBesideFlight at e
    rw [← e]
  outside g _ := by simp [State.grp, h.core.grps]
  groups g := by simp [State.grp, h.core.grps]
  threads g l := by simp [State.thr, State.grp, h.core.grps]

theorem LaneMemFrame.goOn (s : State) (i : Inst) (hh : i.handler = false) : LaneMemFrame s (s.goOn i) i := by
  obtain ⟨x, hx, e⟩ := s.goOn_table i hh
  rw [e]
  exact LaneMemFrame.table hx

theorem LaneMemFrame.thr (s : State) (i : Inst) (g : Nat) (hg : g ∈ i.parts.map (·.1)) (h : Tbl Thread → Tbl Thread)
    (hh : ∀ t l, { Tbl.get (h t) l with pc := (Tbl.get t l).pc, sw := (Tbl.get t l).sw, count := (Tbl.get t l).count } = Tbl.get t l) :
    LaneMemFrame s (s.modGrp i.core g fun x => { x with thr := h x.thr }) i where
  beside := rfl
  others c hc := State.core_modCore_ne s _ hc
  core := by
    unfold State.modGrp
    rw [State.core_modCore_self]
  outside k hk := State.grp_modGrp_ne s _ _ (fun e => hk (e ▸ hg))
  groups k := by
    by_cases e : k = g
    · subst e; rw [State.grp_modGrp_self]
    · rw [State.grp_modGrp_ne _ _ _ e]
  threads k l := by
    by_cases e : k = g
    · subst e; unfold State.thr; rw [State.grp_modGrp_self]; exact hh _ _
    · unfold State.thr; rw [State.grp_modGrp_ne _ _ _ e]

theorem SameBesidePc.memThread {u v : Thread} (h : SameBesidePc u v) : { v with pc := u.pc, sw := u.sw, count := u.count } = u := by
  have e := congrArg (fun x : Thread => { x with count := u.count }) (show { v with pc := u.pc, sw := u.sw } = u from h)
  exact e

theorem LaneMemFrame.setPcs (s : State) (i : Inst) (g : Nat) (hg : g ∈ i.parts.map (·.1)) (ls : List Nat) (pc : Nat) :
    LaneMemFrame s (s.setPcs i.core g ls pc) i :=
  LaneMemFrame.thr s i g hg _ fun t l => (foldl_mod_samePc (fun u => { u with pc := pc }) (fun _ => rfl) ls t l).memThread

theorem LaneMemFrame.switchLanes (s : State) (i : Inst) (g : Nat) (hg : g ∈ i.parts.map (·.1)) (ls : List Nat) :
    LaneMemFrame s (s.switchLanes i.core g ls) i :=
  LaneMemFrame.thr s i g hg _ fun t l =>
    (foldl_mod_samePc (fun u => { u with sw := u.sw || (u.live && u.count != 0) }) (fun _ => rfl) ls t l).memThread

theorem LaneMemFrame.countUp (s : State) (i : Inst) (g : Nat) (hg : g ∈ i.parts.map (·.1)) (l : Nat) :
    LaneMemFrame s (s.countUp i.core g l) i :=
  LaneMemFrame.thr s i g hg (fun t => Tbl.mod t l fun u => { u with count := u.count + 1 }) fun t m => by
    by_cases e : m = l
    · subst e; rw [Tbl.get_mod_self]
    · rw [Tbl.get_mod_ne _ _ e]

/-! ### What an access finds -/

theorem SameBesideCores.eq {s t : State} (h : SameBesideCores s t) : t = { s with cores := t.cores } := by
  unfold SameBesideCores at h
  rw [← h]

/-- What the checks of an address read is the same in two states (R125). -/
structure SameReach (s a : State) (c g : Nat) : Prop where
  beside : SameBesideCores s a
  wg : ∀ d w, a.wg d w = s.wg d w
  grpWg : (a.grp c g).wg = (s.grp c g).wg
  grpIndex : (a.grp c g).index = (s.grp c g).index
  handles : (a.core c).handles = (s.core c).handles
  gtag : ∀ d, (a.core d).gtag = (s.core d).gtag
  ops : (a.core c).opsOf g = (s.core c).opsOf g

theorem SameReach.wgOf {s a : State} {c g : Nat} (h : SameReach s a c g) : a.wgOf c g = s.wgOf c g := by
  unfold State.wgOf; rw [h.grpWg, h.wg]

theorem SameReach.launchOf {s a : State} {c g : Nat} (h : SameReach s a c g) : a.launchOf c g = s.launchOf c g := by
  unfold State.launchOf; rw [h.wgOf, h.beside.launch]

/-- A test of the accesses of one group that looks at none of a fence and not at identity or queue place sees the same. -/
theorem flight_any (l : List MemOp) (g : Nat) (q : MemOp → Bool) (h1 : ∀ o, q o = true → o.slot = g ∧ o.isFence = false)
    (h2 : ∀ o, q o.plain = q o) : l.any q = (plainOps l g).any q := by
  induction l with
  | nil => rfl
  | cons o l ih =>
    rw [List.any_cons, plainOps_cons, List.any_append, ih, plainOps_single]
    by_cases h : o.slot = g ∧ o.isFence = false
    · rw [if_pos h]; simp [h2]
    · rw [if_neg h]
      have : q o = false := by
        cases hq : q o
        · rfl
        · exact absurd (h1 o hq) h
      simp [this]

theorem SameReach.ownWrite {s a : State} {p : Part} (h : SameReach s a p.core p.slot) (l : Nat) (r : Reach) (n : Nat) :
    a.ownWrite p l r n = s.ownWrite p l r n := by
  have key : ∀ (x : State) (gen : Gen), ((x.core p.core).flight.any fun o => o.slot == p.slot && o.gen == gen &&
      o.lanes &&& (if l = 64 then p.lanes else 2 ^ l) != 0 && !o.isLoad && !o.bound && o.place == r.place && o.ogen == r.ogen &&
      rangesMeet o.pieces [(n * 32, 32)]) = (((x.core p.core).opsOf p.slot).any fun o => o.slot == p.slot && o.gen == gen &&
      o.lanes &&& (if l = 64 then p.lanes else 2 ^ l) != 0 && !o.isLoad && !o.bound && o.place == r.place && o.ogen == r.ogen &&
      rangesMeet o.pieces [(n * 32, 32)]) := by
    intro x gen
    refine flight_any _ _ _ ?_ (fun o => rfl)
    intro o ho
    simp only [Bool.and_eq_true, beq_iff_eq, Bool.not_eq_true'] at ho
    refine ⟨ho.1.1.1.1.1.1.1, ?_⟩
    have hb := ho.1.1.1.2
    unfold MemOp.bound at hb
    unfold MemOp.isFence
    cases hact : o.act <;> simp_all
  unfold State.ownWrite
  dsimp only
  have hg : a.genOf p.core p.slot = s.genOf p.core p.slot := by unfold State.genOf; rw [h.wgOf]
  rw [key a, key s, h.ops, hg]

theorem SameReach.checkAddr {s a : State} {p : Part} (h : SameReach s a p.core p.slot) (k : AccKind) (lane ea size : Nat)
    (plane : Option Nat) : a.checkAddr p k lane ea size plane = s.checkAddr p k lane ea size plane := by
  have e1 := h.wgOf
  have e2 := h.launchOf
  have e3 : a.peerNum = s.peerNum := by rw [h.beside.eq]
  have e4 : (a.core p.core).narrowsLen (a.grp p.core p.slot).wg = (s.core p.core).narrowsLen (s.grp p.core p.slot).wg := by
    unfold Core.narrowsLen; rw [h.handles, h.grpWg]
  have e5 : a.privateOf p = s.privateOf p := by
    unfold State.privateOf; rw [e1, e2, h.grpIndex]
  unfold State.checkAddr
  simp only [e1, e2, e3, e4, e5, h.wg]

theorem SameReach.reach {s a : State} {p : Part} (h : SameReach s a p.core p.slot) (k : AccKind) (reads : Bool) (lane ea size : Nat)
    (plane : Option Nat) : a.reach p k reads lane ea size plane = s.reach p k reads lane ea size plane := by
  have e : ∀ r, a.staleGranule p lane r = s.staleGranule p lane r := by
    intro r
    unfold State.staleGranule
    simp only [h.launchOf, h.gtag, h.ownWrite]
  unfold State.reach
  simp only [h.checkAddr, e]

/-! ### The issue of one access -/

theorem SameBesideCores.ownRemote {s a : State} (h : SameBesideCores s a) (ctx : Nat) (need : Need) (vas : List (Nat × Nat)) :
    a.ownRemote ctx need vas = s.ownRemote ctx need vas := by
  rw [h.eq]; rfl

theorem State.xlateAll_hits (s : State) (c ctx : Nat) (need : Need) (hc : s.choose 2 = false) (vas l : List (Nat × Nat))
    (h : s.hits c ctx need vas = some l) : s.xlateAll c ctx need vas = (s, .inr l) := by
  induction vas generalizing l with
  | nil => unfold State.hits at h; injection h with h; subst h; rfl
  | cons v t ih =>
    obtain ⟨va, n⟩ := v
    unfold State.hits at h
    cases hf : findTlb (s.core c).tlb ctx va with
    | none => rw [hf] at h; exact absurd h (by simp)
    | some e =>
      rw [hf] at h
      cases hu : e.use va need with
      | fault k => simp only [hu] at h; exact absurd h (by simp)
      | ok pa =>
        cases ht : s.hits c ctx need t with
        | none => simp only [hu, ht] at h; exact absurd h (by simp)
        | some l' =>
          simp only [hu, ht] at h
          injection h with h
          subst h
          have hx : s.xlate c ctx va need = (s, .ok pa) := by
            unfold State.xlate
            simp only [hc, hf, Bool.false_eq_true, if_false, hu]
          unfold State.xlateAll
          simp only [hx, ih l' ht]

theorem State.hits_congr {s a : State} {c : Nat} (h : (a.core c).tlb = (s.core c).tlb) (ctx : Nat) (need : Need) (vas : List (Nat × Nat)) :
    a.hits c ctx need vas = s.hits c ctx need vas := by
  induction vas with
  | nil => rfl
  | cons v t ih =>
    obtain ⟨va, n⟩ := v
    unfold State.hits
    rw [h, ih]

/-- An access whose bytes are found joins the flight; nothing else happens (R129 finds no fault). -/
theorem State.issueAccess_spec {s a : State} (i : Inst) (p : Nat × Nat) (lanes : Nat) (uni : Bool) (r : Reach)
    (pieces : List (Nat × Nat)) (act : MemAct) (order : Order) (scope : Scope) (part : Part) (hp : part.core = i.core)
    (hs : part.slot = p.1) (hpc : part.inst.pc = i.pc)
    (hb : SameBesideCores s a) (hw : a.wgOf i.core p.1 = s.wgOf i.core p.1) (htlb : (a.core i.core).tlb = (s.core i.core).tlb)
    (hc : s.choose 2 = false) (hf : s.found i.core (s.launchOf i.core p.1).ctx act.need r = some pieces) :
    ∃ o : MemOp, a.issueAccess part lanes uni r act order scope = (o.quarters.foldl (fun s o => s.issueOp i.core o) a, none) ∧
      { o with since := s.cyc.toNat } = s.accessOp i p lanes uni r pieces act order scope := by
  have hl : a.launchOf i.core p.1 = s.launchOf i.core p.1 := by unfold State.launchOf; rw [hw, hb.launch]
  have hch : a.choose 2 = false := by unfold State.choose; rw [hb.choice]; exact hc
  have hpn : a.peerNum = s.peerNum := by rw [hb.eq]
  have htk : a.tick = s.tick := hb.tick
  unfold State.found at hf
  unfold State.issueAccess State.accessOp
  simp only [hp, hs, hpc, hw, hl, hpn, htk]
  split at hf
  · rename_i hpaged
    rw [if_pos hpaged, State.xlateAll_hits a i.core _ act.need hch r.vas pieces (by rw [State.hits_congr htlb]; exact hf)]
    exact ⟨_, rfl, by simp [hpaged]⟩
  · rename_i hpaged
    rw [if_neg hpaged]
    split at hf
    · rename_i hpeer
      rw [if_pos hpeer, hb.ownRemote]
      split at hf
      · rename_i l hl'
        injection hf with hf
        subst hf
        rw [hl']
        exact ⟨_, rfl, by simp [hpaged, hpeer]⟩
      · exact absurd hf (by simp)
    · rename_i hpeer
      rw [if_neg hpeer]
      injection hf with hf
      subst hf
      exact ⟨_, rfl, by simp [hpaged, hpeer]⟩

/-! ### Lane memory words -/

theorem LaneMemFrame.wgs {s a : State} {i : Inst} (h : LaneMemFrame s a i) : (a.core i.core).wgs = (s.core i.core).wgs := by
  have e := congrArg Core.wgs h.core
  exact e
theorem LaneMemFrame.handles {s a : State} {i : Inst} (h : LaneMemFrame s a i) : (a.core i.core).handles = (s.core i.core).handles := by
  have e := congrArg Core.handles h.core
  exact e
theorem LaneMemFrame.gtag {s a : State} {i : Inst} (h : LaneMemFrame s a i) : (a.core i.core).gtag = (s.core i.core).gtag := by
  have e := congrArg Core.gtag h.core
  exact e
theorem LaneMemFrame.tlb {s a : State} {i : Inst} (h : LaneMemFrame s a i) : (a.core i.core).tlb = (s.core i.core).tlb := by
  have e := congrArg Core.tlb h.core
  exact e
theorem LaneMemFrame.grpWg {s a : State} {i : Inst} (h : LaneMemFrame s a i) (g : Nat) : (a.grp i.core g).wg = (s.grp i.core g).wg := by
  have e := congrArg Group.wg (h.groups g)
  exact e
theorem LaneMemFrame.grpIndex {s a : State} {i : Inst} (h : LaneMemFrame s a i) (g : Nat) :
    (a.grp i.core g).index = (s.grp i.core g).index := by
  have e := congrArg Group.index (h.groups g)
  exact e

theorem LaneMemFrame.sameReach {s a : State} {i : Inst} {g : Nat} (h : LaneMemFrame s a i)
    (ho : (a.core i.core).opsOf g = (s.core i.core).opsOf g) : SameReach s a i.core g where
  beside := h.beside
  wg d w := by
    unfold State.wg
    by_cases e : d = i.core
    · subst e; rw [h.wgs]
    · rw [h.others d e]
  grpWg := h.grpWg g
  grpIndex := h.grpIndex g
  handles := h.handles
  gtag d := by
    by_cases e : d = i.core
    · subst e; exact h.gtag
    · rw [h.others d e]
  ops := ho

theorem LaneMemFrame.wgOf {s a : State} {i : Inst} (h : LaneMemFrame s a i) (g : Nat) : a.wgOf i.core g = s.wgOf i.core g := by
  unfold State.wgOf State.wg; rw [h.grpWg, h.wgs]

theorem OnlyGroup.flight {s t : State} {c g : Nat} (h : FlightOnly c s t) (ho : ∀ k, k ≠ g → (t.core c).opsOf k = (s.core c).opsOf k) :
    OnlyGroup s t c g :=
  ⟨h.beside, h.core.wgs, fun k _ => by simp [State.grp, h.core.grps], fun k r _ _ => by simp [Core.row, h.core.rows], ho⟩

/-- One thread's access, where its bytes are found. -/
theorem laneAccess_step {s a : State} (i : Inst) (p : Nat × Nat) (hp : p ∈ i.parts) (guard l : Nat) (r : Reach)
    (pieces : List (Nat × Nat)) (act : MemAct) (hact : act ≠ .fence) (order : Order) (scope : Scope) (sw counted : Bool)
    (ha : LaneMemFrame s a i) (hc : s.choose 2 = false)
    (hf : s.found i.core (s.launchOf i.core p.1).ctx act.need r = some pieces) :
    ∃ b, a.issueLane (i.part s guard p) l sw counted r act order scope = b ∧
      LaneMemFrame a b i ∧ OnlyGroup a b i.core p.1 ∧
      (b.core i.core).opsOf p.1 = (a.core i.core).opsOf p.1 ++ (s.accessOp i p (2 ^ l) false r pieces act order scope).quarters ∧
      ∀ m, b.thr i.core p.1 m =
        if m = l ∧ counted = true then { a.thr i.core p.1 m with count := (a.thr i.core p.1 m).count + 1 } else a.thr i.core p.1 m := by
  obtain ⟨o, ho, hop⟩ := State.issueAccess_spec (s := s) (a := a) i p (2 ^ l) false r pieces act order scope (i.part s guard p)
    rfl rfl rfl ha.beside (ha.wgOf p.1) ha.tlb hc hf
  have mem : p.1 ∈ i.parts.map (·.1) := List.mem_map_of_mem hp
  obtain ⟨hfl, hops⟩ := State.issueOps_spec i.core o.quarters a
  have hcyc : a.cyc = s.cyc := ha.beside.cyc
  have hq : (o.quarters.map fun q => ({ q with since := a.cyc.toNat } : MemOp)) =
      (s.accessOp i p (2 ^ l) false r pieces act order scope).quarters := by
    rw [hcyc, ← MemOp.quarters_since, hop]
  have hin : plainOps (s.accessOp i p (2 ^ l) false r pieces act order scope).quarters p.1 =
      (s.accessOp i p (2 ^ l) false r pieces act order scope).quarters :=
    plainOps_quarters (s.accessOp i p (2 ^ l) false r pieces act order scope) rfl hact
  have hout : ∀ k, k ≠ p.1 → plainOps (s.accessOp i p (2 ^ l) false r pieces act order scope).quarters k = [] := by
    intro k hk
    refine plainOps_other fun q hq => ?_
    obtain ⟨w, a', ps, vs, rfl, _⟩ := MemOp.quarters_mem hq hact
    exact fun e => hk e.symm
  generalize hb : o.quarters.foldl (fun s o => s.issueOp i.core o) a = b at ho hfl hops
  have hthr : ∀ m, b.thr i.core p.1 m = a.thr i.core p.1 m := by
    intro m
    simp [State.thr, State.grp, hfl.core.grps]
  have hog : OnlyGroup a b i.core p.1 :=
    OnlyGroup.flight hfl fun k hk => by rw [hops k, hq, hout k hk, List.append_nil]
  have hopp : (b.core i.core).opsOf p.1 = (a.core i.core).opsOf p.1 ++
      (s.accessOp i p (2 ^ l) false r pieces act order scope).quarters := by rw [hops, hq, hin]
  unfold State.issueLane
  rw [ho]
  cases counted with
  | false =>
    refine ⟨_, rfl, LaneMemFrame.flight hfl, hog, hopp, fun m => ?_⟩
    simp only [Bool.false_eq_true, and_false, if_false]
    exact hthr m
  | true =>
    refine ⟨_, rfl, (LaneMemFrame.flight hfl).trans (LaneMemFrame.countUp _ i p.1 mem l), hog.trans (OnlyGroup.modGrp _ _ _ _), ?_,
      fun m => ?_⟩
    · rw [← hopp]
      show ((b.countUp i.core p.1 l).core i.core).opsOf p.1 = _
      unfold State.countUp State.modThr State.modGrp
      rw [State.core_modCore_self]
      rfl
    · simp only [and_true]
      show (b.countUp i.core p.1 l).thr i.core p.1 m = _
      unfold State.countUp
      by_cases e : m = l
      · subst e; rw [State.thr_modThr_self, hthr, if_pos rfl]
      · rw [State.thr_modThr_ne _ _ _ _ e, hthr, if_neg e]

/-- The accesses of several lanes, in their order. -/
theorem laneAccess_fold {s : State} (i : Inst) (p : Nat × Nat) (hp : p ∈ i.parts) (guard : Nat) (r : Nat → Reach)
    (pieces : Nat → List (Nat × Nat)) (act : Nat → MemAct) (hact : ∀ l, act l ≠ .fence) (order : Order) (scope : Scope)
    (sw counted : Bool) (hc : s.choose 2 = false) (ls : List Nat) (hn : ls.Nodup)
    (hf : ∀ l ∈ ls, s.found i.core (s.launchOf i.core p.1).ctx (act l).need (r l) = some (pieces l)) (a : State)
    (ha : LaneMemFrame s a i) :
    ∃ b, (ls.foldl (fun a l => a.issueLane (i.part s guard p) l sw counted (r l) (act l) order scope) a) = b ∧
      LaneMemFrame a b i ∧ OnlyGroup a b i.core p.1 ∧
      (b.core i.core).opsOf p.1 = (a.core i.core).opsOf p.1 ++
        ls.flatMap (fun l => (s.accessOp i p (2 ^ l) false (r l) (pieces l) (act l) order scope).quarters) ∧
      ∀ m, b.thr i.core p.1 m =
        if m ∈ ls ∧ counted = true then { a.thr i.core p.1 m with count := (a.thr i.core p.1 m).count + 1 } else a.thr i.core p.1 m := by
  induction ls generalizing a with
  | nil => exact ⟨a, rfl, LaneMemFrame.refl a i, OnlyGroup.refl a _ _, by simp, fun m => by simp⟩
  | cons l ls ih =>
    rw [List.nodup_cons] at hn
    obtain ⟨b, hb, fb, ob, pb, tb⟩ := laneAccess_step i p hp guard l (r l) (pieces l) (act l) (hact l) order scope sw counted ha hc
      (hf l (by simp))
    obtain ⟨d, hd, fd, od, pd, td⟩ := ih hn.2 (fun k hk => hf k (by simp [hk])) b (ha.trans fb)
    refine ⟨d, ?_, fb.trans fd, ob.trans od, ?_, fun m => ?_⟩
    · rw [List.foldl_cons, hb, hd]
    · rw [pd, pb, List.flatMap_cons, List.append_assoc]
    · rw [td m, tb m]
      by_cases e : m = l
      · subst e
        cases counted <;> simp [hn.1]
      · simp [e]

/-- What a lane memory word does to one part. -/
def laneMemBody (sw : Bool) (regs : List (Nat × Nat)) (srcs data : List Nat) (counted reads : Bool) (k : AccKind) (size : Nat)
    (plane : Option Nat) (order : Order) (scope : Scope) (ea : (Nat → Word) → Nat) (act : (Nat → Word) → MemAct)
    (s : State) (p : Part) : LaneOut :=
  match s.addrChecks p (regs.map fun r => (true, r.1, r.2)) srcs data with
  | some t => LaneOut.trap t
  | none =>
    let full := if counted then s.fullLanes p else []
    let rd (l : Nat) (r : Nat) : Word := s.rdV p.core p.slot r l
    let todo := (p.lanesL.filter fun l => !full.contains l).map fun l =>
      (l, s.reach p k reads l (ea (rd l)) size plane)
    match worstTrap ((s.staleLane p data).toList ++ todo.filterMap fun e => match e.2 with | .error t => some t | .ok _ => none) with
    | some t => .trap t
    | none =>
      .ok (todo.foldl (fun a e => match e.2 with
        | .error _ => a
        | .ok r => a.issueLane p e.1 sw counted r (act (rd e.1)) order scope) (s.implicitSwitch p full))

theorem laneMem_eq (c : LaneCtl) (s : State) (regs : List (Nat × Nat)) (srcs data : List Nat) (counted reads : Bool) (k : AccKind)
    (size : Nat) (plane : Option Nat) (order : Order) (scope : Scope) (ea : (Nat → Word) → Nat) (act : (Nat → Word) → MemAct) :
    laneMem c s regs srcs data counted reads k size plane order scope ea act =
      runLane c.sw c.g.val s (laneMemBody c.sw regs srcs data counted reads k size plane order scope ea act) := rfl

theorem worstTrap_nil : worstTrap [] = none := rfl

/-- A lane memory word on ready operands, good addresses and pages in the TLB (R124 to R129): its result; `rds` are the registers
that its address and its operands depend on. -/
theorem laneMem_spec (c : LaneCtl) (s : State) (i : Inst) (regs : List (Nat × Nat)) (srcs data rds : List Nat) (counted reads : Bool)
    (k : AccKind) (size : Nat) (plane : Option Nat) (order : Order) (scope : Scope) (ea : (Nat → Word) → Nat)
    (act : (Nat → Word) → MemAct) (hact : ∀ rd, act rd ≠ .fence) (hneed : ∀ rd, (act rd).need = if k = .load then .read else .write)
    (r : Nat × Nat → Nat → Reach) (pieces : Nat × Nat → Nat → List (Nat × Nat)) (hr : s.running i) (hh : i.handler = false)
    (hc : s.choose 2 = false) (hready : ∀ p ∈ i.parts, s.laneReady i p.1 regs (srcs ++ data))
    (hin : ∀ n ∈ srcs ++ data ++ rds, ∃ e ∈ regs, e.1 ≤ n ∧ n < e.1 + e.2)
    (hea : ∀ rd rd', (∀ n ∈ rds, rd n = rd' n) → ea rd = ea rd')
    (hex : ∀ rd rd', (∀ n ∈ rds, rd n = rd' n) → act rd = act rd')
    (hacc : ∀ p ∈ i.parts, ∀ l, s.executes i p c.g.val l →
      s.accessReady i p c.g.val counted reads k size plane (ea fun n => s.rdV i.core p.1 n l) l (r p l) (pieces p l)) :
    ∃ t, laneMem c s regs srcs data counted reads k size plane order scope ea act = .next t ∧
      LaneMemResult s t i c.g.val counted fun p l =>
        s.accessOp i p (2 ^ l) false (r p l) (pieces p l) (act fun n => s.rdV i.core p.1 n l) order scope := by
  have mem : ∀ p ∈ i.parts, p.1 ∈ i.parts.map (·.1) := fun p hp => List.mem_map_of_mem hp
  have h128 : ∀ p ∈ i.parts, ∀ n ∈ srcs ++ data ++ rds, n < 128 := by
    intro p hp n hn
    obtain ⟨e, he, _, h2⟩ := hin n hn
    have := (hready p hp).1 e he
    have := (hr.2.2 p hp).2
    omega
  let op (p : Nat × Nat) (l : Nat) : MemOp :=
    s.accessOp i p (2 ^ l) false (r p l) (pieces p l) (act fun n => s.rdV i.core p.1 n l) order scope
  -- what the body does to one part
  have body : ∀ p ∈ i.parts, ∀ a, LaneMemFrame s a i → Agree s a i.core p.1 → ∃ b,
      laneMemBody c.sw regs srcs data counted reads k size plane order scope ea act (a.ahead i p) (i.part s c.g.val p) = .ok b ∧
      LaneMemFrame (a.ahead i p) b i ∧ OnlyGroup (a.ahead i p) b i.core p.1 ∧
      (b.core i.core).opsOf p.1 = ((a.ahead i p).core i.core).opsOf p.1 ++ (s.executing i p c.g.val).flatMap (fun l => (op p l).quarters) ∧
      ∀ m, b.thr i.core p.1 m = if m ∈ s.executing i p c.g.val ∧ counted = true then
        { (a.ahead i p).thr i.core p.1 m with count := ((a.ahead i p).thr i.core p.1 m).count + 1 } else (a.ahead i p).thr i.core p.1 m := by
    intro p hp a ra ha
    have hchk := State.laneChecks_none (s := s) (a := a) (i := i) (p := p) c.g.val (regs.map fun r => (true, r.1, r.2)) srcs ha
      (by
        intro x hx
        obtain ⟨e, he, rfl⟩ := List.mem_map.1 hx
        simpa using (hready p hp).1 e he)
      (fun n hn => h128 p hp n (List.mem_append_left _ (List.mem_append_left _ hn))) ((hready p hp).2.imp id fun h n hn => h n (List.mem_append_left _ hn))
    have hdat : (a.ahead i p).staleLane (i.part s c.g.val p) data = none := by
      have h := State.laneChecks_none (s := s) (a := a) (i := i) (p := p) c.g.val [] data ha (by simp)
        (fun n hn => h128 p hp n (List.mem_append_left _ (List.mem_append_right _ hn))) ((hready p hp).2.imp id fun h n hn => h n (List.mem_append_right _ hn))
      exact h
    have hchk' : (a.ahead i p).addrChecks (i.part s c.g.val p) (regs.map fun r => (true, r.1, r.2)) srcs data = none := by
      unfold State.addrChecks
      rw [hchk]
    have fra : LaneMemFrame s (a.ahead i p) i := ra.trans (LaneMemFrame.setPcs a i p.1 (mem p hp) _ _)
    have hops : ((a.ahead i p).core i.core).opsOf p.1 = (s.core i.core).opsOf p.1 := by
      rw [← ha.ops]
      unfold State.ahead State.setPcs State.modGrp
      rw [State.core_modCore_self]
      rfl
    have hrd : ∀ l, ∀ n ∈ rds, (a.ahead i p).rdV i.core p.1 n l = s.rdV i.core p.1 n l :=
      fun l n hn => ha.rdV_ahead (h128 p hp n (List.mem_append_right _ hn)) l
    have hcnt : ∀ l, ((a.ahead i p).thr i.core p.1 l).count = (s.thr i.core p.1 l).count := by
      intro l
      have e : ((a.ahead i p).thr i.core p.1 l).count = (a.thr i.core p.1 l).count := by
        simp only [State.ahead, State.thr_setPcs _ _ _ _ (nodup_maskList _ _)]
        split <;> rfl
      rw [e, ha.thr]
    have hfull : (if counted then (a.ahead i p).fullLanes (i.part s c.g.val p) else []) = [] := by
      cases hcd : counted with
      | false => rfl
      | true =>
        simp only [if_true]
        unfold State.fullLanes
        rw [List.filter_eq_nil_iff]
        intro l hl
        have hx := Inst.mem_lanesL.1 hl
        have := (hacc p hp l hx).room hcd
        simp only [Inst.part_core, Inst.part_slot, hcnt, beq_iff_eq]
        exact this
    have hreach : ∀ l ∈ (i.part s c.g.val p).lanesL, (a.ahead i p).reach (i.part s c.g.val p) k reads l
        (ea fun n => (a.ahead i p).rdV i.core p.1 n l) size plane = .ok (r p l) := by
      intro l hl
      have hx := Inst.mem_lanesL.1 hl
      rw [hea _ _ (hrd l), (fra.sameReach hops).reach (p := i.part s c.g.val p)]
      exact (hacc p hp l hx).reach
    have htodo : ((i.part s c.g.val p).lanesL.filter fun l => !([] : List Nat).contains l).map (fun l =>
        (l, (a.ahead i p).reach (i.part s c.g.val p) k reads l (ea fun n => (a.ahead i p).rdV i.core p.1 n l) size plane)) =
        (i.part s c.g.val p).lanesL.map fun l => (l, Except.ok (r p l)) := by
      have e : ((i.part s c.g.val p).lanesL.filter fun l => !([] : List Nat).contains l) = (i.part s c.g.val p).lanesL := by
        rw [List.filter_eq_self]; simp
      rw [e]
      exact List.map_congr_left fun l hl => by rw [hreach l hl]
    obtain ⟨b, hb, fb, ob, pb, tb⟩ := laneAccess_fold i p hp c.g.val (r p) (pieces p) (fun l => act fun n => s.rdV i.core p.1 n l)
      (fun l => hact _) order scope c.sw counted hc (i.part s c.g.val p).lanesL (Inst.nodup_lanesL _ _ _ _)
      (fun l hl => by rw [hneed]; exact (hacc p hp l (Inst.mem_lanesL.1 hl)).found) (a.ahead i p) fra
    refine ⟨b, ?_, fb, ob, by rw [pb, Inst.lanesL_eq], fun m => by rw [tb m, Inst.lanesL_eq]⟩
    simp only [laneMemBody, hchk', hfull, Inst.part_core, Inst.part_slot, hdat, Option.toList_none, List.nil_append]
    rw [htodo]
    have hno : (((i.part s c.g.val p).lanesL.map fun l => (l, (Except.ok (r p l) : Except Trap Reach))).filterMap fun e =>
        match e.2 with | .error t => some t | .ok _ => none) = [] := by
      rw [List.filterMap_map]
      rw [List.filterMap_eq_nil_iff]
      intro l _
      rfl
    rw [hno]
    show LaneOut.ok _ = _
    congr 1
    rw [List.foldl_map]
    show List.foldl _ ((a.ahead i p).implicitSwitch (i.part s c.g.val p) []) _ = b
    have himp : (a.ahead i p).implicitSwitch (i.part s c.g.val p) [] = a.ahead i p := rfl
    rw [himp, ← hb]
    refine List.foldl_ext _ _ _ fun d l _ => ?_
    have hact' : (act fun n => (a.ahead i p).rdV i.core p.1 n l) = act fun n => s.rdV i.core p.1 n l := hex _ _ (hrd l)
    show d.issueLane (i.part s c.g.val p) l c.sw counted (r p l) (act fun n => (a.ahead i p).rdV i.core p.1 n l) order scope = _
    rw [hact']
  obtain ⟨t, ht, hR, hp⟩ := runLane_spec (fun a b => LaneMemFrame a b i) (fun a => LaneMemFrame.refl a i)
    (fun _ _ _ => LaneMemFrame.trans) c.sw c.g.val s i
    (laneMemBody c.sw regs srcs data counted reads k size plane order scope ea act)
    hr hh (fun a => LaneMemFrame.goOn a i hh)
    (fun p hp a => LaneMemFrame.setPcs a i p.1 (mem p hp) _ _) (fun p hp a => LaneMemFrame.switchLanes a i p.1 (mem p hp) _)
    (fun p hp a ra ha => by
      obtain ⟨b, hb, fb, ob, _, _⟩ := body p hp a ra ha
      exact ⟨b, hb, fb, ob⟩)
  have swc : ∀ (b : State) (p : Nat × Nat) l,
      ((if c.sw then b.switchLanes i.core p.1 (maskList p.2 64) else b).thr i.core p.1 l).count = (b.thr i.core p.1 l).count := by
    intro b p l
    cases c.sw with
    | false => rfl
    | true =>
      simp only [if_true, State.thr_switchLanes _ _ _ _ (nodup_maskList _ _)]
      split <;> rfl
  have swo : ∀ (b : State) (p : Nat × Nat),
      ((if c.sw then b.switchLanes i.core p.1 (maskList p.2 64) else b).core i.core).opsOf p.1 = (b.core i.core).opsOf p.1 := by
    intro b p
    cases c.sw with
    | false => rfl
    | true =>
      simp only [if_true]
      unfold State.switchLanes State.modGrp
      rw [State.core_modCore_self]
      rfl
  have fin : ∀ p ∈ i.parts, ∃ a b, Agree s a i.core p.1 ∧
      (b.core i.core).opsOf p.1 = ((a.ahead i p).core i.core).opsOf p.1 ++ (s.executing i p c.g.val).flatMap (fun l => (op p l).quarters) ∧
      (∀ m, b.thr i.core p.1 m = if m ∈ s.executing i p c.g.val ∧ counted = true then
        { (a.ahead i p).thr i.core p.1 m with count := ((a.ahead i p).thr i.core p.1 m).count + 1 } else (a.ahead i p).thr i.core p.1 m) ∧
      Agree (if c.sw then b.switchLanes i.core p.1 (maskList p.2 64) else b) t i.core p.1 := by
    intro p hpp
    obtain ⟨a, b, ra, ha, hb, hbt⟩ := hp p hpp
    obtain ⟨b', hb', _, _, pb, tb⟩ := body p hpp a ra ha
    have e : b' = b := by
      have e := hb'.symm.trans hb
      injection e
    subst e
    exact ⟨a, b', ha, pb, tb, hbt⟩
  refine ⟨t, ht, hR, ?_, ?_, ?_⟩
  · intro p hpp l hl hpl
    obtain ⟨a, b, ha, pb, tb, hbt⟩ := fin p hpp
    rw [hbt.thr l]
    refine State.pc_ahead_switch a b i p c.sw l hl hpl ?_
    rw [tb l]
    split <;> rfl
  · intro p hpp
    obtain ⟨a, b, ha, pb, tb, hbt⟩ := fin p hpp
    rw [hbt.ops, swo, pb]
    have e : ((a.ahead i p).core i.core).opsOf p.1 = (s.core i.core).opsOf p.1 := by
      rw [← ha.ops]
      unfold State.ahead State.setPcs State.modGrp
      rw [State.core_modCore_self]
      rfl
    rw [e]
    rfl
  · intro p hpp l
    obtain ⟨a, b, ha, pb, tb, hbt⟩ := fin p hpp
    have hcnt : ((a.ahead i p).thr i.core p.1 l).count = (s.thr i.core p.1 l).count := by
      have e : ((a.ahead i p).thr i.core p.1 l).count = (a.thr i.core p.1 l).count := by
        simp only [State.ahead, State.thr_setPcs _ _ _ _ (nodup_maskList _ _)]
        split <;> rfl
      rw [e, ha.thr]
    rw [hbt.thr l, swc, tb l]
    have hm : l ∈ s.executing i p c.g.val ↔ s.executes i p c.g.val l = true := by
      rw [← Inst.lanesL_eq]; exact Inst.mem_lanesL
    by_cases hx : s.executes i p c.g.val l = true
    · cases counted with
      | false => simp [hcnt]
      | true => simp [hm, hx, hcnt]
    · simp [hm, hx, hcnt]

end Sys2Proof.Machine
end

