-- ==== Sys2Proof/Laws/Convert.lean ====
section
/-! SUPPORT. `VOTE` and `CVT`, which write a register and something of the thread besides. -/

namespace Sys2Proof.Machine

/-! ### `VOTE` -/

/-- `VOTE.ballot` on registers of the allocation (R122). -/
theorem execVote_ballot (c : LaneCtl) (vd : VReg) (pd : PReg) (neg : Bool) (ps : PReg) (s : State) (i : Inst) (hr : s.running i)
    (hh : i.handler = false) (hready : ∀ p ∈ i.parts, s.laneReady i p.1 [(vd, 2)] []) :
    ∃ t, execVote c .ballot vd pd neg ps s = .next t ∧ LaneResult s t i c.g.val [vd, vd.val + 1] fun p _ =>
      putPair vd (listMask ((s.executing i p c.g.val).filter (s.votes i p ps neg))) := by
  unfold execVote
  refine runLane_writes c.sw c.g.val s i _ [vd, vd.val + 1] _ hr hh (fun _ _ _ => rfl) (by simp) ?_ ?_
  · intro p hp r h
    have h1 := (hready p hp).1 (vd.val, 2) (by simp)
    have h2 := (hr.2.2 p hp).2
    simp only [List.mem_cons, List.not_mem_nil, or_false] at h
    simp only at h1
    omega
  intro p hp a ha
  have hc := State.laneChecks_none (s := s) (a := a) (i := i) (p := p) c.g.val [(true, vd.val, 2)] [] ha
    (by simpa using (hready p hp).1 (vd.val, 2) (by simp)) (by simp) (hready p hp).2
  have e : ∀ l, (((a.ahead i p).thr i.core p.1 l).pred ps != neg) = s.votes i p ps neg l := by
    intro l; rw [ha.pred_ahead]; rfl
  simp only [if_true, hc, Inst.part_core, Inst.part_slot, Inst.lanesL_eq, e]
  rfl

/-- What a lane word leaves that writes one register and one predicate in each executing lane. -/
theorem runLane_both (sw : Bool) (guard : Nat) (s : State) (i : Inst) (f : State → Part → LaneOut) (vd : VReg) (pd : PReg)
    (word : Nat × Nat → Nat → Word) (val : Nat × Nat → Nat → Bool) (hr : s.running i) (hh : i.handler = false)
    (hf : ∀ p ∈ i.parts, ∀ a, Agree s a i.core p.1 → f (a.ahead i p) (i.part s guard p) =
      .ok ((i.part s guard p).lanesL.foldl (fun a l => (a.wrV i.core p.1 vd l (word p l)).modThr i.core p.1 l
        fun t => t.setPred pd (val p l)) (a.ahead i p))) :
    ∃ t, runLane sw guard s f = .next t ∧ LaneFrame s t i [vd] pd ∧
      (∀ p ∈ i.parts, ∀ l, l < 64 → p.2.testBit l = true → (t.thr i.core p.1 l).pc = i.after) ∧
      (∀ p ∈ i.parts, ∀ l, s.executes i p guard l → t.rdV i.core p.1 vd l = word p l ∧
        (t.thr i.core p.1 l).pred pd = (pd.val == 7 || val p l)) ∧
      ∀ p ∈ i.parts, ∀ l, ¬ s.executes i p guard l → t.rdV i.core p.1 vd l = s.rdV i.core p.1 vd l ∧
        (t.thr i.core p.1 l).preds = (s.thr i.core p.1 l).preds := by
  have mem : ∀ p ∈ i.parts, p.1 ∈ i.parts.map (·.1) := fun p hp => List.mem_map_of_mem hp
  obtain ⟨t, ht, hR, hp⟩ := runLane_spec (fun a b => LaneFrame a b i [vd.val] pd) (fun a => LaneFrame.refl a i _ pd)
    (fun _ _ _ => LaneFrame.trans) sw guard s i f hr hh (fun a => LaneFrame.goOn a i hh _ pd)
    (fun p hp a => LaneFrame.setPcs a i p.1 (mem p hp) _ pd _ _) (fun p hp a => LaneFrame.switchLanes a i p.1 (mem p hp) _ pd _)
    (fun p hp a _ ha => ⟨_, hf p hp a ha,
      foldl_rel (fun a b => LaneFrame a b i [vd.val] pd) (fun a => LaneFrame.refl a i _ pd) (fun _ _ _ => LaneFrame.trans) _ _
        (fun a l _ => (LaneFrame.wrV a i p.1 (mem p hp) [vd.val] pd (by simp) vd.isLt l (word p l)).trans
          (LaneFrame.modThr _ i p.1 (mem p hp) [vd.val] pd l _)) _,
      foldl_rel (fun a b => OnlyGroup a b i.core p.1) (fun a => OnlyGroup.refl a _ _) (fun _ _ _ => OnlyGroup.trans) _ _
        (fun a l _ => (OnlyGroup.wrV a i.core p.1 l (word p l) vd.isLt).trans (OnlyGroup.modGrp _ _ _ _)) _⟩)
  have obsR : ∀ (p : Nat × Nat) (b : State) (m : Nat),
      ((i.part s guard p).lanesL.foldl (fun a l => (a.wrV i.core p.1 vd l (word p l)).modThr i.core p.1 l
        fun t => t.setPred pd (val p l)) b).rdV i.core p.1 vd m =
      if m ∈ (i.part s guard p).lanesL then word p m else b.rdV i.core p.1 vd m := fun p b m =>
    foldl_obs (fun a m => a.rdV i.core p.1 vd m) _ (fun l _ => word p l) _ (Inst.nodup_lanesL _ _ _ _)
      (fun a l _ => by simp only [State.rdV_modThr, State.rdV_wrV _ _ _ _ _ _ vd.isLt vd.isLt, and_self, if_true])
      (fun a l m _ hm => by simp only [State.rdV_modThr, State.rdV_wrV _ _ _ _ _ _ vd.isLt vd.isLt, hm, and_false, if_false]) b m
  have obsT : ∀ (p : Nat × Nat) (b : State) (m : Nat),
      ((i.part s guard p).lanesL.foldl (fun a l => (a.wrV i.core p.1 vd l (word p l)).modThr i.core p.1 l
        fun t => t.setPred pd (val p l)) b).thr i.core p.1 m =
      if m ∈ (i.part s guard p).lanesL then (b.thr i.core p.1 m).setPred pd (val p m) else b.thr i.core p.1 m := fun p b m =>
    foldl_obs (fun a m => a.thr i.core p.1 m) _ (fun l t => t.setPred pd (val p l)) _ (Inst.nodup_lanesL _ _ _ _)
      (fun a l _ => by simp only [State.thr_modThr_self, State.thr_wrV])
      (fun a l m _ hm => by simp only [State.thr_modThr_ne _ _ _ _ hm, State.thr_wrV]) b m
  have swp : ∀ (b : State) (p : Nat × Nat) l,
      ((if sw then b.switchLanes i.core p.1 (maskList p.2 64) else b).thr i.core p.1 l).preds = (b.thr i.core p.1 l).preds := by
    intro b p l
    cases sw with
    | false => rfl
    | true =>
      simp only [if_true, State.thr_switchLanes _ _ _ _ (nodup_maskList _ _)]
      split <;> rfl
  have ahp : ∀ (a : State) (p : Nat × Nat) l, ((a.ahead i p).thr i.core p.1 l).preds = (a.thr i.core p.1 l).preds := by
    intro a p l
    simp only [State.ahead, State.thr_setPcs _ _ _ _ (nodup_maskList _ _)]
    split <;> rfl
  refine ⟨t, ht, hR, ?_, ?_, ?_⟩
  · intro p hpp l hl hpl
    obtain ⟨a, b, _, ha, hb, hbt⟩ := hp p hpp
    rw [hf p hpp a ha] at hb
    injection hb with hb
    rw [hbt.thr l]
    refine State.pc_ahead_switch a b i p sw l hl hpl ?_
    rw [← hb, obsT]
    split
    · unfold Thread.setPred; split <;> rfl
    · rfl
  · intro p hpp l hx
    obtain ⟨a, b, _, ha, hb, hbt⟩ := hp p hpp
    rw [hf p hpp a ha] at hb
    injection hb with hb
    constructor
    · rw [hbt.rdV vd.isLt, State.rdV_switch, ← hb, obsR, if_pos (Inst.mem_lanesL.2 hx)]
    · have e : (t.thr i.core p.1 l).pred pd = (b.thr i.core p.1 l).pred pd := by
        unfold Thread.pred; rw [hbt.thr l, swp]
      rw [e, ← hb, obsT, if_pos (Inst.mem_lanesL.2 hx)]
      exact Thread.pred_setPred _ _ _
  · intro p hpp l hx
    obtain ⟨a, b, _, ha, hb, hbt⟩ := hp p hpp
    rw [hf p hpp a ha] at hb
    injection hb with hb
    have hn : l ∉ (i.part s guard p).lanesL := fun h => hx (Inst.mem_lanesL.1 h)
    constructor
    · rw [hbt.rdV vd.isLt, State.rdV_switch, ← hb, obsR, if_neg hn, ha.rdV_ahead vd.isLt]
    · rw [hbt.thr l, swp, ← hb, obsT, if_neg hn, ahp, ha.thr]

theorem all_iff_filter (ls : List Nat) (x : Nat → Bool) : ((ls.filter x).length == ls.length) = ls.all x := by
  have e : (ls.filter x).length = ls.length ↔ ls.all x = true := by
    rw [List.length_filter_eq_length_iff, List.all_eq_true]
  cases h : ls.all x
  · rw [h] at e; simpa using e
  · rw [h] at e; simpa using e

theorem any_iff_filter (ls : List Nat) (x : Nat → Bool) : (!(ls.filter x).isEmpty) = ls.any x := by
  induction ls with
  | nil => rfl
  | cons a ls ih => cases h : x a <;> simp_all

/-- `VOTE` other than a ballot on registers of the allocation (R122). -/
theorem execVote_spec (c : LaneCtl) (mode : VoteMode) (vd : VReg) (pd : PReg) (neg : Bool) (ps : PReg) (s : State) (i : Inst)
    (hm : mode ≠ .ballot) (hr : s.running i) (hh : i.handler = false) (hready : ∀ p ∈ i.parts, s.laneReady i p.1 [(vd, 1)] []) :
    ∃ t, execVote c mode vd pd neg ps s = .next t ∧ LaneFrame s t i [vd] pd ∧
      (∀ p ∈ i.parts, ∀ l, l < 64 → p.2.testBit l = true → (t.thr i.core p.1 l).pc = i.after) ∧
      (∀ p ∈ i.parts, ∀ l, s.executes i p c.g.val l →
        t.rdV i.core p.1 vd l = (if s.voteVal i p c.g.val mode ps neg then 1 else 0) ∧
        (t.thr i.core p.1 l).pred pd = (pd.val == 7 || s.voteVal i p c.g.val mode ps neg)) ∧
      ∀ p ∈ i.parts, ∀ l, ¬ s.executes i p c.g.val l → t.rdV i.core p.1 vd l = s.rdV i.core p.1 vd l ∧
        (t.thr i.core p.1 l).preds = (s.thr i.core p.1 l).preds := by
  unfold execVote
  refine runLane_both c.sw c.g.val s i _ vd pd (fun p _ => if s.voteVal i p c.g.val mode ps neg then 1 else 0)
    (fun p _ => s.voteVal i p c.g.val mode ps neg) hr hh ?_
  intro p hp a ha
  have hc := State.laneChecks_none (s := s) (a := a) (i := i) (p := p) c.g.val [(true, vd.val, 1)] [] ha
    (by simpa using (hready p hp).1 (vd.val, 1) (by simp)) (by simp) (hready p hp).2
  have e : ∀ l, (((a.ahead i p).thr i.core p.1 l).pred ps != neg) = s.votes i p ps neg l := by
    intro l; rw [ha.pred_ahead]; rfl
  have h2 : ((s.executing i p c.g.val).filter (s.votes i p ps neg)).isEmpty = !(s.executing i p c.g.val).any (s.votes i p ps neg) := by
    rw [← any_iff_filter, Bool.not_not]
  simp only [hm, if_false, hc, Inst.part_core, Inst.part_slot, Inst.lanesL_eq, e]
  cases mode with
  | all => simp only [all_iff_filter]; rfl
  | any => simp only [any_iff_filter]; rfl
  | eq => simp only [all_iff_filter, h2, Bool.or_comm]; rfl
  | ballot => exact absurd rfl hm

/-! ### `CVT` -/

theorem LaneFrame.cvt {s t : State} {i : Inst} {ds : List Nat} (h : LaneFrame s t i ds 7) : CvtFrame s t i ds where
  beside := h.beside
  others := h.others
  core := h.core
  outside := h.outside
  groups g := by
    have e := congrArg (fun x : Group => { x with mxstat := (s.grp i.core g).mxstat, setAt := (s.grp i.core g).setAt, setNow := (s.grp i.core g).setNow })
      (h.groups g)
    exact e
  threads g l := by
    obtain ⟨e, hb⟩ := h.threads g l
    have hp : (t.thr i.core g l).preds = (s.thr i.core g l).preds := by
      apply BitVec.eq_of_getLsbD_eq
      intro k hk
      exact hb k (by omega)
    rw [← hp] at e
    have e2 := congrArg (fun x : Thread => { x with seed := (s.thr i.core g l).seed }) e
    exact e2
  rows := h.rows

theorem CvtFrame.refl (s : State) (i : Inst) (ds : List Nat) : CvtFrame s s i ds :=
  ⟨rfl, fun _ _ => rfl, rfl, fun _ _ => rfl, fun _ => rfl, fun _ _ => rfl, fun _ _ _ _ => rfl⟩

theorem CvtFrame.trans {a b d : State} {i : Inst} {ds : List Nat} (h : CvtFrame a b i ds) (k : CvtFrame b d i ds) :
    CvtFrame a d i ds where
  beside := h.beside.trans k.beside
  others c hc := (k.others c hc).trans (h.others c hc)
  core := h.core.trans k.core
  outside g hg := (k.outside g hg).trans (h.outside g hg)
  groups g := by
    have e := h.groups g
    rw [← k.groups g] at e
    exact e
  threads g l := by
    have e := h.threads g l
    rw [← k.threads g l] at e
    exact e
  rows g r ho hr := (k.rows g r ho hr).trans (h.rows g r ho hr)

/-- A change to one group of the instance that leaves all of it but what `CVT` may change. -/
theorem CvtFrame.modGrp (s : State) (i : Inst) (g : Nat) (hg : g ∈ i.parts.map (·.1)) (ds : List Nat) (f : Group → Group)
    (h1 : ∀ x : Group, { f x with thr := x.thr, mxstat := x.mxstat, setAt := x.setAt, setNow := x.setNow } = x)
    (h2 : ∀ (x : Group) (l : Nat), { Tbl.get (f x).thr l with pc := (Tbl.get x.thr l).pc, sw := (Tbl.get x.thr l).sw, seed := (Tbl.get x.thr l).seed } = Tbl.get x.thr l) :
    CvtFrame s (s.modGrp i.core g f) i ds where
  beside := rfl
  others c hc := State.core_modCore_ne s _ hc
  core := by
    unfold State.modGrp
    rw [State.core_modCore_self]
    rfl
  outside k hk := State.grp_modGrp_ne s _ _ (fun e => hk (e ▸ hg))
  groups k := by
    by_cases e : k = g
    · subst e; rw [State.grp_modGrp_self]; exact h1 _
    · rw [State.grp_modGrp_ne _ _ _ e]
  threads k l := by
    by_cases e : k = g
    · subst e; unfold State.thr; rw [State.grp_modGrp_self]; exact h2 _ _
    · unfold State.thr; rw [State.grp_modGrp_ne _ _ _ e]
  rows k r _ _ := State.row_modGrp _ _ _ _ _ _

/-- One lane of `CVT`. -/
def State.cvtLane (s : State) (c g l : Nat) (ws : List (Nat × Word)) (k : Conv) (cyc : Nat) : State :=
  ((s.wrList c g l ws).modThr c g l fun t => { t with seed := k.rs }).modGrp c g fun x => x.setFlags cyc k.nv k.of false false

/-- Flags set change `mxstat` and what was set in this cycle (R25, R45). -/
theorem Group.setFlags_frame (g : Group) (cyc : Nat) (a b c d : Bool) :
    { g.setFlags cyc a b c d with thr := g.thr, mxstat := g.mxstat, setAt := g.setAt, setNow := g.setNow } = g := by
  unfold Group.setFlags
  by_cases h : ((if a then 1 else 0) ||| (if b then 2 else 0) ||| (if c then 4 else 0) ||| (if d then 8 else 0) : BitVec 4) = 0 <;> simp only [h, if_true, if_false]

@[simp] theorem Group.setFlags_thr (g : Group) (cyc : Nat) (a b c d : Bool) : (g.setFlags cyc a b c d).thr = g.thr := by
  unfold Group.setFlags
  by_cases h : ((if a then 1 else 0) ||| (if b then 2 else 0) ||| (if c then 4 else 0) ||| (if d then 8 else 0) : BitVec 4) = 0 <;> simp only [h, if_true, if_false]

@[simp] theorem Group.setFlags_wg (g : Group) (cyc : Nat) (a b c d : Bool) : (g.setFlags cyc a b c d).wg = g.wg := by
  unfold Group.setFlags
  by_cases h : ((if a then 1 else 0) ||| (if b then 2 else 0) ||| (if c then 4 else 0) ||| (if d then 8 else 0) : BitVec 4) = 0 <;> simp only [h, if_true, if_false]

/-- The flags that stand after some have been set (R45). -/
theorem Group.setFlags_mxstat (g : Group) (cyc : Nat) (a b c d : Bool) : (g.setFlags cyc a b c d).mxstat =
    g.mxstat ||| ((if a then 1 else 0) ||| (if b then 2 else 0) ||| (if c then 4 else 0) ||| (if d then 8 else 0)) := by
  unfold Group.setFlags
  by_cases h : ((if a then 1 else 0) ||| (if b then 2 else 0) ||| (if c then 4 else 0) ||| (if d then 8 else 0) : BitVec 4) = 0 <;> simp only [h, if_true, if_false]
  exact (BitVec.or_zero).symm

theorem State.rdV_cvtLane (s : State) (c g l : Nat) (ws : List (Nat × Word)) (k : Conv) (cyc : Nat) (hk : ∀ w ∈ ws, w.1 < 128) {q : Nat}
    (hq : q < 128) (m : Nat) :
    (s.cvtLane c g l ws k cyc).rdV c g q m = if m = l then written ws q (s.rdV c g q m) else s.rdV c g q m := by
  unfold State.cvtLane
  rw [State.rdV_modGrp, State.rdV_modThr, State.rdV_wrList c g l ws hk hq m s]
  intro x
  exact Group.setFlags_wg ..

theorem State.thr_cvtLane (s : State) (c g l : Nat) (ws : List (Nat × Word)) (k : Conv) (cyc m : Nat) :
    (s.cvtLane c g l ws k cyc).thr c g m = if m = l then { s.thr c g m with seed := k.rs } else s.thr c g m := by
  have e : (s.cvtLane c g l ws k cyc).thr c g m = ((s.wrList c g l ws).modThr c g l fun t => { t with seed := k.rs }).thr c g m := by
    unfold State.cvtLane State.thr
    rw [State.grp_modGrp_self, Group.setFlags_thr]
  rw [e]
  by_cases h : m = l
  · subst h; rw [State.thr_modThr_self, State.thr_wrList, if_pos rfl]
  · rw [State.thr_modThr_ne _ _ _ _ h, State.thr_wrList, if_neg h]

theorem State.mxstat_cvtLane (s : State) (c g l : Nat) (ws : List (Nat × Word)) (k : Conv) (cyc n : Nat) :
    ((s.cvtLane c g l ws k cyc).grp c g).mxstat.getLsbD n =
      ((s.grp c g).mxstat.getLsbD n || (n == 0 && k.nv) || (n == 1 && k.of)) := by
  have e : ((s.cvtLane c g l ws k cyc).grp c g).mxstat = ((s.grp c g).setFlags cyc k.nv k.of false false).mxstat := by
    unfold State.cvtLane
    rw [State.grp_modGrp_self]
    have e1 : (((s.wrList c g l ws).modThr c g l fun t => { t with seed := k.rs }).grp c g).mxstat = (s.grp c g).mxstat := by
      unfold State.modThr
      rw [State.grp_modGrp_self, State.grp_wrList]
    rw [Group.setFlags_mxstat, Group.setFlags_mxstat, e1]
  rw [e, Group.setFlags_mxstat]
  have hb : ((if k.nv then 1 else 0) ||| (if k.of then 2 else 0) ||| (if false then 4 else 0) ||| (if false then 8 else 0) : BitVec 4).getLsbD n =
      ((n == 0 && k.nv) || (n == 1 && k.of)) := by
    rcases n with _ | _ | _ | _ | n
    · cases k.nv <;> cases k.of <;> rfl
    · cases k.nv <;> cases k.of <;> rfl
    · cases k.nv <;> cases k.of <;> rfl
    · cases k.nv <;> cases k.of <;> rfl
    · rw [BitVec.getLsbD_of_ge _ (n + 1 + 1 + 1 + 1) (by omega)]
      simp
  simp only [BitVec.getLsbD_or] at hb ⊢
  rw [hb, Bool.or_assoc]

theorem CvtFrame.cvtLane {i : Inst} {g : Nat} (hg : g ∈ i.parts.map (·.1)) (ds : List Nat) (l : Nat) (ws : List (Nat × Word))
    (k : Conv) (cyc : Nat) (h : ∀ w ∈ ws, w.1 ∈ ds ∧ w.1 < 128) (s : State) : CvtFrame s (s.cvtLane i.core g l ws k cyc) i ds := by
  refine ((LaneFrame.wrList hg 7 l ws h s).cvt.trans (CvtFrame.modGrp _ i g hg ds
    (fun x => { x with thr := Tbl.mod x.thr l fun t => { t with seed := k.rs } }) (fun _ => rfl) ?_)).trans
    (CvtFrame.modGrp _ i g hg ds (fun x => x.setFlags cyc k.nv k.of false false) (fun _ => Group.setFlags_frame ..) (fun _ _ => by simp))
  intro x m
  by_cases e : m = l
  · subst e; simp only [Tbl.get_mod_self]
  · simp only [Tbl.get_mod_ne _ _ e]

theorem OnlyGroup.cvtLane {c g : Nat} (l : Nat) (ws : List (Nat × Word)) (k : Conv) (cyc : Nat) (h : ∀ w ∈ ws, w.1 < 128) (s : State) :
    OnlyGroup s (s.cvtLane c g l ws k cyc) c g :=
  ((OnlyGroup.wrList l ws h s).trans (OnlyGroup.modGrp _ _ _ _)).trans (OnlyGroup.modGrp _ _ _ _)

theorem mxstat_foldl (c g : Nat) (ls : List Nat) (ws : Nat → List (Nat × Word)) (k : Nat → Conv) (cyc n : Nat) (s : State) :
    ((ls.foldl (fun a l => a.cvtLane c g l (ws l) (k l) cyc) s).grp c g).mxstat.getLsbD n =
      ((s.grp c g).mxstat.getLsbD n || (n == 0 && ls.any fun l => (k l).nv) || (n == 1 && ls.any fun l => (k l).of)) := by
  induction ls generalizing s with
  | nil => simp
  | cons l ls ih =>
    rw [List.foldl_cons, ih, State.mxstat_cvtLane]
    simp only [List.any_cons]
    generalize (s.grp c g).mxstat.getLsbD n = M
    generalize (ls.any fun l => (k l).nv) = A
    generalize (ls.any fun l => (k l).of) = B
    generalize (n == 0) = P
    generalize (n == 1) = Q
    cases M <;> cases A <;> cases B <;> cases P <;> cases Q <;> cases (k l).nv <;> cases (k l).of <;> rfl

/-- What `CVT` does to a part. -/
def cvtBody (dst src : Fmt) (mode : Mode) (ftz : Bool) (clamp : Option VReg) (vd : VReg) (di : Fin 16) (va : VReg) (si : Fin 16) :
    State → Part → LaneOut := fun s p =>
      match s.laneChecks p ([(true, vd.val, if dst.width = 64 then 2 else 1), (true, va.val, if src.width = 64 then 2 else 1)] ++
          (clamp.toList.map (·.val)).map (true, ·, 1)) (cvtSrcs dst src clamp vd va) with
      | some t => LaneOut.trap t
      | none => if mode == .rs && (s.core p.core).drainsRs p.slot (s.genOf p.core p.slot) then .wait else
        .ok (p.lanesL.foldl (fun a l =>
        let rd := fun r => s.rdV p.core p.slot r l
        let whole := if src.width = 64 then pairOf rd va else (rd va).toNat
        let e := cvtElement dst src mode ftz (clamp.map fun b => rd b.val) (s.thr p.core p.slot l).seed
          (whole / 2 ^ (src.width * si.val) % 2 ^ src.width)
        let ws' := if dst.width = 64 then putPair vd e.1 else if dst.width = 32 then [(vd.val, BitVec.ofNat 32 e.1)]
          else [(vd.val, BitVec.ofNat 32 (putField (rd vd).toNat dst.width di.val e.1))]
        let a := ws'.foldl (fun a w => a.wrV p.core p.slot w.1 l w.2) a
        let a := a.modThr p.core p.slot l fun t => { t with seed := e.2.rs }
        a.modGrp p.core p.slot fun g => g.setFlags s.cyc.toNat e.2.nv e.2.of false false) s)

/-- `CVT` on ready operands (R116 to R118, R25, R45). -/
theorem execCvt_spec (c : LaneCtl) (dst src : Fmt) (mode : Mode) (ftz : Bool) (clamp : Option VReg) (vd : VReg) (di : Fin 16)
    (va : VReg) (si : Fin 16) (s : State) (i : Inst) (hr : s.running i) (hh : i.handler = false)
    (hready : ∀ p ∈ i.parts, s.laneReady i p.1 (cvtRegs dst src clamp vd va) (cvtSrcs dst src clamp vd va))
    (hrs : mode = .rs → ∀ p ∈ i.parts, (s.core i.core).drainsRs p.1 (s.genOf i.core p.1) = false) :
    ∃ t, execCvt c dst src mode ftz clamp vd di va si s = .next t ∧ CvtFrame s t i (cvtDsts dst vd) ∧
      (∀ p ∈ i.parts, ∀ l, l < 64 → p.2.testBit l = true → (t.thr i.core p.1 l).pc = i.after) ∧
      (∀ p ∈ i.parts, ∀ l, s.executes i p c.g.val l →
        (∀ w ∈ cvtWords dst vd di (s.rdV i.core p.1 vd l) (s.cvtOf i p dst src mode ftz clamp va si l).1,
          t.rdV i.core p.1 w.1 l = w.2) ∧
        (t.thr i.core p.1 l).seed = (s.cvtOf i p dst src mode ftz clamp va si l).2.rs) ∧
      (∀ p ∈ i.parts, ∀ l, ¬ s.executes i p c.g.val l →
        (∀ r, r < 128 → t.rdV i.core p.1 r l = s.rdV i.core p.1 r l) ∧ (t.thr i.core p.1 l).seed = (s.thr i.core p.1 l).seed) ∧
      ∀ p ∈ i.parts, ∀ n, (t.grp i.core p.1).mxstat.getLsbD n = ((s.grp i.core p.1).mxstat.getLsbD n ||
        (n == 0 && (s.executing i p c.g.val).any fun l => (s.cvtOf i p dst src mode ftz clamp va si l).2.nv) ||
        (n == 1 && (s.executing i p c.g.val).any fun l => (s.cvtOf i p dst src mode ftz clamp va si l).2.of)) := by
  have mem : ∀ p ∈ i.parts, p.1 ∈ i.parts.map (·.1) := fun p hp => List.mem_map_of_mem hp
  let W (p : Nat × Nat) (l : Nat) := cvtWords dst vd di (s.rdV i.core p.1 vd l) (s.cvtOf i p dst src mode ftz clamp va si l).1
  let K (p : Nat × Nat) (l : Nat) := (s.cvtOf i p dst src mode ftz clamp va si l).2
  have hW : ∀ p ∈ i.parts, ∀ l, (W p l).map (·.1) = cvtDsts dst vd := by
    intro p _ l
    show (cvtWords _ _ _ _ _).map _ = _
    unfold cvtWords cvtDsts
    split
    · rfl
    · split <;> rfl
  have hd : (cvtDsts dst vd).Nodup := by unfold cvtDsts; split <;> simp
  have hD : ∀ p ∈ i.parts, ∀ r ∈ cvtDsts dst vd, r < 128 := by
    intro p hp r h
    have h1 := (hready p hp).1 (vd.val, if dst.width = 64 then 2 else 1) (by simp [cvtRegs])
    have h2 := (hr.2.2 p hp).2
    unfold cvtDsts at h
    simp only at h1
    split at h <;> simp_all <;> omega
  have hS : ∀ p ∈ i.parts, ∀ r ∈ cvtSrcs dst src clamp vd va, r < 128 := by
    intro p hp r h
    have h1 := (hready p hp).1 (va.val, if src.width = 64 then 2 else 1) (by simp [cvtRegs])
    have h2 := (hr.2.2 p hp).2
    unfold cvtSrcs at h
    simp only [List.mem_append, List.mem_map, List.mem_range] at h
    rcases h with (⟨x, hx, rfl⟩ | ⟨x, _, rfl⟩) | h
    · simp only at h1; omega
    · exact x.isLt
    · split at h
      · simp only [List.mem_cons, List.not_mem_nil, or_false] at h; subst h; exact vd.isLt
      · simp at h
  have hin : ∀ p ∈ i.parts, ∀ l, ∀ w ∈ W p l, w.1 ∈ cvtDsts dst vd ∧ w.1 < 128 := by
    intro p hp l w hw
    have h : w.1 ∈ cvtDsts dst vd := by rw [← hW p hp l]; exact List.mem_map_of_mem hw
    exact ⟨h, hD p hp _ h⟩
  have body : ∀ p ∈ i.parts, ∀ a, CvtFrame s a i (cvtDsts dst vd) → Agree s a i.core p.1 → cvtBody dst src mode ftz clamp vd di va si (a.ahead i p) (i.part s c.g.val p) =
      .ok ((i.part s c.g.val p).lanesL.foldl (fun a l => a.cvtLane i.core p.1 l (W p l) (K p l) s.cyc.toNat) (a.ahead i p)) := by
    intro p hp a ra ha
    have hcy : (a.ahead i p).cyc = s.cyc := ra.beside.cyc
    have hdr : (mode == .rs && ((a.ahead i p).core i.core).drainsRs p.1 ((a.ahead i p).genOf i.core p.1)) = false := by
      have hq : ((a.ahead i p).core i.core).seq = (s.core i.core).seq := by
        rw [show ((a.ahead i p).core i.core).seq = (a.core i.core).seq by
          unfold State.ahead State.setPcs State.modGrp; rw [State.core_modCore_self]]
        exact ra.core.seq
      by_cases h : mode = .rs
      · have := hrs h p hp
        unfold Core.drainsRs at this ⊢
        rw [hq, a.ahead_genOf, ha.genOf, this, Bool.and_false]
      · simp [h]
    have hc := State.laneChecks_none (s := s) (a := a) (i := i) (p := p) c.g.val
      ([(true, vd.val, if dst.width = 64 then 2 else 1), (true, va.val, if src.width = 64 then 2 else 1)] ++
          (clamp.toList.map (·.val)).map (true, ·, 1)) (cvtSrcs dst src clamp vd va) ha
      (by
        intro r h
        simp only [List.mem_append, List.mem_cons, List.not_mem_nil, or_false, List.mem_map] at h
        rcases h with (rfl | rfl) | ⟨x, hx, rfl⟩
        · simpa using (hready p hp).1 (vd.val, if dst.width = 64 then 2 else 1) (by simp [cvtRegs])
        · simpa using (hready p hp).1 (va.val, if src.width = 64 then 2 else 1) (by simp [cvtRegs])
        · obtain ⟨y, hy, rfl⟩ := hx
          simpa using (hready p hp).1 (y.val, 1) (by
            unfold cvtRegs
            exact List.mem_append_right _ (List.mem_map.2 ⟨y.val, List.mem_map.2 ⟨y, hy, rfl⟩, rfl⟩)))
      (fun r h => hS p hp r h) (hready p hp).2
    have hva : ∀ l, (a.ahead i p).rdV i.core p.1 va l = s.rdV i.core p.1 va l := fun l => ha.rdV_ahead va.isLt l
    have hvd : ∀ l, (a.ahead i p).rdV i.core p.1 vd l = s.rdV i.core p.1 vd l := fun l => ha.rdV_ahead vd.isLt l
    have hcl : ∀ l, (clamp.map fun (b : VReg) => (a.ahead i p).rdV i.core p.1 b l) = clamp.map fun (b : VReg) => s.rdV i.core p.1 b l := by
      intro l; congr 1; funext b; exact ha.rdV_ahead b.isLt l
    have hsd : ∀ l, ((a.ahead i p).thr i.core p.1 l).seed = (s.thr i.core p.1 l).seed := by
      intro l; rw [a.ahead_seed, ha.thr]
    have hwh : ∀ l, (if src.width = 64 then pairOf (fun r => (a.ahead i p).rdV i.core p.1 r l) va
        else (s.rdV i.core p.1 va l).toNat) =
        (if src.width = 64 then pairOf (fun r => s.rdV i.core p.1 r l) va else (s.rdV i.core p.1 va l).toNat) := by
      intro l
      by_cases h64 : src.width = 64
      · have h1 := hS p hp (va.val + 1) (by unfold cvtSrcs; simp [h64, List.range_succ])
        simp only [h64, if_true, pairOf, hva, ha.rdV_ahead h1]
      · simp only [h64, if_false, hva]
    unfold cvtBody
    simp only [hc, Inst.part_core, Inst.part_slot, hva, hvd, hcl, hsd, hwh, hdr, hcy, Bool.false_eq_true, if_false]
    refine congrArg LaneOut.ok (List.foldl_ext _ _ _ fun b l _ => ?_)
    unfold State.cvtLane State.wrList
    show _ = State.modGrp (State.modThr (List.foldl (fun a w => a.wrV i.core p.1 w.1 l w.2) b (W p l)) i.core p.1 l _) i.core p.1 _
    simp only [W, K, cvtWords, State.cvtOf]
  have hf : ∀ s0 : State, execCvt c dst src mode ftz clamp vd di va si s0 =
      runLane c.sw c.g.val s0 (cvtBody dst src mode ftz clamp vd di va si) := fun _ => rfl
  rw [hf]
  obtain ⟨t, ht, hR, hp⟩ := runLane_spec (fun a b => CvtFrame a b i (cvtDsts dst vd)) (fun a => CvtFrame.refl a i _)
    (fun _ _ _ => CvtFrame.trans) c.sw c.g.val s i _ hr hh (fun a => (LaneFrame.goOn a i hh _ 7).cvt)
    (fun p hp a => (LaneFrame.setPcs a i p.1 (mem p hp) _ 7 _ _).cvt)
    (fun p hp a => (LaneFrame.switchLanes a i p.1 (mem p hp) _ 7 _).cvt)
    (fun p hp a ra ha => ⟨_, body p hp a ra ha,
      foldl_rel (fun a b => CvtFrame a b i (cvtDsts dst vd)) (fun a => CvtFrame.refl a i _) (fun _ _ _ => CvtFrame.trans) _ _
        (fun a l _ => CvtFrame.cvtLane (mem p hp) _ l _ _ _ (hin p hp l) a) _,
      foldl_rel (fun a b => OnlyGroup a b i.core p.1) (fun a => OnlyGroup.refl a _ _) (fun _ _ _ => OnlyGroup.trans) _ _
        (fun a l _ => OnlyGroup.cvtLane l _ _ _ (fun w hw => (hin p hp l w hw).2) a) _⟩)
  have obsR : ∀ p ∈ i.parts, ∀ (b : State) (q m : Nat), q < 128 →
      ((i.part s c.g.val p).lanesL.foldl (fun a l => a.cvtLane i.core p.1 l (W p l) (K p l) s.cyc.toNat) b).rdV i.core p.1 q m =
      if m ∈ (i.part s c.g.val p).lanesL then written (W p m) q (b.rdV i.core p.1 q m) else b.rdV i.core p.1 q m :=
    fun p hpp b q m hq => foldl_obs (fun a m => a.rdV i.core p.1 q m) _ (fun l v => written (W p l) q v) _
      (Inst.nodup_lanesL _ _ _ _)
      (fun a l _ => by simp only [State.rdV_cvtLane _ _ _ _ _ _ _ (fun w hw => (hin p hpp l w hw).2) hq, if_true])
      (fun a l m _ hm => by simp only [State.rdV_cvtLane _ _ _ _ _ _ _ (fun w hw => (hin p hpp l w hw).2) hq, hm, if_false]) b m
  have obsT : ∀ (p : Nat × Nat) (b : State) (m : Nat),
      ((i.part s c.g.val p).lanesL.foldl (fun a l => a.cvtLane i.core p.1 l (W p l) (K p l) s.cyc.toNat) b).thr i.core p.1 m =
      if m ∈ (i.part s c.g.val p).lanesL then { b.thr i.core p.1 m with seed := (K p m).rs } else b.thr i.core p.1 m :=
    fun p b m => foldl_obs (fun a m => a.thr i.core p.1 m) _ (fun l t => { t with seed := (K p l).rs }) _
      (Inst.nodup_lanesL _ _ _ _) (fun a l _ => by simp only [State.thr_cvtLane, if_true])
      (fun a l m _ hm => by simp only [State.thr_cvtLane, hm, if_false]) b m
  have swp : ∀ (b : State) (p : Nat × Nat) l,
      ((if c.sw then b.switchLanes i.core p.1 (maskList p.2 64) else b).thr i.core p.1 l).seed = (b.thr i.core p.1 l).seed := by
    intro b p l
    cases c.sw with
    | false => rfl
    | true =>
      simp only [if_true, State.thr_switchLanes _ _ _ _ (nodup_maskList _ _)]
      split <;> rfl
  refine ⟨t, ht, hR, ?_, ?_, ?_, ?_⟩
  · intro p hpp l hl hpl
    obtain ⟨a, b, ra, ha, hb, hbt⟩ := hp p hpp
    rw [body p hpp a ra ha] at hb
    injection hb with hb
    rw [hbt.thr l]
    refine State.pc_ahead_switch a b i p c.sw l hl hpl ?_
    rw [← hb, obsT]
    split <;> rfl
  · intro p hpp l hx
    obtain ⟨a, b, ra, ha, hb, hbt⟩ := hp p hpp
    rw [body p hpp a ra ha] at hb
    injection hb with hb
    constructor
    · intro w hw
      have h128 := (hin p hpp l w hw).2
      rw [hbt.rdV h128, State.rdV_switch, ← hb, obsR p hpp _ _ _ h128, if_pos (Inst.mem_lanesL.2 hx)]
      exact written_of_mem _ (by rw [hW p hpp l]; exact hd) w hw _
    · rw [hbt.thr l, swp, ← hb, obsT, if_pos (Inst.mem_lanesL.2 hx)]
  · intro p hpp l hx
    obtain ⟨a, b, ra, ha, hb, hbt⟩ := hp p hpp
    rw [body p hpp a ra ha] at hb
    injection hb with hb
    have hn : l ∉ (i.part s c.g.val p).lanesL := fun h => hx (Inst.mem_lanesL.1 h)
    constructor
    · intro r h128
      rw [hbt.rdV h128, State.rdV_switch, ← hb, obsR p hpp _ _ _ h128, if_neg hn, ha.rdV_ahead h128]
    · rw [hbt.thr l, swp, ← hb, obsT, if_neg hn, a.ahead_seed, ha.thr]
  · intro p hpp n
    obtain ⟨a, b, ra, ha, hb, hbt⟩ := hp p hpp
    rw [body p hpp a ra ha] at hb
    injection hb with hb
    have e1 : (t.grp i.core p.1).mxstat = (b.grp i.core p.1).mxstat := by
      rw [hbt.grp]
      cases c.sw with
      | false => rfl
      | true => simp only [if_true, State.switchLanes, State.grp_modGrp_self]
    have e2 : ((a.ahead i p).grp i.core p.1).mxstat = (s.grp i.core p.1).mxstat := by
      obtain ⟨t, ht⟩ := a.ahead_grp i p
      rw [ht, ha.grp]
    rw [e1, ← hb, mxstat_foldl, e2, Inst.lanesL_eq]

end Sys2Proof.Machine
end

