-- ==== Sys2Proof/Laws/PerInstr.lean ====
section
/-! SUPPORT. One lemma for each constructor of `Instr`: its words. -/

namespace Sys2Proof.Laws.Shape

/-- An instruction has at most a word and a trailer (R66), and the steps of the device are the constructors without a word. -/
def Statement (i : Instr) : Prop := (encode i).length ≤ 2 ∧ (encode i = [] ↔ i.isDeviceStep = true)

theorem ofWords {i : Instr} (h : (encode i).length ≤ 2) (hw : encode i ≠ []) (hd : i.isDeviceStep = false) : Statement i :=
  ⟨h, iff_of_false hw (by simp [hd])⟩

theorem ofStep {i : Instr} (h : encode i = []) (hd : i.isDeviceStep = true) : Statement i :=
  ⟨by simp [h], iff_of_true h hd⟩

theorem iadd (x0 : LaneCtl) (x1 : VReg) (x2 : VReg) (x3 : VReg) : Statement (.iadd x0 x1 x2 x3) := ofWords (Nat.le_of_ble_eq_true rfl) (List.cons_ne_nil _ _) rfl
theorem isub (x0 : LaneCtl) (x1 : VReg) (x2 : VReg) (x3 : VReg) : Statement (.isub x0 x1 x2 x3) := ofWords (Nat.le_of_ble_eq_true rfl) (List.cons_ne_nil _ _) rfl
theorem iaddi (x0 : LaneCtl) (x1 : VReg) (x2 : VReg) (x3 : BitVec 7) : Statement (.iaddi x0 x1 x2 x3) := ofWords (Nat.le_of_ble_eq_true rfl) (List.cons_ne_nil _ _) rfl
theorem iadd64 (x0 : LaneCtl) (x1 : VReg) (x2 : VReg) (x3 : VReg) : Statement (.iadd64 x0 x1 x2 x3) := ofWords (Nat.le_of_ble_eq_true rfl) (List.cons_ne_nil _ _) rfl
theorem imul (x0 : LaneCtl) (x1 : VReg) (x2 : VReg) (x3 : VReg) : Statement (.imul x0 x1 x2 x3) := ofWords (Nat.le_of_ble_eq_true rfl) (List.cons_ne_nil _ _) rfl
theorem imulh (x0 : LaneCtl) (x1 : VReg) (x2 : VReg) (x3 : VReg) : Statement (.imulh x0 x1 x2 x3) := ofWords (Nat.le_of_ble_eq_true rfl) (List.cons_ne_nil _ _) rfl
theorem imad (x0 : LaneCtl) (x1 : ImadFn) (x2 : VReg) (x3 : VReg) (x4 : VReg) (x5 : VReg) : Statement (.imad x0 x1 x2 x3 x4 x5) := ofWords (Nat.le_of_ble_eq_true rfl) (List.cons_ne_nil _ _) rfl
theorem lea (x0 : LaneCtl) (x1 : Bool) (x2 : VReg) (x3 : VReg) (x4 : VReg) (x5 : Fin 8) (x6 : BitVec 18) : Statement (.lea x0 x1 x2 x3 x4 x5 x6) := ofWords (Nat.le_of_ble_eq_true rfl) (List.cons_ne_nil _ _) rfl
theorem imin (x0 : LaneCtl) (x1 : VReg) (x2 : VReg) (x3 : VReg) : Statement (.imin x0 x1 x2 x3) := ofWords (Nat.le_of_ble_eq_true rfl) (List.cons_ne_nil _ _) rfl
theorem imax (x0 : LaneCtl) (x1 : VReg) (x2 : VReg) (x3 : VReg) : Statement (.imax x0 x1 x2 x3) := ofWords (Nat.le_of_ble_eq_true rfl) (List.cons_ne_nil _ _) rfl
theorem umin (x0 : LaneCtl) (x1 : VReg) (x2 : VReg) (x3 : VReg) : Statement (.umin x0 x1 x2 x3) := ofWords (Nat.le_of_ble_eq_true rfl) (List.cons_ne_nil _ _) rfl
theorem umax (x0 : LaneCtl) (x1 : VReg) (x2 : VReg) (x3 : VReg) : Statement (.umax x0 x1 x2 x3) := ofWords (Nat.le_of_ble_eq_true rfl) (List.cons_ne_nil _ _) rfl
theorem and (x0 : LaneCtl) (x1 : VReg) (x2 : VReg) (x3 : VReg) : Statement (.and x0 x1 x2 x3) := ofWords (Nat.le_of_ble_eq_true rfl) (List.cons_ne_nil _ _) rfl
theorem or (x0 : LaneCtl) (x1 : VReg) (x2 : VReg) (x3 : VReg) : Statement (.or x0 x1 x2 x3) := ofWords (Nat.le_of_ble_eq_true rfl) (List.cons_ne_nil _ _) rfl
theorem xor (x0 : LaneCtl) (x1 : VReg) (x2 : VReg) (x3 : VReg) : Statement (.xor x0 x1 x2 x3) := ofWords (Nat.le_of_ble_eq_true rfl) (List.cons_ne_nil _ _) rfl
theorem andn (x0 : LaneCtl) (x1 : VReg) (x2 : VReg) (x3 : VReg) : Statement (.andn x0 x1 x2 x3) := ofWords (Nat.le_of_ble_eq_true rfl) (List.cons_ne_nil _ _) rfl
theorem shl (x0 : LaneCtl) (x1 : VReg) (x2 : VReg) (x3 : VReg) : Statement (.shl x0 x1 x2 x3) := ofWords (Nat.le_of_ble_eq_true rfl) (List.cons_ne_nil _ _) rfl
theorem shr (x0 : LaneCtl) (x1 : VReg) (x2 : VReg) (x3 : VReg) : Statement (.shr x0 x1 x2 x3) := ofWords (Nat.le_of_ble_eq_true rfl) (List.cons_ne_nil _ _) rfl
theorem sar (x0 : LaneCtl) (x1 : VReg) (x2 : VReg) (x3 : VReg) : Statement (.sar x0 x1 x2 x3) := ofWords (Nat.le_of_ble_eq_true rfl) (List.cons_ne_nil _ _) rfl
theorem mov (x0 : LaneCtl) (x1 : VReg) (x2 : VReg) : Statement (.mov x0 x1 x2) := ofWords (Nat.le_of_ble_eq_true rfl) (List.cons_ne_nil _ _) rfl
theorem iun (x0 : LaneCtl) (x1 : IUn) (x2 : VReg) (x3 : VReg) : Statement (.iun x0 x1 x2 x3) := ofWords (Nat.le_of_ble_eq_true rfl) (List.cons_ne_nil _ _) rfl
theorem bfx (x0 : LaneCtl) (x1 : Bool) (x2 : VReg) (x3 : VReg) (x4 : FieldPos) : Statement (.bfx x0 x1 x2 x3 x4) := ofWords (Nat.le_of_ble_eq_true rfl) (List.cons_ne_nil _ _) rfl
theorem bfi (x0 : LaneCtl) (x1 : VReg) (x2 : VReg) (x3 : VReg) (x4 : FieldPos) : Statement (.bfi x0 x1 x2 x3 x4) := ofWords (Nat.le_of_ble_eq_true rfl) (List.cons_ne_nil _ _) rfl
theorem icmp (x0 : LaneCtl) (x1 : Cond) (x2 : PReg) (x3 : VReg) (x4 : VReg) : Statement (.icmp x0 x1 x2 x3 x4) := ofWords (Nat.le_of_ble_eq_true rfl) (List.cons_ne_nil _ _) rfl
theorem sel (x0 : Bool) (x1 : PReg) (x2 : VReg) (x3 : VReg) (x4 : VReg) : Statement (.sel x0 x1 x2 x3 x4) := ofWords (Nat.le_of_ble_eq_true rfl) (List.cons_ne_nil _ _) rfl
theorem movi (x0 : LaneCtl) (x1 : VReg) (x2 : BitVec 13) : Statement (.movi x0 x1 x2) := ofWords (Nat.le_of_ble_eq_true rfl) (List.cons_ne_nil _ _) rfl
theorem moviImm32 (x0 : LaneCtl) (x1 : VReg) (x2 : BitVec 32) : Statement (.moviImm32 x0 x1 x2) := ofWords (Nat.le_of_ble_eq_true rfl) (List.cons_ne_nil _ _) rfl
theorem movs (x0 : LaneCtl) (x1 : VReg) (x2 : SReg) : Statement (.movs x0 x1 x2) := ofWords (Nat.le_of_ble_eq_true rfl) (List.cons_ne_nil _ _) rfl
theorem fadd (x0 : LaneCtl) (x1 : VReg) (x2 : VReg) (x3 : VReg) : Statement (.fadd x0 x1 x2 x3) := ofWords (Nat.le_of_ble_eq_true rfl) (List.cons_ne_nil _ _) rfl
theorem fsub (x0 : LaneCtl) (x1 : VReg) (x2 : VReg) (x3 : VReg) : Statement (.fsub x0 x1 x2 x3) := ofWords (Nat.le_of_ble_eq_true rfl) (List.cons_ne_nil _ _) rfl
theorem fmul (x0 : LaneCtl) (x1 : VReg) (x2 : VReg) (x3 : VReg) : Statement (.fmul x0 x1 x2 x3) := ofWords (Nat.le_of_ble_eq_true rfl) (List.cons_ne_nil _ _) rfl
theorem ffma (x0 : LaneCtl) (x1 : VReg) (x2 : VReg) (x3 : VReg) : Statement (.ffma x0 x1 x2 x3) := ofWords (Nat.le_of_ble_eq_true rfl) (List.cons_ne_nil _ _) rfl
theorem ffmax (x0 : LaneCtl) (x1 : FmaOp) (x2 : FType) (x3 : Mode) (x4 : Bool) (x5 : VReg) (x6 : VReg) (x7 : VReg) (x8 : VReg) : Statement (.ffmax x0 x1 x2 x3 x4 x5 x6 x7 x8) := ofWords (Nat.le_of_ble_eq_true rfl) (List.cons_ne_nil _ _) rfl
theorem fdiv (x0 : LaneCtl) (x1 : Bool) (x2 : Mode) (x3 : Bool) (x4 : VReg) (x5 : VReg) (x6 : VReg) : Statement (.fdiv x0 x1 x2 x3 x4 x5 x6) := ofWords (Nat.le_of_ble_eq_true rfl) (List.cons_ne_nil _ _) rfl
theorem fmin (x0 : LaneCtl) (x1 : VReg) (x2 : VReg) (x3 : VReg) : Statement (.fmin x0 x1 x2 x3) := ofWords (Nat.le_of_ble_eq_true rfl) (List.cons_ne_nil _ _) rfl
theorem fmax (x0 : LaneCtl) (x1 : VReg) (x2 : VReg) (x3 : VReg) : Statement (.fmax x0 x1 x2 x3) := ofWords (Nat.le_of_ble_eq_true rfl) (List.cons_ne_nil _ _) rfl
theorem fcmp (x0 : LaneCtl) (x1 : FCond) (x2 : PReg) (x3 : VReg) (x4 : VReg) : Statement (.fcmp x0 x1 x2 x3 x4) := ofWords (Nat.le_of_ble_eq_true rfl) (List.cons_ne_nil _ _) rfl
theorem funf (x0 : LaneCtl) (x1 : FunFn) (x2 : Bool) (x3 : VReg) (x4 : VReg) : Statement (.funf x0 x1 x2 x3 x4) := ofWords (Nat.le_of_ble_eq_true rfl) (List.cons_ne_nil _ _) rfl
theorem hpadd (x0 : LaneCtl) (x1 : VReg) (x2 : VReg) (x3 : VReg) : Statement (.hpadd x0 x1 x2 x3) := ofWords (Nat.le_of_ble_eq_true rfl) (List.cons_ne_nil _ _) rfl
theorem hpmul (x0 : LaneCtl) (x1 : VReg) (x2 : VReg) (x3 : VReg) : Statement (.hpmul x0 x1 x2 x3) := ofWords (Nat.le_of_ble_eq_true rfl) (List.cons_ne_nil _ _) rfl
theorem hpfma (x0 : LaneCtl) (x1 : VReg) (x2 : VReg) (x3 : VReg) : Statement (.hpfma x0 x1 x2 x3) := ofWords (Nat.le_of_ble_eq_true rfl) (List.cons_ne_nil _ _) rfl
theorem cvt (x0 : LaneCtl) (x1 : Fmt) (x2 : Fmt) (x3 : Mode) (x4 : Bool) (x5 : Option VReg) (x6 : VReg) (x7 : Fin 16) (x8 : VReg) (x9 : Fin 16) : Statement (.cvt x0 x1 x2 x3 x4 x5 x6 x7 x8 x9) := ofWords (Nat.le_of_ble_eq_true rfl) (List.cons_ne_nil _ _) rfl
theorem dadd (x0 : LaneCtl) (x1 : VReg) (x2 : VReg) (x3 : VReg) : Statement (.dadd x0 x1 x2 x3) := ofWords (Nat.le_of_ble_eq_true rfl) (List.cons_ne_nil _ _) rfl
theorem dmul (x0 : LaneCtl) (x1 : VReg) (x2 : VReg) (x3 : VReg) : Statement (.dmul x0 x1 x2 x3) := ofWords (Nat.le_of_ble_eq_true rfl) (List.cons_ne_nil _ _) rfl
theorem dfma (x0 : LaneCtl) (x1 : VReg) (x2 : VReg) (x3 : VReg) : Statement (.dfma x0 x1 x2 x3) := ofWords (Nat.le_of_ble_eq_true rfl) (List.cons_ne_nil _ _) rfl
theorem fdot8 (x0 : LaneCtl) (x1 : Bool) (x2 : Bool) (x3 : Mode) (x4 : VReg) (x5 : VReg) (x6 : VReg) (x7 : VReg) : Statement (.fdot8 x0 x1 x2 x3 x4 x5 x6 x7) := ofWords (Nat.le_of_ble_eq_true rfl) (List.cons_ne_nil _ _) rfl
theorem idot4 (x0 : LaneCtl) (x1 : Bool) (x2 : Bool) (x3 : VReg) (x4 : VReg) (x5 : VReg) (x6 : VReg) : Statement (.idot4 x0 x1 x2 x3 x4 x5 x6) := ofWords (Nat.le_of_ble_eq_true rfl) (List.cons_ne_nil _ _) rfl
theorem shfl (x0 : LaneCtl) (x1 : ShflMode) (x2 : VReg) (x3 : VReg) (x4 : ShflSrc) : Statement (.shfl x0 x1 x2 x3 x4) := by
  cases x4 <;> exact ofWords (Nat.le_of_ble_eq_true rfl) (List.cons_ne_nil _ _) rfl
theorem vote (x0 : LaneCtl) (x1 : VoteMode) (x2 : VReg) (x3 : PReg) (x4 : Bool) (x5 : PReg) : Statement (.vote x0 x1 x2 x3 x4 x5) := ofWords (Nat.le_of_ble_eq_true rfl) (List.cons_ne_nil _ _) rfl
theorem redux (x0 : LaneCtl) (x1 : ReduxOp) (x2 : ReduxKind) (x3 : VReg) (x4 : VReg) : Statement (.redux x0 x1 x2 x3 x4) := ofWords (Nat.le_of_ble_eq_true rfl) (List.cons_ne_nil _ _) rfl
theorem ld (x0 : LaneCtl) (x1 : LdForm) (x2 : Order) (x3 : Scope) (x4 : VReg) (x5 : VReg) (x6 : BitVec 13) : Statement (.ld x0 x1 x2 x3 x4 x5 x6) := by
  cases x1 <;> exact ofWords (Nat.le_of_ble_eq_true rfl) (List.cons_ne_nil _ _) rfl
theorem pref (x0 : LaneCtl) (x1 : PrefLevel) (x2 : VReg) (x3 : BitVec 13) : Statement (.pref x0 x1 x2 x3) := ofWords (Nat.le_of_ble_eq_true rfl) (List.cons_ne_nil _ _) rfl
theorem st (x0 : LaneCtl) (x1 : StWidth) (x2 : Order) (x3 : Scope) (x4 : VReg) (x5 : BitVec 13) (x6 : VReg) : Statement (.st x0 x1 x2 x3 x4 x5 x6) := ofWords (Nat.le_of_ble_eq_true rfl) (List.cons_ne_nil _ _) rfl
theorem atom (x0 : LaneCtl) (x1 : AtomOp) (x2 : Bool) (x3 : Order) (x4 : Scope) (x5 : VReg) (x6 : VReg) (x7 : BitVec 13) (x8 : VReg) : Statement (.atom x0 x1 x2 x3 x4 x5 x6 x7 x8) := ofWords (Nat.le_of_ble_eq_true rfl) (List.cons_ne_nil _ _) rfl
theorem red (x0 : LaneCtl) (x1 : AtomOp) (x2 : Bool) (x3 : Order) (x4 : Scope) (x5 : VReg) (x6 : BitVec 13) (x7 : VReg) : Statement (.red x0 x1 x2 x3 x4 x5 x6 x7) := ofWords (Nat.le_of_ble_eq_true rfl) (List.cons_ne_nil _ _) rfl
theorem acas (x0 : LaneCtl) (x1 : Bool) (x2 : Order) (x3 : Scope) (x4 : VReg) (x5 : VReg) (x6 : BitVec 13) (x7 : VReg) (x8 : VReg) : Statement (.acas x0 x1 x2 x3 x4 x5 x6 x7 x8) := ofWords (Nat.le_of_ble_eq_true rfl) (List.cons_ne_nil _ _) rfl
theorem visw (x0 : LaneCtl) (x1 : Order) (x2 : Scope) (x3 : VReg) (x4 : BitVec 13) (x5 : VReg) : Statement (.visw x0 x1 x2 x3 x4 x5) := ofWords (Nat.le_of_ble_eq_true rfl) (List.cons_ne_nil _ _) rfl
theorem tex (x0 : LaneCtl) (x1 : TexLod) (x2 : VReg) (x3 : VReg) (x4 : VReg) (x5 : VReg) : Statement (.tex x0 x1 x2 x3 x4 x5) := ofWords (Nat.le_of_ble_eq_true rfl) (List.cons_ne_nil _ _) rfl
theorem tld (x0 : LaneCtl) (x1 : VReg) (x2 : VReg) (x3 : VReg) (x4 : VReg) : Statement (.tld x0 x1 x2 x3 x4) := ofWords (Nat.le_of_ble_eq_true rfl) (List.cons_ne_nil _ _) rfl
theorem rayq (x0 : LaneCtl) (x1 : Bool) (x2 : Bool) (x3 : VReg) (x4 : VReg) (x5 : VReg) : Statement (.rayq x0 x1 x2 x3 x4 x5) := ofWords (Nat.le_of_ble_eq_true rfl) (List.cons_ne_nil _ _) rfl
theorem rayn (x0 : LaneCtl) (x1 : Bool) (x2 : VReg) (x3 : VReg) (x4 : VReg) : Statement (.rayn x0 x1 x2 x3 x4) := ofWords (Nat.le_of_ble_eq_true rfl) (List.cons_ne_nil _ _) rfl
theorem bra (x0 : LaneCtl) (x1 : BitVec 21) : Statement (.bra x0 x1) := ofWords (Nat.le_of_ble_eq_true rfl) (List.cons_ne_nil _ _) rfl
theorem call (x0 : LaneCtl) (x1 : VReg) (x2 : BitVec 32) : Statement (.call x0 x1 x2) := ofWords (Nat.le_of_ble_eq_true rfl) (List.cons_ne_nil _ _) rfl
theorem ret (x0 : LaneCtl) (x1 : VReg) : Statement (.ret x0 x1) := ofWords (Nat.le_of_ble_eq_true rfl) (List.cons_ne_nil _ _) rfl
theorem exit (x0 : LaneCtl) : Statement (.exit x0) := ofWords (Nat.le_of_ble_eq_true rfl) (List.cons_ne_nil _ _) rfl
theorem yield (x0 : LaneCtl) : Statement (.yield x0) := ofWords (Nat.le_of_ble_eq_true rfl) (List.cons_ne_nil _ _) rfl
theorem brx (x0 : LaneCtl) (x1 : VReg) : Statement (.brx x0 x1) := ofWords (Nat.le_of_ble_eq_true rfl) (List.cons_ne_nil _ _) rfl
theorem fence (x0 : LaneCtl) (x1 : Order) (x2 : Scope) : Statement (.fence x0 x1 x2) := ofWords (Nat.le_of_ble_eq_true rfl) (List.cons_ne_nil _ _) rfl
theorem kset (x0 : LaneCtl) (x1 : KReg) (x2 : Bool) (x3 : PReg) : Statement (.kset x0 x1 x2 x3) := ofWords (Nat.le_of_ble_eq_true rfl) (List.cons_ne_nil _ _) rfl
theorem karr (x0 : LaneCtl) (x1 : KReg) : Statement (.karr x0 x1) := ofWords (Nat.le_of_ble_eq_true rfl) (List.cons_ne_nil _ _) rfl
theorem kwait (x0 : LaneCtl) (x1 : KReg) : Statement (.kwait x0 x1) := ofWords (Nat.le_of_ble_eq_true rfl) (List.cons_ne_nil _ _) rfl
theorem kleave (x0 : LaneCtl) (x1 : KReg) : Statement (.kleave x0 x1) := ofWords (Nat.le_of_ble_eq_true rfl) (List.cons_ne_nil _ _) rfl
theorem waitu (x0 : LaneCtl) (x1 : Cond) (x2 : Bool) (x3 : Order) (x4 : Scope) (x5 : PReg) (x6 : VReg) (x7 : VReg) (x8 : VReg) : Statement (.waitu x0 x1 x2 x3 x4 x5 x6 x7 x8) := ofWords (Nat.le_of_ble_eq_true rfl) (List.cons_ne_nil _ _) rfl
theorem bar (x0 : LaneCtl) (x1 : BarNum) (x2 : Option VReg) (x3 : Fin 17) : Statement (.bar x0 x1 x2 x3) := ofWords (Nat.le_of_ble_eq_true rfl) (List.cons_ne_nil _ _) rfl
theorem bara (x0 : LaneCtl) (x1 : BarNum) (x2 : Option VReg) (x3 : Fin 17) : Statement (.bara x0 x1 x2 x3) := ofWords (Nat.le_of_ble_eq_true rfl) (List.cons_ne_nil _ _) rfl
theorem barw (x0 : LaneCtl) (x1 : BarNum) (x2 : Option VReg) (x3 : Fin 17) : Statement (.barw x0 x1 x2 x3) := ofWords (Nat.le_of_ble_eq_true rfl) (List.cons_ne_nil _ _) rfl
theorem sadd (x0 : Bool) (x1 : SReg) (x2 : SReg) (x3 : SReg) : Statement (.sadd x0 x1 x2 x3) := ofWords (Nat.le_of_ble_eq_true rfl) (List.cons_ne_nil _ _) rfl
theorem ssub (x0 : Bool) (x1 : SReg) (x2 : SReg) (x3 : SReg) : Statement (.ssub x0 x1 x2 x3) := ofWords (Nat.le_of_ble_eq_true rfl) (List.cons_ne_nil _ _) rfl
theorem smul (x0 : Bool) (x1 : SReg) (x2 : SReg) (x3 : SReg) : Statement (.smul x0 x1 x2 x3) := ofWords (Nat.le_of_ble_eq_true rfl) (List.cons_ne_nil _ _) rfl
theorem sand (x0 : Bool) (x1 : SReg) (x2 : SReg) (x3 : SReg) : Statement (.sand x0 x1 x2 x3) := ofWords (Nat.le_of_ble_eq_true rfl) (List.cons_ne_nil _ _) rfl
theorem sor (x0 : Bool) (x1 : SReg) (x2 : SReg) (x3 : SReg) : Statement (.sor x0 x1 x2 x3) := ofWords (Nat.le_of_ble_eq_true rfl) (List.cons_ne_nil _ _) rfl
theorem sxor (x0 : Bool) (x1 : SReg) (x2 : SReg) (x3 : SReg) : Statement (.sxor x0 x1 x2 x3) := ofWords (Nat.le_of_ble_eq_true rfl) (List.cons_ne_nil _ _) rfl
theorem sshl (x0 : Bool) (x1 : SReg) (x2 : SReg) (x3 : SReg) : Statement (.sshl x0 x1 x2 x3) := ofWords (Nat.le_of_ble_eq_true rfl) (List.cons_ne_nil _ _) rfl
theorem sshr (x0 : Bool) (x1 : SReg) (x2 : SReg) (x3 : SReg) : Statement (.sshr x0 x1 x2 x3) := ofWords (Nat.le_of_ble_eq_true rfl) (List.cons_ne_nil _ _) rfl
theorem ssar (x0 : Bool) (x1 : SReg) (x2 : SReg) (x3 : SReg) : Statement (.ssar x0 x1 x2 x3) := ofWords (Nat.le_of_ble_eq_true rfl) (List.cons_ne_nil _ _) rfl
theorem smin (x0 : Bool) (x1 : SReg) (x2 : SReg) (x3 : SReg) : Statement (.smin x0 x1 x2 x3) := ofWords (Nat.le_of_ble_eq_true rfl) (List.cons_ne_nil _ _) rfl
theorem smax (x0 : Bool) (x1 : SReg) (x2 : SReg) (x3 : SReg) : Statement (.smax x0 x1 x2 x3) := ofWords (Nat.le_of_ble_eq_true rfl) (List.cons_ne_nil _ _) rfl
theorem sumin (x0 : Bool) (x1 : SReg) (x2 : SReg) (x3 : SReg) : Statement (.sumin x0 x1 x2 x3) := ofWords (Nat.le_of_ble_eq_true rfl) (List.cons_ne_nil _ _) rfl
theorem sumax (x0 : Bool) (x1 : SReg) (x2 : SReg) (x3 : SReg) : Statement (.sumax x0 x1 x2 x3) := ofWords (Nat.le_of_ble_eq_true rfl) (List.cons_ne_nil _ _) rfl
theorem smov (x0 : Bool) (x1 : SReg) (x2 : SReg) : Statement (.smov x0 x1 x2) := ofWords (Nat.le_of_ble_eq_true rfl) (List.cons_ne_nil _ _) rfl
theorem smovi (x0 : Bool) (x1 : SReg) (x2 : BitVec 16) : Statement (.smovi x0 x1 x2) := ofWords (Nat.le_of_ble_eq_true rfl) (List.cons_ne_nil _ _) rfl
theorem smovx (x0 : Bool) (x1 : Bool) (x2 : SReg) (x3 : BitVec 32) : Statement (.smovx x0 x1 x2 x3) := ofWords (Nat.le_of_ble_eq_true rfl) (List.cons_ne_nil _ _) rfl
theorem sadd64 (x0 : Bool) (x1 : SReg) (x2 : SReg) (x3 : SReg) : Statement (.sadd64 x0 x1 x2 x3) := ofWords (Nat.le_of_ble_eq_true rfl) (List.cons_ne_nil _ _) rfl
theorem scmp (x0 : Bool) (x1 : Cond) (x2 : Bool) (x3 : QReg) (x4 : SReg) (x5 : SReg) : Statement (.scmp x0 x1 x2 x3 x4 x5) := ofWords (Nat.le_of_ble_eq_true rfl) (List.cons_ne_nil _ _) rfl
theorem ssel (x0 : Bool) (x1 : QReg) (x2 : SReg) (x3 : SReg) (x4 : SReg) : Statement (.ssel x0 x1 x2 x3 x4) := ofWords (Nat.le_of_ble_eq_true rfl) (List.cons_ne_nil _ _) rfl
theorem sun (x0 : Bool) (x1 : IUn) (x2 : SReg) (x3 : SReg) : Statement (.sun x0 x1 x2 x3) := ofWords (Nat.le_of_ble_eq_true rfl) (List.cons_ne_nil _ _) rfl
theorem sbra (x0 : Bool) (x1 : Bool) (x2 : QReg) (x3 : BitVec 20) : Statement (.sbra x0 x1 x2 x3) := ofWords (Nat.le_of_ble_eq_true rfl) (List.cons_ne_nil _ _) rfl
theorem sld (x0 : Bool) (x1 : LdWidth) (x2 : Order) (x3 : Scope) (x4 : SReg) (x5 : SReg) (x6 : BitVec 16) : Statement (.sld x0 x1 x2 x3 x4 x5 x6) := ofWords (Nat.le_of_ble_eq_true rfl) (List.cons_ne_nil _ _) rfl
theorem sst (x0 : Bool) (x1 : StWidth) (x2 : Order) (x3 : Scope) (x4 : SReg) (x5 : BitVec 16) (x6 : SReg) : Statement (.sst x0 x1 x2 x3 x4 x5 x6) := ofWords (Nat.le_of_ble_eq_true rfl) (List.cons_ne_nil _ _) rfl
theorem satom (x0 : Bool) (x1 : AtomOp) (x2 : Bool) (x3 : Bool) (x4 : Order) (x5 : Scope) (x6 : SReg) (x7 : SReg) (x8 : BitVec 16) (x9 : SReg) : Statement (.satom x0 x1 x2 x3 x4 x5 x6 x7 x8 x9) := ofWords (Nat.le_of_ble_eq_true rfl) (List.cons_ne_nil _ _) rfl
theorem csrr (x0 : Bool) (x1 : Csr) (x2 : CsrWidth) (x3 : Fin 4) (x4 : SReg) (x5 : SReg) : Statement (.csrr x0 x1 x2 x3 x4 x5) := ofWords (Nat.le_of_ble_eq_true rfl) (List.cons_ne_nil _ _) rfl
theorem csrw (x0 : Bool) (x1 : Csr) (x2 : CsrWidth) (x3 : Fin 4) (x4 : SReg) (x5 : SReg) : Statement (.csrw x0 x1 x2 x3 x4 x5) := ofWords (Nat.le_of_ble_eq_true rfl) (List.cons_ne_nil _ _) rfl
theorem time (x0 : Bool) (x1 : TimeSel) (x2 : SReg) : Statement (.time x0 x1 x2) := ofWords (Nat.le_of_ble_eq_true rfl) (List.cons_ne_nil _ _) rfl
theorem sleep (x0 : Bool) (x1 : Bool) (x2 : SReg) : Statement (.sleep x0 x1 x2) := ofWords (Nat.le_of_ble_eq_true rfl) (List.cons_ne_nil _ _) rfl
theorem waits (x0 : Bool) (x1 : Cond) (x2 : Bool) (x3 : Order) (x4 : Scope) (x5 : QReg) (x6 : SReg) (x7 : SReg) (x8 : SReg) : Statement (.waits x0 x1 x2 x3 x4 x5 x6 x7 x8) := ofWords (Nat.le_of_ble_eq_true rfl) (List.cons_ne_nil _ _) rfl
theorem attach (x0 : Bool) (x1 : ENum) (x2 : SReg) (x3 : Fin 4) : Statement (.attach x0 x1 x2 x3) := ofWords (Nat.le_of_ble_eq_true rfl) (List.cons_ne_nil _ _) rfl
theorem detach (x0 : Bool) (x1 : ENum) : Statement (.detach x0 x1) := ofWords (Nat.le_of_ble_eq_true rfl) (List.cons_ne_nil _ _) rfl
theorem replay (x0 : Bool) (x1 : Bool) : Statement (.replay x0 x1) := ofWords (Nat.le_of_ble_eq_true rfl) (List.cons_ne_nil _ _) rfl
theorem launch (x0 : Bool) (x1 : QReg) (x2 : SReg) : Statement (.launch x0 x1 x2) := ofWords (Nat.le_of_ble_eq_true rfl) (List.cons_ne_nil _ _) rfl
theorem launchw (x0 : Bool) (x1 : SReg) : Statement (.launchw x0 x1) := ofWords (Nat.le_of_ble_eq_true rfl) (List.cons_ne_nil _ _) rfl
theorem taskq (x0 : Bool) (x1 : QReg) (x2 : SReg) : Statement (.taskq x0 x1 x2) := ofWords (Nat.le_of_ble_eq_true rfl) (List.cons_ne_nil _ _) rfl
theorem trap (x0 : Bool) (x1 : BitVec 16) : Statement (.trap x0 x1) := ofWords (Nat.le_of_ble_eq_true rfl) (List.cons_ne_nil _ _) rfl
theorem tret (x0 : Bool) : Statement (.tret x0) := ofWords (Nat.le_of_ble_eq_true rfl) (List.cons_ne_nil _ _) rfl
theorem genr (x0 : Bool) (x1 : GenClass) (x2 : SReg) (x3 : SReg) : Statement (.genr x0 x1 x2 x3) := ofWords (Nat.le_of_ble_eq_true rfl) (List.cons_ne_nil _ _) rfl
theorem brk (x0 : Bool) (x1 : BitVec 16) : Statement (.brk x0 x1) := ofWords (Nat.le_of_ble_eq_true rfl) (List.cons_ne_nil _ _) rfl
theorem tclaim (x0 : Bool) (x1 : QReg) (x2 : NameKind) : Statement (.tclaim x0 x1 x2) := ofWords (Nat.le_of_ble_eq_true rfl) (List.cons_ne_nil _ _) rfl
theorem trelease (x0 : Bool) (x1 : NameKind) : Statement (.trelease x0 x1) := ofWords (Nat.le_of_ble_eq_true rfl) (List.cons_ne_nil _ _) rfl
theorem tfill (x0 : Bool) (x1 : Fmt) (x2 : Bool) (x3 : TName) (x4 : SReg) : Statement (.tfill x0 x1 x2 x3 x4) := ofWords (Nat.le_of_ble_eq_true rfl) (List.cons_ne_nil _ _) rfl
theorem tzero (x0 : Bool) (x1 : TName) : Statement (.tzero x0 x1) := ofWords (Nat.le_of_ble_eq_true rfl) (List.cons_ne_nil _ _) rfl
theorem mma (x0 : Bool) (x1 : Fmt) (x2 : Fmt) (x3 : Bool) (x4 : Bool) (x5 : Option (Fin 8)) (x6 : AName) (x7 : TName) (x8 : Fin 8) (x9 : TName) (x10 : Fin 8) : Statement (.mma x0 x1 x2 x3 x4 x5 x6 x7 x8 x9 x10) := ofWords (Nat.le_of_ble_eq_true rfl) (List.cons_ne_nil _ _) rfl
theorem aclr (x0 : Bool) (x1 : AName) : Statement (.aclr x0 x1) := ofWords (Nat.le_of_ble_eq_true rfl) (List.cons_ne_nil _ _) rfl
theorem ascale (x0 : Bool) (x1 : Bool) (x2 : Bool) (x3 : AName) (x4 : AName) (x5 : SReg) : Statement (.ascale x0 x1 x2 x3 x4 x5) := ofWords (Nat.le_of_ble_eq_true rfl) (List.cons_ne_nil _ _) rfl
theorem adrain (x0 : Bool) (x1 : Fmt) (x2 : Mode) (x3 : Bool) (x4 : Bool) (x5 : Option SReg) (x6 : AName) (x7 : SReg) : Statement (.adrain x0 x1 x2 x3 x4 x5 x6 x7) := ofWords (Nat.le_of_ble_eq_true rfl) (List.cons_ne_nil _ _) rfl
theorem aread (x0 : Bool) (x1 : VReg) (x2 : AName) (x3 : SReg) (x4 : Fin 4) : Statement (.aread x0 x1 x2 x3 x4) := ofWords (Nat.le_of_ble_eq_true rfl) (List.cons_ne_nil _ _) rfl
theorem cpy (x0 : Bool) (x1 : SReg) (x2 : SReg) : Statement (.cpy x0 x1 x2) := ofWords (Nat.le_of_ble_eq_true rfl) (List.cons_ne_nil _ _) rfl
theorem cpyw (x0 : Bool) (x1 : SReg) (x2 : SReg) (x3 : HNum) : Statement (.cpyw x0 x1 x2 x3) := ofWords (Nat.le_of_ble_eq_true rfl) (List.cons_ne_nil _ _) rfl
theorem hclaim (x0 : Bool) (x1 : HNum) (x2 : SReg) : Statement (.hclaim x0 x1 x2) := ofWords (Nat.le_of_ble_eq_true rfl) (List.cons_ne_nil _ _) rfl
theorem hfull (x0 : Bool) (x1 : Scope) (x2 : HNum) : Statement (.hfull x0 x1 x2) := ofWords (Nat.le_of_ble_eq_true rfl) (List.cons_ne_nil _ _) rfl
theorem hdrain (x0 : Bool) (x1 : HNum) : Statement (.hdrain x0 x1) := ofWords (Nat.le_of_ble_eq_true rfl) (List.cons_ne_nil _ _) rfl
theorem hfree (x0 : Bool) (x1 : HNum) : Statement (.hfree x0 x1) := ofWords (Nat.le_of_ble_eq_true rfl) (List.cons_ne_nil _ _) rfl
theorem hret (x0 : Bool) (x1 : HNum) : Statement (.hret x0 x1) := ofWords (Nat.le_of_ble_eq_true rfl) (List.cons_ne_nil _ _) rfl
theorem hrel (x0 : Bool) (x1 : HNum) : Statement (.hrel x0 x1) := ofWords (Nat.le_of_ble_eq_true rfl) (List.cons_ne_nil _ _) rfl
theorem hwait (x0 : Bool) (x1 : Bool) (x2 : SReg) (x3 : HNum) : Statement (.hwait x0 x1 x2 x3) := ofWords (Nat.le_of_ble_eq_true rfl) (List.cons_ne_nil _ _) rfl
theorem variableLatencyCompletion (x0 : Nat) (x1 : Nat) : Statement (.variableLatencyCompletion x0 x1) := ofStep rfl rfl
theorem workgroupPlacement (x0 : Nat) : Statement (.workgroupPlacement x0) := ofStep rfl rfl
theorem cohortEntryAgeing (x0 : Nat) (x1 : Nat) : Statement (.cohortEntryAgeing x0 x1) := ofStep rfl rfl
theorem workgroupRetirement (x0 : Nat) (x1 : Nat) : Statement (.workgroupRetirement x0 x1) := ofStep rfl rfl
theorem sleepWake (x0 : Nat) (x1 : Nat) : Statement (.sleepWake x0 x1) := ofStep rfl rfl
theorem scrubberSweep (x0 : Nat) : Statement (.scrubberSweep x0) := ofStep rfl rfl
theorem scratchpadShareWrite (x0 : Nat) (x1 : BitVec 32) : Statement (.scratchpadShareWrite x0 x1) := ofStep rfl rfl
theorem scratchpadStepMove (x0 : Nat) : Statement (.scratchpadStepMove x0) := ofStep rfl rfl
theorem storePlacement (x0 : Nat) (x1 : Nat) : Statement (.storePlacement x0 x1) := ofStep rfl rfl
theorem watchExpiry (x0 : Nat) : Statement (.watchExpiry x0) := ofStep rfl rfl
theorem watchOutcomeArrival (x0 : Nat) : Statement (.watchOutcomeArrival x0) := ofStep rfl rfl
theorem deferredRegistration (x0 : Nat) : Statement (.deferredRegistration x0) := ofStep rfl rfl
theorem spillWalk (x0 : Nat) : Statement (.spillWalk x0) := ofStep rfl rfl
theorem faultResponse (x0 : Nat) : Statement (.faultResponse x0) := ofStep rfl rfl
theorem tileChunkCompletion (x0 : Nat) (x1 : EnginePort) : Statement (.tileChunkCompletion x0 x1) := ofStep rfl rfl
theorem copyAcceptance (x0 : Nat) : Statement (.copyAcceptance x0) := ofStep rfl rfl
theorem ferryDestinationDelivery (x0 : Nat) (x1 : Nat) : Statement (.ferryDestinationDelivery x0 x1) := ofStep rfl rfl
theorem copyCompletion (x0 : Nat) (x1 : Nat) : Statement (.copyCompletion x0 x1) := ofStep rfl rfl
theorem launchwEntryTaken (x0 : Nat) : Statement (.launchwEntryTaken x0) := ofStep rfl rfl
theorem pendingLaunchDispatch (x0 : Nat) : Statement (.pendingLaunchDispatch x0) := ofStep rfl rfl
theorem queueReady (x0 : Nat) : Statement (.queueReady x0) := ofStep rfl rfl
theorem queueSlotBind (x0 : Nat) : Statement (.queueSlotBind x0) := ofStep rfl rfl
theorem slotTimeSliceExpiry (x0 : Nat) : Statement (.slotTimeSliceExpiry x0) := ofStep rfl rfl
theorem queueDispatch (x0 : Nat) : Statement (.queueDispatch x0) := ofStep rfl rfl
theorem launchEnd (x0 : Nat) : Statement (.launchEnd x0) := ofStep rfl rfl
theorem taskStart (x0 : Nat) : Statement (.taskStart x0) := ofStep rfl rfl
theorem successorDecrement (x0 : Nat) : Statement (.successorDecrement x0) := ofStep rfl rfl
theorem preemption (x0 : Nat) : Statement (.preemption x0) := ofStep rfl rfl
theorem workgroupSave (x0 : Nat) (x1 : Nat) : Statement (.workgroupSave x0 x1) := ofStep rfl rfl
theorem workgroupRestore (x0 : Nat) (x1 : Nat) : Statement (.workgroupRestore x0 x1) := ofStep rfl rfl
theorem swapOut (x0 : Nat) : Statement (.swapOut x0) := ofStep rfl rfl
theorem swapOutComplete (x0 : Nat) : Statement (.swapOutComplete x0) := ofStep rfl rfl
theorem contextRestore (x0 : Nat) : Statement (.contextRestore x0) := ofStep rfl rfl
theorem contextRestoreComplete (x0 : Nat) : Statement (.contextRestoreComplete x0) := ofStep rfl rfl
theorem contextDestroy (x0 : Nat) : Statement (.contextDestroy x0) := ofStep rfl rfl
theorem endLaunches (x0 : Nat) : Statement (.endLaunches x0) := ofStep rfl rfl
theorem invalidate (x0 : Nat) : Statement (.invalidate x0) := ofStep rfl rfl
theorem invalidateComplete : Statement (.invalidateComplete) := ofStep rfl rfl
theorem meshSlotBinning (x0 : Nat) : Statement (.meshSlotBinning x0) := ofStep rfl rfl
theorem binsClose (x0 : Nat) : Statement (.binsClose x0) := ofStep rfl rfl
theorem binWorkgroupPlacement (x0 : Nat) : Statement (.binWorkgroupPlacement x0) := ofStep rfl rfl
theorem upscaleJobPlacement (x0 : Nat) : Statement (.upscaleJobPlacement x0) := ofStep rfl rfl
theorem consumerStripStart (x0 : Nat) : Statement (.consumerStripStart x0) := ofStep rfl rfl
theorem consumerLineSend (x0 : Nat) : Statement (.consumerLineSend x0) := ofStep rfl rfl
theorem encoderTileGroup (x0 : Nat) : Statement (.encoderTileGroup x0) := ofStep rfl rfl
theorem narrowsZeroing (x0 : Nat) : Statement (.narrowsZeroing x0) := ofStep rfl rfl
theorem chainStart (x0 : Nat) : Statement (.chainStart x0) := ofStep rfl rfl
theorem chainStop (x0 : Nat) : Statement (.chainStop x0) := ofStep rfl rfl
theorem chainRelease (x0 : Nat) : Statement (.chainRelease x0) := ofStep rfl rfl
theorem ptpSync (x0 : Nat) (x1 : Nat) (x2 : Nat) (x3 : Bool) : Statement (.ptpSync x0 x1 x2 x3) := ofStep rfl rfl
theorem ptpFollowUp (x0 : Nat) (x1 : Nat) (x2 : Nat) (x3 : Nat) : Statement (.ptpFollowUp x0 x1 x2 x3) := ofStep rfl rfl
theorem ptpDelayResp (x0 : Nat) (x1 : Nat) (x2 : Nat) (x3 : Nat) : Statement (.ptpDelayResp x0 x1 x2 x3) := ofStep rfl rfl
theorem ptpAnnounce (x0 : Nat) (x1 : Nat) : Statement (.ptpAnnounce x0 x1) := ofStep rfl rfl
theorem ptpIgnoredMessage : Statement (.ptpIgnoredMessage) := ofStep rfl rfl
theorem hostWrite (x0 : Nat) (x1 : List Byte) : Statement (.hostWrite x0 x1) := ofStep rfl rfl
theorem hostRead (x0 : Nat) (x1 : Nat) : Statement (.hostRead x0 x1) := ofStep rfl rfl
theorem remoteAccess (x0 : Nat) (x1 : Nat) (x2 : Nat) (x3 : Nat) (x4 : RemoteReq) : Statement (.remoteAccess x0 x1 x2 x3 x4) := ofStep rfl rfl
theorem remoteAccessTimeout (x0 : Nat) (x1 : Nat) : Statement (.remoteAccessTimeout x0 x1) := ofStep rfl rfl
theorem straitLinkTraining (x0 : Nat) (x1 : Bool) : Statement (.straitLinkTraining x0 x1) := ofStep rfl rfl
theorem laneRetrain (x0 : Nat) (x1 : Nat) : Statement (.laneRetrain x0 x1) := ofStep rfl rfl
theorem laneRetirement (x0 : Nat) (x1 : Nat) : Statement (.laneRetirement x0 x1) := ofStep rfl rfl
theorem errorRetry (x0 : Nat) (x1 : Nat) (x2 : Nat) (x3 : Bool) : Statement (.errorRetry x0 x1 x2 x3) := ofStep rfl rfl
theorem clockStep (x0 : Int) (x1 : Int) : Statement (.clockStep x0 x1) := ofStep rfl rfl
theorem thermalStop (x0 : Int) : Statement (.thermalStop x0) := ofStep rfl rfl
theorem thermalResume (x0 : Int) : Statement (.thermalResume x0) := ofStep rfl rfl
theorem periodicSample (x0 : Int) (x1 : Int) : Statement (.periodicSample x0 x1) := ofStep rfl rfl
theorem observationControlWrite (x0 : Nat) (x1 : BitVec 32) : Statement (.observationControlWrite x0 x1) := ofStep rfl rfl
theorem l2QuotaWrite (x0 : Nat) (x1 : BitVec 32) : Statement (.l2QuotaWrite x0 x1) := ofStep rfl rfl
theorem peerNumberWrite (x0 : BitVec 32) : Statement (.peerNumberWrite x0) := ofStep rfl rfl
theorem portConfigWrite (x0 : Nat) (x1 : BitVec 32) : Statement (.portConfigWrite x0 x1) := ofStep rfl rfl
theorem displayportConfigWrite (x0 : Nat) (x1 : Nat) (x2 : BitVec 32) : Statement (.displayportConfigWrite x0 x1 x2) := ofStep rfl rfl
theorem injectionEntryWrite (x0 : Nat) (x1 : BitVec 64) : Statement (.injectionEntryWrite x0 x1) := ofStep rfl rfl
theorem attestationRequest : Statement (.attestationRequest) := ofStep rfl rfl
theorem attestationReport : Statement (.attestationReport) := ofStep rfl rfl
theorem debugClaim (x0 : BitVec 32) (x1 : BitVec 64) : Statement (.debugClaim x0 x1) := ofStep rfl rfl
theorem debugResume (x0 : Nat) (x1 : Nat) : Statement (.debugResume x0 x1) := ofStep rfl rfl
theorem debugRead : Statement (.debugRead) := ofStep rfl rfl
theorem debugWrite : Statement (.debugWrite) := ofStep rfl rfl
theorem configWrite (x0 : Nat) (x1 : Nat) (x2 : BitVec 64) : Statement (.configWrite x0 x1 x2) := ofStep rfl rfl
theorem powerOn (x0 : List Byte) : Statement (.powerOn x0) := ofStep rfl rfl
theorem i3cRead (x0 : I3cWhat) : Statement (.i3cRead x0) := ofStep rfl rfl
theorem jtagBypass : Statement (.jtagBypass) := ofStep rfl rfl
theorem jtagIdcode : Statement (.jtagIdcode) := ofStep rfl rfl
theorem jtagSamplePreload : Statement (.jtagSamplePreload) := ofStep rfl rfl
theorem jtagExtest : Statement (.jtagExtest) := ofStep rfl rfl
theorem cpywPromiseReached (x0 : Nat) (x1 : Nat) : Statement (.cpywPromiseReached x0 x1) := ofStep rfl rfl
theorem illegalInstructionWord (x0 : BitVec 32) : Statement (.illegalInstructionWord x0) := ofWords (Nat.le_of_ble_eq_true rfl) (List.cons_ne_nil _ _) rfl
theorem remoteWriteAcknowledged (x0 : Nat) (x1 : Nat) : Statement (.remoteWriteAcknowledged x0 x1) := ofStep rfl rfl

end Sys2Proof.Laws.Shape
end

