-- ==== Sys2Proof/Tests/Slice0.lean ====
section
/-! SUPPORT. Tests: what `Instr.wf` refuses, words written out from the manual's encodings, and single steps on small states. -/

namespace Sys2Proof.Tests

open Sys2Proof Sys2Proof.Machine

/-- A lane word's control: no switch, guard `p7`. -/
def c7 : LaneCtl := { sw := false, g := 7 }

/-! ### What is not well formed: one term for each check -/

/-- R81: pairs at even registers, and groups of four at multiples of 4. -/
theorem test_wf_pairs :
    [Instr.iadd64 c7 1 2 4, .dadd c7 2 1 4, .dfma c7 2 4 1, .imad c7 .wideS 2 3 4 5, .lea c7 false 2 3 4 0 0, .iun c7 .sext64 1 2,
      .ffmax c7 .add .f64 .rne false 2 3 4 0, .fdiv c7 true .rne false 2 4 5, .cvt c7 .f64 .f32 .rne false none 1 0 2 0,
      .cvt c7 .f32 .f64 .rne false none 1 0 3 0, .vote c7 .ballot 1 7 false 0, .ld c7 (.plain .b32) .rlx .wg 0 1 0,
      .ld c7 (.plain .b128) .rlx .wg 2 4 0, .pref c7 .l2 1 0, .st c7 .b64 .rlx .wg 2 0 1, .atom c7 .add true .rlx .wg 1 2 0 4,
      .red c7 .add true .rlx .wg 2 0 1, .acas c7 true .rlx .wg 2 4 0 6 9, .visw c7 .rlx .wg 2 0 1, .tex c7 .l0 2 4 6 0,
      .tld c7 4 1 6 0, .rayq c7 false false 4 2 6, .rayn c7 false 2 4 8, .call c7 1 0, .ret c7 1, .brx c7 3,
      .waitu c7 .eq true .rlx .wg 0 2 3 4, .smovx false true 1 0, .sadd64 false 2 3 4, .scmp false .eq true 0 1 2, .sun false .zext64 1 2,
      .sld false .b64 .rlx .wg 1 2 0, .sst false .b128 .rlx .wg 2 0 6, .satom false .add true false .rlx .wg 3 2 0 4,
      .csrr false .cyc .w64 0 1 0, .time false .both 2, .sleep false true 1, .waits false .eq true .rlx .wg 0 2 1 0, .attach false 0 1 0,
      .launch false 0 1, .launchw false 3, .taskq false 0 5, .tfill false .e4m3 false 0 1, .adrain false .f32 .rne false false none 0 1,
      .aread false 1 0 0 0, .cpy false 2 2, .cpyw false 0 1 0].all (fun i => !i.wf) = true := by decide

/-- The reserved and excluded values of single entries (R75, R78, R79, R101, R107, R109, R119, R122, R126, R131, R154, R174, R196,
R199, R203). -/
theorem test_wf_values :
    [Instr.icmp c7 .any 0 1 2, .ffmax c7 .fma .f32 .rs false 1 2 3 4, .ffmax c7 .fma .f16 .rne true 1 2 3 4,
      .ffmax c7 .add .f32 .rne false 1 2 3 4, .fdiv c7 false .rs false 1 2 3, .fdiv c7 true .rne true 2 4 6,
      .cvt c7 .pi8 .f32 .rne false none 0 0 1 0, .cvt c7 .f32 .e4m3 .rne false none 0 0 1 4, .cvt c7 .e4m3 .f32 .rne false none 0 4 1 0,
      .cvt c7 .f16 .f16 .rne true none 0 0 1 0, .cvt c7 .f16 .f32 .rs false none 0 0 1 0, .fdot8 c7 false false .rs 0 1 2 3,
      .vote c7 .ballot 2 3 false 0, .ld c7 (.plain .b32) .rel .wg 0 2 0, .ld c7 (.plane 0 false true) .rlx .wg 0 2 0,
      .st c7 .b32 .acq .wg 2 0 1, .red c7 .add false .ar .wg 2 0 1, .visw c7 .acq .wg 2 0 4, .tex c7 .l0 4 2 6 1, .fence c7 .rlx .wg,
      .waitu c7 .any false .rlx .wg 0 2 3 4, .scmp false .any false 0 1 2, .sld false .b32 .rel .wg 1 2 0, .sst false .b32 .acq .wg 2 0 1,
      .satom false .add false true .rlx .wg 1 2 0 3, .csrr false .cyc .w32 2 0 0, .csrr false .ptime .w64 1 0 0,
      .csrr false .cyc .w128 0 0 0, .csrr false .gen .w32 0 0 1, .csrw false .cyc .w32 0 0 1, .csrw false .mxstat .w32 0 1 2,
      .waits false .any false .rlx .wg 0 2 1 0, .tfill false .f32 false 0 2, .mma false .e4m3 .bf16 false false none 0 0 0 0 0,
      .mma false .e4m3 .pi8 false false none 0 0 0 0 0, .mma false .e4m3 .e4m3 true false none 0 0 0 0 0,
      .mma false .pi8 .pi8 true false none 0 0 0 0 0, .mma false .e4m3 .e4m3 false false none 0 0 4 0 0,
      .mma false .e4m3 .e4m3 false false (some 4) 0 0 0 0 0, .adrain false .f64 .rne false false none 0 2,
      .adrain false .f32 .rs false false none 0 2, .illegalInstructionWord 0x3D000000].all (fun i => !i.wf) = true := by decide

/-! ### Words written out field by field from the encodings of R65 to R91 -/

/-- R74: s, major, g, d, a, b; `IADDI` -1 in seven bits, and `SEL` with its predicate in the guard's place. -/
theorem test_decode_int :
    decodeWords 0b0_1_000000_010_0000101_0000110_1111111 0 = .ok (.iadd { sw := true, g := 2 } 5 6 127) ∧
    decodeWords 0b0_0_000010_111_0000001_0000010_1111111 0 = .ok (.iaddi c7 1 2 (-1)) ∧
    decodeWords 0b0_0_010011_111_0000001_0000010_0001101 0 = .error .illegalOperand ∧
    decodeWords 0b0_0_010011_111_0000001_0000010_0000100 0 = .ok (.iun c7 .popc 1 2) ∧
    decodeWords 0b0_0_010110_111_0101_011_0000010_0000011 0 = .ok (.icmp c7 .ge 3 2 3) ∧
    decodeWords 0b0_0_010111_100_0000001_0000010_0000011 0 = .ok (.sel false 4 1 2 3) := by decide +kernel

/-- R86, R76: unassigned majors, and reserved functions of shared majors. -/
theorem test_decode_unassigned :
    ([0x37, 0x3E, 0x3F, 0xA7, 0xBA, 0xBF].all fun m => decodeWords (m * 2 ^ 24) 0 == .ok (.illegalInstructionWord (BitVec.ofNat 32 (m * 2 ^ 24)))) = true ∧
    decodeWords 0b0_0_111010_111_0000000_0000000_0000101 0 = .error .illegalOperand ∧
    decodeWords 0b0_0_111101_111_0000_11_0_0000000_00_00000 0 = .error .illegalOperand ∧
    decodeWords 0b0_0_111011_111_1100_111_0_0000_00_0000000 0 = .error .illegalOperand ∧
    decodeWords 0b1_0_100100_000000000000000000000001 0 = .error .illegalInstruction := by decide +kernel

/-- R74: `MOVI` in one word and two, `MOVS`, and the branch of the manual's worked case. -/
theorem test_decode_moves :
    decodeWords 0x18E15FFF 0 = .ok (.movi c7 5 (-1)) ∧
    decodeWords 0x18E16000 0x12345678 = .ok (.moviImm32 c7 5 0x12345678) ∧
    decodeWords 0b0_0_011001_111_0000100_000000_11111111 0 = .ok (.movs c7 4 255) ∧
    decodeWords 0x385FFFFD 0 = .ok (.bra { sw := false, g := 2 } (-3)) ∧
    decodeWords 0x3AE00001 0 = .ok (.exit c7) := by decide +kernel

/-- R75, R106, R110: `FADD.rz` of the worked case, `FFMA` in its own major, `FCMP`, and a reserved mode. -/
theorem test_decode_float :
    decodeWords 0x1EE18082 0x00440000 = .ok (.ffmax c7 .add .f32 .rz false 6 1 2 0) ∧
    decodeWords 0b0_0_011101_111_0000001_0000010_0000011 0 = .ok (.ffma c7 1 2 3) ∧
    decodeWords 0b0_0_011110_111_0000010_0000100_0000110 0b0001000_000_0_000_01_0000000000000000 = .ok (.ffmax c7 .fma .f64 .rne false 2 4 6 8) ∧
    decodeWords 0x1EE18082 0b0000000_001_0_101_00_0000000000000000 = .error .illegalOperand := by decide +kernel

/-- R75, R121 to R123: the cross-lane words. -/
theorem test_decode_cross :
    decodeWords 0b0_0_101101_111_0000001_0000010_0000011 0 = .ok (.shfl c7 .idx 1 2 (.reg 3)) ∧
    decodeWords 0b0_0_101111_111_0000001_0000010_0000000 0 = .ok (.redux c7 .add .reduce 1 2) := by decide +kernel

/-- R75 (LM): a store with scope `.atoll`, order `.rel` and a negative offset; `RED`; a rejected order and scope. -/
theorem test_decode_memory :
    decodeWords 0b0_0_110001_111_0000000_0000010_0000101 0b0000000_0_100_000_010_10_1111111111100 =
      .ok (.st c7 .b32 .rel .atoll 2 (-4) 5) ∧
    decodeWords 0b0_0_110010_111_0000000_0000010_0000101 0b0000000_1_000000_011_00_0000000000100 =
      .ok (.red c7 .add false .rlx .dev 2 4 5) ∧
    decodeWords 0b0_0_110001_111_0000000_0000010_0000101 0b0000000_0_010_000_010_01_0000000000000 = .error .illegalOperand ∧
    decodeWords 0b0_0_110001_111_0000000_0000010_0000101 0b0000000_0_010_000_110_00_0000000000000 = .error .illegalOperand ∧
    decodeWords 0x70E28400 0x00A1A010 = .ok (.ld { c7 with sw := true } (.plain .b64) .acq .dev 10 8 16) ∧
    decodeWords 0x34E0050C 0x00018000 = .ok (.visw c7 .rlx .dev 10 0 12) := by decide +kernel

/-- R76: barriers and masks. -/
theorem test_decode_control :
    decodeWords 0b0_0_111101_111_0011_00_0_0000000_00_00000 0 = .ok (.bar c7 3 none 0) ∧
    decodeWords 0b0_0_111101_111_0011_10_1_0000101_00_10000 0 = .ok (.barw c7 3 (some 5) 16) ∧
    decodeWords 0b0_0_111101_111_0011_00_0_0000000_00_10001 0 = .error .illegalOperand ∧
    decodeWords 0b0_0_111011_111_1011_000_0_0000_01_0000000 0 = .ok (.karr c7 11) := by decide +kernel

/-- R77, R78: the uniform formats. -/
theorem test_decode_uniform :
    decodeWords 0xC00A0405 0 = .ok (.sadd true 10 4 5) ∧
    decodeWords 0b1_0_010100_1_011_1111_1111111111111110 0 = .ok (.sbra false true 3 (-2)) ∧
    decodeWords 0b1_0_010001_1001_010_1_00000100_00000110 0 = .ok (.scmp false .geu true 2 4 6) ∧
    decodeWords 0b1_0_010010_00000001_00000010_00000011 5 = .ok (.ssel false 5 1 2 3) ∧
    decodeWords 0x96003408 0x10140000 = .ok (.sst false .b64 .rel .wg 52 0 8) ∧
    decodeWords 0b1_0_011100_1100_001_0_00000100_00000000 0b00000111_011_01_0000000000000000000 =
      .ok (.waits false .any false .acq .dev 1 4 0 7) := by decide +kernel

/-- R77, R183, R184: launches, tasks and the return from a handler. -/
theorem test_decode_system :
    decodeWords 0xA0041400 0 = .ok (.launch false 2 20) ∧ decodeWords 0xA2021400 0 = .ok (.taskq false 1 20) ∧
    decodeWords 0xA4000000 0 = .ok (.tret false) ∧ decodeWords 0b1_1_011111_00000000_0000000000000001 0 = .ok (.replay true true) ∧
    decodeWords 0b1_0_100101_00000001_00000010_00000011 0 = .ok (.genr false .acc 1 2) := by decide +kernel

/-- The tile, copy and handle words of the manual's kernels. -/
theorem test_decode_tile :
    decodeWords 0xA8000200 0 = .ok (.tclaim false 1 (.tile 0)) ∧ decodeWords 0xA8400700 0 = .ok (.tclaim false 3 (.acc 2)) ∧
    decodeWords 0xAA000614 0 = .ok (.tfill false .e3m2 false 0 20) ∧ decodeWords 0xAD400000 0 = .ok (.aclr false 2) ∧
    decodeWords 0xAC40A800 0x32000000 = .ok (.mma false .e3m2 .e2m1 false false none 2 0 0 1 5) ∧
    decodeWords 0xAE4C0018 0 = .ok (.ascale false false false 2 3 24) := by decide +kernel

theorem test_decode_copy :
    decodeWords 0xB3003002 0 = .ok (.hclaim false 2 48) ∧ decodeWords 0xB6000005 0 = .ok (.hfree false 5) ∧
    decodeWords 0xB90A0002 0 = .ok (.hwait false false 10 2) ∧ decodeWords 0xB7000005 0 = .ok (.hret false 5) ∧
    decodeWords 0xB5000005 0 = .ok (.hdrain false 5) ∧ decodeWords 0b1_0_110100_00000_011_00000010_00000001 0 = .error .illegalInstruction ∧
    decodeWords 0b1_0_110100_0000000000000_011_00000001 0 = .ok (.hfull false .dev 1) ∧
    decodeWords 0b1_0_110101_0000000000000000_01000000 0 = .error .illegalOperand := by decide +kernel

end Sys2Proof.Tests
end

