-- ==== Sys2Proof/Tests/Witness.lean ====
section
/-! SUPPORT. For each statement that has hypotheses, a state and operands that meet them. -/

namespace Sys2Proof.Tests

open Sys2Proof Sys2Proof.Machine

set_option Elab.async false

/-! ### A small machine: one core, one workgroup of two groups, two threads present -/

/-- Lanes 0 and 63. -/
def ends : Nat := 2 ^ 63 + 1

def pair0 : Tbl Thread := [(0, { live := true, pc := 0x100, seed := 1 }), (63, { live := true, pc := 0x100, seed := 1 })]

def group0 : Group := { used := true, vregs := 128, sregs := 256, thr := pair0 }

def inst0 : Inst := { core := 0, pc := 0x100, num := 0, parts := [(0, ends)], word := 0x3AE00001 }

/-- The same with both groups of the workgroup. -/
def inst2 : Inst := { inst0 with parts := [(0, ends), (1, ends)] }

def core0 : Core := {
  nextGen := 2, nums := [(0, 1)], wgs := [(0, { used := true, slots := [0, 1], gen := 1, scrLen := 1024 })],
  grps := [(0, group0), (1, { group0 with index := 1 })],
  tlb := [{ ctx := 0, va := 0, size := 65536, pa := 0x10000, w := true, x := true }] }

def launch0 : Launch := { used := true, lr := { vregs := 128, sregs := 256, groups := 2, producer := some 0 } }

def gotBytes : UnitRead (List Byte) → Bool
  | .ok _ _ => true
  | _ => false

def gotWords : UnitRead (List Word) → Bool
  | .ok _ _ => true
  | _ => false

/-- The launch that chose the stale-read trap (R52) and is co-resident. -/
def launchT : Launch := { launch0 with lr := { launch0.lr with flags := 0xFF } }

def base (i : Inst) (x : Core) (l : Launch) : State :=
  { inst := some i, tick := 5, cores := [(0, x)], launches := [(0, l)] }

def s0 : State := base inst0 core0 launch0

theorem s0_running : s0.running inst0 := by unfold State.running; decide +kernel

def two_state : State := base inst2 core0 launch0

theorem two_running : two_state.running inst2 := by unfold State.running; decide +kernel

theorem s0_alone : s0.alone inst0 (0, ends) ∧ s0.aloneLane inst0 (0, ends) :=
  ⟨⟨s0_running, rfl⟩, ⟨s0_running, rfl⟩, rfl⟩

def ready (regs : List (Nat × Nat)) (srcs : List Nat) : Prop :=
  two_state.running inst2 ∧ inst2.handler = false ∧
    ∀ p ∈ inst2.parts, two_state.laneReady inst2 p.1 regs srcs

/-- Every register of an allocation of 128 is ready where the launch reads stale rows as zero. -/
theorem ready_of (regs : List (Nat × Nat)) (srcs : List Nat) (h : ∀ r ∈ regs, r.1 + r.2 ≤ 128) : ready regs srcs := by
  refine ⟨two_running, rfl, fun p hp => ⟨?_, .inl (by decide +kernel +revert)⟩⟩
  have : (two_state.grp inst2.core p.1).vregs = 128 := by decide +kernel +revert
  rwa [this]

/-- A group of 128 registers whose launch traps stale reads, with the last pair's rows current. -/
def sT : State := base inst0 { core0 with rows := [(126, { tag := 1 }), (127, { tag := 1 })] } launchT

theorem witness_IntegerWords :
    ready [(127, 1), (0, 1), (127, 1)] [0, 127] ∧ ready [(126, 2), (0, 2), (126, 2)] [0, 1, 126, 127] ∧
      sT.laneReady inst0 0 [(127, 1), (126, 1), (127, 1)] [126, 127] := by
  refine ⟨ready_of _ _ (by decide), ready_of _ _ (by decide), ?_⟩
  unfold State.laneReady; decide +kernel

theorem witness_IntegerFunctionWords :
    ready [(127, 1), (0, 1)] [0] ∧ ready [(127, 1), (0, 1), (1, 1), (127, 1)] [0, 1, 127] ∧
      ready [(126, 2), (0, 1), (1, 1), (126, 2)] [0, 1, 126, 127] ∧ ready [(0, 2), (126, 2), (127, 1)] [126, 127, 127] :=
  ⟨ready_of _ _ (by decide), ready_of _ _ (by decide), ready_of _ _ (by decide), ready_of _ _ (by decide)⟩

theorem witness_MoveWords :
    ready [(127, 1), (0, 1)] [0] ∧ ready [(127, 1)] [] ∧ ready [(127, 1), (0, 1), (1, 1)] [0, 1] ∧
      ∀ p ∈ inst2.parts, (127 : Nat) < (two_state.grp inst2.core p.1).vregs ∧
        (255 : Nat) < (two_state.grp inst2.core p.1).sregs :=
  ⟨ready_of _ _ (by decide), ready_of _ _ (by decide), ready_of _ _ (by decide), by decide +kernel⟩

theorem witness_FieldWords :
    ready [(127, 1), (0, 1)] [0] ∧ ready [(126, 2), (0, 1)] [0] ∧ ready [(127, 1), (0, 1), (1, 1), (127, 1)] [0, 1, 127] :=
  ⟨ready_of _ _ (by decide), ready_of _ _ (by decide), ready_of _ _ (by decide)⟩

theorem witness_CompareWords : ready [(0, 1), (127, 1)] [0, 127] := ready_of _ _ (by decide)

theorem witness_FloatWords : ready [(127, 1), (0, 1), (1, 1)] [127, 0, 1] ∧ ready [(127, 1), (0, 1)] [0] :=
  ⟨ready_of _ _ (by decide), ready_of _ _ (by decide)⟩

theorem witness_GeneralFloatWords :
    ready [(127, 1), (0, 1), (1, 1), (2, 1)] [0, 1, 2] ∧ ready [(127, 1), (0, 1), (1, 1)] [0, 1] ∧
      ready [(126, 2), (0, 2), (2, 2), (4, 2)] [0, 1, 2, 3, 4, 5] :=
  ⟨ready_of _ _ (by decide), ready_of _ _ (by decide), ready_of _ _ (by decide)⟩

theorem witness_PackedWords :
    ready [(127, 1), (0, 1), (1, 1), (2, 1)] [0, 1, 2] ∧ ready [(126, 2), (0, 2), (2, 2)] [126, 127, 0, 1, 2, 3] :=
  ⟨ready_of _ _ (by decide), ready_of _ _ (by decide)⟩

/-- A row whose element 127 has the planes of 0x81, and products of one element. -/
theorem witness_IntegerValues :
    let u : Slot := { tag := 1, rows := [(5, 2 ^ 127 + 2 ^ 1023)] }
    Fmt.isPlane .pi8 = true ∧ Fmt.isPlane .pn2 = true ∧ Fmt.planes .pn2 < 8 ∧ u.tag = 1 ∧ u.bad = [] ∧
      (∀ q, q < 8 → (u.row 1 5).testBit (128 * q + 127) = (0x81 : Nat).testBit (7 - q)) ∧
      [(7 : Word)].length = [[(2 : Int)]].length * [[(-3 : Int)]].length := by decide +kernel

/-- Codes of an infinity, of a number and of a NaN meet the premises on values. -/
theorem witness_FloatValues :
    (fmt32.decode 0x7FC00001).isNan = true ∧ fmt32.decode 0x7F800000 = .inf false ∧ fmt32.decode 0xFF800000 = .inf true ∧
      (fmt32.decode 0x80000000).isZero = true ∧ fmt32.decode 0x3F800000 = .fin false 1 ∧ fmt32.decode 0xBF800000 = .fin true 1 := by
  decide +kernel

/-- Numbers below one another, equal zeros, a power of two, and an element of a slot and of a block sum. -/
theorem witness_FloatValues_more :
    (fmt32.decode 0xBF800000).below (fmt32.decode 0x3F800000) ∧ ¬ (fmt32.decode 0).below (fmt32.decode 0x80000000) ∧
      ¬ (fmt32.decode 0x80000000).below (fmt32.decode 0) ∧ fmt32.decode 0x40000000 = .fin false 2 ∧ pow2 1 = 2 ∧ Fmt.isPlane .e4m3 = false ∧
      ({ tag := 1 } : Slot).bad = [] ∧ [(7 : Word)].length = [[FVal.nan]].length * [[FVal.inf false]].length ∧
      (fmt32.decode 0x7FC00000).isNan = true ∧ (fmt32.decode 0).isNan = false := by
  refine ⟨?_, ?_, ?_, ?_⟩
  · have h : fmt32.decode 0xBF800000 = .fin true 1 := by decide +kernel
    have k : fmt32.decode 0x3F800000 = .fin false 1 := by decide +kernel
    simp [h, k, FVal.below, FVal.toRat]
  · have h : fmt32.decode 0x80000000 = .fin true 0 := by decide +kernel
    have k : fmt32.decode 0 = .fin false 0 := by decide +kernel
    simp [h, k, FVal.below, FVal.toRat]
  · have h : fmt32.decode 0x80000000 = .fin true 0 := by decide +kernel
    have k : fmt32.decode 0 = .fin false 0 := by decide +kernel
    simp [h, k, FVal.below, FVal.toRat]
  · decide +kernel

theorem witness_RoundingNearest :
    fmt16.decode 0x3C00 = .fin false 1 ∧ fmt16.decode 0x0001 = .fin false (1 / 2 ^ 24) ∧ floatFmt .f16 = some fmt16 ∧
      fmt16.roundMag .ru false 65504 0 ≤ fmt16.maxFinite ∧ fmt16.maxFinite < fmt16.roundMag .rz false 65536 0 ∧
      fmt16.roundMag .rz false 65536 0 = 65536 ∧ floatFmt .s8 = none ∧ floatFmt .u64 = none ∧ intRange .s8 = (-2 ^ 7, 2 ^ 7 - 1) ∧
      max (intRange .s8).1 (-⌊(7 / 2 : Rat)⌋) = -3 := by decide +kernel

/-- A number between the scales of codes 4 and 5, and one below the least. -/
theorem witness_RoundingNearest_scale :
    let scale := fun k : Nat => pow2 ((k / 4 : Nat) - 129 : Int) * ((4 + k % 4 : Nat) : Rat)
    scale 4 < 9 / 2 ^ 129 ∧ 9 / 2 ^ 129 < scale 5 ∧ 0 < scale 1 ∧ scale 0x3FE < 2 ^ 130 := by decide +kernel

/-- R18: the tie `1 + 2^-11` in `f16` goes to the even code. -/
theorem test_round_tie : fmt16.roundMag .rne false (1 + 1 / 2 ^ 11) 0 = 1 := by decide +kernel

/-- A group whose `ADRAIN.rs` is queued. -/
def sDrain : State := base inst0 { core0 with
  seq := [{ id := 1, slot := 0, gen := 1, wg := 0, lanes := ends, cls := 0, act := .drain 7 .bf16 .rs none false false 0 0,
            redundant := false, staleTrap := false }] } launch0

theorem witness_ConvertWord :
    ready (cvtRegs .f64 .f32 (some 127) 126 0) (cvtSrcs .f64 .f32 (some 127) 126 0) ∧
      ready (cvtRegs .e2m1 .f64 none 127 126) (cvtSrcs .e2m1 .f64 none 127 126) ∧
      (∀ p ∈ inst2.parts, (two_state.core 0).drainsRs p.1 (two_state.genOf 0 p.1) = false) ∧
      (sDrain.core 0).drainsRs 0 (sDrain.genOf 0 0) = true :=
  ⟨ready_of _ _ (by decide), ready_of _ _ (by decide), by decide +kernel, by decide +kernel⟩

theorem witness_CrossLaneWords :
    ready [(127, 1), (0, 1), (1, 1)] [0, 1] ∧ ready [(126, 2)] [] ∧ ready [(127, 1)] [] ∧ ready [(127, 1), (0, 1)] [0] :=
  ⟨ready_of _ _ (by decide), ready_of _ _ (by decide), ready_of _ _ (by decide), ready_of _ _ (by decide)⟩

theorem witness_BranchWords :
    ready [(126, 2)] [] ∧
      ∀ p ∈ inst2.parts, ∀ l, l < 64 → pairOf (fun r => two_state.rdV inst2.core p.1 r l) 126 < 2 ^ 48 ∧
        pairOf (fun r => two_state.rdV inst2.core p.1 r l) 126 % 4 = 0 :=
  ⟨ready_of _ _ (by decide), by decide +kernel⟩

/-! ### Lane words on memory, masks and barriers -/

/-- The pair v0, v1 of both threads points at the last 16 bytes of the scratchpad. -/
def sEdge : State := base inst0 { core0 with rows := [
  (0, { tag := 1, lanes := [(0, 0x3F0), (63, 0x3F0)] }), (1, { tag := 1, lanes := [(0, 0x20000000), (63, 0x20000000)] })] } launch0

/-- What each form of an access needs, at device address 0 by the zero pair v2, v3 and at the end of the scratchpad by v0, v1. -/
def goes (k : AccKind) (counted reads : Bool) (size : Nat) (plane : Option Nat) : Prop :=
  (∃ r ps, ∀ l, sEdge.executes inst0 (0, ends) 7 l →
    sEdge.accessReady inst0 (0, ends) 7 counted reads k size plane (laneEa 2 0 fun n => sEdge.rdV 0 0 n l) l r ps) ∧
  ∃ r ps, ∀ l, sEdge.executes inst0 (0, ends) 7 l →
    sEdge.accessReady inst0 (0, ends) 7 counted reads k size plane (laneEa 0 0 fun n => sEdge.rdV 0 0 n l) l r ps

theorem goes_of (k : AccKind) (counted reads : Bool) (size : Nat) (plane : Option Nat) (r q : Reach) (ps qs : List (Nat × Nat))
    (h : (List.range 64).all (fun l => !sEdge.executes inst0 (0, ends) 7 l ||
      (decide ((sEdge.thr 0 0 l).count ≠ 63) &&
      decide (sEdge.reach (inst0.part sEdge 7 (0, ends)) k reads l (laneEa 2 0 fun n => sEdge.rdV 0 0 n l) size plane = .ok r) &&
      decide (sEdge.reach (inst0.part sEdge 7 (0, ends)) k reads l (laneEa 0 0 fun n => sEdge.rdV 0 0 n l) size plane = .ok q) &&
      decide (sEdge.found 0 0 (if k = .load then .read else .write) r = some ps) &&
      decide (sEdge.found 0 0 (if k = .load then .read else .write) q = some qs))) = true) : goes k counted reads size plane := by
  have key : ∀ l, sEdge.executes inst0 (0, ends) 7 l → _ := fun l hl => by
    have h64 : l < 64 := by
      unfold State.executes at hl
      simp only [Bool.and_eq_true, decide_eq_true_eq] at hl
      exact hl.1.1
    have := List.all_eq_true.mp h l (List.mem_range.mpr h64)
    simp only [hl, Bool.not_true, Bool.false_or, Bool.and_eq_true, decide_eq_true_eq] at this
    exact this
  exact ⟨⟨r, ps, fun l hl => ⟨fun _ => (key l hl).1.1.1.1, (key l hl).1.1.1.2, (key l hl).1.2⟩⟩,
    ⟨q, qs, fun l hl => ⟨fun _ => (key l hl).1.1.1.1, (key l hl).1.1.2, (key l hl).2⟩⟩⟩

def rDev (n : Nat) : Reach := { place := .device, vas := [(0, n)], paged := true, l1 := true, ea := 0 }
def rSram (n : Nat) : Reach := { place := .sram 0, vas := [(1008, n)], ogen := 1, ea := 2 ^ 61 + 1008 }

theorem witness_MemoryWords :
    goes .load true true 16 none ∧ goes .load true true 1 none ∧ goes .load true true 1 (some 2) ∧ goes .store false false 16 none ∧
      goes (.atomic false) true true 8 none ∧ goes (.atomic true) true true 4 none ∧ goes (.atomic false) false false 8 none ∧
      goes .visw false false 8 none ∧ s0.choose 2 = false :=
  ⟨goes_of _ _ _ _ _ (rDev 16) (rSram 16) [(65536, 16)] [(1008, 16)] (by decide +kernel),
    goes_of _ _ _ _ _ (rDev 1) (rSram 1) [(65536, 1)] [(1008, 1)] (by decide +kernel),
    goes_of _ _ _ _ _ { rDev 1 with vas := [(0, 1), (16, 1)] } { rSram 1 with vas := [(910, 1), (926, 1)] } [(65536, 1), (65552, 1)]
      [(910, 1), (926, 1)] (by decide +kernel),
    goes_of _ _ _ _ _ (rDev 16) (rSram 16) [(65536, 16)] [(1008, 16)] (by decide +kernel),
    goes_of _ _ _ _ _ (rDev 8) (rSram 8) [(65536, 8)] [(1008, 8)] (by decide +kernel),
    goes_of _ _ _ _ _ (rDev 4) (rSram 4) [(65536, 4)] [(1008, 4)] (by decide +kernel),
    goes_of _ _ _ _ _ (rDev 8) (rSram 8) [(65536, 8)] [(1008, 8)] (by decide +kernel),
    goes_of _ _ _ _ _ (rDev 8) (rSram 8) [(65536, 8)] [(1008, 8)] (by decide +kernel), by decide⟩

theorem witness_MaskWords :
    s0.aloneLane inst0 (0, ends) ∧ two_state.running inst2 ∧
      (s0.core 0).pendingAt 0 (s0.genOf 0 0) (inst0.part s0 7 (0, ends)).exec .wg = false ∧
      (inst0.part s0 7 (0, ends)).exec = ends ∧ (inst0.part s0 6 (0, ends)).exec = 0 ∧ s0.executes inst0 (0, ends) 7 63 ∧
      s0.executes inst0 (0, ends) 6 63 = false :=
  ⟨s0_alone.2, two_running, by decide +kernel, by decide +kernel, by decide +kernel, by decide +kernel, by decide +kernel⟩

/-- A mask whose members have all arrived, and one that still waits for lane 63. -/
theorem witness_MasksAndEnds :
    ({ m := BitVec.ofNat 64 ends, a := BitVec.ofNat 64 ends } : Mask).m &&& ~~~({ m := BitVec.ofNat 64 ends, a := BitVec.ofNat 64 ends } : Mask).a = 0 ∧
      ({ m := BitVec.ofNat 64 ends, a := 1 } : Mask).m &&& ~~~({ m := BitVec.ofNat 64 ends, a := 1 } : Mask).a ≠ 0 := by decide +kernel

/-- Barrier 15 of the own workgroup, and of the partner on core 3 of the atoll. -/
def sBar : State :=
  { base inst0 core0 launchT with
    cores := [(0, { core0 with
      wgs := [(0, { used := true, slots := [0, 1], gen := 1, partners := [(0, 0, 1), (1, 0, 1), (2, 0, 1), (3, 0, 7)] })]
      rows := [(127, { tag := 1, lanes := [(0, 3), (63, 3)] })] }), (3, { wgs := [(0, { used := true, gen := 7 })] })] }

theorem witness_BarrierWords :
    s0.aloneLane inst0 (0, ends) ∧ s0.laneReady inst0 0 [] [] ∧
      (∀ l ∈ s0.executing inst0 (0, ends) 7, s0.barOwner (inst0.part s0 7 (0, ends)) none l = .ok (0, 0)) ∧
      sBar.running inst0 ∧ sBar.laneReady inst0 0 [(127, 1)] [] ∧ (sBar.launchOf 0 0).lr.coresident = true ∧
      (∀ l ∈ sBar.executing inst0 (0, ends) 7, sBar.barOwner (inst0.part sBar 7 (0, ends)) (some 127) l = .ok (3, 0)) ∧
      (sBar.core 0).pendingAt 0 (sBar.genOf 0 0) (inst0.part sBar 7 (0, ends)).exec .atoll = false := by
  refine ⟨s0_alone.2, ?_, by decide +kernel, ?_, ?_, by decide +kernel, by decide +kernel, by decide +kernel⟩
  · unfold State.laneReady; decide +kernel
  · unfold State.running; decide +kernel
  · unfold State.laneReady; decide +kernel

/-- Two groups, so 128 arrivals: the first of a phase, the last but one and the last. -/
theorem witness_BarrierWords_arrive :
    ((s0.core 0).grps.map (·.1)).Nodup ∧ (s0.wg 0 0).slots.length = 2 ∧ barTarget (Tbl.get (s0.wg 0 0).bars 15) = 0 ∧
      barArrived (2 * 2 ^ 11 + 126) + 1 + s0.ended 0 0 < 64 * barTarget (2 * 2 ^ 11 + 126) + s0.ended 0 0 ∧
      64 * barTarget (2 * 2 ^ 11 + 127) ≤ barArrived (2 * 2 ^ 11 + 127) + 1 + s0.ended 0 0 := by decide +kernel

/-- One thread, lane 63, waits on the word at device address 0. -/
def sOne : State := base { inst0 with parts := [(0, 2 ^ 63)] } core0 launch0

def watchHere (timeout operand : Nat) (cond : Cond) : Registered :=
  sOne.registerOn (({ inst0 with parts := [(0, 2 ^ 63)] } : Inst).part sOne 7 (0, 2 ^ 63)) (2 ^ 63) (.thread 0 0 63) cond false operand
    timeout 6 .acq .dev (rDev 4)

theorem witness_WaitWord :
    sOne.walkFull [(65536, 4)] = false ∧ sOne.aloneLane { inst0 with parts := [(0, 2 ^ 63)] } (0, 2 ^ 63) ∧
      sOne.executing { inst0 with parts := [(0, 2 ^ 63)] } (0, 2 ^ 63) 7 = [63] ∧
      sOne.laneReady { inst0 with parts := [(0, 2 ^ 63)] } 0 [(126, 2), (0, 1), (1, 1)] [] ∧
      sOne.reach (({ inst0 with parts := [(0, 2 ^ 63)] } : Inst).part sOne 7 (0, 2 ^ 63)) .watch false 63 0 4 none = .ok (rDev 4) ∧
      sOne.choose 2 = false ∧ sOne.hits 0 0 .read [(0, 4)] = some [(65536, 4)] ∧
      (sOne.core 0).mayPerform (sOne.watchOp (({ inst0 with parts := [(0, 2 ^ 63)] } : Inst).part sOne 7 (0, 2 ^ 63)) (2 ^ 63) false
        (rDev 4) [(65536, 4)] .acq .dev) = true := by
  refine ⟨by decide +kernel, ⟨⟨?_, rfl⟩, rfl⟩, by decide +kernel, ?_, by decide +kernel, by decide, by decide +kernel, by decide +kernel⟩
  · unfold State.running; decide +kernel
  · unfold State.laneReady; decide +kernel

/-- The word holds zero: equal to 0 at once, not equal to 1 with a timeout of zero or more. -/
theorem witness_WaitWord_outcomes :
    (match watchHere 5 0 .eq with | .decided _ b => b | _ => false) = true ∧
      (match watchHere 0 1 .eq with | .decided _ b => !b | _ => false) = true ∧
      (match watchHere 1 1 .eq with | .entered _ _ => true | _ => false) = true := by decide +kernel

/-- A device with no slice listed has no write at a walker. -/
theorem idle_of (s : State) (h : s.slices = []) : s.walkersIdle := by intro n; rw [h]; rfl

theorem witness_WordEnds : inst0.parts = [(0, ends)] := rfl

/-! ### Uniform and system words -/

def uready (regs : List (Nat × Nat)) : Prop :=
  two_state.running inst2 ∧ ∀ p ∈ inst2.parts, two_state.scalarReady inst2 p.1 regs

theorem uready_of (regs : List (Nat × Nat)) (h : ∀ r ∈ regs, r.1 + r.2 ≤ 256) : uready regs := by
  refine ⟨two_running, fun p hp => ?_⟩
  have : (two_state.grp inst2.core p.1).sregs = 256 := by decide +kernel +revert
  intro r hr
  rw [this]; exact h r hr

theorem witness_ScalarWords :
    uready [(255, 1), (0, 1), (255, 1)] ∧ uready [(254, 2), (0, 2), (254, 2)] ∧ uready [(254, 2)] ∧ uready [(254, 2), (255, 1)] :=
  ⟨uready_of _ (by decide), uready_of _ (by decide), uready_of _ (by decide), uready_of _ (by decide)⟩

theorem witness_ScalarDecisions : uready [(255, 1), (0, 1)] ∧ uready [(254, 2), (0, 2)] ∧ two_state.running inst2 :=
  ⟨uready_of _ (by decide), uready_of _ (by decide), two_running⟩

/-- What a uniform access of a size needs at device address 0, in both groups. -/
def ugoes (k : AccKind) (reads : Bool) (n : Nat) : Prop :=
  two_state.choose 2 = false ∧ ∀ p ∈ inst2.parts, (two_state.grp 0 p.1).ucount ≠ 63 ∧
    two_state.reach (inst2.upart p) k reads 64 (uniformEa (two_state.grp 0 p.1) 254 0) n none = .ok (rDev n) ∧
    two_state.found 0 (two_state.launchOf 0 p.1).ctx (if k = .load then .read else .write) (rDev n) = some [(65536, n)]

theorem witness_UniformMemoryWords :
    ugoes .load true 16 ∧ ugoes .load true 1 ∧ ugoes .store false 16 ∧ ugoes (.atomic true) true 4 ∧ ugoes (.atomic false) false 8 ∧
      uready [(252, 4), (254, 2)] ∧ uready [(254, 2), (252, 4)] ∧ uready [(254, 2), (0, 2), (254, 2)] := by
  refine ⟨?_, ?_, ?_, ?_, ?_, uready_of _ (by decide), uready_of _ (by decide), uready_of _ (by decide)⟩ <;>
    unfold ugoes <;> decide +kernel

theorem witness_SystemReads :
    uready [(252, 4)] ∧ uready [(254, 2), (255, 1)] ∧ uready [(255, 1), (255, 1)] :=
  ⟨uready_of _ (by decide), uready_of _ (by decide), uready_of _ (by decide)⟩

/-- Every field of a system register is in its range. -/
theorem witness_SystemReads_fields :
    (s0.launchOf 0 0).cls < 4 ∧ (s0.launchOf 0 0).ctx < 2 ^ 16 ∧ (s0.core 0).drops < 2 ^ 16 ∧ (s0.wgOf 0 0).count < 2 ^ 8 ∧
      (s0.wgOf 0 0).point < 2 ^ 8 ∧ (s0.grp 0 0).isw < 2 ^ 16 ∧ (s0.grp 0 0).ucount < 64 ∧
      ∀ l, l < 64 → (Tbl.get (s0.grp 0 0).thr l).count < 64 := by decide +kernel

theorem witness_SystemWrites :
    s0.alone inst0 (0, ends) ∧ s0.scalarReady inst0 0 [(255, 1), (255, 1)] ∧ handlerOnly .mxstat = false ∧ handlerOnly .tcause = true ∧
      (s0.launchOf 0 0).cls = 0 ∧ (s0.core 0).drainsRs 0 (s0.genOf 0 0) = false ∧
      (base { inst0 with handler := true } core0 launch0).alone { inst0 with handler := true } (0, ends) := by
  refine ⟨s0_alone.1, ?_, rfl, rfl, by decide +kernel, by decide +kernel, ?_, rfl⟩
  · unfold State.scalarReady; decide +kernel
  · unfold State.running; decide +kernel

theorem witness_WaitingWords :
    s0.alone inst0 (0, ends) ∧ s0.scalarReady inst0 0 [(254, 2)] ∧ s0.scalarReady inst0 0 [(254, 2), (254, 2), (255, 1)] ∧
      s0.reach (inst0.upart (0, ends)) .watch false 64 (pairOf (s0.grp 0 0).sreg 254) 4 none = .ok (rDev 4) ∧
      (match s0.registerOn (inst0.upart (0, ends)) ends (.group 0 0) .eq false 0 0 6 .acq .dev (rDev 4) with
        | .decided _ b => b | _ => false) = true ∧
      (match s0.registerOn (inst0.upart (0, ends)) ends (.group 0 0) .any false 0 1 6 .acq .dev (rDev 4) with
        | .entered _ _ => true | _ => false) = true := by
  refine ⟨s0_alone.1, ?_, ?_, by decide +kernel, by decide +kernel, by decide +kernel⟩ <;> unfold State.scalarReady <;> decide +kernel

/-- A group whose registers describe an object of four regions, and the launch record at 0x1000. -/
def sWords : State := base inst0 { core0 with grps := [(0, { group0 with s := [(0, 0x1000), (2, 0x2000), (4, 1), (6, 0x2040), (8, 1),
    (10, 0x3000), (12, 1), (14, 0x3040), (16, 1)] })] } launch0

theorem witness_RegionWords :
    sWords.running inst0 ∧ sWords.scalarReady inst0 0 [(0, 18)] ∧
      (let g := sWords.grp 0 0
       inDevice (pairOf g.sreg 0) = true ∧ pairOf g.sreg 0 % 8 = 0 ∧
        ∀ r ∈ (List.range 4).map fun k => (pairOf g.sreg (2 + 4 * k), (g.sreg (4 + 4 * k)).toNat),
          inDevice r.1 = true ∧ r.1 % 64 = 0 ∧ 0 < r.2 ∧ r.1 % 2 ^ 48 + 64 * r.2 ≤ 2 ^ 48) ∧
      (s0.core 0).pendingAt 0 (s0.genOf 0 0) ends .wg = false := by
  refine ⟨?_, ?_, by decide +kernel, by decide +kernel⟩
  · unfold State.running; decide +kernel
  · unfold State.scalarReady; decide +kernel

/-- The group in its handler, alone, with one of its threads not yet at the point. -/
theorem witness_RegionWords_handler :
    let i : Inst := { inst0 with handler := true }
    let s : State := base i core0 launch0
    s.alone i (0, ends) ∧ i.handler = true ∧ (s.core 0).pendingAt 0 (s.genOf 0 0) ends .wg = false ∧ s0.alone inst0 (0, ends) ∧
      inst0.handler = false := by
  refine ⟨⟨?_, rfl⟩, rfl, by decide +kernel, s0_alone.1, rfl⟩
  unfold State.running; decide +kernel

/-- Every live thread of a workgroup has arrived at its replay point. -/
theorem witness_RegionWords_passed :
    let s := base inst0 { core0 with grps := [(0, { group0 with thr := [(5, { live := true, wait := .replay false 0x104 })] })] } launch0
    s.liveThreads 0 0 ≠ [] ∧ ∀ t ∈ s.liveThreads 0 0, t.wait = .replay false 0x104 := by decide +kernel

def full : State := base inst0 { core0 with pend := List.replicate 4 { addr := 0, bytes := [], ctx := 0 } } launch0

theorem witness_LaunchWords :
    s0.alone inst0 (0, ends) ∧ s0.scalarReady inst0 0 [(254, 2)] ∧
      (s0.core 0).pendingAt 0 (s0.genOf 0 0) ends .dev = false ∧ inDevice (pairOf (s0.grp 0 0).sreg 254) = true ∧
      pairOf (s0.grp 0 0).sreg 254 % 128 = 0 ∧ (s0.core 0).pendFree = true ∧ (full.core 0).pendFree = false ∧
      gotBytes (s0.unitBytes 0 (s0.launchOf 0 0).ctx (usesL1 0 0) 0 128) = true ∧ full.alone inst0 (0, ends) ∧
      s0.taskAtoll (s0.wgOf 0 0).launch (atollOf 0) = some 0 ∧ (s0.atoll 0).taken < Config.taskEntries ∧
      gotBytes (s0.unitBytes 0 (s0.launchOf 0 0).ctx (usesL1 0 0) 0 64) = true := by
  refine ⟨s0_alone.1, ?_, by decide +kernel, by decide +kernel, by decide +kernel, by decide +kernel, by decide +kernel,
    by decide +kernel, ⟨?_, rfl⟩, by decide +kernel, by decide +kernel, by decide +kernel⟩
  · unfold State.scalarReady; decide +kernel
  · unfold State.running; decide +kernel

/-! ### Decoding and the turn -/

theorem witness_RoundTrip :
    Instr.wf (.iadd64 c7 126 0 126) = true ∧ Instr.isDeviceStep (.iadd64 c7 126 0 126) = false ∧ Instr.wf (.exit c7) = true := by decide

theorem witness_DecodedWellFormed : decode (encodeBytes (.exit c7) ++ [1]) = .ok (.exit c7, [1]) := by decide +kernel

/-- A turn that issues `EXIT` on the uniform set's neighbour: the entry at 0x300000000 of `withFetchWord`. -/
def sTurn : State := State.reset.withFetchWord 32 0x3AE00001

theorem witness_StepRuns :
    sTurn.begin.unseen 0 8 = 0 ∧ sTurn.begin.unseen 0 40 = 0 ∧
      (match (sTurn.begin.xlate 0 0 probePc .fetch).2 with | .ok pa => pa == probePc | _ => false) = true ∧
      (match (sTurn.begin.xlate 0 0 (probePc + 4) .fetch).2 with | .ok pa => pa == probePc + 4 | _ => false) = true ∧
      decode (Memory.read sTurn.begin.dev probePc 8) = .ok (.exit c7, [0, 0, 0, 0]) ∧
      sTurn.turn.act = .issue 0 (pipeOf 0x3AE00001) ∧ sTurn.begin.power.stopped = false ∧
      (∃ e, sTurn.begin.pickEntry 0 (pipeOf 0x3AE00001) = some e ∧ e.pc = probePc ∧ (sTurn.begin.core 0).launchNumbered e.num = 0) := by
  refine ⟨by decide +kernel, by decide +kernel, by decide +kernel, by decide +kernel, by decide +kernel, by decide +kernel,
    by decide +kernel, ?_⟩
  exact ⟨{ set := setOf probePc 0, way := 0, num := 0, pc := probePc, parts := [(0, allLanes)], age := 0, order := 0, aged := true },
    by decide +kernel⟩

theorem witness_StepRuns_handler :
    let s : State := { sTurn with
      agenda := [{ choice := 0, act := .handler 0 0 }]
      cores := Tbl.mod sTurn.cores 0 fun x => { x with grps := Tbl.mod x.grps 0 fun g => { g with handler := some { set := 1, pc := probePc } } } }
    s.turn.act = .handler 0 0 ∧ (s.begin.grp 0 0).handler = some { set := 1, pc := probePc } ∧ (s.begin.grp 0 0).used = true ∧
      (s.begin.grp 0 0).park = .none ∧ (s.begin.grp 0 0).usw = false ∧ (s.begin.grp 0 0).halted = false ∧
      (s.begin.wgOf 0 0).launch = 0 := by decide +kernel

theorem witness_StepRuns_event :
    let s : State := { agenda := [{ choice := 0, act := .event .jtagBypass }] }
    s.turn.act = .event .jtagBypass := by decide +kernel

/-- The entry taken, and a stopped die. -/
theorem witness_OldestFirst :
    (sTurn.begin.pickEntry 0 (pipeOf 0x3AE00001)).isSome = true ∧
      ({ sTurn with power := { stopped := true } } : State).begin.power.stopped = true ∧
      ({ sTurn with power := { stopped := true } } : State).turn.act = .issue 0 (pipeOf 0x3AE00001) := by decide +kernel

/-- A reserved field, a reserved function, and an unassigned major. -/
theorem witness_DecodeTraps :
    decodeWords 0xA4000001 0 = .error .illegalInstruction ∧ decodeWords 0x3AE00005 0 = .error .illegalOperand ∧
      (base { inst0 with word := 0x37000000 } core0 launch0).inst = some { inst0 with word := 0x37000000 } ∧
      inst0.parts = [(0, ends)] ∧ (s0.grp 0 0).used = true ∧ (s0.grp 0 1).used = true ∧ (s0.grp 0 2).used = false ∧
      ({ inst0 with handler := true, word := 0x3AE00005 } : Inst).word.testBit 31 = false := by decide +kernel

theorem witness_MemoriesKeepForm :
    State.reset.memWf ∧ sTurn.memWf ∧ (match step sTurn with | .next _ => true | _ => false) = true := by
  refine ⟨by unfold State.memWf; decide, by unfold State.memWf; decide +kernel, by decide +kernel⟩

/-! ### Traps -/

/-- A launch with a handler. -/
def sHand : State := base inst0 core0 { launch0 with lr := { launch0.lr with handler := 0x8000 } }

theorem witness_TrapEntry :
    (s0.launchOf 0 0).lr.handler = 0 ∧ (sHand.launchOf 0 0).lr.handler ≠ 0 ∧ (sHand.grp 0 0).handler = none ∧
      recOf 0x08 = true := by decide +kernel

theorem witness_TrapWords :
    s0.alone inst0 (0, ends) ∧ s0.claimed (s0.launchOf 0 0) = false ∧
      ({ s0 with dbg := { claim := 0x80000000 } } : State).alone inst0 (0, ends) ∧
      ({ s0 with dbg := { claim := 0x80000000 } } : State).claimed (s0.launchOf 0 0) = true ∧ s0.freeStop = some 0 ∧
      ({ s0 with dbg := { stops := (List.range 64).map fun n => (n, 0, 0, 0, true) } } : State).freeStop = none := by
  refine ⟨s0_alone.1, by decide +kernel, ⟨?_, rfl⟩, by decide +kernel, by decide +kernel, by decide +kernel⟩
  unfold State.running; decide +kernel

theorem witness_TrapWords_return :
    ((base inst0 { core0 with grps := [(0, { group0 with handler := some { set := ends, pc := 0x8000 } })] } launch0).grp 0 0).handler =
      some { set := ends, pc := 0x8000 } := by decide +kernel

/-! ### Accesses performed -/

/-- A load of lane 63 into v127, an atomic of lane 0 and a uniform load, all at device address 0x10000. -/
def op0 : MemOp := {
  id := 7, inst := 1, slot := 0, lanes := 2 ^ 63, uni := false, gen := 1, ctx := 0, place := .device, pieces := [(0x10000, 4)],
  vas := [(0, 4)], ea := 0, ogen := 0, l1 := false, act := .load (.plain .b32) 127, order := .rlx, scope := .dev, cover := none }

def opA : MemOp := { op0 with id := 8, lanes := 1, pieces := [(0x10004, 4)], vas := [(4, 4)], ea := 4, act := .atom .add false 1 127 true }

def opU : MemOp := { op0 with id := 9, lanes := ends, uni := true, pieces := [(0x10008, 4)], vas := [(8, 4)], ea := 8, act := .load (.plain .b32) 255 }

def sOps : State := base inst0 { core0 with flight := [op0, opA, opU] } launch0

/-- The four parts of a load of 128 bits, of which the last two are in flight. -/
def sParts : State := base inst0 { core0 with
  flight := ({ op0 with pieces := [(0x10010, 16)], act := .load (.plain .b128) 124 } : MemOp).quarters.drop 2 |>.mapIdx fun k o =>
    { o with id := 20 + k } } launch0

theorem witness_AccessPerformed :
    sOps.completes 0 op0 ∧ sOps.completes 0 opA ∧ sOps.completes 0 opU ∧ opA.writes 5 = some [6, 0, 0, 0] ∧ op0.writes 5 = none ∧
      (sOps.core 3).isLive 9 = false ∧ (sOps.core 0).isLive 1 = true ∧ ({ sOps with peerNum := 4 } : State).peerNum = 4 ∧
      ({ op0 with place := .peer 4, own := true } : MemOp).own = true ∧ ({ op0 with place := .peer 4 } : MemOp).own = false :=
  ⟨by constructor <;> decide +kernel, by constructor <;> decide +kernel, by constructor <;> decide +kernel, by decide +kernel,
    by decide +kernel, by decide +kernel, by decide +kernel, by decide +kernel, by decide +kernel, by decide +kernel⟩

/-- An own write, one of core 3 that this core has read, and another, of which the acknowledgement of write 5 of core 3 ends the second. -/
theorem test_unacked_origin :
    let u : Unacked := { id := 5, slot := 0, lanes := 1, gen := 1, host := false, readers := [] }
    let s := base inst0 { core0 with unacked := [u, { u with origin := some (3, 5) }, { u with id := 6 }] } launch0
    (match exec (.remoteWriteAcknowledged 3 5) s with
      | .next t => (t.core 0).unacked.map fun v => (v.id, v.origin)
      | _ => []) = [(5, none), (6, none)] := by decide +kernel

/-- A uniform load of a group that has ended. -/
def sEnded : State := base inst0 { core0 with flight := [opU], grps := [(0, { group0 with thr := [] })] } launch0

theorem witness_AccessReturns_ended :
    sEnded.completes 0 opU ∧ (sEnded.grp 0 0).used = true ∧ sEnded.genOf 0 0 = 1 ∧ (sEnded.grp 0 0).thr.any (fun e => e.2.live) = false ∧
      (sOps.grp 0 0).thr.any (fun e => e.2.live) = true :=
  ⟨by constructor <;> decide +kernel, by decide +kernel, by decide +kernel, by decide +kernel, by decide +kernel⟩

theorem witness_AccessReturns :
    op0.dest = some 127 ∧ opA.dest = some 127 ∧ opU.dest = some 255 ∧ (sOps.grp 0 0).used = true ∧ sOps.genOf 0 0 = 1 ∧
      (sOps.thr 0 0 63).live = true ∧ 127 + (op0.returned (sOps.opBytes 0 op0)).length ≤ 128 ∧
      ((sOps.core 0).flight.any fun y => y.id != op0.id && y.sibling op0) = false ∧
      ((sParts.core 0).flight.any fun y => y.id != 20 && (sParts.core 0).flight.any fun o => o.id == 20 && y.sibling o) = true := by
  decide +kernel

/-- An acquire load holds the later access of its thread, and so does an earlier one to the same bytes. -/
theorem witness_AccessOrder :
    let later : MemOp := { op0 with id := 10 }
    let x : Core := { core0 with flight := [{ op0 with order := .acq }, later] }
    ({ op0 with order := .acq } : MemOp) ∈ x.flight.takeWhile (fun z => z.id != later.id) ∧
      ({ op0 with order := .acq } : MemOp).sameThread later = true ∧ ({ op0 with order := .acq } : MemOp).bound = false ∧
      orderAcquires .acq = true ∧ op0.meets later = true ∧ (op0.queues = false ∨ op0.ent = none) ∧
      ({ op0 with act := .store [1, 2, 3, 4] } : MemOp).hidden .dev = true ∧ inCover none { op0 with act := .store [1, 2, 3, 4] } = true ∧
      (base inst0 x launch0).choose 6 = false ∧ later.isFence = false ∧
      x.flight.find? (fun y => y.id == later.id) = some later ∧
      x.flight.find? (fun y => y.id == later.id && y.traversal.isSome) = none ∧
      ({ op0 with order := .acq } : MemOp).sibling later = false ∧ x.mayPerform later = false := by decide +kernel

/-- A traversal of lane 63 in flight. -/
def sRay : State := base inst0 { core0 with
  flight := [{ op0 with id := 30, act := .ray (travOf (fun _ => 0) 0 0 false true false 0) 120 }] } launch0

theorem witness_UnitWords :
    s0.aloneLane inst0 (0, ends) ∧ s0.laneReady inst0 0 [(124, 4), (126, 2), (126, 2)] [] ∧
      s0.laneReady inst0 0 [(120, 8), (126, 2), (120, 8)] [] ∧
      (∀ l ∈ [0, 63], (s0.thr 0 0 l).count ≠ 63 ∧ (s0.core 0).unitHeld 0 l (s0.genOf 0 0) = false ∧
        inDevice (pairOf (fun r => s0.rdV 0 0 r l) 126) = true ∧
        gotWords ((s0.ahead inst0 (0, ends)).texWords 0 0 (.sample 0 0 0 (.auto [(.fin false 0, .fin false 0)]) l)) = true ∧
        gotWords ((s0.ahead inst0 (0, ends)).texWords 0 0 (.texel 0 0 0 0)) = true ∧
        (s0.ahead inst0 (0, ends)).unitMeets 0 0 (2 ^ l) [] = false ∧
        (s0.ahead inst0 (0, ends)).unitMeets 0 0 (2 ^ l) [op0] = false) ∧
      ((sRay.core 0).flight.find? fun y => y.id == 30 && y.traversal.isSome).isSome = true := by
  refine ⟨s0_alone.2, ?_, ?_, by decide +kernel, by decide +kernel⟩ <;> unfold State.laneReady <;> decide +kernel

/-! ### Tiles -/

/-- A group with `t0`, `t7` and `a0`, `a7` bound. -/
def sTile : State := base inst0 { core0 with
  grps := [(0, { group0 with tn := [(0, 1), (7, 32)], an := [(0, 1), (7, 8)] })]
  wgs := [(0, { used := true, slots := [0], gen := 1, scrLen := 131072 })]
  slots := [(0, { tag := 1, owner := 1 }), (31, { tag := 1, owner := 1 })]
  tiles := [(0, { tag := 1, owner := 1 }), (7, { tag := 1, owner := 1 })] } launch0

def fits (w : TileWord) : Prop := sTile.tileReady inst0 (0, ends) w

theorem witness_TileWords :
    sTile.running inst0 ∧ (sTile.grp 0 0).slotOf 7 = some 31 ∧ (sTile.grp 0 0).tileOf 7 = some 7 ∧
      fits { regs := [(254, 2)], span := some (spanOf (sTile.grp 0 0) 254 128), acq := true, act := .fill 31 .e4m3 0 0 } ∧
      fits { slots := [(0, 0), (31, 7)], act := .mma 7 0 31 .e4m3 .e4m3 false false (some 3) 0 0 } ∧
      fits { slots := [(0, 0), (31, 7)], tiles := [(7, 7)], act := .mma 7 0 31 .e4m3 .e4m3 false false none 0 0 } ∧
      fits { regs := [(254, 2)], span := some (spanOf (sTile.grp 0 0) 254 512), rel := true, tiles := [(7, 7)],
             act := .drain 7 .f32 .rne none false true 0 0 } ∧
      fits { regs := [(255, 1)], vecs := [(112, 16)], tiles := [(7, 7)], act := .read 7 0 8 112 } := by
  refine ⟨?_, by decide +kernel, by decide +kernel, ?_⟩
  · unfold State.running; decide +kernel
  · refine ⟨?_, ?_, ?_, ?_, ?_⟩ <;> exact ⟨by decide +kernel, by decide +kernel, by decide +kernel, by decide +kernel⟩

/-- Names unbound, a unit free and none free, and room in the queue. -/
theorem witness_TileWords_claim :
    (s0.grp 0 0).slotOf 3 = none ∧ (s0.grp 0 0).tileOf 3 = none ∧ s0.freeUnitOf 0 false = some 0 ∧ s0.freeUnitOf 0 true = some 0 ∧
      ({ s0 with cores := [(0, { core0 with
        slots := (List.range 32).map fun n => (n, { retired := true }), tiles := (List.range 32).map fun n => (n, { retired := true }) })] } :
          State).freeUnitOf 0 false = none ∧
      (s0.core 0).seq.length < Config.seqEntries := by decide +kernel

/-- Two releases of one tile slot behind an operation of the group on it, and one of a slot that nothing else uses. -/
def freeOps : List TileOp :=
  let o : TileOp := { id := 1, slot := 0, gen := 1, wg := 0, lanes := ends, cls := 0, act := .zero 5, redundant := false, staleTrap := false }
  [o, { o with id := 2, act := .free false 5 }, { o with id := 3, act := .free false 6 }]

theorem witness_TileWords_release :
    let x : Core := { core0 with seq := freeOps }
    (∀ n ∈ [1, 2], freeOps[n]!.act = .free false (4 + n) ∧ freeOps[n]! ∈ x.seq) ∧ (x.seq.map (·.id)).Nodup ∧
      eligible x.seq freeOps[1]! = false ∧ eligible x.seq freeOps[2]! = true := by decide +kernel

/-- An operation of the group of `sTile`, whose word waits for the check where the launch is redundant. -/
def opOf (act : TileAct) : TileOp := {
  id := 3, slot := 0, gen := 1, wg := 0, lanes := ends, cls := 0, act := act, redundant := false, staleTrap := false, running := true }

theorem no_corruptions (c r : Nat) : corruptions [] c r = 0 := rfl

def sRuns (act : TileAct) : State := { sTile with
  cores := Tbl.mod sTile.cores 0 fun x => { x with seq := [opOf act], grps := Tbl.mod x.grps 0 fun g => { g with park := .check 3 } } }

theorem witness_TileEffects :
    (sTile.core 0).isLive 1 = true ∧ sTile.genOf 0 0 = 1 ∧
      (sTile.core 0).seq.find? (fun o => o.running && o.act.port == some .array) = none ∧
      (∀ act ∈ [TileAct.scale 0 7 0 false, .mma 7 0 31 .e4m3 .e4m3 false false none 0 0, .read 7 0 8 112,
          .drain 7 .f32 .rs none false true 0 512], ((sRuns act).core 0).isLive (opOf act).gen = true ∧
        (sRuns act).genOf 0 (opOf act).slot = (opOf act).gen ∧ ((sRuns act).grp 0 0).park = .check (opOf act).id ∧
        ((sRuns act).core 0).seq.find? (fun o => o.running && o.act.port == act.port) = some (opOf act) ∧
        (opOf act).armed = []) ∧
      ((Tbl.get (sTile.core 0).tiles 7).record 1).2 = none ∧
      (({ Tbl.get (sTile.core 0).tiles 7 with check := some 5 } : Tile).record 1).2 = some 5 := by decide +kernel

/-! ### Handles and copies -/

/-- `n` bytes with fields at their offsets: offset, size, value. -/
def record (n : Nat) (fields : List (Nat × Nat × Nat)) : List Byte :=
  Memory.read (fields.foldl (fun m f => Memory.write m f.1 (leBytes f.2.2 f.2.1)) []) 0 n

/-- The handles: 2 free, 3 filling, 4 full, 5 draining with a retained count, 6 held by another workgroup, 7 a full Narrows mirror. -/
def sHnd : State := base inst0 { core0 with
  grps := [(0, { group0 with s := [(48, 992), (49, 32), (50, 1)] })]
  wgs := [(0, { used := true, slots := [0], gen := 1, scrLen := 1024, stage := some { role := 1 } })]
  handles := [(3, { state := .filling, cons := 1, owner := 1, len := 32 }), (4, { state := .full, cons := 1, owner := 1, len := 32 }),
    (5, { state := .draining, cons := 1, retain := 1, owner := 1, len := 32 }), (6, { state := .full, cons := 1, owner := 2 }),
    (7, { state := .filling, cons := 1, owner := 1, narrows := true })] } launch0

def p0 : Part := inst0.upart (0, ends)

theorem witness_HandleWords :
    sHnd.alone inst0 (0, ends) ∧ sHnd.scalarReady inst0 0 [(48, 3)] ∧
      (sHnd.claimTrap p0 2 ((sHnd.grp 0 0).claim 48)).isNone = true ∧ sHnd.sourceMirror p0 2 = false ∧ (sHnd.handle 0 2).state = .free ∧
      ((sHnd.grp 0 0).claim 48).narrows = false ∧ (sHnd.handle 0 3).state = .filling ∧ (sHnd.handle 0 3).consumer = false ∧
      sHnd.heldElse p0 3 = false ∧ (sHnd.core 0).pendingAt 0 (sHnd.genOf 0 0) ends .dev = false ∧
      (sHnd.handle 0 4).cons + (sHnd.handle 0 4).retain = 1 ∧ (sHnd.handle 0 4).bare = false ∧
      (sHnd.core 0).pendingAt 0 (sHnd.genOf 0 0) ends (scopeOfCode (sHnd.handle 0 4).scope) = false ∧
      (match sHnd.fullNarrows p0 7 3 with | .ok _ => true | _ => false) = true ∧ (sHnd.handle 0 7).narrows = true ∧
      (sHnd.handle 0 4).state = .full ∧ (sHnd.handle 0 4).faulty = false ∧ sHnd.targetBusy p0 (sHnd.handle 0 4) = false ∧
      (sHnd.handle 0 5).state = .draining ∧ (sHnd.handle 0 5).retain = 1 ∧ sHnd.heldElse p0 5 = false ∧ sHnd.heldElse p0 6 = true := by
  refine ⟨⟨?_, rfl⟩, ?_, by decide +kernel⟩
  · unfold State.running; decide +kernel
  · unfold State.scalarReady; decide +kernel

/-- A mesh workgroup claims slot 0 of its ring. -/
def sMesh : State :=
  { base inst0 { core0 with
      grps := [(0, { group0 with s := [(50, 9)] })]
      wgs := [(0, { used := true, slots := [0], gen := 1, stage := some { role := 0 } })] } launch0 with
    chains := [(0, { state := 1, bytes := record 256 [(0x16, 2, 4)] })] }

theorem witness_HandleWords_claim :
    (sMesh.claimTrap p0 2 ((sMesh.grp 0 0).claim 48)).isNone = true ∧ ((sMesh.grp 0 0).claim 48).narrows = true ∧
      (match sMesh.claimSlot p0 2 ((sMesh.grp 0 0).claim 48) { role := 0 } with | .ok _ => true | _ => false) = true := by
  decide +kernel

/-- A later cohort claims the slot that its workgroup is filling, through the handle that mirrors it. -/
def sRejoin : State := { sMesh with
  cores := Tbl.mod sMesh.cores 0 fun x => { x with handles := [(2, { state := .filling, cons := 1, owner := 1, narrows := true })] }
  slotTable := [(0, { state := .filling, granted := true, cons := 1, mesh := some (0, 0) })] }

theorem witness_HandleWords_rejoin :
    (sRejoin.claimTrap p0 2 ((sRejoin.grp 0 0).claim 48)).isNone = true ∧ (sRejoin.handle 0 2).consumer = false ∧
      (sRejoin.wgOf 0 0).stage = some { role := 0 } ∧
      sRejoin.rejoins p0 (sRejoin.handle 0 2) ((sRejoin.grp 0 0).claim 48) { role := 0 } = true ∧
      sMesh.rejoins p0 (sMesh.handle 0 2) ((sMesh.grp 0 0).claim 48) { role := 0 } = false := by decide +kernel

/-- A group parked on a handle, and one whose park its handler holds. -/
theorem witness_HandleWords_wake :
    let s (g : Group) : State := base inst0 { core0 with grps := [(0, g)] } launch0
    let a := s { group0 with park := .handle 4 }
    let b := s { group0 with handler := some { set := ends, pc := 0x8000, held := .handle 4 } }
    (a.grp 0 0).park = .handle 4 ∧ (a.grp 0 0).used = true ∧ (a.grp 0 0).halted = false ∧ (a.handle 0 4).narrows = false ∧
      (b.grp 0 0).handler = some { set := ends, pc := 0x8000, held := .handle 4 } ∧ (b.grp 0 0).park = .none := by decide +kernel

/-- Context 0 with its descriptor at 0x1000 and one leaf that maps the lowest GiB to itself. -/
def withCtx (s : State) : State := { s with
  ctxBase := 0x1000, ctxCount := 1
  dev := [(0x1000, 8, 0x2001), (0x2000, 8, 0x300D), (0x3000, 8, 0xF)].foldl (fun m f => Memory.write m f.1 (leBytes f.2.2 f.2.1)) s.dev }

/-- A copy of four `f32` elements from device address 0x10000 into handle 3. -/
def tensor4 : List Byte := record 128 [(0x00, 8, 0x100), (0x08, 1, 1), (0x10, 4, 0x3F800000), (0x20, 4, 4)]

def command4 : List Byte := record 64 [(0x00, 8, 0x80), (0x1C, 4, 4), (0x20, 4, 1), (0x24, 4, 1), (0x28, 4, 1), (0x2C, 4, 1),
  (0x30, 4, 3 * 2 ^ 16 + 5 * 2 ^ 24), (0x38, 4, 16)]

def copy0 : Copy := { used := true, cmd := command4, tensor := tensor4, gen := 1, lanes := ends, sd := 8 }

def sCopy : State := withCtx
  { base inst0 { core0 with
      grps := [(0, { group0 with park := .copy 0 })]
      wgs := [(0, { used := true, slots := [0], gen := 1, scrLen := 1024 })]
      handles := [(3, { state := .filling, cons := 1, owner := 1, len := 32, gen := 1 })] } launch0 with
    copies := [(0, copy0)] }

theorem witness_CopyWords_accept :
    (sCopy.copy 0).used = true ∧ (sCopy.copy 0).phase = .offered ∧ sCopy.copyAwaited 0 = true ∧ (sCopy.grp 0 0).halted = false ∧
      sCopy.copyWaits (sCopy.copy 0) = false ∧ sCopy.faults = [] ∧ (sCopy.copy 0).status.getLsbD 4 = false ∧
      (sCopy.copy 0).tensor ≠ [] ∧ (sCopy.copy 0).refused (sCopy.handle 0 3) = false ∧ (sCopy.copy 0).h = 3 ∧
      (Tbl.get sCopy.ferries (sCopy.ferryOf (sCopy.copy 0) false)).queue.length < Config.ferryQueue ∧ (sCopy.copy 0).empty = false := by
  decide +kernel

/-- The copy accepted, then taken, then delivered. -/
def sMoving : State := sCopy.acceptCopy 0 5

theorem witness_CopyWords_move :
    (sMoving.copy 0).used = true ∧ sMoving.power.stopped = false ∧ (sMoving.copy 0).phase ≠ .offered ∧ sMoving.copyTurn 0 = true ∧
      sMoving.faults = [] ∧ (sMoving.copy 0).stuck = none ∧ sMoving.copyLinked (sMoving.copy 0) = true ∧
      sMoving.copyHeld (sMoving.copy 0) = false ∧ (sMoving.copy 0).taken = false ∧ ((sMoving.beginCopy 0).copy 0).taken = true := by decide +kernel

theorem witness_CopyWords_done :
    let s := sMoving.modCopy 0 fun k => { k with taken := true, dests := [(0, 1)] }
    (s.copy 0).taken = true ∧ (0, 1) ∈ (s.copy 0).dests ∧ (∀ e ∈ (s.copy 0).dests, e.2 ≠ 0) ∧ s.copyReleaseWaits (s.copy 0) = false ∧
      s.ackWaits (s.copy 0) = false := by decide +kernel

/-- The registers of a command, with handle 0 filling and then free, and a promise in the past or to come. -/
def sCpy (h : Handle) : State := base inst0 { core0 with
  handles := [(0, h)], wgs := [(0, { used := true, slots := [0], gen := 1, scrLen := 1024 })] } launch0

def copyOf (s : State) : Copy :=
  { used := true, cmd := (upFrom 16 16).flatMap fun r => leBytes ((s.grp 0 0).sreg r).toNat 4, core := 0, slot := 0, wg := 0,
    gen := 1, launch := 0, ctx := 0, lanes := ends, sd := 254, mark := 0 }

theorem witness_CopyWords :
    (sCpy { state := .filling, cons := 1, owner := 1 }).running inst0 ∧
      (sCpy {}).scalarReady inst0 0 [(254, 2), (240, 16)] ∧ ((sCpy {}).wgOf 0 0).task = none ∧
      ((sCpy {}).launchOf 0 0).lr.producer = some ((sCpy {}).grp 0 0).index ∧ ((sCpy {}).grp 0 0).ucount ≠ 63 ∧
      (match (sCpy { state := .filling, cons := 1, owner := 1 }).copyHandle p0 (copyOf (sCpy {})) with | .ok _ => true | _ => false) = true ∧
      (match (sCpy {}).copyHandle p0 (copyOf (sCpy {})) with | .waits => true | _ => false) = true ∧
      (match sHnd.promiseCheck p0 0 0 8 4 with | .ok _ => true | _ => false) = true := by
  refine ⟨?_, ?_, by decide +kernel⟩
  · unfold State.running; decide +kernel
  · unfold State.scalarReady; decide +kernel

theorem witness_CopyWords_promise :
    let s : State := { sHnd with
      cyc := 100
      cores := Tbl.mod sHnd.cores 0 fun x => { x with grps := Tbl.mod x.grps 0 fun g => { g with park := .promise 100 7 8 4 } } }
    (s.grp 0 0).used = true ∧ (s.grp 0 0).halted = false ∧ (s.grp 0 0).park = .promise 100 7 8 4 ∧ 100 ≤ s.cyc.toNat ∧
      (match s.promiseCheck (s.parkedPart 0 0 fun q => (Park.promised s.cyc.toNat q).isSome) 100 7 (Fin.ofNat 256 8) (Fin.ofNat 64 4) with | .ok _ => true | _ => false) = true := by
  decide +kernel

/-! ### Steps of a core -/

/-- A group that sleeps until 100, at 99 and at 100. -/
def sSleep (now : DWord) : State :=
  { base inst0 { core0 with grps := [(0, { group0 with park := .sleep 100, pset := ends, ppc := 0x100 })] } launch0 with cyc := now }

/-- Generations 0xFFFF and 1 live on either side of the wrap, a row of generation 0xFFFE and a granule of it. -/
def sWrap : Core := { core0 with
  low := 0xFFFE, nextGen := 2
  wgs := [(0, { used := true, gen := 0xFFFF }), (1, { used := true, gen := 1 })]
  rows := [(0, { tag := 0xFFFE }), (1, { tag := 1 })], gtag := [(0, 0xFFFE)] }

theorem witness_CoreSteps :
    ((sSleep 100).grp 0 0).used = true ∧ ((sSleep 100).grp 0 0).park = .sleep 100 ∧ 100 ≤ (sSleep 100).cyc.toNat ∧
      (sSleep 99).cyc.toNat < 100 ∧ (sWrap.rows.map (·.1)).Nodup ∧ (sWrap.gtag.map (·.1)).Nodup ∧ sWrap.oldestGen = 0xFFFF ∧
      sWrap.sweeps sWrap.oldestGen 0xFFFE = true ∧ sWrap.sweeps sWrap.oldestGen 1 = false ∧
      (∃ e ∈ core0.wgs, e.2.used = true ∧ e.2.scrLen ≠ 0 ∧ (1 - 1) * 131072 < e.2.scrOff + e.2.scrLen) := by decide +kernel

/-- A workgroup whose threads have ended; a bin workgroup beside a slot that is free for its strip. -/
def sDone (st : Option StageInfo) : State := base inst0 { core0 with
  grps := [(0, { group0 with thr := [] })], wgs := [(0, { used := true, slots := [0], gen := 1, stage := st })] } launch0

theorem witness_CoreSteps_retire :
    ((sDone none).wg 0 0).used = true ∧ (∀ g ∈ ((sDone none).wg 0 0).slots, ∀ l, l < 64 → ((sDone none).thr 0 g l).live = false) ∧
      ((sDone none).core 0).retireWaits 0 ((sDone none).wg 0 0) = false ∧
      (StageInfo.owes { role := 1 } = true ∧ (sDone (some { role := 1 })).partReady 0 0 ((sDone (some { role := 1 })).wg 0 0) { role := 1 } = true) ∧
      StageInfo.owes { role := 1, finished := true } = false := by decide +kernel

/-! ### Watches and answers -/

def watch0 : Watch := { used := true, addr := 0x10000, cond := .eq, operand := 5, timeout := some 9, deadline := some 100, waiter := .thread 0 0 63, gen := 1, pd := 3 }

def sWatch : State := { base inst0 { core0 with
    grps := [(0, { group0 with thr := [(63, { live := true, pc := 0x108, wait := .watch 0 })], park := .watch 1, pset := ends, ppc := 0x100 })] } launch0 with
  cyc := 101
  watches := [(0, watch0), (2, { watch0 with held := .deferred }), (3, { watch0 with held := .spilled 0 })]
  msgs := [(0, { used := true, data := watch0 }), (1, { used := true, watch := 1, data := { watch0 with waiter := .group 0 0 }, out := .expired }),
    (2, { used := true, data := watch0, out := .retranslate }), (3, { used := true, data := { watch0 with waiter := .saved 0 1 0 64 } }),
    (4, { used := true, data := { watch0 with waiter := .queue 7 } }), (5, { used := true, data := { watch0 with waiter := .ring 2 } })]
  slices := [(0, { walks := [{ addr := 0x10000, line := [5, 0, 0, 0], from_ := 0, len := 4, cyc := 90 }], filter := [filterBit 0x10000], ctxs := [] })] }

theorem witness_WatchSteps :
    (Tbl.get sWatch.watches 0).used = true ∧ (Tbl.get sWatch.watches 0).deadline = some 100 ∧ 100 < sWatch.cyc.toNat ∧
      sWatch.walkPending (Tbl.get sWatch.watches 0) 100 = false ∧ (Tbl.get sWatch.watches 0).held = .table ∧
      (Tbl.get sWatch.msgs 0).used = true ∧ (sWatch.grp 0 0).used = true ∧ sWatch.genOf 0 0 = 1 ∧ (sWatch.thr 0 0 63).wait = .watch 0 ∧
      (Tbl.get sWatch.msgs 2).out = .retranslate ∧ (sWatch.grp 0 0).park = .watch 1 ∧
      (Tbl.get sWatch.msgs 3).data.waiter = .saved 0 1 0 64 ∧ (Tbl.get sWatch.msgs 4).data.waiter = .queue 7 ∧
      (Tbl.get sWatch.msgs 5).data.waiter = .ring 2 ∧ (Tbl.get sWatch.watches 2).held = .deferred ∧
      (sWatch.watches.filter fun e => e.2.held == .table && e.2.slice == 0 && e.1 != 2).length < 256 ∧
      ({ sWatch with slices := [] } : State).walkFull [(0x10000, 4)] = false := by decide +kernel

/-- A walk of slice 0 beside a spilled watch of the same filter bit, and beside none. -/
theorem witness_WatchSteps_walk :
    (Tbl.get sWatch.slices 0).walks ≠ [] ∧
      (∃ e ∈ sWatch.watches, e.2.slice = 0 ∧ filterBit e.2.addr = filterBit 0x10000 ∧ e.2.held = .spilled 0) ∧
      ¬ ∃ e ∈ ({ sWatch with watches := [] } : State).watches, e.2.slice = 0 :=
  ⟨by decide +kernel, ⟨_, .tail _ (.tail _ (.head _)), rfl, rfl, rfl⟩, by rintro ⟨e, h, -⟩; exact List.not_mem_nil h⟩

/-- A spill segment of context 0 at 0x180000. -/
theorem witness_WatchSteps_segment :
    (let s := withCtx sWatch
     match ({ s with dev := Memory.write s.dev 0x1018 (leBytes 0x180000 8) } : State).spillAddr 0 0 0 .read with
     | .ok _ => true
     | .fault _ => false) = true := by decide +kernel

/-- Lane 63 waits for the answer to record 4 of a ring of sixteen at 0x20000, with the response index past it. -/
def sFault (answer : Nat) : State :=
  let s := withCtx (base inst0 { core0 with grps := [(0, { group0 with thr := [(63, { live := true, pc := 0x100, wait := .fault })] })] } launch0)
  { s with
    faults := [{ ctx := 0, index := some 4, ptr := 0x40, kind := 1, agent := .thread 0 0 63, cyc := 3, gen := 1 }]
    dev := [(0x1040, 8, 0x20000), (0x1048, 4, 4), (0x1058, 8, 5), (0x1060, 8, 5), (0x20000 + 32 * 4 + 0x18, 4, answer)].foldl
      (fun m f => Memory.write m f.1 (leBytes f.2.2 f.2.1)) s.dev }

theorem witness_FaultAnswers :
    (∃ f, (sFault 1).nextFault 0 = some f ∧ f.index = some 4 ∧ f.gen = (sFault 1).agentGen f.agent) ∧ 4 < (sFault 1).ctxNat 0 0x60 8 ∧
      Memory.nat (sFault 1).dev ((sFault 1).ctxNat 0 0x40 8 + 32 * (4 % 2 ^ ((sFault 1).ctxNat 0 0x48 4 % 16)) + 0x18) 4 = 1 ∧
      Memory.nat (sFault 2).dev ((sFault 2).ctxNat 0 0x40 8 + 32 * (4 % 2 ^ ((sFault 2).ctxNat 0 0x48 4 % 16)) + 0x18) 4 = 2 ∧
      ((sFault 1).thr 0 0 63).wait = .fault ∧ (sFault 1).agentHalts (.thread 0 0 63) = false ∧
      (base inst0 { core0 with grps := [(0, { group0 with halted := true })] } launch0).agentHalts (.thread 0 0 63) = true := by
  refine ⟨⟨{ ctx := 0, index := some 4, ptr := 0x40, kind := 1, agent := .thread 0 0 63, cyc := 3, gen := 1 }, ?_⟩, ?_⟩ <;>
    decide +kernel

/-- The access of that lane, stopped, in the machine whose TLB now holds its page, and in one whose tables still do not give it. -/
def stall63 : Stall := { slot := 0, lanes := 2 ^ 63, uni := false, gen := 1, pc := 0x100, words := 2, sw := false, act := .access (rDev 4) (.load (.plain .b32) 127) .rlx .dev }

def sStall (mapped : Bool) : State :=
  base inst0 { core0 with
    grps := [(0, { group0 with thr := [(63, { live := true, pc := 0x100, wait := .fault })] })]
    stalls := [stall63], tlb := if mapped then core0.tlb else [] } launch0

theorem witness_FaultAnswers_replay (mapped : Bool) :
    ((sStall mapped).core 0).stallOf 0 false false (2 ^ 63) = some stall63 ∧ ((sStall mapped).thr 0 0 63).wait = .fault ∧
      ((((sStall mapped).dropStall 0 stall63).issueAccess (stall63.part 0) (2 ^ 63) false (rDev 4) (.load (.plain .b32) 127) .rlx .dev).2 =
        none ↔ mapped = true) := by
  cases mapped <;> decide +kernel

/-! ### Queues and launches -/

/-- A launch record of one workgroup of one group of 64 threads: 8 vector and 16 uniform registers, code at 0x8000. -/
def record1 (flags comp : Nat) : List Byte := record 128 [(0x00, 8, 0x8000), (0x10, 8, comp), (0x48, 1, 6), (0x50, 8, 63), (0x5C, 1, 8), (0x5D, 1, 1), (0x5E, 1, 1), (0x60, 4, flags)]

/-- User queue 0 at 0x4000 with a ring of sixteen records at 0x5000: its control word, write index and read index. -/
def sQueue (ctl write read : Nat) : State :=
  let s := withCtx State.reset
  { s with
    queueBase := 0x4000, queueCount := 1, cyc := 5000000
    dev := Memory.write ([(0x4000, 8, 0x5000), (0x4008, 4, 4), (0x400C, 4, ctl), (0x4010, 8, write), (0x4018, 8, read)].foldl
      (fun m f => Memory.write m f.1 (leBytes f.2.2 f.2.1)) s.dev) (0x5000 + 128 * (read % 16)) (record1 0 0) }

/-- The queue's context has a descriptor that breaks its layout. -/
def noPool : State :=
  let s := sQueue 0x80000000 3 2
  { s with dev := Memory.write s.dev 0x1008 (leBytes 0xFFFFFFFF 4) }

theorem witness_QueueSteps :
    (sQueue 0 0 0).queueOn 0 = false ∧ (sQueue 0x80000000 20 0).queueBroken 0 = true ∧ (sQueue 0x80000000 3 2).queueOn 0 = true ∧
      (sQueue 0x80000000 3 2).queueBroken 0 = false ∧ (sQueue 0x80000000 3 2).ctxLayout 0 = true ∧ (sQueue 0x80000000 3 2).queueWork 0 = true ∧
      (sQueue 0x80000000 3 3).queueWork 0 = false ∧ ({ sQueue 0x80000000 3 2 with ctxCount := 0 } : State).queueOn 0 = true ∧
      ({ sQueue 0x80000000 3 2 with ctxCount := 0 } : State).queueBroken 0 = false ∧ (sQueue 0x80000000 3 3).queuePending 0 = 0 ∧
      (sQueue (0x80030000) 3 2).queueCls 0 = 3 ∧ (sQueue (0x80030000) 3 2).queueOn 0 = true ∧
      (noPool.queueOn 0 = true ∧ noPool.queueBroken 0 = false ∧ noPool.ctxLayout (noPool.queueCtx 0) = false) := by decide +kernel

/-- The queue ready, its slot free, held and past its slice; then dispatched, and its launch to be checked. -/
theorem witness_QueueSteps_slot :
    let s : State := { sQueue 0x80000000 3 2 with queues := [(0, { ready := 1 })] }
    let t : State := { s with hwSlots := [(63, { queue := 1, since := 0 })] }
    let u := t.takeEntryOf 0
    t.walkersIdle ∧ t.queueCls 0 ≠ 3 ∧ firstBy s.queueRank s.waitingQueues = some 0 ∧ (Tbl.get s.hwSlots 63).queue = 0 ∧ s.slotFor 0 = some 0 ∧
      (Tbl.get t.hwSlots 63).since + t.sliceCyc (t.queueCls 0) ≤ t.cyc.toNat ∧
      t.queueBusy 0 = false ∧ t.queueOn 0 = true ∧ t.queueBroken 0 = false ∧ t.queuePending 0 ≠ 0 ∧ t.chains = [] ∧
      (u.queue 0).last = 1 ∧ u.queueBusy 0 = true ∧ (u.launch 0).checked = false ∧ (u.launch 0).prev = 0 ∧
      u.recordReason (u.launch 0) (u.launch 0).bytes = 0 :=
  ⟨idle_of _ (by decide +kernel), by decide +kernel⟩

/-- `LAUNCHW` of groups 0 and 1, the second parked longer, with its record at device address 0. -/
def sLaunchw : State := withCtx (base inst0 { core0 with grps := [(0, { group0 with park := .launchw 9 0, pset := ends }),
  (1, { group0 with index := 1, park := .launchw 8 0, pset := ends })] } launch0)

theorem witness_LaunchSteps_entry :
    (sLaunchw.core 0).pend.length < 4 ∧ (sLaunchw.grp 0 1).used = true ∧ (sLaunchw.grp 0 1).halted = false ∧
      (sLaunchw.grp 0 1).park = .launchw 8 0 ∧ (sLaunchw.grp 0 0).park = .launchw 9 0 ∧
      (sLaunchw.grp 0 0).launchwSince = some (9, 0) ∧
      gotBytes (sLaunchw.unitBytes 0 (sLaunchw.launchOf 0 1).ctx (usesL1 0 0) 0 128) = true := by decide +kernel

/-- A pending record, and its launch once dispatched. -/
def sPend (l : Nat) : State := withCtx (base inst0 { core0 with pend := [{ addr := 0x9000, bytes := record1 0 0, ctx := 0, launch := l }] } launch0)

theorem witness_LaunchSteps_pending :
    (sPend 0).ctxState 0 = 0 ∧ (sPend 0).ctxEnabled 0 = true ∧ ((sPend 1).core 0).pend.length = 1 ∧ ((sPend 1).launch 0).checked = false ∧
      ((sPend 1).launch 0).prev = 0 := by decide +kernel

/-- A launch refused, and one that has placed and retired its only workgroup, with its completion record in host memory. -/
def sOver (status : Nat) : State := { State.reset with
  launches := [(0, { used := true, lr := { groups := 1, comp := 5 * 2 ^ 60 + 0x40 }, checked := true, status := status, next := 1, placed := true })] }

theorem witness_LaunchSteps_end :
    (sOver 0).walkersIdle ∧ (sOver 3).walkersIdle ∧ ((sOver 3).launch 0).used = true ∧ ((sOver 3).launch 0).status = 3 ∧ (sOver 0).launchOver 0 = true ∧ (sOver 0).endWaits 0 = false ∧
      (sOver 0).savedOf 0 0 = [] ∧ ((sOver 0).launch 0).lr.comp / 2 ^ 60 = 5 ∧ outPtrOk 64 ((sOver 0).launch 0).lr.comp = true :=
  ⟨idle_of _ rfl, idle_of _ rfl, by decide +kernel⟩

/-! ### Placement, tasks and pre-emption -/

/-- A checked launch of workgroups 0 to `n` - 1, co-resident or not. -/
def sPlace (n : Nat) (flags : Nat) : State := withCtx { State.reset with
  hwSlots := [(0, { queue := 1 })]
  launches := [(0, { used := true, checked := true, queue := 1, lr := { (LaunchRec.ofBytes (record1 flags 0)) with widths := [6, 4], ext := 63 + 64 * (n - 1) } })] }

/-- A core with no workgroup. -/
theorem empty_wf : (({} : Core).gensWf) ∧ (({} : Core).keysWf) := by
  unfold Core.gensWf Core.keysWf; decide

/-- The invariant where the machine takes its first step, and that step. -/
theorem witness_PlacementValues_step :
    sTurn.coresWf ∧ (match step sTurn with | .next _ => true | _ => false) = true := by
  refine ⟨fun c => ?_, by decide +kernel⟩
  match c with
  | 0 => unfold Core.gensWf Core.keysWf; decide +kernel
  | _ + 1 => exact empty_wf

theorem witness_PlacementValues :
    State.reset.coresWf ∧ core0.gensWf ∧ core0.keysWf ∧ ((sPlace 1 0).core 0).freeGroups 16 = List.range 16 ∧ ((sPlace 1 0).core 0).nextGen = 1 ∧ (0xFFFF : Gen) + 1 = 0 :=
  ⟨fun _ => empty_wf, by unfold Core.gensWf; decide +kernel, by unfold Core.keysWf; decide +kernel, by decide +kernel⟩

theorem witness_PlacementSteps :
    (sPlace 1 0).placeable 0 = true ∧ (sPlace 1 0).outranked 0 = false ∧ ((sPlace 1 0).launch 0).nextIndex 1 = some 0 ∧
      ((sPlace 1 0).launch 0).lr.workgroups = 1 ∧ (sPlace 1 0).chooseCore 0 = some (0, 0) ∧
      ((sPlace 1 0).launch 0).lastCore ≤ Config.cores := by decide +kernel

theorem witness_PlacementSteps_quads :
    (sPlace 5 8).placeable 0 = true ∧ (sPlace 5 8).outranked 0 = false ∧ ((sPlace 5 8).launch 0).lr.coresident = true ∧
      ((sPlace 5 8).launch 0).placed = false ∧ (sPlace 5 8).quads 0 = some [0, 0] := by decide +kernel

/-- Task records: a good one with a successor, and one with a reserved bit. -/
def task1 (flags : Nat) : List Byte := record 64 [(0x00, 8, 0x8000), (0x18, 8, 0x10038), (0x20, 4, flags), (0x24, 1, 8), (0x25, 1, 1)]

def sTask (flags : Nat) : State := withCtx { State.reset with
  launches := [(0, { used := true, checked := true })], atolls := [(0, { ready := [{ bytes := task1 flags, launch := 0 }] })] }

theorem witness_PlacementSteps_task :
    ((sTask 0).atoll 0).ready.length = 1 ∧ (sTask 0).ctxState 0 = 0 ∧ (sTask 0).taskReason 0 (task1 0) = 0 ∧
      (sTask 0).taskCore 0 0 (taskNeeds (task1 0)) = some (0, 0) ∧ (sTask 32).taskReason 0 (task1 32) = 1 := by decide +kernel

/-- A decrement of a counter that holds 2, and of one that holds 1. -/
def sDec (v status : Nat) : State :=
  let s := withCtx { State.reset with
    launches := [(0, { used := true, status := status })], atolls := [(0, { reserved := 1 })]
    decrements := [{ addr := 0x10038, launch := 0, atoll := 0, core := 0, gen := 1, rel := none }] }
  { s with dev := Memory.write s.dev 0x10038 (leBytes v 4) }

theorem witness_PlacementSteps_decrement :
    (sDec 1 0).walkersIdle ∧ ((sDec 1 0).decrements[0]?).isSome = true ∧ (sDec 1 0).decrementWaits { addr := 0x10038, launch := 0, atoll := 0, core := 0, gen := 1, rel := none } = false ∧
      (match (sDec 1 0).xlateDev 0 0x10038 .write with | .ok pa => pa == 0x10038 | _ => false) = true ∧
      (Memory.nat (sDec 1 0).dev 0x10038 4 + 2 ^ 32 - 1) % 2 ^ 32 = 0 ∧ (Memory.nat (sDec 2 0).dev 0x10038 4 + 2 ^ 32 - 1) % 2 ^ 32 = 1 ∧
      ((sDec 1 2).launch 0).status ≠ 0 :=
  ⟨idle_of _ (by decide +kernel), by decide +kernel⟩

/-- The cores of atoll 0 fenced; a launch of class 0 has waited too long, and a workgroup of a context of class 2 is placed on core 0. -/
def sStarve (restartable : Bool) : State :=
  let s := withCtx { State.reset with
    cyc := 200000, placements := 1, hwSlots := [(0, { queue := 1 })], queueBase := 0x8000
    launches := [(0, { used := true, checked := true, queue := 1, ctx := 1, lr := { (LaunchRec.ofBytes (record1 0 0)) with widths := [6, 4], ext := 63, atolls := 1 } }),
      (1, { used := true, checked := true, cls := 2 })]
    cores := [(0, {
        fenced := true
        wgs := [(0, { used := true, launch := 1, gen := 1, slots := [0], restartable := restartable, restart := 0x100 })]
        grps := [(0, group0)] }),
      (1, { fenced := true }), (16, { fenced := true }), (17, { fenced := true })] }
  { s with dev := Memory.write (Memory.write s.dev 0x1008 (leBytes 0x20000 4)) 0x800C [1] }

theorem witness_PlacementSteps_preemption (r : Bool) :
    (sStarve r).starves 0 = true ∧ (sStarve r).power.stopped = false ∧
      firstBy (fun k => [2 - ((sStarve r).launch ((sStarve r).wg (k / 64) (k % 64)).launch).cls,
        (sStarve r).refusedNow ((sStarve r).wg (k / 64) (k % 64)), (sStarve r).placements - ((sStarve r).wg (k / 64) (k % 64)).placed])
      (((sStarve r).placedWgs.filter ((sStarve r).preemptible ((sStarve r).launch 0))).map fun p => p.1 * 64 + p.2) = some 0 ∧
      ((sStarve r).wg 0 0).used = true ∧ ((sStarve r).wg 0 0).flushable = r ∧ ((sStarve r).wg 0 0).save = .no := by
  cases r <;> decide +kernel

/-! ### Contexts -/

/-- Context 0 with a state word, a class, a pool of `pool` bytes at 0x20000000 and a directory of sixteen entries at 0x30000. -/
def sCtx (st pool : Nat) (s : State) : State :=
  let s := withCtx s
  { s with
    dev := [(0x1020, 8, 0x20000000), (0x1028, 8, pool), (0x1030, 8, 0x30000), (0x1038, 4, 4), (0x1050, 4, st)].foldl
      (fun m f => Memory.write m f.1 (leBytes f.2.2 f.2.1)) s.dev }

/-- A halted workgroup of one group. -/
def sHalted (pool : Nat) : State := sCtx 0 pool (base inst0 { core0 with
  wgs := [(0, { used := true, slots := [0], gen := 1, save := .halting })]
  grps := [(0, { group0 with vregs := 8, sregs := 16, halted := true })] } { launch0 with lr := { launch0.lr with groups := 1 } })

theorem witness_ContextSteps_save :
    (sHalted 65536).walkersIdle ∧ ((sHalted 65536).wg 0 0).used = true ∧ ((sHalted 65536).wg 0 0).save = .halting ∧ (sHalted 65536).savedWith 0 0 = [(0, 0)] ∧
      (sHalted 65536).power.stopped = false ∧ (sHalted 65536).saveWaits 0 0 = false ∧ ((sHalted 65536).saveAll [(0, 0)]).isSome = true ∧
      ((sHalted 0).saveAll [(0, 0)]).isSome = false :=
  ⟨idle_of _ (by decide +kernel), by decide +kernel⟩

/-- The save area of a workgroup of one group of 8 vector and 16 uniform registers. -/
def sSaved : State :=
  let s := sCtx 0 65536 { State.reset with
    launches := [(0, launch0)]
    ctxRegs := [(0, { saved := [(0, { used := true, area := 0x20000000, pages := 1, core := 0xFF, blocks := [4096], image := 8192 })] })] }
  { s with dev := Memory.write (Memory.write s.dev 0x20000010 (leBytes 1 4)) (0x20001000 + 0x460) (leBytes (8 + 16 * 2 ^ 8) 4) }

theorem witness_ContextSteps_restore :
    (sSaved.saved 0 0).used = true ∧ sSaved.ctxState 0 = 0 ∧ (sSaved.launch (sSaved.saved 0 0).launch).status = 0 ∧
      sSaved.restoreTurn 0 0 = true ∧ sSaved.msgs = [] ∧ sSaved.areaOk (sSaved.saved 0 0) = true ∧
      (sSaved.launch (sSaved.saved 0 0).launch).lr.coresident = false ∧
      (let u : State := { sSaved with restores := sSaved.restores.filter fun r =>
         !(r.ctx == 0 && r.entry == 0 && r.core.any fun k => !sSaved.mayUse (sSaved.launch (sSaved.saved 0 0).launch) k) }
       (u.restoreCores 0 0).findSome? (fun c => (u.coreGivesAll 0 0 c).map fun off => (c, off)) = some (0, 0)) := by
  decide +kernel

/-- A context in a state, with its saved workgroup or without. -/
def sMark (st : Nat) (saved : Tbl Saved) : State := { sCtx st 65536 State.reset with
  ctxRegs := [(0, { saved := saved })]
  cmd := { op := 1 } }

theorem witness_ContextSteps_commands :
    (sMark 0 []).ctxAccepts 1 0 = true ∧ (sMark 1 []).ctxState 0 = 1 ∧ (sMark 1 []).wgsOfCtx 0 = [] ∧ (sMark 1 []).cmd.op = 1 ∧
      (sMark 1 []).cmd.ctx = 0 ∧ (sMark 2 [(3, { used := true, decided := true })]).asked 0 = true ∧ (sMark 2 []).asked 0 = false ∧
      (sMark 2 []).ctxAccepts 2 0 = true ∧ (sMark 2 []).ctxState 0 ≠ 4 ∧ (sMark 4 []).asked 0 = false ∧ (sMark 4 []).ctxAccepts 2 0 = true ∧
      (sMark 4 []).ctxState 0 = 4 ∧ (sMark 4 []).ctxEnabled 0 = true ∧ (sMark 3 []).ctxState 0 = 3 ∧
      (Tbl.get (sMark 3 []).ctxRegs 0).saved = [] ∧ (sMark 0 []).ctxAccepts 4 0 = true ∧ (sMark 0 []).ctxAccepts 3 0 = true ∧
      (sMark 0 []).ctxAccepts 5 0 = true := by decide +kernel

/-- An invalidation that has no access to wait for. -/
theorem witness_ContextSteps_invalidated :
    let s : State := { sMark 0 [] with cmd := { busy := true, op := 5, inval := some { pages := [(0, 65536)], ops := [] } } }
    s.cmd.inval = some { pages := [(0, 65536)], ops := [] } ∧ s.watchesOn [(0, 65536)] = [] := by decide +kernel

/-! ### Chains -/

/-- A chain record: mesh ring at unit 0 of four slots, bin area of `bins` units at 4, source ring at 8 of three slots, W = 64, F = 32,
H = 16, atoll 0, and further fields. -/
def chainRecord (bins : Nat) (more : List (Nat × Nat × Nat)) : List Byte := record 256 ([(0x16, 2, 4), (0x18, 2, 4), (0x1A, 2, bins), (0x1C, 2, 8),
  (0x1E, 1, 3), (0x1F, 1, 1), (0x24, 2, 64), (0x26, 2, 32), (0x30, 8, 1)] ++ more)

/-- A chain with one frame and one launch for its bins. -/
def sChain (state bins : Nat) (f : Frame) : State := withCtx { State.reset with
  chains := [(0, { state := state, bytes := chainRecord bins [], frames := [f] })]
  launches := [(0, { used := true, checked := true, cls := 3, lr := LaunchRec.ofBytes (record1 1 0), chain := 1, role := 1 })] }

theorem witness_StripSteps_frames :
    ((sChain 1 1 { total := 1, empty := [0] }).chain 0).active = true ∧
      ((sChain 1 1 { total := 1, empty := [0] }).chain 0).frames.find? (fun f => !f.closed) = some { total := 1, empty := [0] } ∧
      ((sChain 1 1 { total := 1, taken := 1, meshDone := true }).chain 0).state = 1 ∧
      ((sChain 3 1 { total := 1, taken := 1, meshDone := true }).chain 0).frames.find? (fun f => !f.closed) =
        some { total := 1, taken := 1, meshDone := true } ∧
      ((sChain 3 1 { total := 1, taken := 1, meshDone := true }).chain 0).state ≠ 1 := by decide +kernel

/-- A mesh slot of one triangle. -/
def tri : List (Nat × Nat × Nat) := [(0x00, 4, 3), (0x04, 4, 1), (0x08, 4, 1), (0x50, 4, 0x41800000), (0x64, 4, 0x41800000), (0x4040, 4, 1 * 2 ^ 10 + 2 * 2 ^ 20)]

/-- Frame 1 is binned beside a frame 0 that is not rendered, with mesh slot 0 full. -/
def sBin (bins : Nat) : State :=
  let s := sChain 1 bins { num := 1, total := 1 }
  { s with
    chains := Tbl.mod s.chains 0 fun x => { x with frames := { num := 0, closed := true, shade := 1 } :: x.frames }
    slotTable := [(0, { state := .full, granted := true, cons := 1, mesh := some (1, 0) })]
    narrows := tri.foldl (fun m f => Memory.write m f.1 (leBytes f.2.2 f.2.1)) [] }

theorem witness_StripSteps_mesh (b : Nat) (h : b < 2) : (sBin b).walkersIdle ∧
    ((sBin b).chain 0).frames.find? (fun f => !f.closed) = some { num := 1, total := 1 } ∧
      (sBin b).stageSlot { chain := 0, role := 0, frame := 1, bin := 0 } = 0 ∧ ((sBin b).slotEntry 0).mesh = some (1, 0) ∧
      ((sBin b).slotEntry 0).state = .full ∧
      (sBin b).slotThr 0 1 0 = 2048 ∧
      ((sBin b).binSlot 0 1 0 2048 ((sBin b).oldestFrame ((sBin b).chain 0) { num := 1, total := 1 })).isSome = (b == 1) := by
  refine ⟨idle_of _ rfl, ?_⟩
  match b, h with
  | 0, _ => decide +kernel
  | 1, _ => decide +kernel

/-- A bin workgroup that is due, and an upscale job whose two source strips are full. -/
def sDue (up : Bool) : State :=
  let s := sChain 1 1 { total := 1, closed := true, shade := if up then 0 else 1, upscale := if up then 1 else 0, strips := [(1, { source := true })] }
  { s with
    chains := Tbl.mod s.chains 0 fun x => { x with bytes := chainRecord 1 (if up then [(0x29, 1, 1), (0x22, 1, 2), (0x23, 1, 1), (0x20, 2, 16)] else []) }
    slotTable := [(8, { state := .full, strip := 0 }), (9, { state := .full, strip := 1 })] }

theorem witness_StripSteps_due :
    (sDue false).nextBin ((sDue false).chain 0) = some (0, 0, 0) ∧ ((sDue false).chain 0).active = true ∧ (sDue false).ctxState 0 = 0 ∧
      (sDue false).binDue ((sDue false).chain 0) 0 0 = true ∧ (sDue false).savedFirst 0 0 = false ∧
      ((sDue false).canTake (((sDue false).chain 0).binCore 0) 0 ((sDue false).launch 0).lr.needs).isSome = true ∧
      (sDue true).nextJob ((sDue true).chain 0) = some (0, 0, 0) ∧ ((sDue true).chain 0).jobDue 0 0 = true ∧
      ((sDue true).jobCore ((sDue true).chain 0) 0 0 0).isSome = true := by decide +kernel

theorem witness_StripSteps_raster :
    (({ bytes := record 16452 tri } : MeshSlot).primitive 2048 0).isSome = true ∧ ((0, 0) : Int × Int) ≠ (1, 0) := by decide +kernel

/-- Chain block 0 with its record at 0x6000, idle: no output stage, an A-PHY port enabled, a restartable shading record at 0x5000. -/
def sStart (port foreign_ : Bool) : State :=
  let s := withCtx { State.reset with
    queueBase := 0x4000, queueCount := 1
    ports := [(0, { en := port })]
    dirty := if foreign_ then [(0, 9)] else []
    chains := [(0, { record := 0x6000 })] }
  let r := chainRecord 1 [(0x00, 8, 0x5000), (0x2C, 4, 256), (0x50, 8, 2 ^ 60), (0x58, 8, 2 ^ 48), (0x64, 4, 1), (0x88, 4, 8), (0xB0, 4, 1), (0xB4, 4, 1), (0x1F, 1, 4)]
  let L := record 128 [(0x00, 8, 0x8000), (0x48, 1, 6), (0x49, 1, 1), (0x4A, 1, 1), (0x50, 8, 191), (0x58, 4, 8320), (0x5C, 1, 8), (0x5D, 1, 1), (0x5E, 1, 1), (0x60, 4, 4)]
  { s with dev := Memory.write (Memory.write s.dev 0x6000 r) 0x5000 L }

/-- The chain that such a start would run. -/
def startOf (s : State) : Chain := { (s.chain 0) with bytes := Memory.read s.dev 0x6000 256, ctx := s.queueCtx (fieldAt (Memory.read s.dev 0x6000 256) 0x10 2) }

theorem witness_ChainSteps_start :
    ((sStart true false).chain 0).active = false ∧ (sStart true false).chainReason 0 (startOf (sStart true false)) = 0 ∧
      (∀ u ∈ unitsIn (startOf (sStart true false)).ranges, (sStart true false).foreign (startOf (sStart true false)) u = false) ∧
      (sStart false false).chainReason 0 (startOf (sStart false false)) ≠ 0 ∧
      (sStart true true).chainReason 0 (startOf (sStart true true)) = 0 ∧
      (∃ u ∈ unitsIn (startOf (sStart true true)).ranges, (sStart true true).foreign (startOf (sStart true true)) u = true) := by
  decide +kernel

theorem witness_ChainSteps_stop :
    ((sChain 1 1 {}).chain 0).state = 1 ∧ ({ sChain 3 1 {} with launches := [] } : State).chainIdle 0 = true ∧
      Tbl.get (sStart true true).dirty 0 ≠ 0 ∧ (∀ e ∈ (sStart true true).chains, e.2.pending = false) := by decide +kernel

/-- A chain of a consumer kind that is at strip 0, with its output slot full, faulted or not yet filled. -/
def sCons (kind : Nat) (st : HState) (fault : Bool) (cur : Option Nat) (fill : Bool) (taken : Nat) : State :=
  let s := sChain 1 1 { total := 1, closed := true }
  { s with
    chains := Tbl.mod s.chains 0 fun x => { x with
      bytes := chainRecord 1 [(0x2A, 1, kind), (0xA0, 8, 65536)], cur := cur, fill := fill, taken := taken, next := if kind = 1 ∧ cur.isSome then 1 else 0 }
    slotTable := [(8, { state := st, cons := 1, fault := fault })] }

theorem witness_ChainSteps_instant (full fault : Bool) :
    let s := sCons 0 (if full then .full else .filling) fault none false 0
    let t := sCons 1 (if full then .full else .filling) fault none false 0
    s.walkersIdle ∧ t.walkersIdle ∧ (s.chain 0).active = true ∧ (s.chain 0).missed = [] ∧ (s.chain 0).consumes 0 = true ∧ s.instantMet (s.chain 0) 0 0 = true ∧ (s.chain 0).next = 0 ∧
      (s.chain 0).kind = 0 ∧ (s.chain 0).cur = none ∧ s.outputFull (s.chain 0) 0 = full ∧ (s.slotEntry ((s.chain 0).slotOf true 0)).fault = fault ∧
      (t.chain 0).kind = 1 ∧ t.outputFull (t.chain 0) 0 = full ∧ t.instantMet (t.chain 0) 0 0 = true := by
  refine ⟨idle_of _ rfl, idle_of _ rfl, ?_⟩
  cases full <;> cases fault <;> decide +kernel

theorem witness_ChainSteps_line (fill : Bool) :
    let s := sCons 0 .draining false (some 0) fill 0
    (s.chain 0).cur = some 0 ∧ s.instantMet (s.chain 0) 0 0 = true ∧ (s.chain 0).fill = fill ∧ (s.chain 0).line + 1 < (s.chain 0).linesOf 0 := by
  cases fill <;> decide +kernel

theorem witness_ChainSteps_encoder (fault : Bool) :
    let s := sCons 1 .full fault (some 0) false 0
    (s.chain 0).active = true ∧ (s.chain 0).kind = 1 ∧ s.power.stopped = false ∧ (s.chain 0).waiting = false ∧ (s.chain 0).taken = 0 ∧
      (s.chain 0).done < (s.chain 0).next ∧ s.outputFull (s.chain 0) (s.chain 0).done = true ∧
      (s.slotEntry ((s.chain 0).slotOf true 0)).fault = fault := by
  cases fault <;> decide +kernel

/-- A tile group of at most half the ring fits into an empty one. -/
theorem witness_ChainSteps_group :
    let s := sCons 1 .draining false none false 1
    s.walkersIdle ∧ (s.chain 0).taken ≠ 0 ∧ ((s.chain 0).write + 2 ^ 64 - s.ringIndex (s.chain 0) 8 + (s.tileGroup 0).length) % 2 ^ 64 ≤ (s.chain 0).field 0xA0 8 := by
  intro s
  have h : (s.tileGroup 0).length ≤ (s.chain 0).field 0xA0 8 / 2 := List.length_take_le _ _
  have hf : (s.chain 0).field 0xA0 8 = 65536 := by decide +kernel
  have hr : (s.chain 0).write + 2 ^ 64 - s.ringIndex (s.chain 0) 8 = 2 ^ 64 := by decide +kernel
  refine ⟨idle_of _ rfl, by decide +kernel, ?_⟩
  rw [hf] at h
  rw [hr, hf]
  omega

/-! ### Time, links, errors and power -/

def sTime (state : Nat) (measured : Bool) : State := { State.reset with
  servo := { source := some 7, sync := some (3, 0), delayReq := some (3, 5), state := state, measured := measured } }

theorem witness_TimeSteps :
    State.reset.servo.source = none ∧ State.reset.servo.domain = 0 ∧ State.reset.service.recovery = false ∧
      (sTime 0 false).follows 0 7 = true ∧ (sTime 0 false).servo.sync = some (3, 0) ∧ (sTime 0 false).servo.delayReq = some (3, 5) ∧
      (sTime 0 false).servo.measured = false ∧ (sTime 0 true).follows 0 7 = true ∧ (sTime 0 true).servo.measured = true ∧
      (sTime 0 true).servo.state = 0 ∧ (sTime 2 true).servo.state ≠ 0 ∧ (sTime 0 true).follows 1 7 = false := by decide

/-- Peer 4 with lane 11 of port 3, once retrained, and of the Causeway port, not yet, after sixteen flit retries within 1 ms. -/
def sWear : State := { State.reset with
  peerNum := 4, cyc := 2000000
  links := [(3, { up := true, retrained := [11], flits := [(11, List.replicate 16 1000)] }), (24, { flits := [(11, List.replicate 16 1000)] })] }

theorem witness_WearSteps_links :
    sWear.peerNum ≠ 0x1FF ∧ 11 ∈ (Tbl.get sWear.links 3).retrained ∧ 11 ∉ (Tbl.get sWear.links 24).retrained ∧
      (∀ p ∈ [3, 24], let l := Tbl.get (Tbl.get sWear.links p).flits 11
        16 ≤ l.length ∧ l.headD 0 ≤ l.getD 15 0 + 1900000) ∧
      (Tbl.get (Tbl.get sWear.links 3).flits 10).length < 16 := by decide

theorem witness_WearSteps_errors :
    errorUnit 4 191 0 = true ∧ 0 < (sWear.core 191).cur * 131072 ∧ errorUnit 4 191 (8 * 131072) = true ∧
      (sWear.core 191).cur * 131072 ≤ 8 * 131072 ∧ errorUnit 7 0 131071 = true ∧ errorUnit 0 0 0 = true ∧ errorUnit 9 23 0 = true := by decide +kernel

theorem witness_WearSteps_power :
    sWear.power.stepped + 3800 ≤ sWear.cyc.toNat ∧ sWear.power.stopped = false ∧ sWear.power.sampled + 65536 ≤ sWear.cyc.toNat ∧
      ({ sWear with power := { stopped := true, cool := 5 } } : State).power.cool + 1900000 ≤ sWear.cyc.toNat + 1 := by decide +kernel

/-! ### The host, the configuration space and the service ports -/

/-- Sixteen lines wait for the walker of slice 0. -/
def sFull : State := { State.reset with
  slices := [(sliceOf 0, { walks := List.replicate 16 { addr := 0, line := [], from_ := 0, len := 1, cyc := 0 }, filter := [filterBit 0], ctxs := [] })] }

theorem witness_HostSteps_full : sFull.walkFull [(0, 1)] = true := by
  have h : lineRuns 0 1 = [(0, 1)] := by decide +kernel
  simp [State.walkFull, sFull, h, Tbl.get]

theorem witness_HostSteps_host : State.reset.service.recovery = false ∧ State.reset.walkFull [(0, 1)] = false ∧ 0x17FFFFFFFFF + [(1 : Byte)].length ≤ 0x18000000000 ∧
    0x18000000000 < 0x18000000000 + [(1 : Byte)].length := by decide +kernel

/-- Context 0 open to peers as pod 5, with port 2 up and one result of source 9 kept. -/
def sPod : State :=
  let s := withCtx State.reset
  { s with
    links := [(2, { up := true })]
    windows := [(9, [(6, 77)])]
    dev := Memory.write s.dev 0x100C (leBytes 0x80000005 4) }

theorem witness_HostSteps_remote :
    (Tbl.get sPod.links 2).up = true ∧ sPod.podContext 4 = none ∧ sPod.podContext 5 = some 0 ∧
      sPod.remoteBytes 0 0x10000 8 .read = .inr [(0x10000, 8)] ∧ sPod.remoteBytes 0 0x10000 8 .write = .inr [(0x10000, 8)] ∧
      (Tbl.get sPod.windows 9).find? (fun e => e.1 == 6) = some (6, 77) ∧ (Tbl.get sPod.windows 9).find? (fun e => e.1 == 5) = none := by
  decide +kernel

/-- A read of peer 3 and a store to it, too long without an answer. -/
def sLate : State := { base inst0 { core0 with
    flight := [{ id := 4, inst := 1, slot := 0, lanes := 1, uni := false, gen := 1, ctx := 0, place := .peer 3, pieces := [(0, 4)], vas := [], ea := 0, ogen := 1, l1 := false, act := .load (.plain default) 3, order := .rlx, scope := .sys, cover := none }]
    unacked := [{ id := 5, slot := 0, lanes := 1, gen := 1, host := false, readers := [], place := .peer 3 }] } launch0 with cyc := 4000000 }

/-- A copy that reads a tensor of peer 3. -/
def sOut : State := sMoving.modCopy 0 fun k => { k with mark := 6, tensor := record 128 [(0x00, 8, 4 * 2 ^ 60 + 3 * 2 ^ 48 + 0x100), (0x08, 1, 1), (0x20, 4, 4)] }

theorem witness_HostSteps_timeout :
    ((sLate.core 0).flight.find? (fun o => o.id == 4 && sLate.mayFail o)).isSome = true ∧
      (sLate.core 0).flight.find? (fun o => o.id == 5 && sLate.mayFail o) = none ∧
      ((sLate.core 0).unacked.find? (fun u => u.id == 5 && u.origin.isNone && !u.host && decide (u.since + 3800000 ≤ sLate.cyc.toNat))).isSome = true ∧
      (sLate.launch 0).used = true ∧ sOut.failingCopy 0 6 = some 0 ∧
      (sOut.core 0).flight.find? (fun o => o.id == 6 && sOut.mayFail o) = none ∧ (sOut.core 0).unacked = [] := by decide +kernel

theorem witness_HostSteps_words :
    State.reset.unitOwned 63 = false ∧ State.reset.consumerUsed 0 7 = false ∧ State.reset.consumerUsed 3 1 = false ∧
      State.reset.remoteOpen = false ∧ (∀ p, p < 24 → (Tbl.get State.reset.links p).up = false) ∧
      ((List.range 4).filter (· != 3)).foldl (fun a c => a + (State.reset.quota c).2) 0 + 8 ≤ 12 ∧
      State.reset.service.recovery = false ∧ ({ State.reset with service := { recovery := true } } : State).service.recovery = true := by
  decide +kernel

/-- A group stopped by `BRK`, with its entry in the stop table. -/
def sStop : State := { base inst0 { core0 with grps := [(0, { group0 with park := .dbg 6, pset := ends, ppc := 0x100 })] } launch0 with
  dbg := { stops := [(5, 0, 0, 0x100, true)] } }

theorem witness_ServiceSteps_stop :
    sStop.stopEntry 0 0 = some 5 ∧ (sStop.grp 0 0).used = true ∧ (sStop.grp 0 0).park = .dbg (5 + 1) ∧ sStop.unlistedStops = [] := by
  decide +kernel

theorem witness_ServiceSteps_window :
    ({ s0 with dbg := { offset := 4 } } : State).windowRefuses = true ∧ ({ s0 with dbg := { gen := 1 } } : State).windowRefuses = false ∧
      (s0.core 0).tagOk 1 = true ∧ ({ s0 with service := { busy := true, asked := List.replicate 32 7 } } : State).service.busy = true ∧
      (List.replicate 32 (7 : Byte)).length = 32 ∧ ({ s0 with service := { recovery := true } } : State).service.recovery = true := by
  decide +kernel

end Sys2Proof.Tests
end

/-! Words that do not decode (R68) and the unassigned majors (R86): how such a word is read, and whom it traps. -/

namespace Sys2Proof

/-! ### Words read from bytes -/

/-- The bytes of a word read back as that word (R2). -/
theorem takeWord_wordBytes (w : BitVec 32) (rest : List Byte) :
    takeWord (wordBytes w.toNat ++ rest) = some (w.toNat, rest) := by
  have bytes_sum : w.toNat % 2 ^ 8 + w.toNat / 2 ^ 8 % 2 ^ 8 * 2 ^ 8 + w.toNat / 2 ^ 16 % 2 ^ 8 * 2 ^ 16 +
      w.toNat / 2 ^ 24 % 2 ^ 8 * 2 ^ 24 = w.toNat := by omega
  simp only [wordBytes, takeWord, List.cons_append, List.nil_append, BitVec.toNat_ofNat, bytes_sum]

/-! ### The unassigned majors -/

/-- The two lists of R86: the majors left unassigned in the uniform map, chosen by bit 31, and in the lane map. -/
theorem unassignedMajor_iff (w : BitVec 32) :
    unassignedMajor w.toNat = true ↔ w.toNat / 2 ^ 24 % 2 ^ 6 ∈
      (if w.msb then [0x27, 0x3A, 0x3B, 0x3C, 0x3D, 0x3E, 0x3F] else [0x37, 0x3E, 0x3F]) := by
  have lane_iff : w.toNat / 2 ^ 31 % 2 = 0 ↔ w.msb = false := by
    rw [BitVec.msb_eq_decide, decide_eq_false_iff_not]
    omega
  have major_lt : w.toNat / 2 ^ 24 % 64 < 64 := Nat.mod_lt _ (by decide)
  simp only [unassignedMajor, lane_iff]
  generalize w.toNat / 2 ^ 24 % 64 = m at major_lt ⊢
  cases w.msb with
  | false => simp [or_assoc]
  | true =>
    simp only [Bool.or_eq_true, beq_iff_eq, decide_eq_true_iff, List.mem_cons, List.not_mem_nil, or_false, if_true,
      Bool.true_eq_false, if_false]
    omega

/-- R68 step 1: an unassigned major is found before any field is read. -/
theorem decodeWords_of_unassignedMajor {w : BitVec 32} (h : unassignedMajor w.toNat = true) (t : Nat) :
    decodeWords w.toNat t = .ok (.illegalInstructionWord w) := by
  simp [decodeWords, h]

/-- R86: reading a word of an unassigned major takes its four bytes and no trailer. -/
theorem decode_of_unassignedMajor {w : BitVec 32} (h : unassignedMajor w.toNat = true) (rest : List Byte) :
    decode (wordBytes w.toNat ++ rest) = .ok (.illegalInstructionWord w, rest) := by
  simp [decode, takeWord_wordBytes, h, decodeWords_of_unassignedMajor h, Except.map]

namespace Machine

/-! ### Who is trapped -/

/-- The first group of an instance traps if it is still placed; the other groups then trap for themselves. -/
theorem State.decodeTrap_cons {i : Inst} {p : Nat × Nat} {ps : List (Nat × Nat)} (h : i.parts = p :: ps) (s : State) (t : Trap) :
    s.decodeTrap i t = (if (s.grp i.core p.1).used
      then s.takeTrap i.core p.1 p.2 i.pc (i.word.testBit 31) { t with lane := (maskList p.2 64).headD 0 }
      else s).decodeTrap { i with parts := ps } t := by
  cases hu : (s.grp i.core p.1).used <;> simp [State.decodeTrap, h, hu]

/-- An instance of one group traps that group and no other. -/
theorem State.decodeTrap_singleton {i : Inst} {p : Nat × Nat} (h : i.parts = [p]) (s : State) (t : Trap) :
    s.decodeTrap i t = if (s.grp i.core p.1).used
      then s.takeTrap i.core p.1 p.2 i.pc (i.word.testBit 31) { t with lane := (maskList p.2 64).headD 0 } else s :=
  State.decodeTrap_cons h s t

/-! ### What a failed decoding answers -/

/-- R68 step 2: a reserved field traps with cause 0x01 and the word. -/
theorem State.decoded_of_error {i : Inst} {e : DecodeError} (h : decodeWords i.word i.trailer = .error e)
    (he : e ≠ .illegalOperand) (s : State) :
    s.decoded i = (s.decodeTrap i { cause := 0x01, tval := i.word }, none) := by
  cases e with
  | truncated => simp only [State.decoded, h]
  | illegalInstruction => simp only [State.decoded, h]
  | illegalOperand => exact absurd rfl he

/-- R68 steps 3 and 4, R186: a refused code or alignment traps with cause 0x02 and both words; a lane word in a handler is an
illegal instruction before that. -/
theorem State.decoded_of_illegalOperand {i : Inst} (h : decodeWords i.word i.trailer = .error .illegalOperand) (s : State) :
    s.decoded i = (s.decodeTrap i (if i.handler && !i.word.testBit 31 then { cause := 0x01, tval := i.word }
      else { cause := 0x02, tval := i.word + i.trailer * 2 ^ 32 }), none) := by
  simp only [State.decoded, h, Inst.both]

/-- R86: the word of an unassigned major traps the instance that fetched it. -/
theorem exec_illegalInstructionWord {s : State} {i : Inst} {w : BitVec 32} (hs : s.inst = some i) (hw : i.word = w.toNat) :
    exec (.illegalInstructionWord w) s = .next (s.decodeTrap i { cause := 0x01, tval := w.toNat }) := by
  have refetched : { i with word := w.toNat } = i := by rw [← hw]
  change execIllegalInstructionWord w s = _
  simp only [execIllegalInstructionWord, hs, refetched]

/-- Settles O34: the failures of `decodeWords` by their step of R68, the unassigned majors of R86, and the trap group by group. -/
theorem decodeTraps : Obligations.DecodeTraps := by
  intro s i
  refine ⟨?reserved, ?operand, ?read, ?run, ?group⟩
  case reserved => exact fun e h he => State.decoded_of_error h he s
  case operand => exact fun h => State.decoded_of_illegalOperand h s
  case read => exact fun w rest h => decode_of_unassignedMajor ((unassignedMajor_iff w).mpr h) rest
  case run => exact fun w hs hw => exec_illegalInstructionWord hs hw
  case group => exact fun p t h => State.decodeTrap_singleton h s t

end Machine
end Sys2Proof

/-! Integer words with an immediate, multiply-adds and addresses (R97 to R99), moves and selections (R103, R104): their values
as numbers reduced once modulo a power of two, and what each word completes with. -/

namespace Sys2Proof.Machine

/-! ### Sums and products of words as numbers -/

theorem mul_add_eq_ofNat (a b c : Word) : a * b + c = BitVec.ofNat 32 (a.toNat * b.toNat + c.toNat) := by
  simp [BitVec.ofNat_add, BitVec.ofNat_mul]

theorem ofNat_add_eq_ofNat (x : Nat) (c : Word) : BitVec.ofNat 32 x + c = BitVec.ofNat 32 (x + c.toNat) := by
  simp [BitVec.ofNat_add]

theorem ofInt_add_eq_ofInt (x : Int) (c : Word) : BitVec.ofInt 32 x + c = BitVec.ofInt 32 (x + c.toNat) := by
  simp [BitVec.ofInt_add]

/-- R97: an immediate is added as the signed number that it holds. -/
theorem add_signExtend_eq_ofInt {n : Nat} (a : Word) (imm : BitVec n) :
    a + imm.signExtend 32 = BitVec.ofInt 32 (a.toNat + imm.toInt) := by
  simp [BitVec.signExtend, BitVec.ofInt_add]

theorem toNat_ofInt_eq_emod {n : Nat} (x : Int) : (BitVec.ofInt n x).toNat = (x % 2 ^ n).toNat := by
  rw [BitVec.toNat_ofInt, Nat.cast_pow, Nat.cast_ofNat]

/-- The two's complement bits of an immediate, as a word holds them (R97). -/
theorem toNat_eq_toInt_emod {n : Nat} (imm : BitVec n) : imm.toNat = (imm.toInt % 2 ^ n).toNat := by
  rw [← toNat_ofInt_eq_emod, BitVec.ofInt_toInt]

theorem ofInt_shiftLeft {n : Nat} (x : Int) (k : Nat) : BitVec.ofInt n x <<< k = BitVec.ofInt n (x * 2 ^ k) := by
  have power : BitVec.twoPow n k = BitVec.ofInt n (2 ^ k : Nat) := by
    rw [BitVec.ofInt_natCast]
    exact BitVec.eq_of_toNat_eq (by rw [BitVec.toNat_twoPow, BitVec.toNat_ofNat])
  rw [BitVec.shiftLeft_eq_mul_twoPow, power, ← BitVec.ofInt_mul, Nat.cast_pow, Nat.cast_ofNat]

/-- The index of `LEA` is the signed or the unsigned number of its register (R99). -/
theorem leaIndex_eq_ofInt (sgn : Bool) (b : Word) :
    (if sgn then b.signExtend 64 else b.setWidth 64 : DWord) = BitVec.ofInt 64 (if sgn then b.toInt else b.toNat) := by
  cases sgn with
  | true => rfl
  | false => simp

/-- R99: base, scaled index and signed offset, reduced modulo 2^64 once. -/
theorem leaSum_toNat (sgn : Bool) (base sh : Nat) (b : Word) (off : BitVec 18) :
    (BitVec.ofNat 64 base + (if sgn then b.signExtend 64 else b.setWidth 64 : DWord) <<< sh + off.signExtend 64).toNat =
      ((base + (if sgn then b.toInt else b.toNat) * 2 ^ sh + off.toInt) % 2 ^ 64).toNat := by
  rw [leaIndex_eq_ofInt, ofInt_shiftLeft, BitVec.signExtend, ← BitVec.ofInt_natCast, ← BitVec.ofInt_add, ← BitVec.ofInt_add,
    toNat_ofInt_eq_emod]

/-! ### Computing words that write one register or one pair -/

theorem LaneComputes.word_of_laneFn {e : Instr} {c : LaneCtl} {regs : List (Nat × Nat)} {srcs : List Nat} {vd : Nat}
    {v : (Nat → Word) → Word} (v' : (Nat → Word) → Word) (he : ∀ s, exec e s = laneFn c s regs srcs fun rd => [(vd, v' rd)])
    (hv : ∀ rd, v' rd = v rd) (hin : ∀ r ∈ vd :: srcs, ∃ e ∈ regs, e.1 ≤ r ∧ r < e.1 + e.2)
    (hext : ∀ rd rd', (∀ r ∈ srcs, rd r = rd' r) → v rd = v rd') :
    LaneComputes e c.g.val regs srcs [vd] fun rd => [(vd, v rd)] :=
  .of_laneFn _ he (fun rd => by rw [hv]) (fun _ => rfl) (List.nodup_singleton vd) hin
    (fun rd rd' h => by rw [hext rd rd' h])

/-- A pair holds its number modulo 2^64 (R31). -/
theorem LaneComputes.pair_of_laneFn {e : Instr} {c : LaneCtl} {regs : List (Nat × Nat)} {srcs : List Nat} {vd : Nat}
    {v : (Nat → Word) → Nat} (v' : (Nat → Word) → Nat) (he : ∀ s, exec e s = laneFn c s regs srcs fun rd => putPair vd (v' rd))
    (hv : ∀ rd, v' rd % 2 ^ 64 = v rd % 2 ^ 64) (hin : ∀ r ∈ vd :: (vd + 1) :: srcs, ∃ e ∈ regs, e.1 ≤ r ∧ r < e.1 + e.2)
    (hext : ∀ rd rd', (∀ r ∈ srcs, rd r = rd' r) → v rd = v rd') :
    LaneComputes e c.g.val regs srcs [vd, vd + 1] fun rd => putPair vd (v rd) :=
  .of_laneFn _ he (fun rd => by rw [← putPair_mod, hv, putPair_mod]) (fun _ => rfl) (by simp) hin
    (fun rd rd' h => by rw [hext rd rd' h])

/-! ### The immediate, the multiply-adds and the address -/

theorem exec_iaddi (c : LaneCtl) (vd va : VReg) (imm : BitVec 7) (s : State) :
    exec (.iaddi c vd va imm) s = execIaddi c vd va imm s := rfl

theorem exec_imad (c : LaneCtl) (fn : ImadFn) (vd va vb vc : VReg) (s : State) :
    exec (.imad c fn vd va vb vc) s = execImad c fn vd va vb vc s := rfl

theorem exec_lea (c : LaneCtl) (sgn : Bool) (vd va vb : VReg) (sh : Fin 8) (off : BitVec 18) (s : State) :
    exec (.lea c sgn vd va vb sh off) s = execLea c sgn vd va vb sh off s := rfl

theorem iaddi_computes (c : LaneCtl) (vd va : VReg) (imm : BitVec 7) :
    LaneComputes (.iaddi c vd va imm) c.g [(vd, 1), (va, 1)] [va] [vd]
      fun rd => [(vd, BitVec.ofInt 32 ((rd va).toNat + imm.toInt))] :=
  .word_of_laneFn _ (exec_iaddi c vd va imm) (fun rd => add_signExtend_eq_ofInt (rd va) imm) (by simp) (by simp +contextual)

/-- The encoding of `IADDI` (R97): the LI form with the two's complement immediate in its lowest bits. -/
theorem encode_iaddi (c : LaneCtl) (vd va : VReg) (imm : BitVec 7) : encode (.iaddi c vd va imm) =
    [bit c.sw 30 + 0x02 * 2 ^ 24 + c.g.val * 2 ^ 21 + vd.val * 2 ^ 14 + va.val * 2 ^ 7 + (imm.toInt % 2 ^ 7).toNat] := by
  rw [← toNat_eq_toInt_emod imm]
  rfl

theorem lea_computes (c : LaneCtl) (sgn : Bool) (vd va vb : VReg) (sh : Fin 8) (off : BitVec 18) :
    LaneComputes (.lea c sgn vd va vb sh off) c.g [(vd, 2), (va, 2), (vb, 1)] [va, va.val + 1, vb] [vd, vd.val + 1]
      fun rd => putPair vd
        ((pairOf rd va + (if sgn then (rd vb).toInt else (rd vb).toNat) * 2 ^ sh.val + off.toInt) % 2 ^ 64).toNat :=
  .pair_of_laneFn
    (fun rd => (BitVec.ofNat 64 (pairOf rd va) + (if sgn then (rd vb).signExtend 64 else (rd vb).setWidth 64 : DWord) <<< sh.val +
      off.signExtend 64).toNat)
    (exec_lea c sgn vd va vb sh off) (fun rd => by rw [leaSum_toNat]) (by simp) (by simp +contextual [pairOf])

/-- Settles O2: each word is one computation on its sources, whose value is reduced once. -/
theorem integerFunctionWords : Obligations.IntegerFunctionWords := by
  intro c vd va vb vc
  refine ⟨fun imm => ⟨iaddi_computes c vd va imm, encode_iaddi c vd va imm⟩, ?lo, ?hiS, ?hiU, ?wideS, ?wideU,
    fun sgn sh off => lea_computes c sgn vd va vb sh off⟩
  case lo =>
    exact .word_of_laneFn (fun rd => rd va * rd vb + rd vc) (exec_imad c .lo vd va vb vc)
      (fun rd => mul_add_eq_ofNat (rd va) (rd vb) (rd vc)) (by simp) (by simp +contextual)
  case hiS =>
    exact .word_of_laneFn (fun rd => mulHighS (rd va) (rd vb) + rd vc) (exec_imad c .hiS vd va vb vc)
      (fun rd => ofInt_add_eq_ofInt _ (rd vc)) (by simp) (by simp +contextual)
  case hiU =>
    exact .word_of_laneFn (fun rd => mulHighU (rd va) (rd vb) + rd vc) (exec_imad c .hiU vd va vb vc)
      (fun rd => ofNat_add_eq_ofNat _ (rd vc)) (by simp) (by simp +contextual)
  case wideS =>
    exact .pair_of_laneFn (fun rd => (BitVec.ofInt 64 ((rd va).toInt * (rd vb).toInt + pairOf rd vc)).toNat)
      (exec_imad c .wideS vd va vb vc) (fun rd => by rw [toNat_ofInt_eq_emod]) (by simp) (by simp +contextual [pairOf])
  case wideU =>
    exact .pair_of_laneFn (fun rd => (rd va).toNat * (rd vb).toNat + pairOf rd vc)
      (exec_imad c .wideU vd va vb vc) (fun rd => (Nat.mod_mod _ _).symm) (by simp) (by simp +contextual [pairOf])

/-! ### Moves and selections -/

theorem exec_mov (c : LaneCtl) (vd va : VReg) (s : State) : exec (.mov c vd va) s = execMov c vd va s := rfl

theorem exec_movi (c : LaneCtl) (vd : VReg) (imm : BitVec 13) (s : State) : exec (.movi c vd imm) s = execMovi c vd imm s := rfl

theorem exec_moviImm32 (c : LaneCtl) (vd : VReg) (imm : BitVec 32) (s : State) :
    exec (.moviImm32 c vd imm) s = execMoviImm32 c vd imm s := rfl

theorem exec_sel (sw : Bool) (n : PReg) (vd va vb : VReg) (s : State) : exec (.sel sw n vd va vb) s = execSel sw n vd va vb s :=
  rfl

theorem exec_movs (c : LaneCtl) (vd : VReg) (sa : SReg) (s : State) : exec (.movs c vd sa) s = execMovs c vd sa s := rfl

theorem encode_sel (sw : Bool) (n : PReg) (vd va vb : VReg) : encode (.sel sw n vd va vb) =
    [bit sw 30 + 0x17 * 2 ^ 24 + n.val * 2 ^ 21 + vd.val * 2 ^ 14 + va.val * 2 ^ 7 + vb.val] := rfl

/-- R31: `p7` reads as true. -/
theorem Thread.pred_seven (t : Thread) : t.pred 7 = true := rfl

/-- A word without sources writes the same value in every executing thread (R104). -/
theorem LaneComputes.const_of_laneFn {e : Instr} {c : LaneCtl} {vd : Nat} (w : Word)
    (he : ∀ s, exec e s = laneFn c s [(vd, 1)] [] fun _ => [(vd, w)]) :
    LaneComputes e c.g.val [(vd, 1)] [] [vd] fun _ => [(vd, w)] :=
  .word_of_laneFn _ he (fun _ => rfl) (by simp) (fun _ _ _ => rfl)

/-- Settles O3: the moves and the immediates by their values, the selection and `MOVS` by what each group reads on entry. -/
theorem moveWords : Obligations.MoveWords := by
  refine ⟨?mov, ?movi, ?moviImm32, ?sel, encode_sel, Thread.pred_seven, ?movs⟩
  case mov => exact fun c vd va => .word_of_laneFn _ (exec_mov c vd va) (fun _ => rfl) (by simp) (by simp)
  case movi => exact fun c vd imm => .const_of_laneFn _ (exec_movi c vd imm)
  case moviImm32 => exact fun c vd imm => .const_of_laneFn imm (exec_moviImm32 c vd imm)
  case sel =>
    intro sw n vd va vb s i hr hh hready
    rw [exec_sel]
    exact execSel_spec sw n vd va vb s i hr hh hready
  case movs =>
    intro c vd sa s i hr hh hin
    rw [exec_movs]
    exact execMovs_spec c vd sa s i hr hh (fun p hp => (hin p hp).1) (fun p hp => (hin p hp).2)

end Sys2Proof.Machine

/-! Scalar words (R166 to R168, R170): their values as numbers reduced once, and the uniform registers each one writes. -/

namespace Sys2Proof.Machine

/-! ### The values of R96 as numbers -/

theorem sub_eq_ofInt (a b : Word) : a - b = BitVec.ofInt 32 (a.toNat - b.toNat) := by
  rw [Int.sub_eq_add_neg, BitVec.ofInt_add, BitVec.ofInt_neg, BitVec.ofInt_natCast, BitVec.ofInt_natCast, BitVec.ofNat_toNat,
    BitVec.ofNat_toNat, BitVec.setWidth_eq, BitVec.setWidth_eq, BitVec.sub_eq_add_neg]

theorem shiftL_eq_ofNat (a c : Word) :
    shiftL a c = BitVec.ofNat 32 (if c.toNat < 32 then a.toNat * 2 ^ c.toNat else 0) := by
  unfold shiftL
  split
  · exact BitVec.eq_of_toNat_eq (by rw [BitVec.toNat_shiftLeft, BitVec.toNat_ofNat, Nat.shiftLeft_eq])
  · rfl

theorem shiftR_eq_ofNat (a c : Word) :
    shiftR a c = BitVec.ofNat 32 (if c.toNat < 32 then a.toNat / 2 ^ c.toNat else 0) := by
  unfold shiftR
  split
  · rw [← Nat.shiftRight_eq_div_pow, ← BitVec.toNat_ushiftRight, BitVec.ofNat_toNat, BitVec.setWidth_eq]
  · rfl

/-- R96: an arithmetic shift of more than 31 positions is one of 31. -/
theorem shiftA_eq_sshiftRight (a c : Word) : shiftA a c = a.sshiftRight (min c.toNat 31) := by
  unfold shiftA
  split
  · rw [Nat.min_eq_left (by omega)]
  · rw [Nat.min_eq_right (by omega)]

/-- An arithmetic shift divides the signed number and rounds down. -/
theorem shiftA_eq_ofInt (a c : Word) : shiftA a c = BitVec.ofInt 32 (a.toInt / 2 ^ min c.toNat 31) := by
  rw [shiftA_eq_sshiftRight, BitVec.sshiftRight, Int.shiftRight_eq_div_pow, Nat.cast_pow, Nat.cast_ofNat]

theorem sMin_eq_ofInt (a b : Word) : sMin a b = BitVec.ofInt 32 (min a.toInt b.toInt) := by
  rw [min_def, apply_ite (BitVec.ofInt 32), BitVec.ofInt_toInt, BitVec.ofInt_toInt, sMin]

theorem sMax_eq_ofInt (a b : Word) : sMax a b = BitVec.ofInt 32 (max a.toInt b.toInt) := by
  rw [max_def, apply_ite (BitVec.ofInt 32), BitVec.ofInt_toInt, BitVec.ofInt_toInt, sMax]

theorem uMin_eq_ofNat (a b : Word) : uMin a b = BitVec.ofNat 32 (min a.toNat b.toNat) := by
  rw [min_def, apply_ite (BitVec.ofNat 32), BitVec.ofNat_toNat, BitVec.ofNat_toNat, BitVec.setWidth_eq, BitVec.setWidth_eq, uMin]

theorem uMax_eq_ofNat (a b : Word) : uMax a b = BitVec.ofNat 32 (max a.toNat b.toNat) := by
  rw [max_def, apply_ite (BitVec.ofNat 32), BitVec.ofNat_toNat, BitVec.ofNat_toNat, BitVec.setWidth_eq, BitVec.setWidth_eq, uMax]

/-! ### Scalar words that write one register or one pair -/

/-- R31: `q7` reads as true. -/
theorem Group.qpred_seven (g : Group) : g.qpred 7 = true := rfl

/-- A pair written is its two words written to successive registers (R31). -/
theorem Group.setSPair_eq_setWords (g : Group) (n : Nat) (v : DWord) : g.setSPair n v = g.setWords (putPair n v.toNat) := by
  have high : BitVec.ofNat 32 (v.toNat / 2 ^ 32) = (v >>> 32).setWidth 32 := by
    rw [← Nat.shiftRight_eq_div_pow]
    rfl
  have low : BitVec.ofNat 32 v.toNat = v.setWidth 32 := rfl
  rw [Group.setSPair, putPair, low, high]
  rfl

theorem Group.toNat_spair (g : Group) (n : Nat) : (g.spair n).toNat = pairOf g.sreg n := by
  rw [Group.spair, BitVec.toNat_append, ← Nat.shiftLeft_add_eq_or_of_lt (g.sreg n).isLt, Nat.shiftLeft_eq, Nat.add_comm, pairOf]

theorem ScalarComputes.word_of_scalar {e : Instr} {regs : List (Nat × Nat)} {sd : Nat} {v : Group → Word}
    (sw : Bool) (v' : Group → Word) (he : ∀ s, exec e s = scalar sw s regs fun g => g.setS sd (v' g)) (hv : ∀ g, v' g = v g) :
    ScalarComputes e regs [sd] fun g => [(sd, v g)] :=
  .of_scalar sw _ he (fun g => by rw [hv]; rfl) (fun _ => rfl) (List.nodup_singleton sd)

theorem ScalarComputes.pair_of_scalar {e : Instr} {regs : List (Nat × Nat)} {sd : Nat} {v : Group → Nat}
    (sw : Bool) (v' : Group → DWord) (he : ∀ s, exec e s = scalar sw s regs fun g => g.setSPair sd (v' g))
    (hv : ∀ g, (v' g).toNat = v g) : ScalarComputes e regs [sd, sd + 1] fun g => putPair sd (v g) :=
  .of_scalar sw _ he (fun g => by rw [Group.setSPair_eq_setWords, hv]) (fun _ => rfl) (by simp)

theorem encode_ssel (sw : Bool) (q : QReg) (sd sa sb : SReg) : encode (.ssel sw q sd sa sb) =
    [2 ^ 31 + bit sw 30 + 0x12 * 2 ^ 24 + sd.val * 2 ^ 16 + sa.val * 2 ^ 8 + sb.val, q.val] := rfl

/-- R167: the immediate is moved as the signed number that it holds. -/
theorem smovi_computes (sw : Bool) (sd : SReg) (imm : BitVec 16) :
    ScalarComputes (.smovi sw sd imm) [(sd.val, 1)] [sd] fun _ => [(sd, BitVec.ofInt 32 imm.toInt)] :=
  .word_of_scalar sw (fun _ => imm.signExtend 32) (fun _ => rfl) (fun _ => rfl)

/-- R167: the form that writes a pair extends the sign of its immediate over both words. -/
theorem smovx_pair_computes (sw : Bool) (sd : SReg) (imm : BitVec 32) :
    ScalarComputes (.smovx sw true sd imm) [(sd.val, 2)] [sd, sd.val + 1] fun _ =>
      putPair sd (BitVec.ofInt 64 imm.toInt).toNat :=
  .pair_of_scalar sw (fun _ => imm.signExtend 64) (fun _ => rfl) (fun _ => rfl)

theorem sadd64_computes (sw : Bool) (sd sa sb : SReg) :
    ScalarComputes (.sadd64 sw sd sa sb) [(sd.val, 2), (sa.val, 2), (sb.val, 2)] [sd, sd.val + 1] fun g =>
      putPair sd ((pairOf g.sreg sa + pairOf g.sreg sb) % 2 ^ 64) :=
  .pair_of_scalar sw (fun g => g.spair sa + g.spair sb) (fun _ => rfl)
    (fun g => by rw [BitVec.toNat_add, Group.toNat_spair, Group.toNat_spair])

theorem exec_sun_of_isPair {fn : IUn} (h : fn.isPair = true) (sw : Bool) (sd sa : SReg) (s : State) :
    exec (.sun sw fn sd sa) s = scalar sw s [(sd.val, 2), (sa.val, 1)] fun g => g.setSPair sd (iunVal fn (g.sreg sa)) := by
  change execSun sw fn sd sa s = _
  simp only [execSun, h, if_true]

theorem exec_sun_of_not_isPair {fn : IUn} (h : fn.isPair = false) (sw : Bool) (sd sa : SReg) (s : State) :
    exec (.sun sw fn sd sa) s =
      scalar sw s [(sd.val, 1), (sa.val, 1)] fun g => g.setS sd ((iunVal fn (g.sreg sa)).setWidth 32) := by
  change execSun sw fn sd sa s = _
  simp only [execSun, h, Bool.false_eq_true, if_false]

/-- A unary function writes its whole result where that is a pair, and otherwise the low word of it (R168). -/
theorem sun_computes (sw : Bool) (fn : IUn) (sd sa : SReg) :
    ScalarComputes (.sun sw fn sd sa) [(sd.val, if fn.isPair then 2 else 1), (sa.val, 1)]
      (if fn.isPair then [sd.val, sd.val + 1] else [sd.val]) fun g =>
        if fn.isPair then putPair sd (iunVal fn (g.sreg sa)).toNat else [(sd.val, (iunVal fn (g.sreg sa)).setWidth 32)] := by
  cases h : fn.isPair with
  | true => exact .pair_of_scalar sw (fun g => iunVal fn (g.sreg sa)) (exec_sun_of_isPair h sw sd sa) (fun _ => rfl)
  | false =>
    exact .word_of_scalar sw (fun g => (iunVal fn (g.sreg sa)).setWidth 32) (exec_sun_of_not_isPair h sw sd sa) (fun _ => rfl)

/-- Settles O21: the two-operand words by the values of R96, the others by the word or pair that each one writes. -/
theorem scalarWords : Obligations.ScalarWords := by
  refine ⟨?sadd, ?ssub, ?smul, ?sand, ?sor, ?sxor, ?sshl, ?sshr, ?ssar, ?smin, ?smax, ?sumin, ?sumax, fun sw sd sa =>
    ⟨?smov, smovi_computes sw sd, fun imm => ⟨?smovx, smovx_pair_computes sw sd imm⟩, sadd64_computes sw sd sa,
      fun q sb => ⟨?ssel, encode_ssel sw q sd sa sb⟩, Group.qpred_seven, fun fn => sun_computes sw fn sd sa⟩⟩
  case sadd => exact .of_scalar2 (· + ·) (fun _ _ _ _ _ => rfl) BitVec.add_def
  case ssub => exact .of_scalar2 (· - ·) (fun _ _ _ _ _ => rfl) sub_eq_ofInt
  case smul => exact .of_scalar2 (· * ·) (fun _ _ _ _ _ => rfl) (fun _ _ => BitVec.mul_def)
  case sand => exact .of_scalar2 (· &&& ·) (fun _ _ _ _ _ => rfl) (fun _ _ => rfl)
  case sor => exact .of_scalar2 (· ||| ·) (fun _ _ _ _ _ => rfl) (fun _ _ => rfl)
  case sxor => exact .of_scalar2 (· ^^^ ·) (fun _ _ _ _ _ => rfl) (fun _ _ => rfl)
  case sshl => exact .of_scalar2 shiftL (fun _ _ _ _ _ => rfl) shiftL_eq_ofNat
  case sshr => exact .of_scalar2 shiftR (fun _ _ _ _ _ => rfl) shiftR_eq_ofNat
  case ssar => exact .of_scalar2 shiftA (fun _ _ _ _ _ => rfl) shiftA_eq_ofInt
  case smin => exact .of_scalar2 sMin (fun _ _ _ _ _ => rfl) sMin_eq_ofInt
  case smax => exact .of_scalar2 sMax (fun _ _ _ _ _ => rfl) sMax_eq_ofInt
  case sumin => exact .of_scalar2 uMin (fun _ _ _ _ _ => rfl) uMin_eq_ofNat
  case sumax => exact .of_scalar2 uMax (fun _ _ _ _ _ => rfl) uMax_eq_ofNat
  case smov => exact .word_of_scalar sw (fun g => g.sreg sa) (fun _ => rfl) (fun _ => rfl)
  case smovx => exact .word_of_scalar sw (fun _ => imm) (fun _ => rfl) (fun _ => rfl)
  case ssel => exact .word_of_scalar sw (fun g => if g.qpred q then g.sreg sa else g.sreg sb) (fun _ => rfl) (fun _ => rfl)

end Sys2Proof.Machine
